-- ==== Sys2Proof/Word.lean ====
section
/-! DEFINITION. The word types: a byte of the serialised command stream, a command word, an operand word, and a value of kind `num`. -/

namespace Sys2Proof

/-- One byte of a byte-serialised command stream (20_memory.md R45). -/
abbrev Byte := BitVec 8

/-- A 32-bit command word `cw` (30_encoding.md R57). -/
abbrev CommandWord := BitVec 32

/-- A 64-bit operand word (30_encoding.md R57). -/
abbrev OperandWord := BitVec 64

/-- A value of kind `num` (00_scope.md R7, R13), or an element of the output buffer. NUM is a parameter, and a value is held
exactly: a finite one as a sign and a whole number of units, where the unit is the arithmetic's own finest step
(`Config.Format.unit` units make 1.0). The arithmetic is Machine/Num.lean. -/
inductive NumVal where
  /-- The finite value of `mag` units, negated when `neg`; zero has two signs. -/
  | fin (neg : Bool) (mag : Nat)
  /-- An infinity (00_scope.md R16). -/
  | inf (neg : Bool)
  /-- A NaN (00_scope.md R16). The model has one (log entry 3). -/
  | nan
deriving DecidableEq, Repr, Inhabited

end Sys2Proof
end

