-- ==== Sys2Proof/Config.lean ====
section
/-! DEFINITION. The parameters of 00_scope.md R7: the fixed and decided counts, the OPEN parameters as plain data, and the free values. -/

namespace Sys2Proof.Config

/-- NUM_FAMILIES (00_scope.md R7, fixed). -/
def numFamilies : Nat := 4
/-- NUM_BANK_BINS (00_scope.md R7, fixed). -/
abbrev numBankBins : Nat := 59
/-- NUM_FILTER_BINS (00_scope.md R7, fixed). -/
abbrev numFilterBins : Nat := 50
/-- NUM_TOPOLOGIES (00_scope.md R7, fixed). -/
def numTopologies : Nat := 3
/-- KMAX_LO (00_scope.md R7, fixed): the harmonic bound at and below K_SPLIT. -/
def kmaxLo : Nat := 128
/-- KMAX_HI (00_scope.md R7, fixed): the harmonic bound above K_SPLIT. -/
def kmaxHi : Nat := 32
/-- MIN_SAMPLES (00_scope.md R7, fixed). -/
def minSamples : Nat := 1
/-- CNT_MAX = 2^32 - 1, the largest sample count and stage counter (00_scope.md R7, decided: D29). -/
def cntMax : Nat := 4294967295
/-- MIDI_REF_NOTE (00_scope.md R7, decided: D30). -/
def midiRefNote : Nat := 69
/-- The largest MIDI note number SET_NOTE keeps (44_voice.md R127, D30). -/
def midiMaxNote : Nat := 127

/-! ### NUM and OUT_FMT (00_scope.md R7, OPEN)

93_implementation_defined.md item 4 names what is open in NUM: "format, rounding, accuracy of `sin` and `pow`". Each
is a field of `Arith`. -/

/-- The values an arithmetic has. -/
inductive Format where
  /-- A binary floating-point format as IEEE 754 describes one: `prec` bits of significand (the hidden bit counted) and
  the largest exponent `emax`, with subnormals, signed zeros, infinities and a NaN. Neither number has a bound. -/
  | float (prec emax : Nat)
  /-- A fixed-point format: two's complement numbers of `width` bits, `frac` of them after the point. A result out of
  range wraps around when `wraps`, and else saturates. -/
  | fixed (width frac : Nat) (wraps : Bool)
  /-- Any other arithmetic, number `k`, whose finite values are held as whole multiples of `1 / unit`: its operations are
  the constants `otherOp` and `otherRound`, of which nothing is known (log entry 1). -/
  | other (unit k : Nat)
deriving DecidableEq, Repr

/-- How a result between two values of a format is rounded. -/
inductive Rounding where
  | nearestEven | nearestAway | towardZero | down | up
deriving DecidableEq, Repr

/-- How `sin` and `pow` are computed (D8: "correctly rounded or as the reference library gives them"). -/
inductive Functions where
  /-- Correctly rounded. -/
  | correct
  /-- As library number `k` gives them: values of NUM of which nothing is known (`otherOp`). -/
  | library (k : Nat)
deriving DecidableEq, Repr

/-- An arithmetic: what NUM and OUT_FMT are values of. OUT_FMT's `functions` is not used. -/
structure Arith where
  format    : Format
  rounding  : Rounding
  functions : Functions
deriving DecidableEq, Repr

/-- IEEE 754 binary64, round to nearest even, `sin` and `pow` correctly rounded: the reference NUM (00_scope.md R7, R13). -/
def binary64 : Arith := { format := .float 53 1023, rounding := .nearestEven, functions := .correct }

/-- IEEE 754 binary32, the default OUT_FMT (00_scope.md R7, D9). -/
def binary32 : Arith := { format := .float 24 127, rounding := .nearestEven, functions := .correct }

/-- The OPEN parameters of 00_scope.md R7 that no other field of State holds. "OPEN means the model takes the value as
an argument": a state carries them, no command writes them, and a statement about every state holds for every value of
them. NUM_VOICES is the number of voices a state holds and NUM_CHANNELS the number of channels of its output buffer. -/
structure Params where
  /-- BANK_FREQ[0..58], in Hz (40_wavetable_rom.md R71). -/
  bankFreq : Vector NumVal numBankBins
  /-- BUF_LEN, the number of elements of one channel of the output buffer. -/
  bufLen   : Nat
  /-- OUT_FMT, the element format of the output buffer, and how `to_out` rounds to it. -/
  outFmt   : Arith
  /-- NUM, the arithmetic of every value of kind `num`. -/
  num      : Arith
deriving DecidableEq, Repr

/-- The test default of BANK_FREQ (00_scope.md R7, 95_test_vectors.md): `20 * pow(1000, i / 58)`, the ends exactly 20.0
and 20000.0, in two pieces. "It is not a claim about the repository's values" (90_conflicts.md C2). -/
def defaultBankLow : List (BitVec 64) :=
  [
   0x4034000000000000#64, 0x40368796157281DF#64, 0x4039611490EA1C8F#64,
   0x403C96D790BEC7E1#64, 0x40401A455287A61B#64, 0x404223A99E9B9604#64,
   0x40446F00398597F2#64, 0x404704A070CF4055#64, 0x4049EDEFA5A630E2#64,
   0x404D358375C22EF9#64, 0x405073A41B2E8590#64, 0x4052885626910FE5#64,
   0x4054E06882567B6C#64, 0x40578460C70EAF12#64, 0x405A7DD87BDDA982#64,
   0x405DD79FFCF829EC#64, 0x4060CEF2E616730F#64, 0x4062EF316D3441F3#64,
   0x40655446359B44F8#64, 0x406806E623CF6A8F#64, 0x406B10E00657EED9#64,
   0x406E7D403DEECFD1#64, 0x40712C3C741E509E#64, 0x407358478F941DBB#64,
   0x4075CAA6F89D0A12#64, 0x40788C3FE630B7A1#64, 0x407BA71795ECD330#64,
   0x407F2677BA2A5CDC#64, 0x40818B8BC1D38DCC#64, 0x4083C3A4EDFA9758#64 ]

/-- The rest of the test default of BANK_FREQ. -/
def defaultBankHigh : List (BitVec 64) :=
  [
   0x40864398BC60C381#64, 0x4089147DC2A1F4E0#64, 0x408C4090DB8EA206#64,
   0x408FD35A5F7149AB#64, 0x4091ECEC08BD644B#64, 0x409431562D61C75D#64,
   0x4096BF29BF4BA0E6#64, 0x40999FAFC4BC182C#64, 0x409CDD5DEA5F80E1#64,
   0x40A041FE4512913A#64, 0x40A25068C0AF430B#64, 0x40A4A16838F12388#64,
   0x40A73D688ED07942#64, 0x40AA2DE651257004#64, 0x40AD7D9139D2605C#64,
   0x40B09C3983D43282#64, 0x40B2B60DA1228F58#64, 0x40B513E84382FB5F#64,
   0x40B7BE6409268ACC#64, 0x40BABF32277FE1EA#64, 0x40BE213DA7D7BDB4#64,
   0x40C0F8698C68D6CE#64, 0x40C31DE6A297E533#64, 0x40C588E3C9326667#64,
   0x40C8422B5F09BDE4#64, 0x40CB53A46461DFA7#64, 0x40CEC8767B16765C#64,
   0x40D156993A363E58#64, 0x40D3880000000000#64 ]

/-- NUM_VOICES (00_scope.md R7, OPEN): the default. -/
def defaultVoices : Nat := 8
/-- NUM_CHANNELS (00_scope.md R7, OPEN): the default. -/
def defaultChannels : Nat := 2

/-! ### Free values -/

/-- The operations of an arithmetic. -/
inductive NumOp where
  | add | sub | mul | div | sin | pow
deriving DecidableEq, Repr

/-- FREE VALUE: an operation of an arithmetic the model does not compute (`Format.other`), or the sine or power of a library
(`Functions.library`). NUM is OPEN (00_scope.md R7, D8; log entry 1). `sin` has the second operand 0.0. -/
opaque otherOp (a : Arith) (op : NumOp) (x y : NumVal) : NumVal

/-- FREE VALUE: the value of an arithmetic the model does not compute that stands for the exact value `± n / d` units: a
literal, an integer or an operand converted to it (log entry 1). -/
opaque otherRound (a : Arith) (neg : Bool) (n d : Nat) : NumVal

/-- FREE VALUE: what a format without infinities and NaNs has for one that is converted to it. The spec states no value
(log entry 30). -/
opaque nonfiniteOutside (a : Arith) (x : NumVal) : NumVal

/-- FREE VALUE: `x / 0` in an arithmetic without infinities and NaNs. The spec states no value (log entry 30). -/
opaque divByZero (a : Arith) (x : NumVal) : NumVal

/-- FREE VALUE: `sin(x)` of an infinity or a NaN, for which 00_scope.md R13 states no value (log entry 29). Only the
generation of a table whose sine arguments overflow NUM reaches it. -/
opaque sinOutside (x : NumVal) : NumVal

/-- FREE VALUE: `pow(x, y)` outside the operands the rules give it. Every rule raises a positive finite base to a finite
exponent (44_voice.md R127, 43_filter.md R110); the spec states no value elsewhere (log entry 5). No command reaches it in
an arithmetic of the reference's kind at least as wide as binary32. -/
opaque powOutside (x y : NumVal) : NumVal

/-- FREE VALUE: `max(x, y)` when an operand is a NaN. "`abs`, `min`, `max` are exact" (00_scope.md R13) states no value for
a NaN. Only the normalisation of a table whose sine arguments overflow NUM reaches it (log entry 4). -/
opaque maxOfNaN (x y : NumVal) : NumVal

/-- FREE VALUE: `min(x, y)` when an operand is a NaN, for which 00_scope.md R13 states no value (log entry 4). No command
reaches it in an arithmetic of the reference's kind at least as wide as binary32. -/
opaque minOfNaN (x y : NumVal) : NumVal

/-- FREE VALUE: `floor(x)` of an infinity or a NaN. "`floor(x)` is the greatest integer not above `x`" (00_scope.md R14):
there is none (log entry 27). -/
opaque floorOutside (x : NumVal) : Int

/-- FREE VALUE: `round(x)` of a NaN, for which 00_scope.md R14 states no value (log entry 27). -/
opaque roundOfNaN : Int

/-- FREE VALUE: `i mod N` of a negative `i`, for which 41_oscillator.md R87 states no value (log entry 31): a position
`p * N` below 0 in a NUM whose product of two values that are not negative can be. -/
opaque modOutside (i : Int) (n : Nat) : Nat

/-- FREE VALUE: a table length `round(q)` that is no length: `q = fs / F` is not finite or rounds below 0. "`N_b >= 0` because
`fs > 0` and `F > 0`" (40_wavetable_rom.md R72), which leaves such a quotient without a length (log entry 33). -/
opaque lengthOutside (q : NumVal) : Nat

/-- FREE VALUE: what a U32 response holds for a value of 2^32 or more: a table length at a rate above about 8.6e10 Hz.
30_encoding.md R63 and 40_wavetable_rom.md R83 state none (log entry 28). -/
opaque u32Outside (n : Nat) : BitVec 32

end Sys2Proof.Config
end

