-- ==== Sys2Proof/Machine/Num.lean ====
section
/-! DEFINITION. The arithmetic NUM of 00_scope.md R13 to R16, for every NUM: the unit of its values, rounding, conversion between arithmetics, `+ - * /`, comparisons, `abs`, `min`, `max`, `floor`, `round`, `sin`, `pow`, and the numeric literals of the rules. -/

namespace Sys2Proof.Config

/-! ### What an arithmetic is made of -/

/-- The number of fraction bits of the unit of a floating-point or fixed-point format: the finest step of the former is
the least subnormal, 2^(2 - emax - prec). -/
def Format.unitBits : Format → Nat
  | .float prec emax => emax + prec - 2
  | .fixed _ frac _ => frac
  | .other _ _ => 0

/-- How many units make 1.0. -/
def Format.unit (f : Format) : Nat :=
  match f with
  | .other unit _ => Nat.max 1 unit
  | _ => 1 <<< f.unitBits

/-- The bits of significand of a floating-point format. -/
def Arith.prec (a : Arith) : Nat :=
  match a.format with
  | .float prec _ => prec
  | _ => 0

/-- The largest exponent of a floating-point format. -/
def Arith.emax (a : Arith) : Nat :=
  match a.format with
  | .float _ emax => emax
  | _ => 0

/-- Whether the format has infinities and a NaN. -/
def Arith.isFloat (a : Arith) : Bool :=
  match a.format with
  | .float _ _ => true
  | _ => false

/-- Whether the operations are free values. -/
def Arith.isOther (a : Arith) : Bool :=
  match a.format with
  | .other _ _ => true
  | _ => false

/-- The same values, an integer out of a fixed-point format's range going to the nearest end of it. -/
def Format.saturating : Format → Format
  | .fixed width frac _ => .fixed width frac false
  | f => f

/-- The arithmetic's values, each result the nearest of them to the exact one, ties to even (log entry 32). -/
def Arith.toNearest (a : Arith) : Arith := { a with format := a.format.saturating, rounding := .nearestEven }

/-- Whether `sin` and `pow` are computed: correctly rounded ones of an arithmetic whose operations are computed. -/
def Arith.computesFunctions (a : Arith) : Bool := !a.isOther && a.functions == .correct

/-- The arithmetics of the reference's kind, of any precision and range: floating point, to nearest even, `sin` and `pow`
correctly rounded. The statements about computed values speak of these (log entry 23). -/
def Arith.ieee (a : Arith) : Bool :=
  a.isFloat && decide (1 ≤ a.prec ∧ 2 ≤ a.emax) && a.rounding == .nearestEven && a.functions == .correct

/-- Of the reference's kind and at least as precise and as wide as binary32 (log entry 23). -/
def Arith.wide (a : Arith) : Bool := a.ieee && decide (24 ≤ a.prec ∧ 127 ≤ a.emax)

end Sys2Proof.Config

namespace Sys2Proof.NumVal

open Sys2Proof.Config

/-! ### A value

Every definition below computes with the exact value, a whole number of units, and rounds once at the end. -/

/-- The magnitude, in units, of 1.0. -/
abbrev unitMag (nf : Arith) : Nat := nf.format.unit

/-- The sign. -/
def isNeg : NumVal → Bool
  | .fin neg _ => neg
  | .inf neg => neg
  | .nan => false

/-- The magnitude of a finite value, in units. -/
def mag : NumVal → Nat
  | .fin _ m => m
  | _ => 0

/-- The signed value of a finite value, in units. -/
def sval (x : NumVal) : Int := if x.isNeg then -(x.mag : Int) else (x.mag : Int)

/-- A NaN of NUM. -/
def isNaN : NumVal → Bool
  | .nan => true
  | _ => false

/-- An infinity of NUM. -/
def isInf : NumVal → Bool
  | .inf _ => true
  | _ => false

/-- `finite(x)`: neither an infinity nor a NaN (00_scope.md R16). -/
def finite : NumVal → Bool
  | .fin _ _ => true
  | _ => false

/-- Zero of either sign. -/
def isZero : NumVal → Bool
  | .fin _ m => m == 0
  | _ => false

/-! ### Rounding -/

/-- `n / d` rounded to the nearest whole number, a tie to the even one. -/
def divNearestEven (n d : Nat) : Nat :=
  if 2 * (n % d) < d then n / d
  else if d < 2 * (n % d) then n / d + 1
  else n / d + (n / d) % 2

/-- The magnitude `n / d` of a value with sign `neg` rounded to a whole number. -/
def divRound (r : Rounding) (neg : Bool) (n d : Nat) : Nat :=
  match r with
  | .nearestEven => divNearestEven n d
  | .nearestAway => (2 * n + d) / (2 * d)
  | .towardZero => n / d
  | .down => if neg then (n + d - 1) / d else n / d
  | .up => if neg then n / d else (n + d - 1) / d

/-- The magnitude, in units, at which a floating-point format overflows: 2^(emax + 1). -/
def overflowMag (nf : Arith) : Nat := 1 <<< (nf.format.unitBits + nf.emax + 1)

/-- The position of the leading one of `n`, by a binary search of the first 2^levels places, which the kernel evaluates
fast. -/
def leadingSearch : Nat → Nat → Nat
  | 0, n => Nat.log2 n
  | l + 1, n => if n >>> 2 ^ l = 0 then leadingSearch l n else 2 ^ l + leadingSearch l (n >>> 2 ^ l)

/-- The position of the leading one of a magnitude: `Nat.log2`. -/
def leading (n : Nat) : Nat := leadingSearch 16 n

/-- The step (as an exponent of two, in units) of a floating-point format for a value with whole part `q`. -/
def stepOf (nf : Arith) (q : Nat) : Nat := leading q + 1 - nf.prec

/-- The magnitude `n / d` (in units) rounded to the precision of a floating-point format. -/
def roundMag (nf : Arith) (neg : Bool) (n d : Nat) : Nat :=
  divRound nf.rounding neg n (d <<< stepOf nf (n / d)) <<< stepOf nf (n / d)

/-- What an overflow gives: an infinity, or the largest finite value where the rounding goes towards zero. -/
def overflowed (nf : Arith) (neg : Bool) : NumVal :=
  let largest := NumVal.fin neg (overflowMag nf - 1 <<< (nf.format.unitBits + nf.emax + 1 - nf.prec))
  match nf.rounding with
  | .nearestEven => .inf neg
  | .nearestAway => .inf neg
  | .towardZero => largest
  | .down => if neg then .inf neg else largest
  | .up => if neg then largest else .inf neg

/-- A rounded magnitude as a value of a floating-point format. -/
def ofMag (nf : Arith) (neg : Bool) (v : Nat) : NumVal := if v < overflowMag nf then .fin neg v else overflowed nf neg

/-- A whole number of units as a value of a fixed-point format of `width` bits. -/
def fixedOf (width : Nat) (wraps : Bool) (i : Int) : NumVal :=
  let j := if wraps then i.bmod (2 ^ width)
    else Min.min ((2 : Int) ^ (width - 1) - 1) (Max.max (-(2 : Int) ^ (width - 1)) i)
  .fin (decide (j < 0)) j.natAbs

/-- The value of the arithmetic that stands for `± n / d` units, rounded once. -/
def ofUnits (nf : Arith) (neg : Bool) (n d : Nat) : NumVal :=
  match nf.format with
  | .float _ _ => ofMag nf neg (roundMag nf neg n d)
  | .fixed width _ wraps =>
    fixedOf width wraps (if neg then -(divRound nf.rounding neg n d : Int) else divRound nf.rounding neg n d)
  | .other _ _ => otherRound nf neg n d

/-! ### Conversion -/

/-- A value of the arithmetic `src` converted to the arithmetic `dst`. An infinity or a NaN stays one where `dst` has them,
and is a free value elsewhere (log entry 30). -/
def rescale (dst src : Arith) : NumVal → NumVal
  | .fin neg m => ofUnits dst neg (m * unitMag dst) (unitMag src)
  | x => if dst.isFloat then x else nonfiniteOutside dst x

/-- A value rounded to its own arithmetic: the identity on a value of it. -/
def convert (nf : Arith) (x : NumVal) : NumVal := rescale nf nf x

/-- Whether a value is one of the arithmetic's own. -/
def inFmt (nf : Arith) (x : NumVal) : Bool := convert nf x == x

/-- The value of a binary64 bit pattern (30_encoding.md R59), as a value of binary64: sign in bit 63, exponent in bits
62..52, fraction in bits 51..0. Every NaN word is the one NaN (log entry 3). -/
def ofWord (w : OperandWord) : NumVal :=
  if w.toNat / 2 ^ 52 % 2048 = 2047 then (if w.toNat % 2 ^ 52 = 0 then .inf w.msb else .nan)
  else if w.toNat / 2 ^ 52 % 2048 = 0 then .fin w.msb (w.toNat % 2 ^ 52)
  else .fin w.msb ((2 ^ 52 + w.toNat % 2 ^ 52) <<< (w.toNat / 2 ^ 52 % 2048 - 1))

/-- `to_num(binary64(w))` (30_encoding.md R59): exact where NUM has the value, else rounded to nearest, whatever NUM's own
rounding and overflow are (log entry 32). A word that is no finite number stays none in every NUM, so that the rule that
takes it faults (R61). -/
def ofF64 (nf : Arith) (w : OperandWord) : NumVal :=
  if (ofWord w).finite then rescale nf.toNearest binary64 (ofWord w) else ofWord w

/-- A NUM result "converted to binary64 (round to nearest even; the identity under the reference NUM)" (30_encoding.md
R63). -/
def toF64 (nf : Arith) (x : NumVal) : NumVal := rescale binary64 nf x

/-- The NUM value of the rational `n / d`: a decimal literal of a rule (log entry 24). -/
def ofRat (nf : Arith) (n d : Nat) : NumVal := ofUnits nf false (n * unitMag nf) d

/-- An integer converted to NUM: exactly where NUM can represent it, else rounded (log entry 17). -/
def ofInt (nf : Arith) (i : Int) : NumVal := ofUnits nf (decide (i < 0)) (i.natAbs * unitMag nf) 1

/-- A natural number converted to NUM. -/
def ofNat (nf : Arith) (n : Nat) : NumVal := ofUnits nf false (n * unitMag nf) 1

/-- 0.0 -/
def zero : NumVal := .fin false 0

/-- 1.0 -/
def one (nf : Arith) : NumVal := ofNat nf 1

/-! ### Operators -/

/-- The value with the opposite sign. -/
def neg : NumVal → NumVal
  | .fin n m => .fin (!n) m
  | .inf n => .inf (!n)
  | .nan => .nan

/-- `abs(x)` (exact). -/
def abs : NumVal → NumVal
  | .fin _ m => .fin false m
  | .inf _ => .inf false
  | .nan => .nan

/-- The sign of a sum: that of the exact sum; of an exact zero, negative when both operands are, and when one is where the
rounding goes down. -/
def sumNeg (nf : Arith) (x y : NumVal) : Bool :=
  if x.sval + y.sval = 0 then
    (if nf.rounding = .down then x.isNeg || y.isNeg else x.isNeg && y.isNeg)
  else decide (x.sval + y.sval < 0)

/-- `x + y`, rounded once. -/
def sum (nf : Arith) (x y : NumVal) : NumVal :=
  if x.isNaN || y.isNaN then .nan
  else if x.isInf then (if y.isInf && (x.isNeg != y.isNeg) then .nan else x)
  else if y.isInf then y
  else ofUnits nf (sumNeg nf x y) (x.sval + y.sval).natAbs 1

/-- `x * y`, rounded once. -/
def product (nf : Arith) (x y : NumVal) : NumVal :=
  if x.isNaN || y.isNaN then .nan
  else if x.isInf || y.isInf then (if x.isZero || y.isZero then .nan else .inf (x.isNeg != y.isNeg))
  else ofUnits nf (x.isNeg != y.isNeg) (x.mag * y.mag) (unitMag nf)

/-- `x / y`, rounded once. -/
def quotient (nf : Arith) (x y : NumVal) : NumVal :=
  if x.isNaN || y.isNaN then .nan
  else if x.isInf then (if y.isInf then .nan else .inf (x.isNeg != y.isNeg))
  else if y.isInf then .fin (x.isNeg != y.isNeg) 0
  else if y.isZero then
    (if !nf.isFloat then divByZero nf x else if x.isZero then .nan else .inf (x.isNeg != y.isNeg))
  else ofUnits nf (x.isNeg != y.isNeg) (x.mag * unitMag nf) y.mag

/-- NUM's `+` (R13). -/
def add (nf : Arith) (x y : NumVal) : NumVal := if nf.isOther then otherOp nf .add x y else sum nf x y

/-- NUM's `-` (R13). -/
def sub (nf : Arith) (x y : NumVal) : NumVal := if nf.isOther then otherOp nf .sub x y else sum nf x (neg y)

/-- NUM's `*` (R13). -/
def mul (nf : Arith) (x y : NumVal) : NumVal := if nf.isOther then otherOp nf .mul x y else product nf x y

/-- NUM's `/` (R13). -/
def div (nf : Arith) (x y : NumVal) : NumVal := if nf.isOther then otherOp nf .div x y else quotient nf x y

/-- `x < y`: an exact comparison (R13), false when an operand is a NaN. -/
def lt : NumVal → NumVal → Bool
  | .fin a m, .fin b n => decide ((NumVal.fin a m).sval < (NumVal.fin b n).sval)
  | .fin _ _, .inf b => !b
  | .inf a, .fin _ _ => a
  | .inf a, .inf b => a && !b
  | _, _ => false

/-- `x <= y`: an exact comparison (R13), false when an operand is a NaN. -/
def le : NumVal → NumVal → Bool
  | .fin a m, .fin b n => decide ((NumVal.fin a m).sval ≤ (NumVal.fin b n).sval)
  | .fin _ _, .inf b => !b
  | .inf a, .fin _ _ => a
  | .inf a, .inf b => a || !b
  | _, _ => false

/-- `min(x, y)` (exact); the first operand when the two are equal (log entry 19), a free value when one is a NaN
(log entry 4). -/
def min (x y : NumVal) : NumVal := if x.isNaN || y.isNaN then minOfNaN x y else if lt y x then y else x

/-- `max(x, y)` (exact); the first operand when the two are equal (log entry 19), a free value when one is a NaN
(log entry 4). -/
def max (x y : NumVal) : NumVal := if x.isNaN || y.isNaN then maxOfNaN x y else if lt x y then y else x

/-- `floor(x)`: the greatest integer not above `x` (R14); a free value for an infinity or a NaN (log entry 27). -/
def floor (nf : Arith) (x : NumVal) : Int := if x.finite then x.sval / unitMag nf else floorOutside x

/-- `round(x)`: the nearest integer, halves away from zero (R14). An infinity counts as a number beyond every bound,
2^1024 (log entry 16); a NaN gives a free value (log entry 27). -/
def round (nf : Arith) : NumVal → Int
  | .fin neg m =>
    if neg then -(((2 * m + unitMag nf) / (2 * unitMag nf) : Nat) : Int)
    else (((2 * m + unitMag nf) / (2 * unitMag nf) : Nat) : Int)
  | .inf neg => if neg then -2 ^ 1024 else 2 ^ 1024
  | .nan => roundOfNaN

/-! ### Series in fixed point

R13 and D8: "`sin` and `pow` correctly rounded". Both are computed in fixed point with far more bits than a result needs
and rounded once (log entry 2). `b` is the number of fraction bits. Each series ends when its term vanishes, after at most
`b` terms. -/

/-- The alternating series `t - t*z/((k+1)(k+2)) + ...`, from the term `t` of degree `k`. -/
def altSeries (b z : Nat) : Nat → Nat → Nat → Nat
  | 0, _, _ => 0
  | fuel + 1, k, t =>
    if t = 0 then 0 else t - altSeries b z fuel (k + 2) ((t * z) >>> b / ((k + 1) * (k + 2)))

/-- The series `t/k + t*z/(k+2) + ...`: the inverse hyperbolic tangent. -/
def atanhSeries (b z : Nat) : Nat → Nat → Nat → Nat
  | 0, _, _ => 0
  | fuel + 1, k, t => if t = 0 then 0 else t / k + atanhSeries b z fuel (k + 2) ((t * z) >>> b)

/-- The series `t + t*x/(k+1) + ...`: the exponential. -/
def expSeries (b x : Nat) : Nat → Nat → Nat → Nat
  | 0, _, _ => 0
  | fuel + 1, k, t => if t = 0 then 0 else t + expSeries b x fuel (k + 1) ((t * x) >>> b / (k + 1))

/-- The series `t/k - t/(c*c)/(k+2) + ...`: the inverse tangent of `1 / c`, from the term `t = 1 / c`. -/
def arccotSeries (c : Nat) : Nat → Nat → Nat → Nat
  | 0, _, _ => 0
  | fuel + 1, k, t => if t = 0 then 0 else t / k - arccotSeries c fuel (k + 2) (t / (c * c))

/-- `floor(pi * 2^1400)`. -/
def piLong : Nat :=
  0x3243f6a8885a308d313198a2e03707344a4093822299f31d0082efa98ec4e6c89452821e638d01377be5466cf34e90c6cc0ac29b7c97c50dd3f84d5b5b54709179216d5d98979fb1bd1310ba698dfb5ac2ffd72dbd01adfb7b8e1afed6a267e96ba7c9045f12c7f9924a19947b3916cf70801f2e2858efc16636920d871574e69a458fea3f4933d7e0d95748f728eb658718bcd5882154aee7b54a41dc25a59b59c30d5392af26013c5d1b023286085

/-- `floor(pi * 2^b)`: from the stored digits, or, beyond them, by Machin's formula
`pi = 16 arccot 5 - 4 arccot 239` with 64 bits to spare. -/
def piScaled (b : Nat) : Nat :=
  if b ≤ 1400 then piLong >>> (1400 - b)
  else (16 * arccotSeries 5 (b + 64) 1 (1 <<< (b + 64) / 5) - 4 * arccotSeries 239 (b + 64) 1 (1 <<< (b + 64) / 239)) >>> 64

/-- `floor(ln 2 * 2^400)`. -/
def ln2Long : Nat :=
  0xb17217f7d1cf79abc9e3b39803f2f6af40f343267298b62d8a0d175b8baafa2be7b876206debac98559552fb4afa1b10ed2e

/-- `floor(ln 2 * 2^b)`: from the stored digits, or, beyond them, as `2 atanh (1/3)` with 64 bits to spare. -/
def ln2Scaled (b : Nat) : Nat :=
  if b ≤ 400 then ln2Long >>> (400 - b)
  else (2 * atanhSeries (b + 64) (1 <<< (b + 64) / 9) (b + 64) 1 (1 <<< (b + 64) / 3)) >>> 64

/-! ### Sine -/

/-- The bits an argument or a result of the arithmetic has, its exponent's range aside. -/
def valueBits (nf : Arith) : Nat :=
  match nf.format with
  | .float prec _ => prec
  | .fixed width _ _ => width
  | .other _ _ => 0

/-- A bound on the exponent of a finite value. -/
def rangeBits (nf : Arith) : Nat :=
  match nf.format with
  | .float _ emax => emax
  | .fixed width _ _ => width
  | .other _ _ => 0

/-- The fraction bits of the fixed-point sine: 256 for binary64. -/
def sinBits (nf : Arith) : Nat := 4 * valueBits nf + 44

/-- The fraction bits of the reduction of the angle: 1400 for binary64. -/
def angleBits (nf : Arith) : Nat := sinBits nf + rangeBits nf + 121

/-- The sine of a fixed-point angle in [0, pi/4]. -/
def sinSmall (b r : Nat) : Nat := altSeries b ((r * r) >>> b) b 1 r

/-- The cosine of a fixed-point angle in [0, pi/4]. -/
def cosSmall (b r : Nat) : Nat := altSeries b ((r * r) >>> b) b 0 (1 <<< b)

/-- Twice the angle of magnitude `m` units, in fixed point with `angleBits` bits. -/
def twiceAngle (nf : Arith) (m : Nat) : Nat := (m <<< (angleBits nf + 1)) / unitMag nf

/-- The quadrant of an angle: the whole number nearest to it in quarter turns of pi/2. -/
def quadrant (nf : Arith) (m : Nat) : Nat :=
  (2 * twiceAngle nf m + piScaled (angleBits nf)) / (2 * piScaled (angleBits nf))

/-- Whether the angle lies below its quadrant's centre. -/
def belowCentre (nf : Arith) (m : Nat) : Bool := decide (twiceAngle nf m < quadrant nf m * piScaled (angleBits nf))

/-- The distance, in fixed point, of the angle from its quadrant's centre. -/
def centreDistance (nf : Arith) (m : Nat) : Nat :=
  (if belowCentre nf m then quadrant nf m * piScaled (angleBits nf) - twiceAngle nf m
    else twiceAngle nf m - quadrant nf m * piScaled (angleBits nf)) >>> (angleBits nf + 1 - sinBits nf)

/-- The sine of an angle of magnitude `m` units: its sign and its fixed-point magnitude. -/
def sinFixed (nf : Arith) (m : Nat) : Bool × Nat :=
  match quadrant nf m % 4 with
  | 0 => (belowCentre nf m, sinSmall (sinBits nf) (centreDistance nf m))
  | 1 => (false, cosSmall (sinBits nf) (centreDistance nf m))
  | 2 => (!belowCentre nf m, sinSmall (sinBits nf) (centreDistance nf m))
  | _ => (true, cosSmall (sinBits nf) (centreDistance nf m))

/-- Whether a magnitude of a floating-point format is so small (below 2^-27 for binary64) that its sine lies between it
and the value a quarter of a unit below. -/
def sineIsArgument (nf : Arith) (m : Nat) : Bool :=
  nf.isFloat && decide (m < unitMag nf >>> (nf.prec / 2 + 1))

/-- `sin(x)` (R13); a free value for an infinity or a NaN (log entry 29) and for a library's sine (log entry 1). -/
def sin (nf : Arith) (x : NumVal) : NumVal :=
  if !nf.computesFunctions then convert nf (otherOp nf .sin x zero)
  else if !x.finite then convert nf (sinOutside x)
  else if sineIsArgument nf x.mag then ofUnits nf x.isNeg (4 * x.mag - 1) 4
  else ofUnits nf (x.isNeg != (sinFixed nf x.mag).1) ((sinFixed nf x.mag).2 * unitMag nf) (1 <<< sinBits nf)

/-! ### Power -/

/-- The fraction bits of the fixed-point logarithm and exponential: 400 for binary64. -/
def powBits (nf : Arith) : Nat := 4 * valueBits nf + 178 + Nat.log2 (rangeBits nf + 1)

/-- A bound on the power of two of a result that neither overflows nor vanishes: 1100 for binary64. -/
def powRange (nf : Arith) : Nat := rangeBits nf + valueBits nf + 24

/-- The natural logarithm, in fixed point, of the ratio `n / d` with `d <= n < 2 d`. -/
def lnRatio (b n d : Nat) : Nat :=
  let z := (n - d) <<< b / (n + d)
  2 * atanhSeries b ((z * z) >>> b) b 1 z

/-- The natural logarithm, in fixed point, of a magnitude of `m > 0` units. -/
def lnMag (nf : Arith) (m : Nat) : Int :=
  ((leading m : Int) - nf.format.unitBits) * ln2Scaled (powBits nf) + lnRatio (powBits nf) m (1 <<< leading m)

/-- `e^(u / 2^powBits)` rounded to NUM; a result far out of range stands for every such one. -/
def expFixed (nf : Arith) (u : Int) : NumVal :=
  let b := powBits nf
  let r := powRange nf
  let i := u / ln2Scaled b
  if r < i then ofUnits nf false (unitMag nf <<< r) 1
  else if i < -r then ofUnits nf false 1 4
  else ofUnits nf false ((expSeries b (u % ln2Scaled b).toNat b 0 (1 <<< b) * unitMag nf) <<< (i + r).toNat)
    (1 <<< (b + r))

/-- `pow(x, y)` (R13) for a positive finite base and a finite exponent: the only operands the rules give it. A free value
of NUM elsewhere (log entry 5) and for a library's power (log entry 1). -/
def pow (nf : Arith) (x y : NumVal) : NumVal :=
  if !nf.computesFunctions then convert nf (otherOp nf .pow x y)
  else if x.finite && y.finite && decide (0 < x.sval) then expFixed nf (y.sval * lnMag nf x.mag / unitMag nf)
  else convert nf (powOutside x y)

/-! ### The numeric literals of the rules -/

/-- NUM's value of pi (R13): the value nearest to it. -/
def pi (nf : Arith) : NumVal := ofUnits nf false (piScaled (angleBits nf) * unitMag nf) (1 <<< angleBits nf)
/-- F_LO = 20.0 Hz (R7). -/
def fLo (nf : Arith) : NumVal := ofNat nf 20
/-- K_SPLIT = 10000.0 Hz (R7). -/
def kSplit (nf : Arith) : NumVal := ofNat nf 10000
/-- HARM_FRAC = 0.9 (R7). -/
def harmFrac (nf : Arith) : NumVal := ofRat nf 9 10
/-- REL_FLOOR = 1e-6 (R7). -/
def relFloor (nf : Arith) : NumVal := ofRat nf 1 1000000
/-- GEN_AMP = 1.0 (R7, D14). -/
def genAmp (nf : Arith) : NumVal := one nf
/-- FS_RESET = 44100.0 Hz (R7, D35). -/
def fsReset (nf : Arith) : NumVal := ofNat nf 44100
/-- FS_MIN = 20.0 / 0.2375 (R7, D32), evaluated in NUM (log entry 24). -/
def fsMin (nf : Arith) : NumVal := div nf (fLo nf) (ofRat nf 2375 10000)
/-- MIDI_REF_HZ = 440.0 Hz (R7, D30). -/
def midiRefHz (nf : Arith) : NumVal := ofNat nf 440

end Sys2Proof.NumVal
end

