-- ==== Sys2Proof/Machine/Data.lean ====
section
/-! DEFINITION. The default parameters, and the data types of the machine's state: the names a register holds, one entry of each ROM, a voice, the output buffer, a response and the outcome record. -/

namespace Sys2Proof.Config

/-- The default parameters (00_scope.md R7): the ones State.reset carries. -/
def defaultParams : Params where
  bankFreq := ⟨⟨(defaultBankLow ++ defaultBankHigh).map NumVal.ofWord⟩, by rfl⟩
  bufLen := 16
  outFmt := binary32
  num := binary64

end Sys2Proof.Config

namespace Sys2Proof.Machine

open Sys2Proof.Config

/-- A waveform family: the values of `osc_wave` (10_state.md R27). -/
inductive Family where
  | sine | saw | square | triangle
deriving DecidableEq, Repr

/-- An envelope stage: the values of `env_stage` (10_state.md R28). Codes 5, 6, 7 are never held, so they have no name
(log entry 22). -/
inductive Stage where
  | idle | attack | decay | sustain | release
deriving DecidableEq, Repr

/-- A filter topology: the values of `flt_type` (10_state.md R34). Code 3 is never held, so it has no name
(log entry 22). -/
inductive Topology where
  | lowpass | highpass | bandpass
deriving DecidableEq, Repr

/-- One bank bin of the wavetable ROM. Its four tables are determined by these two numbers (40_wavetable_rom.md R72 to
R77, R80), and `waveSample` reads their samples (log entry 9). -/
structure WaveBin where
  /-- WT_LEN[b] (R72). -/
  len       : Nat
  /-- The harmonic count K_b the tables were generated with (R73). -/
  harmonics : Nat
deriving DecidableEq, Repr

/-- One cutoff bin of the filter-coefficient ROM (20_memory.md R41). -/
structure FilterBin where
  /-- FCUT[b]. -/
  cutoff  : NumVal
  /-- FC[0][b][0] = `b`. -/
  lpB     : NumVal
  /-- FC[0][b][1] = `a`. -/
  lpA     : NumVal
  /-- FC[1][b][0] = `alpha`. -/
  hpAlpha : NumVal
  /-- FC[2][b][0] = `a_hp`. -/
  bpAHp   : NumVal
  /-- FC[2][b][1] = `b_lp`. -/
  bpBLp   : NumVal
  /-- FC[2][b][2] = `a_lp`. -/
  bpALp   : NumVal
deriving DecidableEq, Repr

/-- The wavetable ROM: WT and WT_LEN (20_memory.md R39). -/
abbrev WaveRom := Vector WaveBin numBankBins

/-- The filter-coefficient ROM: FCUT and FC (20_memory.md R41). -/
abbrev FilterRom := Vector FilterBin numFilterBins

/-- The registers of one voice (10_state.md sections 3 to 5). -/
structure Voice where
  oscFreq       : NumVal
  oscPhase      : NumVal
  oscDelta      : NumVal
  oscAmp        : NumVal
  oscWave       : Family
  envStage      : Stage
  envCounter    : Nat
  envLevel      : NumVal
  envAttackSec  : NumVal
  envDecaySec   : NumVal
  envReleaseSec : NumVal
  envA          : Nat
  envD          : Nat
  envR          : Nat
  envSustain    : NumVal
  envRsl        : NumVal
  fltType       : Topology
  fltCutoff     : NumVal
  fltBin        : Fin numFilterBins
  fltX1         : NumVal
  fltY1         : NumVal
  fltX2         : NumVal
  fltY2         : NumVal
deriving DecidableEq, Repr

/-- One channel of the output buffer: a list of (element index, element) pairs in the canonical form of `Memory.wf`. An
element is held as a value of OUT_FMT (log entry 8). -/
abbrev Memory := List (Nat × NumVal)

/-- A value on the response channel (30_encoding.md R63). -/
inductive Response where
  /-- An F64 response: a value of binary64 (`NumVal.toF64`). -/
  | f64 (x : NumVal)
  /-- A U32 response: below 2^32 (`u32Of`, log entry 28). -/
  | u32 (n : Nat)
deriving DecidableEq, Repr

/-- The refusal reasons of 60_exceptions.md R142. -/
inductive RefuseReason where
  | illegalOp | badField | badVoice | badOperand | truncated
deriving DecidableEq, Repr

/-- The fault codes of 60_exceptions.md R143. -/
inductive FaultCode where
  | phaseRange | romIndex | bufferRange | nonfinite | sampleRateRange
deriving DecidableEq, Repr

/-- What is recorded for PHASE_RANGE beside the code, the index and the command word (60_exceptions.md R143). -/
structure PhaseInfo where
  voice  : Nat
  /-- The sample index within a RENDER, 0 for OSC_NEXT. -/
  sample : Nat
  phase  : NumVal
deriving DecidableEq, Repr

/-- The outcome record of 60_exceptions.md R142 and R143, kept in the model's state (R145). -/
inductive OutcomeRecord where
  /-- The reason, the command's index in the stream, and its command word (none when the stream ends inside the command
  word itself: log entry 15). -/
  | refused (reason : RefuseReason) (index : Nat) (cw : Option CommandWord)
  /-- The code, the command's index, its command word, and for PHASE_RANGE the rest. -/
  | faulted (code : FaultCode) (index : Nat) (cw : CommandWord) (phase : Option PhaseInfo)
deriving DecidableEq, Repr

end Sys2Proof.Machine
end

