-- ==== Sys2Proof/Syntax.lean ====
section
/-! DEFINITION. The commands: one constructor per row of spec/opcode_table.json (30_encoding.md R64). -/

namespace Sys2Proof

/-- A decoded command. Fields and U32 operands are unsigned integers (30_encoding.md R61); an F64 operand is its operand
word. `voice` is VOICE, `sel` is SEL, `bin` is BIN, `cix` is CIX (R58). The bounds of the fields are `Instr.wellFormed`. -/
inductive Instr where
  /-- SET_NOTE (44_voice.md R127). -/
  | setNote (voice midiNote : Nat)
  /-- SET_FREQ (44_voice.md R128). -/
  | setFreq (voice : Nat) (hz : OperandWord)
  /-- SET_AMP (44_voice.md R129). -/
  | setAmp (voice : Nat) (gain : OperandWord)
  /-- SET_WAVE (44_voice.md R130). -/
  | setWave (voice sel : Nat)
  /-- START_NOTE (44_voice.md R131). -/
  | startNote (voice : Nat)
  /-- STOP_NOTE (44_voice.md R132). -/
  | stopNote (voice : Nat)
  /-- SET_ENV (44_voice.md R133). -/
  | setEnv (voice : Nat) (attackSec decaySec sustainLevel releaseSec : OperandWord)
  /-- SET_FILTER (44_voice.md R134). -/
  | setFilter (voice sel : Nat) (cutoffHz : OperandWord)
  /-- SET_SAMPLE_RATE (44_voice.md R135). -/
  | setSampleRate (hz : OperandWord)
  /-- RENDER (44_voice.md R136). -/
  | render (voice numSamples offset : Nat)
  /-- OSC_NEXT (41_oscillator.md R93). -/
  | oscNext (voice : Nat)
  /-- OSC_RESET_PHASE (41_oscillator.md R94). -/
  | oscResetPhase (voice : Nat)
  /-- ENV_ATTACK (42_envelope.md R98). -/
  | envAttack (voice : Nat)
  /-- ENV_RELEASE (42_envelope.md R105). -/
  | envRelease (voice : Nat)
  /-- ENV_RESET (42_envelope.md R106). -/
  | envReset (voice : Nat)
  /-- ENV_NEXT (42_envelope.md R104). -/
  | envNext (voice : Nat)
  /-- ENV_ACTIVE (42_envelope.md R107). -/
  | envActive (voice : Nat)
  /-- FLT_PROCESS (43_filter.md R120). -/
  | fltProcess (voice : Nat) (x : OperandWord)
  /-- FLT_RESET (43_filter.md R121). -/
  | fltReset (voice : Nat)
  /-- WT_READ (40_wavetable_rom.md R82). -/
  | wtRead (sel bin index : Nat)
  /-- WT_LEN (40_wavetable_rom.md R83). -/
  | wtLen (bin : Nat)
  /-- WT_FREQ (40_wavetable_rom.md R84). -/
  | wtFreq (bin : Nat)
  /-- FC_READ (43_filter.md R123). -/
  | fcRead (sel bin cix : Nat)
  /-- FC_CUTOFF (43_filter.md R124). -/
  | fcCutoff (bin : Nat)
deriving DecidableEq, Repr

/-- The voice a per-voice command acts on; none for a global command (30_encoding.md R62). -/
def Instr.voice? : Instr → Option Nat
  | .setNote v _ => some v
  | .setFreq v _ => some v
  | .setAmp v _ => some v
  | .setWave v _ => some v
  | .startNote v => some v
  | .stopNote v => some v
  | .setEnv v _ _ _ _ => some v
  | .setFilter v _ _ => some v
  | .setSampleRate _ => none
  | .render v _ _ => some v
  | .oscNext v => some v
  | .oscResetPhase v => some v
  | .envAttack v => some v
  | .envRelease v => some v
  | .envReset v => some v
  | .envNext v => some v
  | .envActive v => some v
  | .fltProcess v _ => some v
  | .fltReset v => some v
  | .wtRead _ _ _ => none
  | .wtLen _ => none
  | .wtFreq _ => none
  | .fcRead _ _ _ => none
  | .fcCutoff _ => none

end Sys2Proof
end

