-- ==== Sys2Proof/WellFormed.lean ====
section
/-! DEFINITION. The bounds of a command's fields: what the command word and the operand words can hold (30_encoding.md R58, R59). -/

namespace Sys2Proof

/-- VOICE is four bits (R58). -/
def voiceFits (v : Nat) : Bool := decide (v < 16)
/-- SEL is four bits (R58). -/
def selFits (s : Nat) : Bool := decide (s < 16)
/-- BIN is six bits (R58). -/
def binFits (b : Nat) : Bool := decide (b < 64)
/-- CIX is two bits (R58). -/
def cixFits (c : Nat) : Bool := decide (c < 4)
/-- A U32 operand's upper half is 0 (R59). -/
def u32Fits (n : Nat) : Bool := decide (n < 4294967296)

/-- Every field of the command fits its place in the encoding. -/
def Instr.wellFormed : Instr → Bool
  | .setNote v m => voiceFits v && u32Fits m
  | .setFreq v _ => voiceFits v
  | .setAmp v _ => voiceFits v
  | .setWave v s => voiceFits v && selFits s
  | .startNote v => voiceFits v
  | .stopNote v => voiceFits v
  | .setEnv v _ _ _ _ => voiceFits v
  | .setFilter v s _ => voiceFits v && selFits s
  | .setSampleRate _ => true
  | .render v n off => voiceFits v && u32Fits n && u32Fits off
  | .oscNext v => voiceFits v
  | .oscResetPhase v => voiceFits v
  | .envAttack v => voiceFits v
  | .envRelease v => voiceFits v
  | .envReset v => voiceFits v
  | .envNext v => voiceFits v
  | .envActive v => voiceFits v
  | .fltProcess v _ => voiceFits v
  | .fltReset v => voiceFits v
  | .wtRead s b n => selFits s && binFits b && u32Fits n
  | .wtLen b => binFits b
  | .wtFreq b => binFits b
  | .fcRead s b c => selFits s && binFits b && cixFits c
  | .fcCutoff b => binFits b

end Sys2Proof
end

