-- ==== Sys2Proof/Decode.lean ====
section
/-! DEFINITION. The decoder of the serialised command stream and the encoder (30_encoding.md R57 to R67, 20_memory.md R45, R46). -/

namespace Sys2Proof

open Sys2Proof.Machine (RefuseReason)

/-! ### Words and bytes (20_memory.md R45: least significant byte first) -/

/-- The number whose bytes are `bs`, the least significant first. -/
def leNat : List Byte → Nat
  | [] => 0
  | b :: bs => b.toNat + 256 * leNat bs

/-- The `count` low bytes of `w`, the least significant first. -/
def leBytes : Nat → Nat → List Byte
  | 0, _ => []
  | count + 1, w => BitVec.ofNat 8 w :: leBytes count (w / 256)

/-- The next `count` operand words and the bytes after them; none when the stream ends before. -/
def takeWords : Nat → List Byte → Option (List Nat × List Byte)
  | 0, bs => some ([], bs)
  | count + 1, bs =>
    if bs.length < 8 then none
    else match takeWords count (bs.drop 8) with
      | none => none
      | some (ws, rest) => some (leNat (bs.take 8) :: ws, rest)

/-! ### The fields of a command word (R58) -/

/-- OP = cw[7:0]. -/
def fieldOp (cw : Nat) : Nat := cw % 256
/-- SEL = cw[11:8]. -/
def fieldSel (cw : Nat) : Nat := cw / 2 ^ 8 % 16
/-- BIN = cw[17:12]. -/
def fieldBin (cw : Nat) : Nat := cw / 2 ^ 12 % 64
/-- CIX = cw[19:18]. -/
def fieldCix (cw : Nat) : Nat := cw / 2 ^ 18 % 4
/-- VOICE = cw[23:20]. -/
def fieldVoice (cw : Nat) : Nat := cw / 2 ^ 20 % 16
/-- RSV = cw[31:24]. -/
def fieldRsv (cw : Nat) : Nat := cw / 2 ^ 24 % 256

/-! ### The opcode map (R64) -/

/-- The kind of an operand word (R59). -/
inductive OperandKind where
  | f64 | u32
deriving DecidableEq, Repr

/-- A row of R64: the opcode, the fields it uses and its operand words. -/
structure OpRow where
  op       : Nat
  voice    : Bool
  sel      : Bool
  bin      : Bool
  cix      : Bool
  operands : List OperandKind
deriving DecidableEq, Repr

/-- A row that uses only the VOICE field. -/
def voiceRow (op : Nat) (operands : List OperandKind) : OpRow :=
  { op := op, voice := true, sel := false, bin := false, cix := false, operands := operands }

/-- A row of a ROM read that uses BIN and, where said, SEL and CIX. -/
def romRow (op : Nat) (sel cix : Bool) (operands : List OperandKind) : OpRow :=
  { op := op, voice := false, sel := sel, bin := true, cix := cix, operands := operands }

/-- The rows of the voice commands (R64, 0x01 to 0x0A). -/
def voiceRows : List OpRow :=
  [ voiceRow 0x01 [.u32],
    voiceRow 0x02 [.f64],
    voiceRow 0x03 [.f64],
    { voiceRow 0x04 [] with sel := true },
    voiceRow 0x05 [],
    voiceRow 0x06 [],
    voiceRow 0x07 [.f64, .f64, .f64, .f64],
    { voiceRow 0x08 [.f64] with sel := true },
    { voiceRow 0x09 [.f64] with voice := false },
    voiceRow 0x0A [.u32, .u32] ]

/-- The rows of the block-level commands (R64, 0x10 to 0x51). -/
def blockRows : List OpRow :=
  [ voiceRow 0x10 [],
    voiceRow 0x11 [],
    voiceRow 0x20 [],
    voiceRow 0x21 [],
    voiceRow 0x22 [],
    voiceRow 0x23 [],
    voiceRow 0x24 [],
    voiceRow 0x30 [.f64],
    voiceRow 0x31 [],
    romRow 0x40 true false [.u32],
    romRow 0x41 false false [],
    romRow 0x42 false false [],
    romRow 0x50 true true [],
    romRow 0x51 false false [] ]

/-- The opcode map (R64). -/
def opTable : List OpRow := voiceRows ++ blockRows

/-- The row of an opcode; none for an opcode the table does not list. -/
def findRow (op : Nat) : Option OpRow := opTable.find? fun r => r.op == op

/-- The number `k` of operand words the opcode fixes; 0 for an unlisted opcode (R57). -/
def operandCount (op : Nat) : Nat :=
  match findRow op with
  | some r => r.operands.length
  | none => 0

/-! ### Legality (R65) -/

/-- A field the row does not use is not 0 (R65 item 3). -/
def unusedFieldSet (r : OpRow) (cw : Nat) : Bool :=
  (!r.sel && fieldSel cw != 0) || (!r.bin && fieldBin cw != 0) || (!r.cix && fieldCix cw != 0) ||
    (!r.voice && fieldVoice cw != 0)

/-- A U32 operand's upper half is not 0 (R65 item 5). -/
def badOperandAmong : List OperandKind → List Nat → Bool
  | .u32 :: ks, w :: ws => !u32Fits w || badOperandAmong ks ws
  | .f64 :: ks, _ :: ws => badOperandAmong ks ws
  | _, _ => false

/-- The checks of R65 in their order; the first that fails names the reason. -/
def legality (numVoices : Nat) (row : Option OpRow) (cw : Nat) (ops : List Nat) : Option RefuseReason :=
  match row with
  | none => some .illegalOp
  | some r =>
    if fieldRsv cw ≠ 0 then some .badField
    else if unusedFieldSet r cw then some .badField
    else if r.voice && decide (numVoices ≤ fieldVoice cw) then some .badVoice
    else if badOperandAmong r.operands ops then some .badOperand
    else none

/-! ### Decoding -/

/-- An F64 operand's word. -/
def f64Word (w : Nat) : OperandWord := BitVec.ofNat 64 w

/-- The command an opcode, a command word and its operand words stand for (R61, R64). -/
def assemble (cw : Nat) (ops : List Nat) : Option Instr :=
  match fieldOp cw, ops with
  | 0x01, [m] => some (.setNote (fieldVoice cw) m)
  | 0x02, [f] => some (.setFreq (fieldVoice cw) (f64Word f))
  | 0x03, [a] => some (.setAmp (fieldVoice cw) (f64Word a))
  | 0x04, [] => some (.setWave (fieldVoice cw) (fieldSel cw))
  | 0x05, [] => some (.startNote (fieldVoice cw))
  | 0x06, [] => some (.stopNote (fieldVoice cw))
  | 0x07, [a, d, s, r] => some (.setEnv (fieldVoice cw) (f64Word a) (f64Word d) (f64Word s) (f64Word r))
  | 0x08, [c] => some (.setFilter (fieldVoice cw) (fieldSel cw) (f64Word c))
  | 0x09, [h] => some (.setSampleRate (f64Word h))
  | 0x0A, [n, off] => some (.render (fieldVoice cw) n off)
  | 0x10, [] => some (.oscNext (fieldVoice cw))
  | 0x11, [] => some (.oscResetPhase (fieldVoice cw))
  | 0x20, [] => some (.envAttack (fieldVoice cw))
  | 0x21, [] => some (.envRelease (fieldVoice cw))
  | 0x22, [] => some (.envReset (fieldVoice cw))
  | 0x23, [] => some (.envNext (fieldVoice cw))
  | 0x24, [] => some (.envActive (fieldVoice cw))
  | 0x30, [x] => some (.fltProcess (fieldVoice cw) (f64Word x))
  | 0x31, [] => some (.fltReset (fieldVoice cw))
  | 0x40, [n] => some (.wtRead (fieldSel cw) (fieldBin cw) n)
  | 0x41, [] => some (.wtLen (fieldBin cw))
  | 0x42, [] => some (.wtFreq (fieldBin cw))
  | 0x50, [] => some (.fcRead (fieldSel cw) (fieldBin cw) (fieldCix cw))
  | 0x51, [] => some (.fcCutoff (fieldBin cw))
  | _, _ => none

/-- Why a stream's first command has no decoding, and its command word; the word is absent when the stream ends inside
it (log entry 15). -/
structure DecodeError where
  reason : RefuseReason
  cw     : Option CommandWord
deriving DecidableEq, Repr

/-- Decodes a command whose words have all arrived (R65). -/
def decodeWords (numVoices cw : Nat) (ops : List Nat) : Except DecodeError Instr :=
  match legality numVoices (findRow (fieldOp cw)) cw ops with
  | some reason => .error { reason := reason, cw := some (BitVec.ofNat 32 cw) }
  | none =>
    match assemble cw ops with
    | some i => .ok i
    | none => .error { reason := .illegalOp, cw := some (BitVec.ofNat 32 cw) }

/-- Decodes the first command of a stream and gives the bytes after it. A stream that ends inside the command is refused
TRUNCATED before any other check (60_exceptions.md R144). -/
def decode (numVoices : Nat) (bs : List Byte) : Except DecodeError (Instr × List Byte) :=
  if bs.length < 4 then .error { reason := .truncated, cw := none }
  else
    let cw := leNat (bs.take 4)
    match takeWords (operandCount (fieldOp cw)) (bs.drop 4) with
    | none => .error { reason := .truncated, cw := some (BitVec.ofNat 32 cw) }
    | some (ops, rest) =>
      match decodeWords numVoices cw ops with
      | .error e => .error e
      | .ok i => .ok (i, rest)

/-! ### Encoding -/

/-- The parts of a command's words: the fields of R58 and the operand words. -/
structure Parts where
  op       : Nat
  voice    : Nat := 0
  sel      : Nat := 0
  bin      : Nat := 0
  cix      : Nat := 0
  operands : List Nat := []
deriving DecidableEq, Repr

/-- The parts of a command, by R64. -/
def Instr.parts : Instr → Parts
  | .setNote v m => { op := 0x01, voice := v, operands := [m] }
  | .setFreq v f => { op := 0x02, voice := v, operands := [f.toNat] }
  | .setAmp v a => { op := 0x03, voice := v, operands := [a.toNat] }
  | .setWave v s => { op := 0x04, voice := v, sel := s }
  | .startNote v => { op := 0x05, voice := v }
  | .stopNote v => { op := 0x06, voice := v }
  | .setEnv v a d s r => { op := 0x07, voice := v, operands := [a.toNat, d.toNat, s.toNat, r.toNat] }
  | .setFilter v s c => { op := 0x08, voice := v, sel := s, operands := [c.toNat] }
  | .setSampleRate h => { op := 0x09, operands := [h.toNat] }
  | .render v n off => { op := 0x0A, voice := v, operands := [n, off] }
  | .oscNext v => { op := 0x10, voice := v }
  | .oscResetPhase v => { op := 0x11, voice := v }
  | .envAttack v => { op := 0x20, voice := v }
  | .envRelease v => { op := 0x21, voice := v }
  | .envReset v => { op := 0x22, voice := v }
  | .envNext v => { op := 0x23, voice := v }
  | .envActive v => { op := 0x24, voice := v }
  | .fltProcess v x => { op := 0x30, voice := v, operands := [x.toNat] }
  | .fltReset v => { op := 0x31, voice := v }
  | .wtRead s b n => { op := 0x40, sel := s, bin := b, operands := [n] }
  | .wtLen b => { op := 0x41, bin := b }
  | .wtFreq b => { op := 0x42, bin := b }
  | .fcRead s b c => { op := 0x50, sel := s, bin := b, cix := c }
  | .fcCutoff b => { op := 0x51, bin := b }

/-- The command word of its parts (R58). -/
def Parts.word (p : Parts) : Nat :=
  p.op + p.sel * 2 ^ 8 + p.bin * 2 ^ 12 + p.cix * 2 ^ 18 + p.voice * 2 ^ 20

/-- The command word of a command: what an outcome record holds (60_exceptions.md R142, R143). -/
def Instr.commandWord (i : Instr) : CommandWord := BitVec.ofNat 32 i.parts.word

/-- The words of a command as the bytes of a stream (R60). -/
def encode (i : Instr) : List Byte :=
  leBytes 4 i.parts.word ++ i.parts.operands.flatMap (leBytes 8)

/-- A program as the bytes of a stream: its commands in order, with no padding (R60). -/
def serialise (program : List Instr) : List Byte := program.flatMap encode

/-! ### Words as spec/opcode_table.json numbers them -/

/-- The bytes of a command whose bits are `w` (bit 0 the least significant bit of the command word), the bits above
`nbits` zero: as many bytes as its opcode fixes (R57). -/
def tableBytes (nbits w : Nat) : List Byte :=
  leBytes (4 + 8 * operandCount (fieldOp (w % 1 <<< nbits))) (w % 1 <<< nbits)

/-- What the decoder reads from a word of spec/opcode_table.json. No NUM_VOICES is given here, so VOICE may be any of
the sixteen values (log entry 14). -/
def decodeTableWord (nbits w : Nat) : Option Instr :=
  match decode 16 (tableBytes nbits w) with
  | .ok (i, _) => some i
  | .error _ => none

end Sys2Proof
end

