-- ==== Sys2Proof/Machine/FilterRom.lean ====
section
/-! DEFINITION. Generation of the filter-coefficient ROM: 43_filter.md R110 to R115. -/

namespace Sys2Proof.Machine

open Sys2Proof Sys2Proof.Config

/-- `FILT_TOP = (0.95 * (fs / 2)) * 0.5` (R110). -/
def filterTop (nf : Arith) (fs : NumVal) : NumVal :=
  NumVal.mul nf (NumVal.mul nf (NumVal.ofRat nf 95 100) (NumVal.div nf fs (NumVal.ofNat nf 2))) (NumVal.ofRat nf 1 2)

/-- The cutoff of bin `i`: `20.0 * pow(FILT_TOP / 20.0, i / 49)` (R110). -/
def filterCutoff (nf : Arith) (fs : NumVal) (i : Nat) : NumVal :=
  NumVal.mul nf (NumVal.fLo nf)
    (NumVal.pow nf (NumVal.div nf (filterTop nf fs) (NumVal.fLo nf))
      (NumVal.div nf (NumVal.ofNat nf i) (NumVal.ofNat nf 49)))

/-- `RC = 1.0 / ((2 * pi) * fc)` (R111). -/
def filterRC (nf : Arith) (fc : NumVal) : NumVal :=
  NumVal.div nf (NumVal.one nf) (NumVal.mul nf (NumVal.mul nf (NumVal.ofNat nf 2) (NumVal.pi nf)) fc)

/-- `dt = 1.0 / fs` (R111). -/
def sampleTime (nf : Arith) (fs : NumVal) : NumVal := NumVal.div nf (NumVal.one nf) fs

/-- `alpha_lp = dt / (RC + dt)` (R112). -/
def alphaLp (nf : Arith) (rc dt : NumVal) : NumVal := NumVal.div nf dt (NumVal.add nf rc dt)

/-- `alpha_hp = RC / (RC + dt)` (R113). -/
def alphaHp (nf : Arith) (rc dt : NumVal) : NumVal := NumVal.div nf rc (NumVal.add nf rc dt)

/-- A bin from its cutoff and its two coefficients (R112 to R114; the names of 20_memory.md R41). -/
def filterBinOf (nf : Arith) (cutoff lp hp : NumVal) : FilterBin :=
  { cutoff := cutoff
    lpB := lp
    lpA := NumVal.sub nf (NumVal.one nf) lp
    hpAlpha := hp
    bpAHp := hp
    bpBLp := lp
    bpALp := NumVal.sub nf (NumVal.one nf) lp }

/-- One bin as `GenerateFilterROM(fs)` writes it (R115). -/
def generateFilterBin (nf : Arith) (fs : NumVal) (i : Nat) : FilterBin :=
  filterBinOf nf (filterCutoff nf fs i)
    (alphaLp nf (filterRC nf (filterCutoff nf fs i)) (sampleTime nf fs))
    (alphaHp nf (filterRC nf (filterCutoff nf fs i)) (sampleTime nf fs))

/-- `GenerateFilterROM(fs)` (R115): every bin, replaced together. -/
def generateFilterRom (nf : Arith) (fs : NumVal) : FilterRom := Vector.ofFn fun i => generateFilterBin nf fs i.val

/-- `FC[t][b][c]` of a bin: coefficient `c` of topology `t`, none when the topology lacks it (20_memory.md R41). -/
def FilterBin.coeff (b : FilterBin) (t c : Nat) : Option NumVal :=
  match t, c with
  | 0, 0 => some b.lpB
  | 0, 1 => some b.lpA
  | 1, 0 => some b.hpAlpha
  | 2, 0 => some b.bpAHp
  | 2, 1 => some b.bpBLp
  | 2, 2 => some b.bpALp
  | _, _ => none

end Sys2Proof.Machine
end

