-- ==== Sys2Proof/Machine/WaveRom.lean ====
section
/-! DEFINITION. Generation of the wavetable ROM: 40_wavetable_rom.md R70 to R81. -/

namespace Sys2Proof.Machine

open Sys2Proof Sys2Proof.Config

/-- The length a quotient `fs / F` rounds to; a free value where it is not finite or rounds below 0 (log entry 33). -/
def lengthOf (nf : Arith) (q : NumVal) : Nat :=
  if q.finite && decide (0 ≤ NumVal.round nf q) then (NumVal.round nf q).toNat else lengthOutside q

/-- The table length `N_b = round(fs / F)` (R72). -/
def tableLength (nf : Arith) (fs bankFreq : NumVal) : Nat := lengthOf nf (NumVal.div nf fs bankFreq)

/-- `KMAX_b` (R73): 32 strictly above 10000.0 Hz, else 128. -/
def kmax (nf : Arith) (bankFreq : NumVal) : Nat := if NumVal.lt (NumVal.kSplit nf) bankFreq then kmaxHi else kmaxLo

/-- The harmonic count `K_b = min(KMAX_b, floor((0.9 * (fs / 2)) / F))` (R73); 0 for a count below 0, whose sums have no
term either (log entry 33). -/
def harmonicCount (nf : Arith) (fs bankFreq : NumVal) : Nat :=
  Nat.min (kmax nf bankFreq)
    (NumVal.floor nf
      (NumVal.div nf (NumVal.mul nf (NumVal.harmFrac nf) (NumVal.div nf fs (NumVal.ofNat nf 2))) bankFreq)).toNat

/-- `arg(k, n, N) = (((2 * pi) * k) * n) / N`, in this order (R74). -/
def phaseArg (nf : Arith) (k n len : Nat) : NumVal :=
  NumVal.div nf
    (NumVal.mul nf (NumVal.mul nf (NumVal.mul nf (NumVal.ofNat nf 2) (NumVal.pi nf)) (NumVal.ofNat nf k))
      (NumVal.ofNat nf n))
    (NumVal.ofNat nf len)

/-- The sum of `term 0, ..., term (count - 1)`, from 0.0, in increasing order (R75). -/
def sumTerms (nf : Arith) (term : Nat → NumVal) : Nat → NumVal
  | 0 => NumVal.zero
  | count + 1 => NumVal.add nf (sumTerms nf term count) (term count)

/-- The Saw term of harmonic `k = j + 1`: `sin(arg(k, n, N)) / k` (R75). -/
def sawTerm (nf : Arith) (n len j : Nat) : NumVal :=
  NumVal.div nf (NumVal.sin nf (phaseArg nf (j + 1) n len)) (NumVal.ofNat nf (j + 1))

/-- The Square term of harmonic `k = 2j + 1`, the odd harmonics in order: `sin(arg(k, n, N)) / k` (R75). -/
def squareTerm (nf : Arith) (n len j : Nat) : NumVal :=
  NumVal.div nf (NumVal.sin nf (phaseArg nf (2 * j + 1) n len)) (NumVal.ofNat nf (2 * j + 1))

/-- The Triangle term of harmonic `k = 2m + 1`: `((-1)^m * sin(arg(k, n, N))) / (k * k)` (R75). -/
def triangleTerm (nf : Arith) (n len m : Nat) : NumVal :=
  NumVal.div nf (NumVal.mul nf (NumVal.ofInt nf ((-1) ^ m)) (NumVal.sin nf (phaseArg nf (2 * m + 1) n len)))
    (NumVal.ofNat nf ((2 * m + 1) * (2 * m + 1)))

/-- The raw sample `raw[n]` of a family's table of length `len` with `harmonics` harmonics (R75, R76). -/
def rawSample (nf : Arith) (f : Family) (len harmonics n : Nat) : NumVal :=
  match f with
  | .sine => NumVal.sin nf (phaseArg nf 1 n len)
  | .saw => sumTerms nf (sawTerm nf n len) harmonics
  | .square => sumTerms nf (squareTerm nf n len) harmonics
  | .triangle => sumTerms nf (triangleTerm nf n len) harmonics

/-- `max abs(raw[n])` over the first `count` samples (R77). -/
def peak (raw : Nat → NumVal) : Nat → NumVal
  | 0 => NumVal.zero
  | count + 1 => NumVal.max (peak raw count) (NumVal.abs (raw count))

/-- The normalised sample: `(raw / M) * GEN_AMP` when `M > 0`, else 0.0 (R77, D13). -/
def normalise (nf : Arith) (raw m : NumVal) : NumVal :=
  if NumVal.lt NumVal.zero m then NumVal.mul nf (NumVal.div nf raw m) (NumVal.genAmp nf) else NumVal.zero

/-- `WT[f][b][n]` for a bin of the wavetable ROM (R77). -/
def waveSample (nf : Arith) (f : Family) (w : WaveBin) (n : Nat) : NumVal :=
  normalise nf (rawSample nf f w.len w.harmonics n) (peak (rawSample nf f w.len w.harmonics) w.len)

/-- One bin as `GenerateWaveROM(fs)` writes it (R79). -/
def generateWaveBin (nf : Arith) (fs bankFreq : NumVal) : WaveBin :=
  { len := tableLength nf fs bankFreq, harmonics := harmonicCount nf fs bankFreq }

/-- `GenerateWaveROM(fs)` (R79): every bin of every family, replaced together. -/
def generateWaveRom (nf : Arith) (bankFreq : Vector NumVal numBankBins) (fs : NumVal) : WaveRom :=
  Vector.ofFn fun b => generateWaveBin nf fs (bankFreq.get b)

end Sys2Proof.Machine
end

