-- ==== Sys2Proof/Machine/State.lean ====
section
/-! DEFINITION. The state of a run, the reset state, and the reasons a step can stop. -/

namespace Sys2Proof.Machine

open Sys2Proof Sys2Proof.Config

/-- Everything the spec gives a run: the core's registers and ROMs (10_state.md), the output buffer (20_memory.md R42),
the command stream and the response channel (20_memory.md R43, 30_encoding.md R63), and the outcome record
(60_exceptions.md R145). `params` holds the OPEN parameters (log entry 6); no command writes it. -/
structure State where
  /-- BANK_FREQ, BUF_LEN, OUT_FMT and NUM (00_scope.md R7). -/
  params    : Params
  /-- The sample rate in Hz (10_state.md R21). -/
  fs        : NumVal
  /-- WT and WT_LEN (10_state.md R22). -/
  waveRom   : WaveRom
  /-- FCUT and FC (10_state.md R22). -/
  filterRom : FilterRom
  /-- The voices 0 .. NUM_VOICES-1 (10_state.md R18); NUM_VOICES is the list's length. -/
  voices    : List Voice
  /-- The channels 0 .. NUM_CHANNELS-1 of the output buffer (20_memory.md R42); NUM_CHANNELS is the list's length. -/
  out       : List Memory
  /-- The bytes of the commands not yet executed, the next one first (20_memory.md R43, R45). -/
  stream    : List Byte
  /-- The index in the stream of the command being executed, or of the next one (60_exceptions.md R142). -/
  cmdIndex  : Nat
  /-- The values returned so far, in order (30_encoding.md R63). -/
  responses : List Response
  /-- The outcome record of a refusal or a fault; none before one (60_exceptions.md R145). -/
  outcome   : Option OutcomeRecord
deriving DecidableEq, Repr

/-- A voice right after reset, its values those of the NUM `nf` (70_reset_and_hazards.md R154 item 3). -/
def Voice.reset (nf : Arith) : Voice where
  oscFreq := NumVal.zero
  oscPhase := NumVal.zero
  oscDelta := NumVal.zero
  oscAmp := NumVal.one nf
  oscWave := .sine
  envStage := .idle
  envCounter := 0
  envLevel := NumVal.zero
  envAttackSec := NumVal.zero
  envDecaySec := NumVal.zero
  envReleaseSec := NumVal.zero
  envA := 1
  envD := 1
  envR := 1
  envSustain := NumVal.one nf
  envRsl := NumVal.zero
  fltType := .lowpass
  fltCutoff := NumVal.ofNat nf 20000
  fltBin := 49
  fltX1 := NumVal.zero
  fltY1 := NumVal.zero
  fltX2 := NumVal.zero
  fltY2 := NumVal.zero

/-- The state reset puts the core in, for any parameters, any number of voices and any contents of the output buffer,
which reset does not write (70_reset_and_hazards.md R154). -/
def State.resetWith (params : Params) (numVoices : Nat) (out : List Memory) : State where
  params := params
  fs := NumVal.fsReset params.num
  waveRom := generateWaveRom params.num params.bankFreq (NumVal.fsReset params.num)
  filterRom := generateFilterRom params.num (NumVal.fsReset params.num)
  voices := List.replicate numVoices (Voice.reset params.num)
  out := out
  stream := []
  cmdIndex := 0
  responses := []
  outcome := none

/-- The machine right after reset (R154), with the default parameters (log entry 6), every element of the output buffer
0.0 (log entry 7) and no command in the stream (log entry 10). -/
def State.reset : State :=
  State.resetWith defaultParams defaultVoices (List.replicate defaultChannels [])

/-- Why the machine faults: the codes of 60_exceptions.md R143. Each carries the faulted state of R145, whose `outcome`
is the record. A fault ends the run: where the spec states no behaviour the model stops, so every fault is safe. -/
inductive Fault where
  /-- Raised by OSC_NEXT and RENDER when a lookup starts with the phase outside [0, 1) (41_oscillator.md R91). Safe. -/
  | phaseRange (faulted : State)
  /-- Raised by WT_READ, WT_LEN, WT_FREQ, FC_READ, FC_CUTOFF for an index that does not exist (30_encoding.md R66). Safe. -/
  | romIndex (faulted : State)
  /-- Raised by RENDER when `offset + numSamples > BUF_LEN` (44_voice.md R136). Safe. -/
  | bufferRange (faulted : State)
  /-- Raised for an F64 operand that must be a number and is an infinity or a NaN, by SET_FREQ, SET_AMP, SET_ENV,
  SET_FILTER, FLT_PROCESS and SET_SAMPLE_RATE, and by the filter inside RENDER (60_exceptions.md R143; log entry 18). Safe. -/
  | nonfinite (faulted : State)
  /-- Raised by SET_SAMPLE_RATE for `0 < hz <= FS_MIN` (44_voice.md R135). Safe. -/
  | sampleRateRange (faulted : State)
deriving DecidableEq, Repr

/-- Why the machine refuses: the reasons of 60_exceptions.md R142, each carrying the refused state of R145, whose
`outcome` is the record, and the three ways there is nothing to execute. Every refusal is safe: the model stops. -/
inductive Refusal where
  /-- An arm of exec that gives its command no meaning, by the command's mnemonic. No arm does. Safe. -/
  | notModelled (mnemonic : String)
  /-- Raised by step: OP is not one of the 24 opcodes (30_encoding.md R65 item 1). Safe. -/
  | illegalOp (refused : State)
  /-- Raised by step: RSV or an unused field is not 0 (30_encoding.md R65 items 2 and 3). Safe. -/
  | badField (refused : State)
  /-- Raised by step and by every per-voice meaning: VOICE is at least NUM_VOICES (30_encoding.md R62; log entry 13). Safe. -/
  | badVoice (refused : State)
  /-- Raised by step: a U32 operand's upper half is not 0 (30_encoding.md R65 item 5). Safe. -/
  | badOperand (refused : State)
  /-- Raised by step: the stream ends inside a command (60_exceptions.md R142). Safe. -/
  | truncated (refused : State)
  /-- Raised by step: the run has met a refusal or a fault, and "no later command is executed" (60_exceptions.md R145). Safe. -/
  | runEnded
  /-- Raised by step: the stream holds no more commands, the normal end of a run (70_reset_and_hazards.md R164; log
  entry 11). Safe. -/
  | streamEnd
deriving DecidableEq, Repr

end Sys2Proof.Machine
end

