-- ==== Sys2Proof/Machine/Ops.lean ====
section
/-! DEFINITION. The named operations over the state: the output buffer, the voices, the response channel, and ending a command with a fault or a refusal. -/

namespace Sys2Proof.Machine

open Sys2Proof Sys2Proof.Config

/-- What a meaning answers. -/
abbrev Result := Host.Outcome State Fault Refusal

/-! ### One channel of the output buffer

An unlisted element reads as +0.0 (log entry 7). -/

/-- What an unlisted element reads as. -/
def Memory.unlisted : NumVal := NumVal.zero

/-- The value of element `i`. -/
def Memory.read : Memory → Nat → NumVal
  | [], _ => Memory.unlisted
  | (j, x) :: m, i => if i = j then x else Memory.read m i

/-- The list without element `i`. -/
def Memory.erase : Memory → Nat → Memory
  | [], _ => []
  | (j, x) :: m, i => if i = j then m else (j, x) :: Memory.erase m i

/-- The list with element `i` set to `x`, in its place by index. -/
def Memory.insert : Memory → Nat → NumVal → Memory
  | [], i, x => [(i, x)]
  | (j, y) :: m, i, x =>
    if i < j then (i, x) :: (j, y) :: m
    else if i = j then (i, x) :: m
    else (j, y) :: Memory.insert m i x

/-- Sets element `i` to `x`, in canonical form: writing what an unlisted element reads as removes the entry. -/
def Memory.write (m : Memory) (i : Nat) (x : NumVal) : Memory :=
  if x = Memory.unlisted then Memory.erase m i else Memory.insert m i x

/-- Every listed index is above `low`, indices strictly rise, and no entry equals what an unlisted element reads as. -/
def Memory.wfAbove : Option Nat → Memory → Bool
  | _, [] => true
  | low, (j, x) :: m =>
    (match low with | none => true | some l => decide (l < j)) && x != Memory.unlisted && Memory.wfAbove (some j) m

/-- The canonical form of a channel. -/
def Memory.wf (m : Memory) : Bool := Memory.wfAbove none m

/-! ### The output buffer (00_scope.md R11, 20_memory.md R42) -/

/-- `MemRead(ch, i)`: element `i` of channel `ch`. -/
def State.memRead (s : State) (ch i : Nat) : NumVal := Memory.read (s.out.getD ch []) i

/-- `MemWrite(ch, i, v)`. -/
def State.memWrite (s : State) (ch i : Nat) (x : NumVal) : State :=
  { s with out := s.out.modify ch fun m => Memory.write m i x }

/-- `to_out(x)`: a NUM value converted to OUT_FMT, rounded as OUT_FMT says: with the default, to nearest, ties to even
(20_memory.md R42; log entry 8). -/
def toOut (p : Params) (x : NumVal) : NumVal := NumVal.rescale p.outFmt p.num x

/-- A buffer element converted to NUM (20_memory.md R42). -/
def elementNum (p : Params) (element : NumVal) : NumVal := NumVal.rescale p.num p.outFmt element

/-- An element after `y` is accumulated into it: "the addition is in NUM, after converting the element to NUM", and the
sum is converted to OUT_FMT (20_memory.md R42). -/
def mixed (p : Params) (element y : NumVal) : NumVal :=
  toOut p (NumVal.add p.num (elementNum p element) y)

/-- `Accumulate(ch, i, y)` (20_memory.md R42). -/
def State.accumulate (s : State) (ch i : Nat) (y : NumVal) : State :=
  s.memWrite ch i (mixed s.params (s.memRead ch i) y)

/-- One sample added to element `i` of the first `count` channels, in increasing channel order (44_voice.md R136,
20_memory.md R50). -/
def State.accumulateTo (s : State) (i : Nat) (y : NumVal) : Nat → State
  | 0 => s
  | count + 1 => (State.accumulateTo s i y count).accumulate count i y

/-- One sample added to element `i` of every channel (44_voice.md R136). -/
def State.accumulateAll (s : State) (i : Nat) (y : NumVal) : State := s.accumulateTo i y s.out.length

/-! ### Voices and responses -/

/-- The state with voice `v` replaced. -/
def State.setVoice (s : State) (v : Nat) (vc : Voice) : State := { s with voices := s.voices.set v vc }

/-- What a U32 response holds: the value, where it fits 32 bits; a free value elsewhere (log entry 28). -/
def u32Of (n : Nat) : Nat := if n < 2 ^ 32 then n else (u32Outside n).toNat

/-- The state with one more value on the response channel (30_encoding.md R63). -/
def State.respond (s : State) (r : Response) : State := { s with responses := s.responses ++ [r] }

/-- The state with a NUM value on the response channel, "converted to binary64" (30_encoding.md R63). -/
def State.respondNum (s : State) (x : NumVal) : State := s.respond (.f64 (NumVal.toF64 s.params.num x))

/-! ### Ending a command with a refusal or a fault (60_exceptions.md R145) -/

/-- The state with its outcome record. -/
def State.record (s : State) (r : OutcomeRecord) : State := { s with outcome := some r }

/-- The fault of a code, with the faulted state. -/
def FaultCode.fault : FaultCode → State → Fault
  | .phaseRange, s => .phaseRange s
  | .romIndex, s => .romIndex s
  | .bufferRange, s => .bufferRange s
  | .nonfinite, s => .nonfinite s
  | .sampleRateRange, s => .sampleRateRange s

/-- The refusal of a reason, with the refused state. -/
def RefuseReason.refusal : RefuseReason → State → Refusal
  | .illegalOp, s => .illegalOp s
  | .badField, s => .badField s
  | .badVoice, s => .badVoice s
  | .badOperand, s => .badOperand s
  | .truncated, s => .truncated s

/-- The number of a fault code (60_exceptions.md R143). -/
def FaultCode.number : FaultCode → Nat
  | .phaseRange => 1
  | .romIndex => 2
  | .bufferRange => 3
  | .nonfinite => 4
  | .sampleRateRange => 5

/-- The number of a refusal reason (60_exceptions.md R142). -/
def RefuseReason.number : RefuseReason → Nat
  | .illegalOp => 1
  | .badField => 2
  | .badVoice => 3
  | .badOperand => 4
  | .truncated => 5

/-- `raise Fault(code)` by command `i`: nothing of the state changes but the record, which holds the code, the command's
index, its command word and, for PHASE_RANGE, the rest (60_exceptions.md R143, R145). -/
def raise (code : FaultCode) (i : Instr) (phase : Option PhaseInfo) (s : State) : Result :=
  .fault (code.fault (s.record (.faulted code s.cmdIndex i.commandWord phase)))

/-- `Refuse(reason)`: nothing of the state changes but the record (60_exceptions.md R142, R145). -/
def refuse (reason : RefuseReason) (cw : Option CommandWord) (s : State) : Result :=
  .refused (reason.refusal (s.record (.refused reason s.cmdIndex cw)))

/-- Runs a per-voice command on its voice; VOICE at or above NUM_VOICES is refused BAD_VOICE (30_encoding.md R62). -/
def withVoice (i : Instr) (v : Nat) (s : State) (run : Voice → Result) : Result :=
  match s.voices[v]? with
  | none => refuse .badVoice (some i.commandWord) s
  | some vc => run vc

/-! ### The host's operations (70_reset_and_hazards.md R155, R164) -/

/-- The host offers more commands, after those already in the stream. -/
def State.offer (s : State) (program : List Byte) : State := { s with stream := s.stream ++ program }

/-- The host resets the core: a new run from the reset state. The parameters and the output buffer are the host's and
are kept (R154 item 4, R155). -/
def State.hostReset (s : State) : State := State.resetWith s.params s.voices.length s.out

end Sys2Proof.Machine
end

