-- ==== Sys2Proof/Machine/Flags.lean ====
section
/-! DEFINITION. The status flags: `ACTIVE[v]`, the one flag of the machine (10_state.md R33, 60_exceptions.md R148), and the encodings of the named register values. -/

namespace Sys2Proof.Machine

/-- `ACTIVE = (env_stage != Idle)` (R33). -/
def Voice.active (vc : Voice) : Bool := vc.envStage != .idle

/-- The level outputs `ACTIVE[0 .. NUM_VOICES-1]` (60_exceptions.md R148). -/
def State.activeOutputs (s : State) : List Bool := s.voices.map Voice.active

/-- The U32 value of a flag: 1 or 0 (42_envelope.md R107). -/
def flagValue (b : Bool) : Nat := if b then 1 else 0

/-- The code of `env_stage` (10_state.md R28). -/
def Stage.code : Stage → Nat
  | .idle => 0
  | .attack => 1
  | .decay => 2
  | .sustain => 3
  | .release => 4

/-- The code of `osc_wave` (10_state.md R27). -/
def Family.code : Family → Nat
  | .sine => 0
  | .saw => 1
  | .square => 2
  | .triangle => 3

/-- The code of `flt_type` (10_state.md R34). -/
def Topology.code : Topology → Nat
  | .lowpass => 0
  | .highpass => 1
  | .bandpass => 2

end Sys2Proof.Machine
end

