-- ==== Sys2Proof/Machine/Operands.lean ====
section
/-! DEFINITION. The operand forms and the conversions the rules apply to operands: F64 words, selectors, clamps, `nearest`, `conv` and the MIDI note. -/

namespace Sys2Proof.Machine

open Sys2Proof Sys2Proof.Config

/-- `opnd_f64(w) = to_num(binary64(w))` (30_encoding.md R59, R61). -/
def opndF64 (nf : Arith) (w : OperandWord) : NumVal := NumVal.ofF64 nf w

/-- The family a waveform selector names; none for 4 .. 15 (30_encoding.md R66). -/
def familyOfSel : Nat → Option Family
  | 0 => some .sine
  | 1 => some .saw
  | 2 => some .square
  | 3 => some .triangle
  | _ => none

/-- The topology a filter-type selector names; none for 3 .. 15 (30_encoding.md R66). -/
def topologyOfSel : Nat → Option Topology
  | 0 => some .lowpass
  | 1 => some .highpass
  | 2 => some .bandpass
  | _ => none

/-- `min(1.0, max(0.0, x))` (44_voice.md R129, R133). -/
def clampUnit (nf : Arith) (x : NumVal) : NumVal := NumVal.min (NumVal.one nf) (NumVal.max NumVal.zero x)

/-- `nearest` from index `i` on, with the best index and distance so far (00_scope.md R15). -/
def nearestFrom (nf : Arith) (x : NumVal) : List NumVal → Nat → Nat → NumVal → Nat
  | [], _, best, _ => best
  | y :: ys, i, best, bd =>
    if NumVal.lt (NumVal.abs (NumVal.sub nf y x)) bd then nearestFrom nf x ys (i + 1) i (NumVal.abs (NumVal.sub nf y x))
    else nearestFrom nf x ys (i + 1) best bd

/-- `nearest(L, x)` (00_scope.md R15): the linear scan, a tie keeping the lower index. The distances are NUM's, so where
they round to one value, as for an `x` far above the list, the scan keeps a lower index than the exact distances would
(log entry 26). -/
def nearest (nf : Arith) : List NumVal → NumVal → Nat
  | [], _ => 0
  | y :: ys, x => nearestFrom nf x ys 1 0 (NumVal.abs (NumVal.sub nf y x))

/-- The scan answers the best index so far or one of the indices it scans. -/
theorem nearestFrom_lt {nf : Arith} (x : NumVal) (ys : List NumVal) (i best : Nat) (bd : NumVal) (h : best < i) :
    nearestFrom nf x ys i best bd < i + ys.length := by
  induction ys generalizing i best bd with
  | nil => simpa [nearestFrom] using h
  | cons y ys ih =>
    simp only [nearestFrom, List.length_cons]
    split
    · exact lt_of_lt_of_le (ih (i + 1) i _ (by omega)) (by omega)
    · exact lt_of_lt_of_le (ih (i + 1) best _ (by omega)) (by omega)

/-- `nearest` answers an index of its list. -/
theorem nearest_lt {nf : Arith} (l : List NumVal) (x : NumVal) (h : 0 < l.length) : nearest nf l x < l.length := by
  cases l with
  | nil => simp at h
  | cons y ys =>
    have := nearestFrom_lt (nf := nf) x ys 1 0 (NumVal.abs (NumVal.sub nf y x)) (by omega)
    simp only [nearest, List.length_cons]
    omega

/-- `nearest(BANK_FREQ, x)` (41_oscillator.md R86): R15's scan, whatever the frequency (log entry 26). -/
def nearestBankBin (nf : Arith) (bank : Vector NumVal numBankBins) (x : NumVal) : Fin numBankBins :=
  ⟨nearest nf bank.toList x, by simpa using nearest_lt bank.toList x (by simp)⟩

/-- The list FCUT of the filter-coefficient ROM. -/
def cutoffs (rom : FilterRom) : List NumVal := rom.toList.map (·.cutoff)

/-- `nearest(FCUT, x)` (43_filter.md R116): R15's scan, whatever the cutoff (log entry 26). -/
def nearestFilterBin (nf : Arith) (rom : FilterRom) (x : NumVal) : Fin numFilterBins :=
  ⟨nearest nf (cutoffs rom) x, by simpa [cutoffs] using nearest_lt (cutoffs rom) x (by simp [cutoffs])⟩

/-- `conv(sec) = min(CNT_MAX, max(MIN_SAMPLES, round(sec * fs)))` (42_envelope.md R96). -/
def conv (nf : Arith) (fs sec : NumVal) : Nat :=
  Nat.min cntMax (Nat.max minSamples (NumVal.round nf (NumVal.mul nf sec fs)).toNat)

/-- The frequency of a MIDI note: `440 * 2^((m' - 69) / 12)`, `m' = min(m, 127)` (44_voice.md R127). -/
def midiFrequency (nf : Arith) (m : Nat) : NumVal :=
  NumVal.mul nf (NumVal.midiRefHz nf)
    (NumVal.pow nf (NumVal.ofNat nf 2)
      (NumVal.div nf (NumVal.ofInt nf ((Nat.min m midiMaxNote : Int) - midiRefNote)) (NumVal.ofNat nf 12)))

end Sys2Proof.Machine
end

