-- ==== Sys2Proof/Machine/Envelope.lean ====
section
/-! DEFINITION. The ADSR envelope machine: its stage steps (42_envelope.md R99 to R103) and its five commands (R98, R104 to R107). -/

namespace Sys2Proof.Machine

open Sys2Proof Sys2Proof.Config

/-- `counter / count` in NUM, the integers converted exactly (R99). -/
def stageRatio (nf : Arith) (counter count : Nat) : NumVal :=
  NumVal.div nf (NumVal.ofNat nf counter) (NumVal.ofNat nf count)

/-- Enters Attack (R98). -/
def Voice.enterAttack (vc : Voice) : Voice :=
  { vc with envStage := .attack, envCounter := 0, envLevel := NumVal.zero }

/-- Enters Release; no effect in Idle (R105, D27). -/
def Voice.enterRelease (vc : Voice) : Voice :=
  if vc.envStage = .idle then vc
  else { vc with envRsl := vc.envLevel, envStage := .release, envCounter := 0 }

/-- Hard silence (R106). -/
def Voice.envSilence (vc : Voice) : Voice :=
  { vc with envStage := .idle, envCounter := 0, envLevel := NumVal.zero }

/-- The Attack step (R99). -/
def Voice.attackStep (vc : Voice) (nf : Arith) : Voice :=
  if vc.envA ≤ vc.envCounter + 1 then
    { vc with envStage := .decay, envCounter := 0, envLevel := NumVal.one nf }
  else
    { vc with envCounter := vc.envCounter + 1, envLevel := stageRatio nf (vc.envCounter + 1) vc.envA }

/-- The level a Decay step computes: `1.0 - (1.0 - sustain) * (counter / D)` (R100). -/
def decayLevel (nf : Arith) (sustain : NumVal) (counter count : Nat) : NumVal :=
  NumVal.sub nf (NumVal.one nf) (NumVal.mul nf (NumVal.sub nf (NumVal.one nf) sustain) (stageRatio nf counter count))

/-- The Decay step (R100). -/
def Voice.decayStep (vc : Voice) (nf : Arith) : Voice :=
  if vc.envD ≤ vc.envCounter + 1 then
    { vc with envStage := .sustain, envCounter := 0, envLevel := vc.envSustain }
  else
    { vc with envCounter := vc.envCounter + 1, envLevel := decayLevel nf vc.envSustain (vc.envCounter + 1) vc.envD }

/-- The Sustain step (R101). -/
def Voice.sustainStep (vc : Voice) : Voice := { vc with envLevel := vc.envSustain }

/-- The level a Release step computes: `rsl * (1.0 - counter / R)` (R102). -/
def releaseLevel (nf : Arith) (rsl : NumVal) (counter count : Nat) : NumVal :=
  NumVal.mul nf rsl (NumVal.sub nf (NumVal.one nf) (stageRatio nf counter count))

/-- The Release step (R102). -/
def Voice.releaseStep (vc : Voice) (nf : Arith) : Voice :=
  if decide (vc.envR ≤ vc.envCounter + 1) ||
      NumVal.le (releaseLevel nf vc.envRsl (vc.envCounter + 1) vc.envR) (NumVal.relFloor nf) then
    { vc with envStage := .idle, envCounter := 0, envLevel := NumVal.zero }
  else
    { vc with envCounter := vc.envCounter + 1, envLevel := releaseLevel nf vc.envRsl (vc.envCounter + 1) vc.envR }

/-- The Idle step (R103). -/
def Voice.idleStep (vc : Voice) : Voice := { vc with envLevel := NumVal.zero }

/-- One envelope step (R104). -/
def Voice.envStep (vc : Voice) (nf : Arith) : Voice :=
  match vc.envStage with
  | .idle => vc.idleStep
  | .attack => vc.attackStep nf
  | .decay => vc.decayStep nf
  | .sustain => vc.sustainStep
  | .release => vc.releaseStep nf

/-- ENV_ATTACK (R98). -/
def execEnvAttack (v : Nat) (s : State) : Result :=
  withVoice (.envAttack v) v s fun vc => .next (s.setVoice v vc.enterAttack)

/-- ENV_RELEASE (R105). -/
def execEnvRelease (v : Nat) (s : State) : Result :=
  withVoice (.envRelease v) v s fun vc => .next (s.setVoice v vc.enterRelease)

/-- ENV_RESET (R106). -/
def execEnvReset (v : Nat) (s : State) : Result :=
  withVoice (.envReset v) v s fun vc => .next (s.setVoice v vc.envSilence)

/-- ENV_NEXT (R104): the response is the level after the step. -/
def execEnvNext (v : Nat) (s : State) : Result :=
  withVoice (.envNext v) v s fun vc =>
    .next ((s.setVoice v (vc.envStep s.params.num)).respondNum (vc.envStep s.params.num).envLevel)

/-- ENV_ACTIVE (R107). -/
def execEnvActive (v : Nat) (s : State) : Result :=
  withVoice (.envActive v) v s fun vc => .next (s.respond (.u32 (flagValue vc.active)))

end Sys2Proof.Machine
end

