-- ==== Sys2Proof/Machine/Filter.lean ====
section
/-! DEFINITION. The one-pole filter: its equations (43_filter.md R117 to R119), its two commands (R120, R121) and the two reads of the coefficient ROM (R123, R124). -/

namespace Sys2Proof.Machine

open Sys2Proof Sys2Proof.Config

/-- The lowpass output `b * x + a * y1` (R117). -/
def lowpassOut (nf : Arith) (b : FilterBin) (vc : Voice) (x : NumVal) : NumVal :=
  NumVal.add nf (NumVal.mul nf b.lpB x) (NumVal.mul nf b.lpA vc.fltY1)

/-- The highpass output `alpha * ((y1 + x) - x1)` (R118). -/
def highpassOut (nf : Arith) (b : FilterBin) (vc : Voice) (x : NumVal) : NumVal :=
  NumVal.mul nf b.hpAlpha (NumVal.sub nf (NumVal.add nf vc.fltY1 x) vc.fltX1)

/-- The highpass stage of the bandpass: `(x - x1) + a_hp * y1` (R119). -/
def bandpassHigh (nf : Arith) (b : FilterBin) (vc : Voice) (x : NumVal) : NumVal :=
  NumVal.add nf (NumVal.sub nf x vc.fltX1) (NumVal.mul nf b.bpAHp vc.fltY1)

/-- The lowpass stage of the bandpass on the highpass output `yh`: `b_lp * yh + a_lp * y2` (R119). -/
def bandpassLow (nf : Arith) (b : FilterBin) (vc : Voice) (yh : NumVal) : NumVal :=
  NumVal.add nf (NumVal.mul nf b.bpBLp yh) (NumVal.mul nf b.bpALp vc.fltY2)

/-- The filter output for input `x`, by the voice's topology (R117 to R120). -/
def Voice.filterOut (vc : Voice) (nf : Arith) (b : FilterBin) (x : NumVal) : NumVal :=
  match vc.fltType with
  | .lowpass => lowpassOut nf b vc x
  | .highpass => highpassOut nf b vc x
  | .bandpass => bandpassLow nf b vc (bandpassHigh nf b vc x)

/-- The voice after filtering input `x`: its feedback memory, by the voice's topology (R117 to R119). -/
def Voice.filtered (vc : Voice) (nf : Arith) (b : FilterBin) (x : NumVal) : Voice :=
  match vc.fltType with
  | .lowpass => { vc with fltX1 := x, fltY1 := lowpassOut nf b vc x }
  | .highpass => { vc with fltX1 := x, fltY1 := highpassOut nf b vc x }
  | .bandpass =>
    { vc with
      fltX1 := x
      fltY1 := bandpassHigh nf b vc x
      fltX2 := bandpassHigh nf b vc x
      fltY2 := bandpassLow nf b vc (bandpassHigh nf b vc x) }

/-- The coefficients the voice's filter reads: those of bin `flt_bin` (R117). -/
def Voice.filterBin (vc : Voice) (s : State) : FilterBin := s.filterRom.get vc.fltBin

/-- The filter memory zeroed (R121). -/
def Voice.filterZeroed (vc : Voice) : Voice :=
  { vc with fltX1 := NumVal.zero, fltY1 := NumVal.zero, fltX2 := NumVal.zero, fltY2 := NumVal.zero }

/-- FLT_PROCESS (R120). -/
def execFltProcess (v : Nat) (x : OperandWord) (s : State) : Result :=
  withVoice (.fltProcess v x) v s fun vc =>
    if (opndF64 s.params.num x).finite then
      .next ((s.setVoice v (vc.filtered s.params.num (vc.filterBin s) (opndF64 s.params.num x))).respondNum
        (vc.filterOut s.params.num (vc.filterBin s) (opndF64 s.params.num x)))
    else raise .nonfinite (.fltProcess v x) none s

/-- FLT_RESET (R121). -/
def execFltReset (v : Nat) (s : State) : Result :=
  withVoice (.fltReset v) v s fun vc => .next (s.setVoice v vc.filterZeroed)

/-- FC_READ (R123): one ROM_INDEX check over topology, bin and coefficient. -/
def execFcRead (sel bin cix : Nat) (s : State) : Result :=
  match s.filterRom[bin]? with
  | none => raise .romIndex (.fcRead sel bin cix) none s
  | some b =>
    match b.coeff sel cix with
    | none => raise .romIndex (.fcRead sel bin cix) none s
    | some c => .next (s.respondNum c)

/-- FC_CUTOFF (R124). -/
def execFcCutoff (bin : Nat) (s : State) : Result :=
  match s.filterRom[bin]? with
  | none => raise .romIndex (.fcCutoff bin) none s
  | some b => .next (s.respondNum b.cutoff)

end Sys2Proof.Machine
end

