-- ==== Sys2Proof/Machine/Oscillator.lean ====
section
/-! DEFINITION. The oscillator: its per-sample function (41_oscillator.md R85 to R92) and its two commands (R93, R94). -/

namespace Sys2Proof.Machine

open Sys2Proof Sys2Proof.Config

/-- `0 <= p < 1`: the precondition of a lookup (R91). -/
def phaseInRange (nf : Arith) (p : NumVal) : Bool := NumVal.le NumVal.zero p && NumVal.lt p (NumVal.one nf)

/-- `i mod N` (R87), an index of a table of length `N`; for a negative `i` some index of it, a free value (log entry 31). -/
def tableIndex (i : Int) (len : Nat) : Nat := (if 0 ≤ i then i.toNat else modOutside i len) % len

/-- The interpolated lookup in a table `t` of length `len >= 1` at phase `p` (R87): `i0 = floor(p * N) mod N`,
`i1 = (i0 + 1) mod N`, `s = t[i0] + fr * (t[i1] - t[i0])`. -/
def lookup (nf : Arith) (t : Nat → NumVal) (len : Nat) (p : NumVal) : NumVal :=
  let pos := NumVal.mul nf p (NumVal.ofNat nf len)
  let i := NumVal.floor nf pos
  let fr := NumVal.sub nf pos (NumVal.ofInt nf i)
  let i0 := tableIndex i len
  let i1 := (i0 + 1) % len
  NumVal.add nf (t i0) (NumVal.mul nf fr (NumVal.sub nf (t i1) (t i0)))

/-- The sample of a table at phase `p`; 0.0 for an empty table (R88). -/
def tableSample (nf : Arith) (f : Family) (w : WaveBin) (p : NumVal) : NumVal :=
  if w.len = 0 then NumVal.zero else lookup nf (waveSample nf f w) w.len p

/-- The bank bin a voice's oscillator selects (R86). -/
def Voice.bankBin (vc : Voice) (s : State) : WaveBin :=
  s.waveRom.get (nearestBankBin s.params.num s.params.bankFreq vc.oscFreq)

/-- `out = s * osc_amp` (R89). -/
def Voice.oscOut (vc : Voice) (s : State) : NumVal :=
  NumVal.mul s.params.num (tableSample s.params.num vc.oscWave (vc.bankBin s) vc.oscPhase) vc.oscAmp

/-- The phase after one advance, wrapped at most once (R90). -/
def advancePhase (nf : Arith) (p delta : NumVal) : NumVal :=
  if NumVal.le (NumVal.one nf) (NumVal.add nf p delta) then NumVal.sub nf (NumVal.add nf p delta) (NumVal.one nf)
  else NumVal.add nf p delta

/-- The voice after one phase advance (R90). -/
def Voice.advance (vc : Voice) (nf : Arith) : Voice := { vc with oscPhase := advancePhase nf vc.oscPhase vc.oscDelta }

/-- OSC_NEXT (R93). -/
def execOscNext (v : Nat) (s : State) : Result :=
  withVoice (.oscNext v) v s fun vc =>
    if phaseInRange s.params.num vc.oscPhase then
      .next ((s.setVoice v (vc.advance s.params.num)).respondNum (vc.oscOut s))
    else raise .phaseRange (.oscNext v) (some { voice := v, sample := 0, phase := vc.oscPhase }) s

/-- OSC_RESET_PHASE (R94). -/
def execOscResetPhase (v : Nat) (s : State) : Result :=
  withVoice (.oscResetPhase v) v s fun vc => .next (s.setVoice v { vc with oscPhase := NumVal.zero })

end Sys2Proof.Machine
end

