-- ==== Sys2Proof/Machine/VoiceCommands.lean ====
section
/-! DEFINITION. The voice commands that set parameters and start and stop notes (44_voice.md R127 to R134), and SET_SAMPLE_RATE (R135). -/

namespace Sys2Proof.Machine

open Sys2Proof Sys2Proof.Config

/-- The oscillator set to a frequency: `osc_freq <- f; osc_delta <- f / fs` (R127, R128). -/
def Voice.setFrequency (vc : Voice) (nf : Arith) (fs f : NumVal) : Voice :=
  { vc with oscFreq := f, oscDelta := NumVal.div nf f fs }

/-- The sample counts of the time parameters under `fs` (42_envelope.md R97). -/
def Voice.reconvert (vc : Voice) (nf : Arith) (fs : NumVal) : Voice :=
  { vc with
    envA := conv nf fs vc.envAttackSec
    envD := conv nf fs vc.envDecaySec
    envR := conv nf fs vc.envReleaseSec }

/-- The envelope parameters loaded (R133). -/
def Voice.setEnvelope (vc : Voice) (nf : Arith) (fs a d s r : NumVal) : Voice :=
  { vc with envAttackSec := a, envDecaySec := d, envReleaseSec := r, envSustain := clampUnit nf s }.reconvert nf fs

/-- The filter type, cutoff and bin loaded; an undefined type selector leaves the type (R134, D24). -/
def Voice.setFilter (vc : Voice) (nf : Arith) (rom : FilterRom) (sel : Nat) (c : NumVal) : Voice :=
  { vc with
    fltType := (topologyOfSel sel).getD vc.fltType
    fltCutoff := c
    fltBin := nearestFilterBin nf rom c }

/-- A voice's rate-derived registers under a new rate and its ROMs (R135). -/
def Voice.rerate (vc : Voice) (nf : Arith) (fs : NumVal) (rom : FilterRom) : Voice :=
  { vc.reconvert nf fs with
    oscDelta := NumVal.div nf vc.oscFreq fs
    fltBin := nearestFilterBin nf rom vc.fltCutoff }

/-- SET_NOTE (R127). -/
def execSetNote (v midiNote : Nat) (s : State) : Result :=
  withVoice (.setNote v midiNote) v s fun vc =>
    .next (s.setVoice v (vc.setFrequency s.params.num s.fs (midiFrequency s.params.num midiNote)))

/-- SET_FREQ (R128). -/
def execSetFreq (v : Nat) (hz : OperandWord) (s : State) : Result :=
  withVoice (.setFreq v hz) v s fun vc =>
    if (opndF64 s.params.num hz).finite then
      .next (s.setVoice v (vc.setFrequency s.params.num s.fs (opndF64 s.params.num hz)))
    else raise .nonfinite (.setFreq v hz) none s

/-- SET_AMP (R129). -/
def execSetAmp (v : Nat) (gain : OperandWord) (s : State) : Result :=
  withVoice (.setAmp v gain) v s fun vc =>
    if (opndF64 s.params.num gain).finite then
      .next (s.setVoice v { vc with oscAmp := clampUnit s.params.num (opndF64 s.params.num gain) })
    else raise .nonfinite (.setAmp v gain) none s

/-- SET_WAVE (R130): a selector in 4 .. 15 is ignored. -/
def execSetWave (v sel : Nat) (s : State) : Result :=
  withVoice (.setWave v sel) v s fun vc =>
    .next (s.setVoice v { vc with oscWave := (familyOfSel sel).getD vc.oscWave })

/-- START_NOTE (R131): ENV_ATTACK and FLT_RESET; the phase is not reset. -/
def execStartNote (v : Nat) (s : State) : Result :=
  withVoice (.startNote v) v s fun vc => .next (s.setVoice v vc.enterAttack.filterZeroed)

/-- STOP_NOTE (R132): exactly ENV_RELEASE. -/
def execStopNote (v : Nat) (s : State) : Result :=
  withVoice (.stopNote v) v s fun vc => .next (s.setVoice v vc.enterRelease)

/-- SET_ENV (R133). -/
def execSetEnv (v : Nat) (attackSec decaySec sustainLevel releaseSec : OperandWord) (s : State) : Result :=
  withVoice (.setEnv v attackSec decaySec sustainLevel releaseSec) v s fun vc =>
    if (opndF64 s.params.num attackSec).finite && (opndF64 s.params.num decaySec).finite &&
        (opndF64 s.params.num sustainLevel).finite && (opndF64 s.params.num releaseSec).finite then
      .next (s.setVoice v (vc.setEnvelope s.params.num s.fs (opndF64 s.params.num attackSec)
        (opndF64 s.params.num decaySec) (opndF64 s.params.num sustainLevel) (opndF64 s.params.num releaseSec)))
    else raise .nonfinite (.setEnv v attackSec decaySec sustainLevel releaseSec) none s

/-- SET_FILTER (R134). -/
def execSetFilter (v sel : Nat) (cutoffHz : OperandWord) (s : State) : Result :=
  withVoice (.setFilter v sel cutoffHz) v s fun vc =>
    if (opndF64 s.params.num cutoffHz).finite then
      .next (s.setVoice v (vc.setFilter s.params.num s.filterRom sel (opndF64 s.params.num cutoffHz)))
    else raise .nonfinite (.setFilter v sel cutoffHz) none s

/-- The machine reconfigured for rate `h`: `fs`, both ROMs and every rate-derived register, in one step (R135,
20_memory.md R40, R52). -/
def State.reconfigure (s : State) (h : NumVal) : State :=
  { s with
    fs := h
    waveRom := generateWaveRom s.params.num s.params.bankFreq h
    filterRom := generateFilterRom s.params.num h
    voices := s.voices.map fun vc => vc.rerate s.params.num h (generateFilterRom s.params.num h) }

/-- SET_SAMPLE_RATE (R135): a non-positive rate is rejected with no effect; the checks in the order of
60_exceptions.md R144. -/
def execSetSampleRate (hz : OperandWord) (s : State) : Result :=
  if NumVal.le (opndF64 s.params.num hz) NumVal.zero then .next s
  else if !(opndF64 s.params.num hz).finite then raise .nonfinite (.setSampleRate hz) none s
  else if NumVal.le (opndF64 s.params.num hz) (NumVal.fsMin s.params.num) then
    raise .sampleRateRange (.setSampleRate hz) none s
  else .next (s.reconfigure (opndF64 s.params.num hz))

end Sys2Proof.Machine
end

