-- ==== Sys2Proof/Machine/Render.lean ====
section
/-! DEFINITION. The per-sample pipeline of a voice (44_voice.md R126) and RENDER (R136). -/

namespace Sys2Proof.Machine

open Sys2Proof Sys2Proof.Config

/-- The filter's input in one tick: the oscillator sample times the level after the envelope step (R126). -/
def Voice.tickInput (vc : Voice) (s : State) : NumVal :=
  NumVal.mul s.params.num (vc.oscOut s) (vc.envStep s.params.num).envLevel

/-- The voice after one tick: phase advance, envelope step, filter (R126). -/
def Voice.ticked (vc : Voice) (s : State) : Voice :=
  ((vc.advance s.params.num).envStep s.params.num).filtered s.params.num (vc.filterBin s) (vc.tickInput s)

/-- The sample of one tick (R126). -/
def Voice.tickOut (vc : Voice) (s : State) : NumVal := vc.filterOut s.params.num (vc.filterBin s) (vc.tickInput s)

/-- The state after one rendered sample of voice `v` at element `e`: the voice ticked and its sample accumulated into
every channel (R136). -/
def State.renderSample (s : State) (v : Nat) (vc : Voice) (e : Nat) : State :=
  (s.setVoice v (vc.ticked s)).accumulateAll e (vc.tickOut s)

/-- The samples of a RENDER from sample `i` on, `remaining` of them, `start` being the state before sample 0 (R136). The
loop stops once the voice is Idle. A PHASE_RANGE fault keeps the samples before it, the one exception to "a faulted command
changes no register, ROM or buffer element" (60_exceptions.md R145); a NONFINITE fault of the filter (43_filter.md R120)
changes nothing (log entry 18). -/
def renderFrom (cmd : Instr) (v off : Nat) (start : State) : Nat → Nat → State → Result
  | 0, _, s => .next s
  | remaining + 1, i, s =>
    withVoice cmd v s fun vc =>
      if vc.envStage = .idle then .next s
      else if !phaseInRange s.params.num vc.oscPhase then
        raise .phaseRange cmd (some { voice := v, sample := i, phase := vc.oscPhase }) s
      else if !(vc.tickInput s).finite then raise .nonfinite cmd none start
      else renderFrom cmd v off start remaining (i + 1) (s.renderSample v vc (off + i))

/-- RENDER (R136): BUFFER_RANGE is checked before any sample. -/
def execRender (v numSamples offset : Nat) (s : State) : Result :=
  withVoice (.render v numSamples offset) v s fun _ =>
    if s.params.bufLen < offset + numSamples then raise .bufferRange (.render v numSamples offset) none s
    else renderFrom (.render v numSamples offset) v offset s numSamples 0 s

end Sys2Proof.Machine
end

