-- ==== Sys2Proof/Machine/Wavetable.lean ====
section
/-! DEFINITION. The three reads of the wavetable ROM: 40_wavetable_rom.md R82 to R84. -/

namespace Sys2Proof.Machine

open Sys2Proof Sys2Proof.Config

/-- WT_READ (R82): one ROM_INDEX check over family, bin and index. -/
def execWtRead (sel bin index : Nat) (s : State) : Result :=
  match familyOfSel sel, s.waveRom[bin]? with
  | some f, some w =>
    if index < w.len then .next (s.respondNum (waveSample s.params.num f w index))
    else raise .romIndex (.wtRead sel bin index) none s
  | _, _ => raise .romIndex (.wtRead sel bin index) none s

/-- WT_LEN (R83). The response is a U32: a length of 2^32 or more returns a free value (log entry 28). -/
def execWtLen (bin : Nat) (s : State) : Result :=
  match s.waveRom[bin]? with
  | none => raise .romIndex (.wtLen bin) none s
  | some w => .next (s.respond (.u32 (u32Of w.len)))

/-- WT_FREQ (R84). -/
def execWtFreq (bin : Nat) (s : State) : Result :=
  match s.params.bankFreq[bin]? with
  | none => raise .romIndex (.wtFreq bin) none s
  | some f => .next (s.respondNum f)

end Sys2Proof.Machine
end

