-- ==== Sys2Proof/Machine/Dispatch.lean ====
section
/-! DEFINITION. The dispatch: one arm per command, each a direct call of its meaning. -/

namespace Sys2Proof.Machine

open Sys2Proof

/-- The effect of a decoded command on a state (60_exceptions.md R141). -/
def exec (i : Instr) (s : State) : Host.Outcome State Fault Refusal :=
  match i with
  | .setNote voice midiNote => Sys2Proof.Machine.execSetNote voice midiNote s
  | .setFreq voice hz => Sys2Proof.Machine.execSetFreq voice hz s
  | .setAmp voice gain => Sys2Proof.Machine.execSetAmp voice gain s
  | .setWave voice sel => Sys2Proof.Machine.execSetWave voice sel s
  | .startNote voice => Sys2Proof.Machine.execStartNote voice s
  | .stopNote voice => Sys2Proof.Machine.execStopNote voice s
  | .setEnv voice attackSec decaySec sustainLevel releaseSec => Sys2Proof.Machine.execSetEnv voice attackSec decaySec sustainLevel releaseSec s
  | .setFilter voice sel cutoffHz => Sys2Proof.Machine.execSetFilter voice sel cutoffHz s
  | .setSampleRate hz => Sys2Proof.Machine.execSetSampleRate hz s
  | .render voice numSamples offset => Sys2Proof.Machine.execRender voice numSamples offset s
  | .oscNext voice => Sys2Proof.Machine.execOscNext voice s
  | .oscResetPhase voice => Sys2Proof.Machine.execOscResetPhase voice s
  | .envAttack voice => Sys2Proof.Machine.execEnvAttack voice s
  | .envRelease voice => Sys2Proof.Machine.execEnvRelease voice s
  | .envReset voice => Sys2Proof.Machine.execEnvReset voice s
  | .envNext voice => Sys2Proof.Machine.execEnvNext voice s
  | .envActive voice => Sys2Proof.Machine.execEnvActive voice s
  | .fltProcess voice x => Sys2Proof.Machine.execFltProcess voice x s
  | .fltReset voice => Sys2Proof.Machine.execFltReset voice s
  | .wtRead sel bin index => Sys2Proof.Machine.execWtRead sel bin index s
  | .wtLen bin => Sys2Proof.Machine.execWtLen bin s
  | .wtFreq bin => Sys2Proof.Machine.execWtFreq bin s
  | .fcRead sel bin cix => Sys2Proof.Machine.execFcRead sel bin cix s
  | .fcCutoff bin => Sys2Proof.Machine.execFcCutoff bin s

end Sys2Proof.Machine
end

