-- ==== Sys2Proof/Machine/Fetch.lean ====
section
/-! DEFINITION. Taking the next command from the stream (20_memory.md R43, R45, R50; 30_encoding.md R65). -/

namespace Sys2Proof.Machine

open Sys2Proof

/-- The command the core executes next, and the state with that command's bytes taken from the stream; an error when the
stream's first command has no decoding. -/
def fetch (s : State) : Except DecodeError (Instr × State) :=
  match decode s.voices.length s.stream with
  | .error e => .error e
  | .ok (i, rest) => .ok (i, { s with stream := rest })

/-- The state after a command completes: the next command's index (60_exceptions.md R142). -/
def State.retire (s : State) : State := { s with cmdIndex := s.cmdIndex + 1 }

/-- Completes a command's outcome: a command that is done retires. -/
def finish : Result → Result
  | .next t => .next t.retire
  | .fault f => .fault f
  | .refused r => .refused r

/-- The state with a command, given by its bits as spec/opcode_table.json numbers them, put before the stream, where the
next fetch takes it, in a run that has met no refusal or fault (log entry 10). -/
def putCommand (s : State) (nbits w : Nat) : State :=
  { s with stream := tableBytes nbits w ++ s.stream, outcome := none }

end Sys2Proof.Machine
end

