-- ==== Sys2Proof/Machine/Step.lean ====
section
/-! DEFINITION. One step of the machine: the next command of the stream, decoded and executed (20_memory.md R50). -/

namespace Sys2Proof.Machine

open Sys2Proof

/-- One step. A run that has met a refusal or a fault takes no further step (60_exceptions.md R145). A run whose stream
is empty has ended (70_reset_and_hazards.md R164; log entry 11). Otherwise the next command is decoded and executed. -/
def step (s : State) : Host.Outcome State Fault Refusal :=
  if s.outcome.isSome then .refused .runEnded
  else if s.stream.isEmpty then .refused .streamEnd
  else
    match fetch s with
    | .error e => refuse e.reason e.cw s
    | .ok (i, t) => finish (exec i t)

/-- The state with a command placed where the next step fetches it (log entry 10). -/
def State.withFetchWord (s : State) (nbits w : Nat) : State := putCommand s nbits w

end Sys2Proof.Machine
end

