-- ==== Sys2Proof/Safety.lean ====
section
/-! DEFINITION. What a safe run is, and the invariants of 10_state.md in the terms the statements use. -/

namespace Sys2Proof.Machine

open Sys2Proof Sys2Proof.Config

/-! ### The parameters (00_scope.md R7) -/

/-- The constraints on BANK_FREQ: values of NUM, strictly increasing, the ends 20.0 and 20000.0 (40_wavetable_rom.md R71). -/
def bankLegal (nf : Arith) (bank : Vector NumVal numBankBins) : Bool :=
  decide (bank.toList.Pairwise fun a b => NumVal.lt a b = true) &&
    bank.toList.all (NumVal.inFmt nf) && bank.get 0 == NumVal.fLo nf &&
    bank.get 58 == NumVal.ofNat nf 20000

/-- The constraints of R7 on the OPEN parameters: BANK_FREQ's, and at least one element a channel. -/
def Params.legal (p : Params) : Bool := bankLegal p.num p.bankFreq && decide (1 ≤ p.bufLen)

/-- `1 <= NUM_VOICES <= 16` and `NUM_CHANNELS >= 1` (R7). -/
def State.shapeLegal (s : State) : Bool :=
  decide (1 ≤ s.voices.length ∧ s.voices.length ≤ 16 ∧ 1 ≤ s.out.length)

/-! ### The invariants of the registers -/

/-- A value in [0, 1]. -/
def inUnit (nf : Arith) (x : NumVal) : Bool := NumVal.le NumVal.zero x && NumVal.le x (NumVal.one nf)

/-- A legal sample rate: finite and above FS_MIN (10_state.md R21). -/
def rateLegal (nf : Arith) (fs : NumVal) : Bool := fs.finite && NumVal.lt (NumVal.fsMin nf) fs

/-- Both ROMs hold exactly what generation gives for the current rate (10_state.md R22). -/
def State.RomsMatch (s : State) : Prop :=
  s.waveRom = generateWaveRom s.params.num s.params.bankFreq s.fs ∧ s.filterRom = generateFilterRom s.params.num s.fs

/-- A voice's rate-derived registers agree with the rate and the coefficient ROM: `osc_delta` (10_state.md R25), the
sample counts (R30) and `flt_bin` (R35). -/
def Voice.RateMatch (vc : Voice) (nf : Arith) (fs : NumVal) (rom : FilterRom) : Prop :=
  vc.oscDelta = NumVal.div nf vc.oscFreq fs ∧
  vc.envA = conv nf fs vc.envAttackSec ∧ vc.envD = conv nf fs vc.envDecaySec ∧ vc.envR = conv nf fs vc.envReleaseSec ∧
  vc.fltBin = nearestFilterBin nf rom vc.fltCutoff

/-- Every voice's rate-derived registers agree with the rate. -/
def State.RatesMatch (s : State) : Prop := ∀ vc ∈ s.voices, vc.RateMatch s.params.num s.fs s.filterRom

/-- A voice's amplitude, sustain level, envelope level and release start level lie in [0, 1] (10_state.md R26, R32). -/
def Voice.LevelsInUnit (vc : Voice) (nf : Arith) : Prop :=
  inUnit nf vc.oscAmp ∧ inUnit nf vc.envSustain ∧ inUnit nf vc.envLevel ∧ inUnit nf vc.envRsl

/-- A voice's stage counter is at most CNT_MAX and its sample counts lie in 1 .. CNT_MAX (10_state.md R29, R30). -/
def Voice.CountsBounded (vc : Voice) : Prop :=
  vc.envCounter ≤ cntMax ∧ (1 ≤ vc.envA ∧ vc.envA ≤ cntMax) ∧ (1 ≤ vc.envD ∧ vc.envD ≤ cntMax) ∧
  (1 ≤ vc.envR ∧ vc.envR ≤ cntMax)

/-- An Idle voice is silent: level 0 and counter 0 (42_envelope.md R95, R102, R106). -/
def Voice.IdleSilent (vc : Voice) : Prop :=
  vc.envStage = .idle → vc.envLevel = NumVal.zero ∧ vc.envCounter = 0

/-- The frequency, the cutoff and the time parameters are finite (10_state.md R23, R31, R35). -/
def Voice.ParamsFinite (vc : Voice) : Prop :=
  vc.oscFreq.finite ∧ vc.fltCutoff.finite ∧ vc.envAttackSec.finite ∧ vc.envDecaySec.finite ∧
  vc.envReleaseSec.finite

/-- The registers of kind `num` of a voice (10_state.md section 7). -/
def Voice.numRegisters (vc : Voice) : List NumVal :=
  [vc.oscFreq, vc.oscPhase, vc.oscDelta, vc.oscAmp, vc.envLevel, vc.envAttackSec, vc.envDecaySec, vc.envReleaseSec,
   vc.envSustain, vc.envRsl, vc.fltCutoff, vc.fltX1, vc.fltY1, vc.fltX2, vc.fltY2]

/-- The entries of one bin of the coefficient ROM (20_memory.md R41). -/
def FilterBin.entries (b : FilterBin) : List NumVal :=
  [b.cutoff, b.lpB, b.lpA, b.hpAlpha, b.bpAHp, b.bpBLp, b.bpALp]

/-- Every register of kind `num` of a voice holds a value of NUM. -/
def Voice.InNum (vc : Voice) (nf : Arith) : Prop := ∀ x ∈ vc.numRegisters, NumVal.inFmt nf x = true

/-- "Values of kind `num` are computed in the arithmetic NUM" (00_scope.md R13): the rate, every voice's registers and the
coefficient ROM hold values of NUM. -/
def State.InNum (s : State) : Prop :=
  NumVal.inFmt s.params.num s.fs = true ∧ (∀ vc ∈ s.voices, vc.InNum s.params.num) ∧
  ∀ b ∈ s.filterRom.toList, ∀ x ∈ b.entries, NumVal.inFmt s.params.num x = true

/-- A phase increment in [0, 1): the caller's duty of 70_reset_and_hazards.md R159. -/
def Voice.DeltaInRange (vc : Voice) (nf : Arith) : Prop := phaseInRange nf vc.oscDelta

/-- Every channel of the output buffer is in canonical form. -/
def State.BufferCanonical (s : State) : Prop := ∀ m ∈ s.out, Memory.wf m

/-- Every listed element of every channel is one of the elements 0 .. BUF_LEN-1 (20_memory.md R38). -/
def State.BufferInside (s : State) : Prop := ∀ m ∈ s.out, ∀ p ∈ m, p.1 < s.params.bufLen

/-! ### Safe runs (60_exceptions.md R141, 70_reset_and_hazards.md R164) -/

/-- The next step completes its command. -/
def State.Completes (s : State) : Prop := ∃ t, step s = .next t

/-- The run from `s` has ended normally: every command of the stream is done (R164). -/
def State.EndedNormally (s : State) : Prop := s.outcome = none ∧ s.stream = []

/-- A run is safe for `k` steps: it meets no refusal and no fault before its stream ends (R141: "a run that keeps those
duties meets no fault"). -/
def SafeFor : Nat → State → Prop
  | 0, _ => True
  | k + 1, s => s.EndedNormally ∨ ∃ t, step s = .next t ∧ SafeFor k t

/-- Executes commands one after another, stopping at the first that does not complete (20_memory.md R50). -/
def execAll : List Instr → State → Result
  | [], s => .next s
  | i :: is, s =>
    match exec i s with
    | .next t => execAll is t
    | .fault f => .fault f
    | .refused r => .refused r

/-- Whether each of the next `count` ticks of a voice executes normally: until the voice is Idle, the lookup starts with
the phase in [0, 1) (41_oscillator.md R91) and the filter input is finite (43_filter.md R120). -/
def Voice.ticksOk (s : State) : Nat → Voice → Bool
  | 0, _ => true
  | count + 1, vc =>
    vc.envStage == .idle ||
      (phaseInRange s.params.num vc.oscPhase && (vc.tickInput s).finite && Voice.ticksOk s count (vc.ticked s))

/-- The voice after up to `count` ticks, stopping once it is Idle (44_voice.md R136). -/
def Voice.ticks (s : State) : Nat → Voice → Voice
  | 0, vc => vc
  | count + 1, vc => if vc.envStage = .idle then vc else Voice.ticks s count (vc.ticked s)

/-- The samples of up to `count` ticks of a voice, in order, stopping once it is Idle (44_voice.md R136). -/
def Voice.tickOuts (s : State) : Nat → Voice → List NumVal
  | 0, _ => []
  | count + 1, vc => if vc.envStage = .idle then [] else vc.tickOut s :: Voice.tickOuts s count (vc.ticked s)

/-! ### Stopped runs (60_exceptions.md R145) -/

/-- The faulted state a fault carries. -/
def Fault.faulted : Fault → State
  | .phaseRange s => s
  | .romIndex s => s
  | .bufferRange s => s
  | .nonfinite s => s
  | .sampleRateRange s => s

/-- `k` steps, stopping at the first that does not complete. -/
def runFor : Nat → State → Result
  | 0, s => .next s
  | k + 1, s =>
    match step s with
    | .next t => runFor k t
    | .fault f => .fault f
    | .refused r => .refused r

/-! ### The opcode map by columns (30_encoding.md R58, R64), as the statements read it -/

/-- The 24 opcodes. -/
def listedOpcodes : List Nat :=
  [0x01, 0x02, 0x03, 0x04, 0x05, 0x06, 0x07, 0x08, 0x09, 0x0A, 0x10, 0x11,
   0x20, 0x21, 0x22, 0x23, 0x24, 0x30, 0x31, 0x40, 0x41, 0x42, 0x50, 0x51]

/-- The opcodes of the global commands: SET_SAMPLE_RATE and the five ROM commands (R62). -/
def globalOpcodes : List Nat := [0x09, 0x40, 0x41, 0x42, 0x50, 0x51]

/-- The opcodes that use SEL. -/
def selOpcodes : List Nat := [0x04, 0x08, 0x40, 0x50]

/-- The opcodes that use BIN. -/
def binOpcodes : List Nat := [0x40, 0x41, 0x42, 0x50, 0x51]

/-- The opcodes that use CIX. -/
def cixOpcodes : List Nat := [0x50]

/-- The number of operand words an opcode fixes. -/
def wordCount (op : Nat) : Nat :=
  if op ∈ [0x01, 0x02, 0x03, 0x08, 0x09, 0x30, 0x40] then 1
  else if op = 0x0A then 2
  else if op = 0x07 then 4
  else 0

/-- The operand positions that hold a U32: SET_NOTE's one, RENDER's two, WT_READ's one (60_exceptions.md R142). -/
def u32Positions : List (Nat × Nat) := [(0x01, 0), (0x0A, 0), (0x0A, 1), (0x40, 0)]

/-- RSV or a field the opcode does not use is not 0 (R65 items 2 and 3). -/
def FieldSet (cw : Nat) : Prop :=
  cw / 2 ^ 24 ≠ 0 ∨
  (cw % 2 ^ 8 ∉ selOpcodes ∧ cw / 2 ^ 8 % 16 ≠ 0) ∨
  (cw % 2 ^ 8 ∉ binOpcodes ∧ cw / 2 ^ 12 % 64 ≠ 0) ∨
  (cw % 2 ^ 8 ∉ cixOpcodes ∧ cw / 2 ^ 18 % 4 ≠ 0) ∨
  (cw % 2 ^ 8 ∈ globalOpcodes ∧ cw / 2 ^ 20 % 16 ≠ 0)

/-- VOICE is at least NUM_VOICES on a per-voice command (R65 item 4). -/
def VoiceMissing (numVoices cw : Nat) : Prop :=
  cw % 2 ^ 8 ∉ globalOpcodes ∧ numVoices ≤ cw / 2 ^ 20 % 16

/-- A U32 operand's upper half is not 0 (R65 item 5). -/
def OperandTooLarge (cw : Nat) (ops : List Nat) : Prop :=
  ∃ j w, ops[j]? = some w ∧ (cw % 2 ^ 8, j) ∈ u32Positions ∧ 2 ^ 32 ≤ w

/-! ### The caller's duties (60_exceptions.md R141, 70_reset_and_hazards.md R159) -/

/-- The largest rate the statement about duties speaks of: 2^52 Hz. The spec bounds the rate by no such number; above it
a sine argument of table generation could overflow NUM. A premise of the model's own (log entry 23). -/
def rateBound (nf : Arith) : NumVal := NumVal.ofNat nf (2 ^ 52)

/-- A voice in good standing under a rate and its coefficient ROM: every invariant of 10_state.md, and a frequency in
[0, fs). -/
structure Voice.Good (vc : Voice) (nf : Arith) (fs : NumVal) (rom : FilterRom) : Prop where
  rates : vc.RateMatch nf fs rom
  inNum : vc.InNum nf
  levels : vc.LevelsInUnit nf
  counts : vc.CountsBounded
  silent : vc.IdleSilent
  finite : vc.ParamsFinite
  phase : phaseInRange nf vc.oscPhase = true
  freqLow : NumVal.le NumVal.zero vc.oscFreq = true
  freqHigh : NumVal.lt vc.oscFreq fs = true

/-- A machine in good standing. -/
structure State.Good (s : State) : Prop where
  wide : s.params.num.wide = true
  bank : bankLegal s.params.num s.params.bankFreq = true
  rate : rateLegal s.params.num s.fs = true
  modest : NumVal.le s.fs (rateBound s.params.num) = true
  rateInNum : NumVal.inFmt s.params.num s.fs = true
  roms : s.RomsMatch
  buffer : s.BufferCanonical
  inside : s.BufferInside
  voices : ∀ vc ∈ s.voices, vc.Good s.params.num s.fs s.filterRom

/-- The duties of the caller for one command: its voice, indices and buffer range exist, its numbers are finite, and it
keeps every frequency in [0, fs). -/
def State.DutyMet (s : State) : Instr → Prop
  | .setNote v m => v < s.voices.length ∧ NumVal.lt (midiFrequency s.params.num m) s.fs = true
  | .setFreq v hz => v < s.voices.length ∧ (opndF64 s.params.num hz).finite = true ∧
      NumVal.le NumVal.zero (opndF64 s.params.num hz) = true ∧ NumVal.lt (opndF64 s.params.num hz) s.fs = true
  | .setAmp v gain => v < s.voices.length ∧ (opndF64 s.params.num gain).finite = true
  | .setWave v _ => v < s.voices.length
  | .startNote v => v < s.voices.length
  | .stopNote v => v < s.voices.length
  | .setEnv v a d u r => v < s.voices.length ∧ (opndF64 s.params.num a).finite = true ∧
      (opndF64 s.params.num d).finite = true ∧ (opndF64 s.params.num u).finite = true ∧ (opndF64 s.params.num r).finite = true
  | .setFilter v _ c => v < s.voices.length ∧ (opndF64 s.params.num c).finite = true
  | .setSampleRate hz => NumVal.le (opndF64 s.params.num hz) NumVal.zero = true ∨
      ((opndF64 s.params.num hz).finite = true ∧ NumVal.lt (NumVal.fsMin s.params.num) (opndF64 s.params.num hz) = true ∧
        NumVal.le (opndF64 s.params.num hz) (rateBound s.params.num) = true ∧
        ∀ vc ∈ s.voices, NumVal.lt vc.oscFreq (opndF64 s.params.num hz) = true)
  | .render v n off => v < s.voices.length ∧ off + n ≤ s.params.bufLen
  | .oscNext v => v < s.voices.length
  | .oscResetPhase v => v < s.voices.length
  | .envAttack v => v < s.voices.length
  | .envRelease v => v < s.voices.length
  | .envReset v => v < s.voices.length
  | .envNext v => v < s.voices.length
  | .envActive v => v < s.voices.length
  | .fltProcess v x => v < s.voices.length ∧ (opndF64 s.params.num x).finite = true
  | .fltReset v => v < s.voices.length
  | .wtRead sel bin n => sel < 4 ∧ ∃ w, s.waveRom[bin]? = some w ∧ n < w.len
  | .wtLen bin => bin < 59
  | .wtFreq bin => bin < 59
  | .fcRead sel bin cix => bin < 50 ∧ ((sel = 0 ∧ cix < 2) ∨ (sel = 1 ∧ cix < 1) ∨ (sel = 2 ∧ cix < 3))
  | .fcCutoff bin => bin < 50

end Sys2Proof.Machine
end

