-- ==== Sys2Proof/Certificates/Slice0/Obligations.lean ====
section
/-! DEFINITION. The statements for the provers: what the encoding, each command and the machine as a whole do. -/

open Sys2Proof Sys2Proof.Config Sys2Proof.Machine

/-! ### The encoding -/

/-- 30_encoding.md R58, R64 and the command words of 95_test_vectors.md: a few words decode to the commands they stand
for. -/
def Obligations.SampleCommandWordsDecode : Prop :=
  decode 8 (leBytes 4 0x00100104) = .ok (.setWave 1 1, []) ∧
  decode 8 (leBytes 4 0x00000140 ++ leBytes 8 5) = .ok (.wtRead 1 0 5, []) ∧
  decode 8 (leBytes 4 0x000B1250) = .ok (.fcRead 2 49 2, []) ∧
  decode 8 (leBytes 4 0x00000108 ++ leBytes 8 0x408F400000000000) =
    .ok (.setFilter 0 1 0x408F400000000000#64, []) ∧
  decode 8 (leBytes 4 0x0000000A ++ leBytes 8 6 ++ leBytes 8 0) = .ok (.render 0 6 0, []) ∧
  decode 8 [0x09#8, 0x00#8, 0x00#8, 0x00#8, 0x00#8, 0x00#8, 0x00#8, 0x00#8, 0x00#8, 0x40#8, 0x8f#8, 0x40#8] =
    .ok (.setSampleRate 0x408F400000000000#64, [])

/-- 30_encoding.md R57 to R64: decoding the words of a well-formed command whose voice exists gives the command back, with
every operand, and leaves the bytes after it. -/
def Obligations.DecodeReadsBackEveryEncoding : Prop :=
  ∀ (numVoices : Nat) (i : Instr) (rest : List Byte), i.wellFormed = true →
    (∀ v, i.voice? = some v → v < numVoices) → decode numVoices (encode i ++ rest) = .ok (i, rest)

/-- 30_encoding.md R65 and R67: only the words of a well-formed command whose voice exists decode, and each has one
meaning. -/
def Obligations.EveryDecodedStreamIsAnEncoding : Prop :=
  ∀ (numVoices : Nat) (bs rest : List Byte) (i : Instr), decode numVoices bs = .ok (i, rest) →
    bs = encode i ++ rest ∧ i.wellFormed = true ∧ ∀ v, i.voice? = some v → v < numVoices

/-- 30_encoding.md R65: the checks on a command in their order, each refusal with the reason of the first that fails and
with nothing of the state changed but the record of 60_exceptions.md R142; a command that passes them all decodes; and a
command the stream ends inside of, its command word complete, is refused TRUNCATED. -/
def Obligations.FirstFailedCheckNamesTheReason : Prop :=
  (∀ (s : State) (cw : Nat) (ops : List Nat) (rest : List Byte),
    s.outcome = none → cw < 2 ^ 32 → (∀ w ∈ ops, w < 2 ^ 64) → ops.length = wordCount (cw % 2 ^ 8) →
    s.stream = leBytes 4 cw ++ ops.flatMap (leBytes 8) ++ rest →
    (cw % 2 ^ 8 ∉ listedOpcodes →
      step s = .refused (.illegalOp { s with
        outcome := some (.refused .illegalOp s.cmdIndex (some (BitVec.ofNat 32 cw))) })) ∧
    (cw % 2 ^ 8 ∈ listedOpcodes → FieldSet cw →
      step s = .refused (.badField { s with
        outcome := some (.refused .badField s.cmdIndex (some (BitVec.ofNat 32 cw))) })) ∧
    (cw % 2 ^ 8 ∈ listedOpcodes → ¬ FieldSet cw → VoiceMissing s.voices.length cw →
      step s = .refused (.badVoice { s with
        outcome := some (.refused .badVoice s.cmdIndex (some (BitVec.ofNat 32 cw))) })) ∧
    (cw % 2 ^ 8 ∈ listedOpcodes → ¬ FieldSet cw → ¬ VoiceMissing s.voices.length cw → OperandTooLarge cw ops →
      step s = .refused (.badOperand { s with
        outcome := some (.refused .badOperand s.cmdIndex (some (BitVec.ofNat 32 cw))) })) ∧
    (cw % 2 ^ 8 ∈ listedOpcodes → ¬ FieldSet cw → ¬ VoiceMissing s.voices.length cw → ¬ OperandTooLarge cw ops →
      ∃ i, decode s.voices.length s.stream = .ok (i, rest))) ∧
  (∀ (s : State) (cw : Nat) (bs : List Byte),
    s.outcome = none → cw < 2 ^ 32 → s.stream = leBytes 4 cw ++ bs → bs.length < 8 * wordCount (cw % 2 ^ 8) →
    step s = .refused (.truncated { s with
      outcome := some (.refused .truncated s.cmdIndex (some (BitVec.ofNat 32 cw))) }))

/-- 60_exceptions.md R144 item 1: TRUNCATED comes before any other check, on every stream that ends inside a command. For a
stream of fewer than four bytes the record holds no command word: the model's choice (log entry 15). -/
def Obligations.StreamEndingInsideACommandIsTruncated : Prop :=
  ∀ (s : State) (b : Byte) (bs : List Byte), s.outcome = none → s.stream = b :: bs →
    bs.length + 1 < 4 + 8 * wordCount b.toNat →
    ∃ cw, (cw = none ↔ bs.length + 1 < 4) ∧ (∀ w, cw = some w → w.toNat = leNat (s.stream.take 4)) ∧
      step s = .refused (.truncated { s with outcome := some (.refused .truncated s.cmdIndex cw) })

/-! ### The step -/

/-- 20_memory.md R50: when the stream starts with a command, step is exec of that command on the state with the command's
bytes taken, and a command that is done moves the index on by one. A stream with no command left is the end of the run
(70_reset_and_hazards.md R164; log entry 11). -/
def Obligations.StepExecutesTheDecodedCommand : Prop :=
  (∀ (s : State) (i : Instr) (rest : List Byte), s.outcome = none →
    decode s.voices.length s.stream = .ok (i, rest) →
    (∀ t, exec i { s with stream := rest } = .next t → step s = .next { t with cmdIndex := t.cmdIndex + 1 }) ∧
    (∀ f, exec i { s with stream := rest } = .fault f → step s = .fault f) ∧
    (∀ r, exec i { s with stream := rest } = .refused r → step s = .refused r)) ∧
  (∀ s : State, s.outcome = none → s.stream = [] → step s = .refused .streamEnd)

/-- 20_memory.md R50, 10_state.md R20: a program whose commands complete one after another is run by as many steps, in
stream order; nothing else happens. -/
def Obligations.ProgramCommandsRunInOrder : Prop :=
  ∀ (program : List Instr) (rest : List Byte) (s t : State), s.outcome = none →
    (∀ i ∈ program, i.wellFormed = true ∧ ∀ v, i.voice? = some v → v < s.voices.length) →
    execAll program s = .next t →
    runFor program.length { s with stream := serialise program ++ rest } =
      .next { t with stream := rest, cmdIndex := s.cmdIndex + program.length }

/-- 60_exceptions.md R145: a command that faults or is refused changes nothing of the state but the record (and the stream
it was taken from); the one exception is a RENDER that faults PHASE_RANGE at sample `k`: it keeps exactly the effects of its
samples before `k`. The record holds what R142 and R143 say: the code or reason, the index, the command word as the stream
gives it, and for PHASE_RANGE the voice, the sample (0 for OSC_NEXT) and the phase. The stopped state has no successor. The
model's own choices here: an empty stream is refused `streamEnd` (log entry 11), a state with a record `runEnded` (log entry
12), and no command word is recorded when the stream ends inside it (log entry 15). -/
def Obligations.StopsArePreciseRecordedAndFinal : Prop :=
  (∀ (s : State) (f : Fault), step s = .fault f →
    ∃ i rest code phase, decode s.voices.length s.stream = .ok (i, rest) ∧ f = code.fault f.faulted ∧
      f.faulted.outcome = some (.faulted code s.cmdIndex i.commandWord phase) ∧
      i.commandWord.toNat = leNat (s.stream.take 4) ∧ (phase.isSome ↔ code = .phaseRange) ∧
      (((∀ v n off, i = .render v n off → code ≠ .phaseRange) ∧
          (code = .phaseRange → ∃ v vc, i = .oscNext v ∧ s.voices[v]? = some vc ∧
            phaseInRange s.params.num vc.oscPhase = false ∧
            phase = some { voice := v, sample := 0, phase := vc.oscPhase }) ∧
          f.faulted = { s with stream := rest, outcome := f.faulted.outcome }) ∨
        ∃ v n off k t vc, i = .render v n off ∧ k < n ∧ exec (.render v k off) { s with stream := rest } = .next t ∧
          t.voices[v]? = some vc ∧ vc.envStage ≠ .idle ∧ f.faulted = { t with outcome := f.faulted.outcome } ∧
          code = .phaseRange ∧ phaseInRange s.params.num vc.oscPhase = false ∧
          phase = some { voice := v, sample := k, phase := vc.oscPhase }) ∧
      step f.faulted = .refused .runEnded) ∧
  (∀ (s : State) (r : Refusal), step s = .refused r →
    (r = .runEnded ∧ s.outcome ≠ none) ∨ (r = .streamEnd ∧ s.outcome = none ∧ s.stream = []) ∨
    ∃ reason cw, r = reason.refusal { s with outcome := some (.refused reason s.cmdIndex cw) } ∧
      (cw = none ↔ s.stream.length < 4) ∧ (∀ w, cw = some w → w.toNat = leNat (s.stream.take 4)) ∧
      step { s with outcome := some (.refused reason s.cmdIndex cw) } = .refused .runEnded) ∧
  (∀ s : State, s.outcome ≠ none → step s = .refused .runEnded)

/-! ### Reset -/

/-- 70_reset_and_hazards.md R154: what reset leaves, for any parameters, number of voices and buffer contents: the stated
numbers as values of NUM, and what they are, in units of it, in a NUM of the reference's kind at least as wide as binary32
(log entry 23). -/
def Obligations.ResetStateHasTheStatedValues : Prop :=
  ∀ (params : Params) (numVoices : Nat) (out : List Memory) (nf : Arith), params.num = nf →
    (State.resetWith params numVoices out).params = params ∧
    (State.resetWith params numVoices out).fs = NumVal.ofNat nf 44100 ∧
    (State.resetWith params numVoices out).waveRom = generateWaveRom nf params.bankFreq (NumVal.ofNat nf 44100) ∧
    (State.resetWith params numVoices out).filterRom = generateFilterRom nf (NumVal.ofNat nf 44100) ∧
    (State.resetWith params numVoices out).voices.length = numVoices ∧
    (∀ vc ∈ (State.resetWith params numVoices out).voices,
      vc = { oscFreq := .fin false 0, oscPhase := .fin false 0, oscDelta := .fin false 0, oscAmp := NumVal.ofNat nf 1
             oscWave := .sine, envStage := .idle, envCounter := 0, envLevel := .fin false 0, envRsl := .fin false 0
             envAttackSec := .fin false 0, envDecaySec := .fin false 0, envReleaseSec := .fin false 0
             envA := 1, envD := 1, envR := 1, envSustain := NumVal.ofNat nf 1, fltType := .lowpass
             fltCutoff := NumVal.ofNat nf 20000, fltBin := 49, fltX1 := .fin false 0, fltY1 := .fin false 0
             fltX2 := .fin false 0, fltY2 := .fin false 0 }) ∧
    (State.resetWith params numVoices out).out = out ∧
    (State.resetWith params numVoices out).outcome = none ∧
    (State.resetWith params numVoices out).activeOutputs = List.replicate numVoices false ∧
    (nf.wide = true → NumVal.ofNat nf 1 = .fin false (NumVal.unitMag nf) ∧
      NumVal.ofNat nf 44100 = .fin false (44100 * NumVal.unitMag nf) ∧
      NumVal.ofNat nf 20000 = .fin false (20000 * NumVal.unitMag nf))

/-- 70_reset_and_hazards.md R156, its inference that the reset state meets every invariant: `flt_bin` matches `flt_cutoff`,
the counts match the seconds, levels and phases are in range. The sentence "`flt_bin` is 49" is a premise on NUM, which
binary32 and binary64 meet; `Good` speaks of a NUM of the reference's kind at least as wide as binary32 (log entry 23).
State.reset is the model's choice of parameters and buffer (log entries 6, 7). -/
def Obligations.ResetStateMeetsEveryInvariant : Prop :=
  (∀ (params : Params) (numVoices : Nat) (out : List Memory) (nf : Arith), params.num = nf → nf.wide = true →
    bankLegal nf params.bankFreq = true →
    nearestFilterBin nf (generateFilterRom nf (NumVal.ofNat nf 44100)) (NumVal.ofNat nf 20000) = 49 →
    (∀ m ∈ out, Memory.wf m = true) → (∀ m ∈ out, ∀ p ∈ m, p.1 < params.bufLen) →
    (State.resetWith params numVoices out).Good) ∧
  (∀ nf : Arith, nf = binary32 ∨ nf = binary64 →
    nearestFilterBin nf (generateFilterRom nf (NumVal.ofNat nf 44100)) (NumVal.ofNat nf 20000) = 49) ∧
  State.reset.Good

/-! ### Invariants every step keeps -/

/-- 10_state.md R22: at every command boundary the ROMs hold exactly what generation gives for the current rate; they are
written only by SET_SAMPLE_RATE and by reset, every entry together. -/
def Obligations.RomsAlwaysMatchTheRate : Prop :=
  (∀ s t : State, step s = .next t → s.RomsMatch → t.RomsMatch) ∧
  (∀ (i : Instr) (s t : State), exec i s = .next t → (∀ hz, i ≠ .setSampleRate hz) →
    t.waveRom = s.waveRom ∧ t.filterRom = s.filterRom) ∧
  (∀ (hz : OperandWord) (s t : State), exec (.setSampleRate hz) s = .next t →
    (t.waveRom = s.waveRom ∧ t.filterRom = s.filterRom) ∨ t.RomsMatch) ∧
  (∀ (params : Params) (numVoices : Nat) (out : List Memory), (State.resetWith params numVoices out).RomsMatch)

/-- 10_state.md R25, R30, R35: every voice's increment is `osc_freq / fs`, its counts are the conversions of its seconds,
and its filter bin is the one nearest to its cutoff, at every command boundary. -/
def Obligations.RateDerivedRegistersAlwaysMatch : Prop :=
  ∀ s t : State, step s = .next t → s.RatesMatch → t.RatesMatch

/-- 10_state.md R26, R32: the amplitude, the sustain level, the envelope level and the release start level stay in [0, 1],
in every NUM of the reference's kind that holds the largest count (42_envelope.md R99 converts the counts to NUM; log entry
23). The envelope's counters are bounded as the next statement says. -/
def Obligations.LevelsStayBetweenZeroAndOne : Prop :=
  ∀ s t : State, step s = .next t → s.params.num.ieee = true → (NumVal.ofNat s.params.num cntMax).finite = true →
    (∀ vc ∈ s.voices, vc.CountsBounded) → (∀ vc ∈ s.voices, vc.LevelsInUnit s.params.num) →
    ∀ vc ∈ t.voices, vc.LevelsInUnit s.params.num

/-- 10_state.md R29, R30 and 42_envelope.md R103: the stage counter never exceeds CNT_MAX, the counts lie in 1 .. CNT_MAX,
and an Idle voice has level 0 and counter 0. -/
def Obligations.CountersStayBoundedAndIdleStaysSilent : Prop :=
  ∀ s t : State, step s = .next t → (∀ vc ∈ s.voices, vc.CountsBounded ∧ vc.IdleSilent) →
    ∀ vc ∈ t.voices, vc.CountsBounded ∧ vc.IdleSilent

/-- 41_oscillator.md R91, its inference: while every increment lies in [0, 1) a step keeps every phase in [0, 1). The
registers hold values of NUM, an arithmetic of the reference's kind (log entry 23), which every step keeps
(RateAndParametersStayLegal). -/
def Obligations.PhaseStaysBelowOneUnderTheDuty : Prop :=
  ∀ s t : State, step s = .next t → s.params.num.ieee = true → (∀ vc ∈ s.voices, vc.InNum s.params.num) →
    (∀ vc ∈ s.voices, vc.DeltaInRange s.params.num) → (∀ vc ∈ s.voices, phaseInRange s.params.num vc.oscPhase = true) →
    ∀ vc ∈ t.voices, phaseInRange s.params.num vc.oscPhase = true

/-- Every step keeps each channel of the output buffer in the model's canonical form (log entry 7), all its listed elements
among the elements 0 .. BUF_LEN-1 (20_memory.md R38), and the number of channels. -/
def Obligations.BufferStaysCanonical : Prop :=
  ∀ s t : State, step s = .next t → s.BufferCanonical → s.BufferInside →
    t.BufferCanonical ∧ t.BufferInside ∧ t.out.length = s.out.length

/-- 10_state.md R21, R23, R31, R35: in a NUM of the reference's kind (log entry 23) the rate stays finite and above FS_MIN;
frequencies, cutoffs and time parameters stay finite (where NUM is at least as wide as binary32, which the frequencies of
the MIDI notes fit); every value stays one of NUM (00_scope.md R13). In every NUM the parameters (00_scope.md R7) and the
number of voices never change. -/
def Obligations.RateAndParametersStayLegal : Prop :=
  ∀ s t : State, step s = .next t →
    (s.params.num.ieee = true → rateLegal s.params.num s.fs = true → rateLegal t.params.num t.fs = true) ∧
    (s.params.num.wide = true → (∀ vc ∈ s.voices, vc.ParamsFinite) → ∀ vc ∈ t.voices, vc.ParamsFinite) ∧
    (s.params.num.ieee = true → s.InNum → t.InNum) ∧
    t.params = s.params ∧ t.voices.length = s.voices.length ∧ t.outcome = none

/-! ### What a command leaves unchanged -/

/-- 10_state.md section 7, the column "written by": every register is written only by the commands its row lists. -/
def Obligations.RegistersWrittenOnlyByTheirCommands : Prop :=
  ∀ (i : Instr) (s t : State) (v : Nat) (vc vc' : Voice), exec i s = .next t →
    s.voices[v]? = some vc → t.voices[v]? = some vc' →
    ((∀ hz, i ≠ .setSampleRate hz) → t.fs = s.fs ∧ t.waveRom = s.waveRom ∧ t.filterRom = s.filterRom) ∧
    ((∀ hz, i ≠ .setFreq v hz) → (∀ m, i ≠ .setNote v m) → vc'.oscFreq = vc.oscFreq) ∧
    (i ≠ .oscNext v → i ≠ .oscResetPhase v → (∀ n off, i ≠ .render v n off) → vc'.oscPhase = vc.oscPhase) ∧
    ((∀ hz, i ≠ .setFreq v hz) → (∀ m, i ≠ .setNote v m) → (∀ hz, i ≠ .setSampleRate hz) →
      vc'.oscDelta = vc.oscDelta) ∧
    ((∀ a, i ≠ .setAmp v a) → vc'.oscAmp = vc.oscAmp) ∧
    ((∀ sel, i ≠ .setWave v sel) → vc'.oscWave = vc.oscWave) ∧
    (i ≠ .envAttack v → i ≠ .envRelease v → i ≠ .envReset v → i ≠ .envNext v → i ≠ .startNote v → i ≠ .stopNote v →
      (∀ n off, i ≠ .render v n off) →
      vc'.envStage = vc.envStage ∧ vc'.envCounter = vc.envCounter ∧ vc'.envLevel = vc.envLevel) ∧
    ((∀ a d u r, i ≠ .setEnv v a d u r) →
      vc'.envAttackSec = vc.envAttackSec ∧ vc'.envDecaySec = vc.envDecaySec ∧
      vc'.envReleaseSec = vc.envReleaseSec ∧ vc'.envSustain = vc.envSustain) ∧
    ((∀ a d u r, i ≠ .setEnv v a d u r) → (∀ hz, i ≠ .setSampleRate hz) →
      vc'.envA = vc.envA ∧ vc'.envD = vc.envD ∧ vc'.envR = vc.envR) ∧
    (i ≠ .envRelease v → i ≠ .stopNote v → vc'.envRsl = vc.envRsl) ∧
    ((∀ sel c, i ≠ .setFilter v sel c) → vc'.fltType = vc.fltType ∧ vc'.fltCutoff = vc.fltCutoff) ∧
    ((∀ sel c, i ≠ .setFilter v sel c) → (∀ hz, i ≠ .setSampleRate hz) → vc'.fltBin = vc.fltBin) ∧
    ((∀ x, i ≠ .fltProcess v x) → i ≠ .fltReset v → i ≠ .startNote v → (∀ n off, i ≠ .render v n off) →
      vc'.fltX1 = vc.fltX1 ∧ vc'.fltY1 = vc.fltY1 ∧ vc'.fltX2 = vc.fltX2 ∧ vc'.fltY2 = vc.fltY2)

/-- 20_memory.md R38: no command but RENDER writes the output buffer: every element of every channel reads as before. -/
def Obligations.OnlyRenderWritesTheBuffer : Prop :=
  ∀ (i : Instr) (s t : State), exec i s = .next t → (∀ v n off, i ≠ .render v n off) →
    t.out = s.out ∧ ∀ ch e, t.memRead ch e = s.memRead ch e

/-- 60_exceptions.md R151: a per-voice command leaves every register of every other voice alone, and every command but
SET_SAMPLE_RATE leaves the sample rate and the ROMs alone; a ROM read leaves every voice alone; no command reads or writes
the command stream: whatever stream stands in the state, a command completes, faults or is refused alike and leaves it. -/
def Obligations.CommandTouchesOnlyItsOwnVoice : Prop :=
  (∀ (i : Instr) (s t : State), exec i s = .next t →
    (∀ v w, i.voice? = some v → w ≠ v → t.voices[w]? = s.voices[w]?) ∧
    (i.voice? = none → (∀ hz, i ≠ .setSampleRate hz) → t.voices = s.voices) ∧
    ((∀ hz, i ≠ .setSampleRate hz) → t.fs = s.fs ∧ t.waveRom = s.waveRom ∧ t.filterRom = s.filterRom) ∧
    t.stream = s.stream ∧ t.cmdIndex = s.cmdIndex ∧ t.outcome = s.outcome) ∧
  (∀ (i : Instr) (s : State) (bs : List Byte),
    (∀ t, exec i s = .next t → exec i { s with stream := bs } = .next { t with stream := bs }) ∧
    (∀ (code : FaultCode) u, exec i s = .fault (code.fault u) →
      exec i { s with stream := bs } = .fault (code.fault { u with stream := bs })) ∧
    (∀ (reason : RefuseReason) u, exec i s = .refused (reason.refusal u) →
      exec i { s with stream := bs } = .refused (reason.refusal { u with stream := bs })))

/-- 44_voice.md R137: ACTIVE[v] falls only through a Release step reaching Idle or through ENV_RESET. -/
def Obligations.ActiveFallsOnlyByReleaseOrReset : Prop :=
  ∀ (i : Instr) (s t : State) (v : Nat) (vc vc' : Voice), exec i s = .next t →
    s.voices[v]? = some vc → t.voices[v]? = some vc' → vc.active = true → vc'.active = false →
    i = .envReset v ∨ (vc.envStage = .release ∧ (i = .envNext v ∨ ∃ n off, i = .render v n off))

/-- 30_encoding.md R63: the nine response commands return exactly one value, of their kind, after those already returned;
other commands return nothing, and neither does a command that faults or is refused. An F64 response is the NUM result
converted to binary64: the identity under the reference NUM. -/
def Obligations.ResponsesComeOnlyFromResponseCommands : Prop :=
  (∀ (i : Instr) (s t : State), exec i s = .next t →
    (((∃ v, i = .oscNext v) ∨ (∃ v, i = .envNext v) ∨ (∃ v x, i = .fltProcess v x) ∨ (∃ a b n, i = .wtRead a b n) ∨
        (∃ b, i = .wtFreq b) ∨ (∃ a b c, i = .fcRead a b c) ∨ (∃ b, i = .fcCutoff b)) ∧
      ∃ x, t.responses = s.responses ++ [.f64 (NumVal.toF64 s.params.num x)]) ∨
    (((∃ v, i = .envActive v) ∨ (∃ b, i = .wtLen b)) ∧ ∃ n, t.responses = s.responses ++ [.u32 n]) ∨
    ((∀ v, i ≠ .oscNext v) ∧ (∀ v, i ≠ .envNext v) ∧ (∀ v x, i ≠ .fltProcess v x) ∧ (∀ a b n, i ≠ .wtRead a b n) ∧
      (∀ b, i ≠ .wtFreq b) ∧ (∀ a b c, i ≠ .fcRead a b c) ∧ (∀ b, i ≠ .fcCutoff b) ∧ (∀ v, i ≠ .envActive v) ∧
      (∀ b, i ≠ .wtLen b) ∧ t.responses = s.responses)) ∧
  (∀ (i : Instr) (s : State) (f : Fault), exec i s = .fault f → f.faulted.responses = s.responses) ∧
  (∀ w : OperandWord, NumVal.toF64 binary64 (opndF64 binary64 w) = NumVal.ofWord w)

/-- 42_envelope.md R95: every transition of the stage machine has one of the causes of the table, and the stage counter is
0 after it. RENDER's transitions are those of its envelope steps, which ENV_NEXT's statement gives. -/
def Obligations.EnvelopeMakesOnlyTheListedTransitions : Prop :=
  ∀ (i : Instr) (s t : State) (v : Nat) (vc vc' : Voice) (nf : Arith), s.params.num = nf → exec i s = .next t →
    (∀ n off, i ≠ .render v n off) → s.voices[v]? = some vc → t.voices[v]? = some vc' →
    vc'.envStage ≠ vc.envStage →
    vc'.envCounter = 0 ∧
    ((vc'.envStage = .attack ∧ (i = .envAttack v ∨ i = .startNote v)) ∨
     (vc.envStage = .attack ∧ vc'.envStage = .decay ∧ i = .envNext v ∧ vc.envA ≤ vc.envCounter + 1) ∨
     (vc.envStage = .decay ∧ vc'.envStage = .sustain ∧ i = .envNext v ∧ vc.envD ≤ vc.envCounter + 1) ∨
     ((vc.envStage = .attack ∨ vc.envStage = .decay ∨ vc.envStage = .sustain) ∧ vc'.envStage = .release ∧
       (i = .envRelease v ∨ i = .stopNote v)) ∨
     (vc.envStage = .release ∧ vc'.envStage = .idle ∧ i = .envNext v ∧
       (vc.envR ≤ vc.envCounter + 1 ∨
        NumVal.le (NumVal.mul nf vc.envRsl (NumVal.sub nf (NumVal.one nf)
          (NumVal.div nf (NumVal.ofNat nf (vc.envCounter + 1)) (NumVal.ofNat nf vc.envR)))) (NumVal.relFloor nf) = true)) ∨
     (vc'.envStage = .idle ∧ i = .envReset v))

/-- 60_exceptions.md R143, the column "raised by". A RENDER's NONFINITE, which that column does not list, is the model's
reading of 43_filter.md R120: the filter of sample `k` has an input that is not finite (log entry 18). -/
def Obligations.FaultCodesComeOnlyFromTheirCommands : Prop :=
  ∀ (i : Instr) (s : State),
    (∀ u, exec i s = .fault (.phaseRange u) → (∃ v, i = .oscNext v) ∨ ∃ v n off, i = .render v n off) ∧
    (∀ u, exec i s = .fault (.romIndex u) → (∃ a b n, i = .wtRead a b n) ∨ (∃ b, i = .wtLen b) ∨
      (∃ b, i = .wtFreq b) ∨ (∃ a b c, i = .fcRead a b c) ∨ ∃ b, i = .fcCutoff b) ∧
    (∀ u, exec i s = .fault (.bufferRange u) → ∃ v n off, i = .render v n off ∧ s.params.bufLen < off + n) ∧
    (∀ u, exec i s = .fault (.nonfinite u) → (∃ v x, i = .setFreq v x) ∨ (∃ v x, i = .setAmp v x) ∨
      (∃ v a d q r, i = .setEnv v a d q r) ∨ (∃ v sel x, i = .setFilter v sel x) ∨ (∃ v x, i = .fltProcess v x) ∨
      (∃ x, i = .setSampleRate x) ∨
      ∃ v n off k t vc, i = .render v n off ∧ k < n ∧ exec (.render v k off) s = .next t ∧
        t.voices[v]? = some vc ∧ (vc.tickInput t).finite = false) ∧
    (∀ u, exec i s = .fault (.sampleRateRange u) → ∃ x, i = .setSampleRate x ∧
      NumVal.le (opndF64 s.params.num x) NumVal.zero = false ∧
      NumVal.le (opndF64 s.params.num x) (NumVal.fsMin s.params.num) = true)

/-- The one refusal a command's meaning has, when it is executed without the decoder's checks, is BAD_VOICE for a voice that
does not exist (30_encoding.md R62; log entry 13). No command is refused as not modelled. -/
def Obligations.ExecRefusesOnlyAMissingVoice : Prop :=
  ∀ (i : Instr) (s : State) (r : Refusal), exec i s = .refused r ↔
    ∃ v, i.voice? = some v ∧ s.voices.length ≤ v ∧
      r = .badVoice { s with outcome := some (.refused .badVoice s.cmdIndex (some i.commandWord)) }

/-! ### The voice commands -/

/-- 44_voice.md R127: SET_NOTE. -/
def Obligations.SetNoteTunesTheVoice : Prop :=
  (∀ v m, encode (.setNote v m) = leBytes 4 (0x01 + v * 2 ^ 20) ++ leBytes 8 m) ∧
  ∀ (v m : Nat) (s : State) (vc : Voice) (nf : Arith), s.params.num = nf → s.voices[v]? = some vc →
    exec (.setNote v m) s = .next { s with
      voices := s.voices.set v { vc with
        oscFreq := NumVal.mul nf (NumVal.ofNat nf 440) (NumVal.pow nf (NumVal.ofNat nf 2)
          (NumVal.div nf (NumVal.ofInt nf ((Nat.min m 127 : Int) - 69)) (NumVal.ofNat nf 12)))
        oscDelta := NumVal.div nf (NumVal.mul nf (NumVal.ofNat nf 440) (NumVal.pow nf (NumVal.ofNat nf 2)
          (NumVal.div nf (NumVal.ofInt nf ((Nat.min m 127 : Int) - 69)) (NumVal.ofNat nf 12)))) s.fs } }

/-- 44_voice.md R128: SET_FREQ. -/
def Obligations.SetFreqSetsFrequencyAndIncrement : Prop :=
  (∀ v hz, encode (.setFreq v hz) = leBytes 4 (0x02 + v * 2 ^ 20) ++ leBytes 8 hz.toNat) ∧
  ∀ (v : Nat) (hz : OperandWord) (s : State) (vc : Voice) (nf : Arith), s.params.num = nf → s.voices[v]? = some vc →
    ((opndF64 nf hz).finite = true → exec (.setFreq v hz) s = .next { s with
      voices := s.voices.set v { vc with oscFreq := opndF64 nf hz, oscDelta := NumVal.div nf (opndF64 nf hz) s.fs } }) ∧
    ((opndF64 nf hz).finite = false → exec (.setFreq v hz) s = .fault (.nonfinite { s with
      outcome := some (.faulted .nonfinite s.cmdIndex (BitVec.ofNat 32 (0x02 + v * 2 ^ 20)) none) }))

/-- 44_voice.md R129: SET_AMP clamps its gain to [0, 1]. -/
def Obligations.SetAmpClampsTheAmplitude : Prop :=
  (∀ v a, encode (.setAmp v a) = leBytes 4 (0x03 + v * 2 ^ 20) ++ leBytes 8 a.toNat) ∧
  ∀ (v : Nat) (a : OperandWord) (s : State) (vc : Voice) (nf : Arith), s.params.num = nf → s.voices[v]? = some vc →
    ((opndF64 nf a).finite = true → exec (.setAmp v a) s = .next { s with
      voices := s.voices.set v { vc with
        oscAmp := NumVal.min (NumVal.one nf) (NumVal.max NumVal.zero (opndF64 nf a)) } }) ∧
    ((opndF64 nf a).finite = false → exec (.setAmp v a) s = .fault (.nonfinite { s with
      outcome := some (.faulted .nonfinite s.cmdIndex (BitVec.ofNat 32 (0x03 + v * 2 ^ 20)) none) }))

/-- 44_voice.md R130: SET_WAVE selects one of the four families and ignores every other selector. -/
def Obligations.SetWaveSelectsOrIgnores : Prop :=
  (∀ v sel, encode (.setWave v sel) = leBytes 4 (0x04 + sel * 2 ^ 8 + v * 2 ^ 20)) ∧
  ∀ (v sel : Nat) (s : State) (vc : Voice), s.voices[v]? = some vc →
    (∀ f, (sel, f) ∈ [(0, Family.sine), (1, .saw), (2, .square), (3, .triangle)] →
      exec (.setWave v sel) s = .next { s with voices := s.voices.set v { vc with oscWave := f } }) ∧
    (4 ≤ sel → exec (.setWave v sel) s = .next s)

/-- 44_voice.md R131: START_NOTE enters Attack and zeroes the filter memory; the phase is kept. -/
def Obligations.StartNoteEntersAttackAndClearsTheFilter : Prop :=
  (∀ v, encode (.startNote v) = leBytes 4 (0x05 + v * 2 ^ 20)) ∧
  ∀ (v : Nat) (s : State) (vc : Voice), s.voices[v]? = some vc →
    exec (.startNote v) s = .next { s with
      voices := s.voices.set v { vc with
        envStage := .attack, envCounter := 0, envLevel := NumVal.zero
        fltX1 := NumVal.zero, fltY1 := NumVal.zero, fltX2 := NumVal.zero, fltY2 := NumVal.zero } }

/-- 44_voice.md R132: STOP_NOTE is exactly ENV_RELEASE. -/
def Obligations.StopNoteEntersReleaseUnlessIdle : Prop :=
  (∀ v, encode (.stopNote v) = leBytes 4 (0x06 + v * 2 ^ 20)) ∧
  ∀ (v : Nat) (s : State) (vc : Voice), s.voices[v]? = some vc →
    (vc.envStage = .idle → exec (.stopNote v) s = .next s) ∧
    (vc.envStage ≠ .idle → exec (.stopNote v) s = .next { s with
      voices := s.voices.set v { vc with envRsl := vc.envLevel, envStage := .release, envCounter := 0 } }) ∧
    exec (.stopNote v) s = exec (.envRelease v) s

/-- 44_voice.md R133: SET_ENV loads the seconds, the clamped sustain level and the converted counts; with a non-finite
operand it changes no register. -/
def Obligations.SetEnvLoadsTheEnvelope : Prop :=
  (∀ v a d u r, encode (.setEnv v a d u r) =
    leBytes 4 (0x07 + v * 2 ^ 20) ++ leBytes 8 a.toNat ++ leBytes 8 d.toNat ++ leBytes 8 u.toNat ++
      leBytes 8 r.toNat) ∧
  ∀ (v : Nat) (a d u r : OperandWord) (s : State) (vc : Voice) (nf : Arith), s.params.num = nf →
    s.voices[v]? = some vc →
    ((opndF64 nf a).finite = true ∧ (opndF64 nf d).finite = true ∧ (opndF64 nf u).finite = true ∧
      (opndF64 nf r).finite = true →
      exec (.setEnv v a d u r) s = .next { s with
        voices := s.voices.set v { vc with
          envAttackSec := opndF64 nf a, envDecaySec := opndF64 nf d, envReleaseSec := opndF64 nf r
          envSustain := NumVal.min (NumVal.one nf) (NumVal.max NumVal.zero (opndF64 nf u))
          envA := Nat.min 4294967295 (Nat.max 1 (NumVal.round nf (NumVal.mul nf (opndF64 nf a) s.fs)).toNat)
          envD := Nat.min 4294967295 (Nat.max 1 (NumVal.round nf (NumVal.mul nf (opndF64 nf d) s.fs)).toNat)
          envR := Nat.min 4294967295 (Nat.max 1 (NumVal.round nf (NumVal.mul nf (opndF64 nf r) s.fs)).toNat) } }) ∧
    ((opndF64 nf a).finite = false ∨ (opndF64 nf d).finite = false ∨ (opndF64 nf u).finite = false ∨
      (opndF64 nf r).finite = false →
      exec (.setEnv v a d u r) s = .fault (.nonfinite { s with
        outcome := some (.faulted .nonfinite s.cmdIndex (BitVec.ofNat 32 (0x07 + v * 2 ^ 20)) none) }))

/-- 44_voice.md R134: SET_FILTER loads the cutoff and its nearest bin, and the type unless the selector names none; the
filter memory is kept. -/
def Obligations.SetFilterLoadsTypeCutoffAndBin : Prop :=
  (∀ v sel c, encode (.setFilter v sel c) = leBytes 4 (0x08 + sel * 2 ^ 8 + v * 2 ^ 20) ++ leBytes 8 c.toNat) ∧
  ∀ (v sel : Nat) (c : OperandWord) (s : State) (vc : Voice) (nf : Arith), s.params.num = nf →
    s.voices[v]? = some vc →
    (∀ f, (sel, f) ∈ [(0, Topology.lowpass), (1, .highpass), (2, .bandpass)] ∨ (3 ≤ sel ∧ f = vc.fltType) →
      (opndF64 nf c).finite = true → ∃ b : Fin 50,
        b.val = nearest nf (s.filterRom.toList.map fun e => e.cutoff) (opndF64 nf c) ∧
        exec (.setFilter v sel c) s = .next { s with
          voices := s.voices.set v { vc with fltType := f, fltCutoff := opndF64 nf c, fltBin := b } }) ∧
    ((opndF64 nf c).finite = false → exec (.setFilter v sel c) s = .fault (.nonfinite { s with
      outcome := some (.faulted .nonfinite s.cmdIndex (BitVec.ofNat 32 (0x08 + sel * 2 ^ 8 + v * 2 ^ 20)) none) }))

/-- 44_voice.md R135: SET_SAMPLE_RATE rejects a non-positive rate with no effect, faults on NaN and +infinity, then on a
rate at or below FS_MIN, and else reconfigures the rate, both ROMs and every rate-derived register and nothing else. -/
def Obligations.SetSampleRateReconfiguresEverything : Prop :=
  (∀ hz, encode (.setSampleRate hz) = leBytes 4 0x09 ++ leBytes 8 hz.toNat) ∧
  ∀ (hz : OperandWord) (s : State) (nf : Arith), s.params.num = nf →
    (NumVal.le (opndF64 nf hz) NumVal.zero = true → exec (.setSampleRate hz) s = .next s) ∧
    (NumVal.le (opndF64 nf hz) NumVal.zero = false → (opndF64 nf hz).finite = false →
      exec (.setSampleRate hz) s = .fault (.nonfinite { s with
        outcome := some (.faulted .nonfinite s.cmdIndex 0x00000009#32 none) })) ∧
    (NumVal.le (opndF64 nf hz) NumVal.zero = false → (opndF64 nf hz).finite = true →
      NumVal.le (opndF64 nf hz) (NumVal.fsMin nf) = true →
      exec (.setSampleRate hz) s = .fault (.sampleRateRange { s with
        outcome := some (.faulted .sampleRateRange s.cmdIndex 0x00000009#32 none) })) ∧
    ((opndF64 nf hz).finite = true → NumVal.lt NumVal.zero (opndF64 nf hz) = true →
      NumVal.le (opndF64 nf hz) (NumVal.fsMin nf) = false →
      exec (.setSampleRate hz) s = .next { s with
        fs := opndF64 nf hz
        waveRom := generateWaveRom nf s.params.bankFreq (opndF64 nf hz)
        filterRom := generateFilterRom nf (opndF64 nf hz)
        voices := s.voices.map fun vc => { vc with
          oscDelta := NumVal.div nf vc.oscFreq (opndF64 nf hz)
          envA := conv nf (opndF64 nf hz) vc.envAttackSec
          envD := conv nf (opndF64 nf hz) vc.envDecaySec
          envR := conv nf (opndF64 nf hz) vc.envReleaseSec
          fltBin := nearestFilterBin nf (generateFilterRom nf (opndF64 nf hz)) vc.fltCutoff } })

/-- 44_voice.md R136 and 20_memory.md R42: RENDER ticks the voice until it is Idle or the samples are done, adds sample `j`
to element `offset + j` of every channel and leaves every other element and everything else alone; it faults BUFFER_RANGE
before any sample, and PHASE_RANGE at sample `k` with the effects of the samples before. `toOut` and `elementNum` are the
conversions to OUT_FMT and from it. -/
def Obligations.RenderAccumulatesTheVoicesTicks : Prop :=
  (∀ v n off, encode (.render v n off) = leBytes 4 (0x0A + v * 2 ^ 20) ++ leBytes 8 n ++ leBytes 8 off) ∧
  ∀ (v n off : Nat) (s : State) (vc : Voice) (nf : Arith), s.params.num = nf → s.voices[v]? = some vc →
    (s.params.bufLen < off + n → exec (.render v n off) s = .fault (.bufferRange { s with
      outcome := some (.faulted .bufferRange s.cmdIndex (BitVec.ofNat 32 (0x0A + v * 2 ^ 20)) none) })) ∧
    (off + n ≤ s.params.bufLen → Voice.ticksOk s n vc = true →
      ∃ t, exec (.render v n off) s = .next t ∧
        t = { s with voices := s.voices.set v (Voice.ticks s n vc), out := t.out } ∧ t.out.length = s.out.length ∧
        (s.BufferCanonical → ∀ ch j y, ch < s.out.length → (Voice.tickOuts s n vc)[j]? = some y →
          t.memRead ch (off + j) = toOut s.params
            (NumVal.add nf (elementNum s.params (s.memRead ch (off + j))) y)) ∧
        (∀ ch e, e < off ∨ off + (Voice.tickOuts s n vc).length ≤ e → t.memRead ch e = s.memRead ch e)) ∧
    (∀ k t, off + n ≤ s.params.bufLen → k < n → Voice.ticksOk s k vc = true →
      (Voice.ticks s k vc).envStage ≠ .idle → phaseInRange nf (Voice.ticks s k vc).oscPhase = false →
      exec (.render v k off) s = .next t →
      exec (.render v n off) s = .fault (.phaseRange { t with
        outcome := some (.faulted .phaseRange s.cmdIndex (BitVec.ofNat 32 (0x0A + v * 2 ^ 20))
          (some { voice := v, sample := k, phase := (Voice.ticks s k vc).oscPhase })) }))

/-! ### The oscillator -/

/-- 41_oscillator.md R93, with R86 to R90: OSC_NEXT returns the interpolated sample of the nearest bin's table, 0.0 for an
empty one, times the amplitude, and advances the phase with at most one wrap; a phase outside [0, 1) faults before any
write. The index `i0` is `i mod N`; for a negative `i`, which R87 leaves open, it is some index of the table (log entry
31). -/
def Obligations.OscNextReturnsTheSampleAndAdvances : Prop :=
  (∀ v, encode (.oscNext v) = leBytes 4 (0x10 + v * 2 ^ 20)) ∧
  ∀ (v : Nat) (s : State) (vc : Voice) (nf : Arith), s.params.num = nf → s.voices[v]? = some vc →
    (NumVal.le NumVal.zero vc.oscPhase = true ∧ NumVal.lt vc.oscPhase (NumVal.one nf) = true →
      ∀ (b : Fin 59) (w : WaveBin) (pos fr : NumVal),
        b.val = nearest nf s.params.bankFreq.toList vc.oscFreq → w = s.waveRom.get b →
        pos = NumVal.mul nf vc.oscPhase (NumVal.ofNat nf w.len) →
        fr = NumVal.sub nf pos (NumVal.ofInt nf (NumVal.floor nf pos)) →
        ∃ i0 : Nat, (0 ≤ NumVal.floor nf pos → i0 = (NumVal.floor nf pos).toNat % w.len) ∧ (0 < w.len → i0 < w.len) ∧
        ∀ sample next : NumVal,
        sample = (if w.len = 0 then NumVal.zero
          else NumVal.add nf (waveSample nf vc.oscWave w i0) (NumVal.mul nf fr
            (NumVal.sub nf (waveSample nf vc.oscWave w ((i0 + 1) % w.len)) (waveSample nf vc.oscWave w i0)))) →
        next = (if NumVal.le (NumVal.one nf) (NumVal.add nf vc.oscPhase vc.oscDelta) = true
          then NumVal.sub nf (NumVal.add nf vc.oscPhase vc.oscDelta) (NumVal.one nf)
          else NumVal.add nf vc.oscPhase vc.oscDelta) →
        exec (.oscNext v) s = .next { s with
          voices := s.voices.set v { vc with oscPhase := next }
          responses := s.responses ++ [.f64 (NumVal.toF64 nf (NumVal.mul nf sample vc.oscAmp))] }) ∧
    (¬ (NumVal.le NumVal.zero vc.oscPhase = true ∧ NumVal.lt vc.oscPhase (NumVal.one nf) = true) →
      exec (.oscNext v) s = .fault (.phaseRange { s with
        outcome := some (.faulted .phaseRange s.cmdIndex (BitVec.ofNat 32 (0x10 + v * 2 ^ 20))
          (some { voice := v, sample := 0, phase := vc.oscPhase })) }))

/-- 41_oscillator.md R94: OSC_RESET_PHASE. -/
def Obligations.OscResetPhaseZeroesThePhase : Prop :=
  (∀ v, encode (.oscResetPhase v) = leBytes 4 (0x11 + v * 2 ^ 20)) ∧
  ∀ (v : Nat) (s : State) (vc : Voice), s.voices[v]? = some vc →
    exec (.oscResetPhase v) s = .next { s with voices := s.voices.set v { vc with oscPhase := NumVal.zero } }

/-! ### The envelope -/

/-- 42_envelope.md R98: ENV_ATTACK. -/
def Obligations.EnvAttackEntersAttack : Prop :=
  (∀ v, encode (.envAttack v) = leBytes 4 (0x20 + v * 2 ^ 20)) ∧
  ∀ (v : Nat) (s : State) (vc : Voice), s.voices[v]? = some vc →
    exec (.envAttack v) s = .next { s with
      voices := s.voices.set v { vc with envStage := .attack, envCounter := 0, envLevel := NumVal.zero } }

/-- 42_envelope.md R105: ENV_RELEASE captures the level and enters Release; in Idle it has no effect. -/
def Obligations.EnvReleaseEntersReleaseUnlessIdle : Prop :=
  (∀ v, encode (.envRelease v) = leBytes 4 (0x21 + v * 2 ^ 20)) ∧
  ∀ (v : Nat) (s : State) (vc : Voice), s.voices[v]? = some vc →
    (vc.envStage = .idle → exec (.envRelease v) s = .next s) ∧
    (vc.envStage ≠ .idle → exec (.envRelease v) s = .next { s with
      voices := s.voices.set v { vc with envRsl := vc.envLevel, envStage := .release, envCounter := 0 } })

/-- 42_envelope.md R106: ENV_RESET. -/
def Obligations.EnvResetSilencesAtOnce : Prop :=
  (∀ v, encode (.envReset v) = leBytes 4 (0x22 + v * 2 ^ 20)) ∧
  ∀ (v : Nat) (s : State) (vc : Voice), s.voices[v]? = some vc →
    exec (.envReset v) s = .next { s with
      voices := s.voices.set v { vc with envStage := .idle, envCounter := 0, envLevel := NumVal.zero } }

/-- 42_envelope.md R104, with the stage steps R99 to R103: ENV_NEXT takes the step of the voice's stage and returns the
level after it. -/
def Obligations.EnvNextTakesOneStageStep : Prop :=
  (∀ v, encode (.envNext v) = leBytes 4 (0x23 + v * 2 ^ 20)) ∧
  ∀ (v : Nat) (s : State) (vc : Voice) (nf : Arith), s.params.num = nf → s.voices[v]? = some vc →
    ∃ vc', exec (.envNext v) s = .next { s with
        voices := s.voices.set v vc'
        responses := s.responses ++ [.f64 (NumVal.toF64 nf vc'.envLevel)] } ∧
      (vc.envStage = .idle → vc' = { vc with envLevel := NumVal.zero }) ∧
      (vc.envStage = .attack → vc.envA ≤ vc.envCounter + 1 →
        vc' = { vc with envStage := .decay, envCounter := 0, envLevel := NumVal.one nf }) ∧
      (vc.envStage = .attack → vc.envCounter + 1 < vc.envA →
        vc' = { vc with
          envCounter := vc.envCounter + 1
          envLevel := NumVal.div nf (NumVal.ofNat nf (vc.envCounter + 1)) (NumVal.ofNat nf vc.envA) }) ∧
      (vc.envStage = .decay → vc.envD ≤ vc.envCounter + 1 →
        vc' = { vc with envStage := .sustain, envLevel := vc.envSustain, envCounter := 0 }) ∧
      (vc.envStage = .decay → vc.envCounter + 1 < vc.envD →
        vc' = { vc with
          envCounter := vc.envCounter + 1
          envLevel := NumVal.sub nf (NumVal.one nf) (NumVal.mul nf (NumVal.sub nf (NumVal.one nf) vc.envSustain)
            (NumVal.div nf (NumVal.ofNat nf (vc.envCounter + 1)) (NumVal.ofNat nf vc.envD))) }) ∧
      (vc.envStage = .sustain → vc' = { vc with envLevel := vc.envSustain }) ∧
      (∀ level, vc.envStage = .release →
        level = NumVal.mul nf vc.envRsl (NumVal.sub nf (NumVal.one nf)
          (NumVal.div nf (NumVal.ofNat nf (vc.envCounter + 1)) (NumVal.ofNat nf vc.envR))) →
        (vc.envR ≤ vc.envCounter + 1 ∨ NumVal.le level (NumVal.relFloor nf) = true →
          vc' = { vc with envLevel := NumVal.zero, envStage := .idle, envCounter := 0 }) ∧
        (vc.envCounter + 1 < vc.envR → NumVal.le level (NumVal.relFloor nf) = false →
          vc' = { vc with envCounter := vc.envCounter + 1, envLevel := level }))

/-- 42_envelope.md R107: ENV_ACTIVE returns 1 unless the stage is Idle, and changes no state. -/
def Obligations.EnvActiveReportsTheStage : Prop :=
  (∀ v, encode (.envActive v) = leBytes 4 (0x24 + v * 2 ^ 20)) ∧
  ∀ (v : Nat) (s : State) (vc : Voice), s.voices[v]? = some vc →
    (vc.envStage ≠ .idle → exec (.envActive v) s = .next { s with responses := s.responses ++ [.u32 1] }) ∧
    (vc.envStage = .idle → exec (.envActive v) s = .next { s with responses := s.responses ++ [.u32 0] }) ∧
    (s.activeOutputs[v]? = some (decide (vc.envStage ≠ .idle)))

/-! ### The filter -/

/-- 43_filter.md R120, with R117 to R119: FLT_PROCESS by topology, its output and the feedback memory it leaves. -/
def Obligations.FltProcessFiltersOneSample : Prop :=
  (∀ v x, encode (.fltProcess v x) = leBytes 4 (0x30 + v * 2 ^ 20) ++ leBytes 8 x.toNat) ∧
  ∀ (v : Nat) (w : OperandWord) (s : State) (vc : Voice) (x y yh yl : NumVal) (c : FilterBin) (nf : Arith),
    s.params.num = nf → s.voices[v]? = some vc → x = opndF64 nf w → c = s.filterRom.get vc.fltBin →
    (x.finite = true → vc.fltType = .lowpass →
      y = NumVal.add nf (NumVal.mul nf c.lpB x) (NumVal.mul nf c.lpA vc.fltY1) →
      exec (.fltProcess v w) s = .next { s with
        voices := s.voices.set v { vc with fltX1 := x, fltY1 := y }
        responses := s.responses ++ [.f64 (NumVal.toF64 nf y)] }) ∧
    (x.finite = true → vc.fltType = .highpass →
      y = NumVal.mul nf c.hpAlpha (NumVal.sub nf (NumVal.add nf vc.fltY1 x) vc.fltX1) →
      exec (.fltProcess v w) s = .next { s with
        voices := s.voices.set v { vc with fltX1 := x, fltY1 := y }
        responses := s.responses ++ [.f64 (NumVal.toF64 nf y)] }) ∧
    (x.finite = true → vc.fltType = .bandpass →
      yh = NumVal.add nf (NumVal.sub nf x vc.fltX1) (NumVal.mul nf c.bpAHp vc.fltY1) →
      yl = NumVal.add nf (NumVal.mul nf c.bpBLp yh) (NumVal.mul nf c.bpALp vc.fltY2) →
      exec (.fltProcess v w) s = .next { s with
        voices := s.voices.set v { vc with fltX1 := x, fltY1 := yh, fltX2 := yh, fltY2 := yl }
        responses := s.responses ++ [.f64 (NumVal.toF64 nf yl)] }) ∧
    (x.finite = false → exec (.fltProcess v w) s = .fault (.nonfinite { s with
      outcome := some (.faulted .nonfinite s.cmdIndex (BitVec.ofNat 32 (0x30 + v * 2 ^ 20)) none) }))

/-- 43_filter.md R121: FLT_RESET. -/
def Obligations.FltResetZeroesTheMemory : Prop :=
  (∀ v, encode (.fltReset v) = leBytes 4 (0x31 + v * 2 ^ 20)) ∧
  ∀ (v : Nat) (s : State) (vc : Voice), s.voices[v]? = some vc →
    exec (.fltReset v) s = .next { s with
      voices := s.voices.set v { vc with
        fltX1 := NumVal.zero, fltY1 := NumVal.zero, fltX2 := NumVal.zero, fltY2 := NumVal.zero } }

/-! ### The ROM reads -/

/-- 40_wavetable_rom.md R82: WT_READ returns one sample of one table, normalised by the table's peak as R77 says, so that a
table whose peak is not above 0 reads 0.0; or it faults ROM_INDEX; it writes no state. Sample 0 of a generated table that
has one is 0.0 (in a NUM of the reference's kind at least as wide as binary32: log entry 23). -/
def Obligations.WtReadReturnsASample : Prop :=
  (∀ sel bin n, encode (.wtRead sel bin n) = leBytes 4 (0x40 + sel * 2 ^ 8 + bin * 2 ^ 12) ++ leBytes 8 n) ∧
  ∀ (sel bin n : Nat) (s : State) (nf : Arith), s.params.num = nf →
    (∀ (b : Fin 59) (f : Family) (w : WaveBin) (raw : Nat → NumVal) (m : NumVal), b.val = bin →
      (sel, f) ∈ [(0, Family.sine), (1, .saw), (2, .square), (3, .triangle)] → w = s.waveRom.get b → n < w.len →
      raw = rawSample nf f w.len w.harmonics →
      m = (List.range w.len).foldl (fun best j => NumVal.max best (NumVal.abs (raw j))) NumVal.zero →
      (NumVal.lt NumVal.zero m = true → exec (.wtRead sel bin n) s = .next { s with
        responses := s.responses ++ [.f64 (NumVal.toF64 nf (NumVal.mul nf (NumVal.div nf (raw n) m) (NumVal.one nf)))] }) ∧
      (NumVal.lt NumVal.zero m = false → exec (.wtRead sel bin n) s = .next { s with
        responses := s.responses ++ [.f64 NumVal.zero] })) ∧
    (3 < sel ∨ 58 < bin ∨ (∃ b : Fin 59, b.val = bin ∧ (s.waveRom.get b).len ≤ n) →
      exec (.wtRead sel bin n) s = .fault (.romIndex { s with
        outcome := some (.faulted .romIndex s.cmdIndex
          (BitVec.ofNat 32 (0x40 + sel * 2 ^ 8 + bin * 2 ^ 12)) none) })) ∧
    (∀ (b : Fin 59), nf.wide = true → s.RomsMatch → b.val = bin → sel ≤ 3 → 0 < (s.waveRom.get b).len →
      exec (.wtRead sel bin 0) s = .next { s with responses := s.responses ++ [.f64 NumVal.zero] })

/-- 40_wavetable_rom.md R83: WT_LEN; the length of a generated table is R72's, wherever the quotient is a finite number that
does not round below 0 (log entry 33), as it is at every legal rate under a legal bank in a NUM of the reference's kind at
least as wide as binary32 (log entry 23). What the U32 response holds for a length of
2^32 or more is a free value (log entry 28). -/
def Obligations.WtLenReturnsTheLength : Prop :=
  (∀ bin, encode (.wtLen bin) = leBytes 4 (0x41 + bin * 2 ^ 12)) ∧
  ∀ (bin : Nat) (s : State) (nf : Arith), s.params.num = nf →
    (∀ b : Fin 59, b.val = bin → ∃ n, exec (.wtLen bin) s = .next { s with responses := s.responses ++ [.u32 n] } ∧
      n < 2 ^ 32 ∧ ((s.waveRom.get b).len < 2 ^ 32 → n = (s.waveRom.get b).len)) ∧
    (58 < bin → exec (.wtLen bin) s = .fault (.romIndex { s with
      outcome := some (.faulted .romIndex s.cmdIndex (BitVec.ofNat 32 (0x41 + bin * 2 ^ 12)) none) })) ∧
    (∀ (b : Fin 59) (q : NumVal), s.RomsMatch → q = NumVal.div nf s.fs (s.params.bankFreq.get b) →
      (q.finite = true → 0 ≤ NumVal.round nf q → (s.waveRom.get b).len = (NumVal.round nf q).toNat) ∧
      (nf.wide = true → NumVal.inFmt nf s.fs = true → rateLegal nf s.fs = true → bankLegal nf s.params.bankFreq = true →
        q.finite = true ∧ 0 ≤ NumVal.round nf q))

/-- 40_wavetable_rom.md R84: WT_FREQ. -/
def Obligations.WtFreqReturnsTheCentreFrequency : Prop :=
  (∀ bin, encode (.wtFreq bin) = leBytes 4 (0x42 + bin * 2 ^ 12)) ∧
  ∀ (bin : Nat) (s : State),
    (∀ b : Fin 59, b.val = bin →
      exec (.wtFreq bin) s = .next { s with
        responses := s.responses ++ [.f64 (NumVal.toF64 s.params.num (s.params.bankFreq.get b))] }) ∧
    (58 < bin → exec (.wtFreq bin) s = .fault (.romIndex { s with
      outcome := some (.faulted .romIndex s.cmdIndex (BitVec.ofNat 32 (0x42 + bin * 2 ^ 12)) none) }))

/-- 43_filter.md R123 with the names of 20_memory.md R41: FC_READ; in a ROM that matches the rate every coefficient is the
one of R111 to R114, so those the rule lists are the same value. -/
def Obligations.FcReadReturnsACoefficient : Prop :=
  (∀ sel bin cix, encode (.fcRead sel bin cix) =
    leBytes 4 (0x50 + sel * 2 ^ 8 + bin * 2 ^ 12 + cix * 2 ^ 18)) ∧
  ∀ (sel bin cix : Nat) (s : State) (nf : Arith), s.params.num = nf →
    (∀ (b : Fin 50) (e : FilterBin) (c : NumVal), b.val = bin → e = s.filterRom.get b →
      ((sel, cix), c) ∈ [((0, 0), e.lpB), ((0, 1), e.lpA), ((1, 0), e.hpAlpha),
        ((2, 0), e.bpAHp), ((2, 1), e.bpBLp), ((2, 2), e.bpALp)] →
      exec (.fcRead sel bin cix) s = .next { s with responses := s.responses ++ [.f64 (NumVal.toF64 nf c)] }) ∧
    (2 < sel ∨ 49 < bin ∨ (sel, cix) ∉ [(0, 0), (0, 1), (1, 0), (2, 0), (2, 1), (2, 2)] →
      exec (.fcRead sel bin cix) s = .fault (.romIndex { s with
        outcome := some (.faulted .romIndex s.cmdIndex
          (BitVec.ofNat 32 (0x50 + sel * 2 ^ 8 + bin * 2 ^ 12 + cix * 2 ^ 18)) none) })) ∧
    (∀ (b : Fin 50) (e : FilterBin) (rc dt lp hp : NumVal), s.RomsMatch → e = s.filterRom.get b →
      rc = NumVal.div nf (NumVal.one nf) (NumVal.mul nf (NumVal.mul nf (NumVal.ofNat nf 2) (NumVal.pi nf)) e.cutoff) →
      dt = NumVal.div nf (NumVal.one nf) s.fs → lp = NumVal.div nf dt (NumVal.add nf rc dt) →
      hp = NumVal.div nf rc (NumVal.add nf rc dt) →
      e.lpB = lp ∧ e.lpA = NumVal.sub nf (NumVal.one nf) lp ∧ e.hpAlpha = hp ∧
        e.bpAHp = hp ∧ e.bpBLp = lp ∧ e.bpALp = NumVal.sub nf (NumVal.one nf) lp)

/-- 43_filter.md R124: FC_CUTOFF; in a ROM that matches the rate the cutoff is R110's, and bin 0's is 20.0 at every legal
rate (in a NUM of the reference's kind at least as wide as binary32: log entry 23). -/
def Obligations.FcCutoffReturnsTheCutoff : Prop :=
  (∀ bin, encode (.fcCutoff bin) = leBytes 4 (0x51 + bin * 2 ^ 12)) ∧
  ∀ (bin : Nat) (s : State) (nf : Arith), s.params.num = nf →
    (∀ b : Fin 50, b.val = bin →
      exec (.fcCutoff bin) s = .next { s with responses := s.responses ++ [.f64 (NumVal.toF64 nf (s.filterRom.get b).cutoff)] }) ∧
    (49 < bin → exec (.fcCutoff bin) s = .fault (.romIndex { s with
      outcome := some (.faulted .romIndex s.cmdIndex (BitVec.ofNat 32 (0x51 + bin * 2 ^ 12)) none) })) ∧
    (∀ (b : Fin 50) (top : NumVal), s.RomsMatch →
      top = NumVal.mul nf (NumVal.mul nf (NumVal.ofRat nf 95 100) (NumVal.div nf s.fs (NumVal.ofNat nf 2)))
        (NumVal.ofRat nf 1 2) →
      (s.filterRom.get b).cutoff = NumVal.mul nf (NumVal.ofNat nf 20)
        (NumVal.pow nf (NumVal.div nf top (NumVal.ofNat nf 20))
          (NumVal.div nf (NumVal.ofNat nf b.val) (NumVal.ofNat nf 49)))) ∧
    (nf.wide = true → NumVal.inFmt nf s.fs = true → s.RomsMatch → rateLegal nf s.fs = true →
      (s.filterRom.get 0).cutoff = NumVal.ofNat nf 20)

/-! ### Whole-machine rules -/

/-- 44_voice.md R136: a render of `a` samples and then of `b` more at the elements after them is the render of `a + b`
samples. -/
def Obligations.RenderSplitsIntoTwoRenders : Prop :=
  ∀ (v a b off : Nat) (s t u : State), exec (.render v a off) s = .next t → exec (.render v b (off + a)) t = .next u →
    exec (.render v (a + b) off) s = .next u

/-- 44_voice.md R126: one tick of a voice is OSC_NEXT, then ENV_NEXT, then FLT_PROCESS of the product of the values `o` and
`g` they return, which is returned converted to binary64 (30_encoding.md R63): for an operand word that stands for that
product, rendering one sample leaves the voice as the three commands do and adds the value `y` the third returns. -/
def Obligations.TickIsTheThreeBlockCommands : Prop :=
  ∀ (v off : Nat) (s s1 s2 : State) (vc : Voice) (nf : Arith), s.params.num = nf → s.voices[v]? = some vc →
    vc.envStage ≠ .idle → off + 1 ≤ s.params.bufLen →
    exec (.oscNext v) s = .next s1 → exec (.envNext v) s1 = .next s2 →
    ∃ o g, s1.responses = s.responses ++ [.f64 (NumVal.toF64 nf o)] ∧
      s2.responses = s1.responses ++ [.f64 (NumVal.toF64 nf g)] ∧
      ∀ (x : OperandWord) (s3 : State), opndF64 nf x = NumVal.mul nf o g → exec (.fltProcess v x) s2 = .next s3 →
        ∃ y t, s3.responses = s2.responses ++ [.f64 (NumVal.toF64 nf y)] ∧ exec (.render v 1 off) s = .next t ∧
          t.voices = s3.voices ∧ t = { s with voices := t.voices, out := t.out } ∧
          (s.BufferCanonical → ∀ ch < s.out.length,
            t.memRead ch off = toOut s.params (NumVal.add nf (elementNum s.params (s.memRead ch off)) y))

/-- 44_voice.md R139, its inference that voices do not interfere: a per-voice command on two machines that agree on the
rate, the ROMs, the parameters and that voice does the same to the voice, returns the same values and adds the same samples
to the same elements, whatever the other voices and the buffers hold. -/
def Obligations.OtherVoicesDoNotInterfere : Prop :=
  ∀ (i : Instr) (v : Nat) (s1 s2 t1 : State), i.voice? = some v → s1.params = s2.params → s1.fs = s2.fs →
    s1.waveRom = s2.waveRom → s1.filterRom = s2.filterRom → s1.voices[v]? = s2.voices[v]? → exec i s1 = .next t1 →
    ∃ (t2 : State) (returned : List Response) (e : Nat) (samples : List NumVal), exec i s2 = .next t2 ∧
      t1.voices[v]? = t2.voices[v]? ∧
      t1.responses = s1.responses ++ returned ∧ t2.responses = s2.responses ++ returned ∧
      (∀ s t, (s, t) = (s1, t1) ∨ (s, t) = (s2, t2) → s.BufferCanonical → ∀ ch < s.out.length,
        (∀ j y, samples[j]? = some y →
          t.memRead ch (e + j) = toOut s.params
            (NumVal.add s.params.num (elementNum s.params (s.memRead ch (e + j))) y)) ∧
        (∀ k, k < e ∨ e + samples.length ≤ k → t.memRead ch k = s.memRead ch k))

/-- 60_exceptions.md R141, its sentence "A run that keeps those duties meets no fault": from good standing, a command that
meets the caller's duties completes and leaves good standing. That NUM is of the reference's kind, at least as wide as
binary32 and the rate at most 2^52 Hz, inside `Good` and `DutyMet`, are the model's own premises (log entry 23). -/
def Obligations.DutyKeepingCommandsNeverStop : Prop :=
  ∀ (i : Instr) (s : State), s.Good → s.DutyMet i → ∃ t, exec i s = .next t ∧ t.Good

/-- 00_scope.md R15: `nearest` answers an index at the least distance, and the lowest such index, wherever no distance is a
NaN: in a NUM of the reference's kind, for every finite list and value. -/
def Obligations.NearestIsClosestAndLowest : Prop :=
  (∀ (nf : Arith) (l : List NumVal) (x : NumVal), l ≠ [] → (∀ y ∈ l, (NumVal.sub nf y x).isNaN = false) →
    ∃ z, l[nearest nf l x]? = some z ∧
      (∀ i y, l[i]? = some y →
        NumVal.le (NumVal.abs (NumVal.sub nf z x)) (NumVal.abs (NumVal.sub nf y x)) = true ∧
        (i < nearest nf l x → NumVal.lt (NumVal.abs (NumVal.sub nf z x)) (NumVal.abs (NumVal.sub nf y x)) = true))) ∧
  (∀ (nf : Arith) (x y : NumVal), nf.ieee = true → x.finite = true → y.finite = true →
    (NumVal.sub nf y x).isNaN = false)

/-- 42_envelope.md R109 items 1 and 2, its derived properties: the levels and stages of a voice `j` ENV_NEXTs after
ENV_ATTACK: j/A until Attack ends at step A with level 1.0; the decay levels until Decay ends at step A + D with the sustain
level; and the sustain level ever after. -/
def Obligations.AttackDecaySustainLevels : Prop :=
  ∀ (v j : Nat) (s : State) (vc : Voice) (nf : Arith), s.params.num = nf → s.voices[v]? = some vc →
    1 ≤ vc.envA → 1 ≤ vc.envD →
    ∃ t vc', execAll (.envAttack v :: List.replicate j (.envNext v)) s = .next t ∧ t.voices[v]? = some vc' ∧
      (1 ≤ j → j < vc.envA → vc' = { vc with
        envStage := .attack, envCounter := j
        envLevel := NumVal.div nf (NumVal.ofNat nf j) (NumVal.ofNat nf vc.envA) }) ∧
      (j = vc.envA → vc' = { vc with envStage := .decay, envCounter := 0, envLevel := NumVal.one nf }) ∧
      (∀ m, j = vc.envA + m → 1 ≤ m → m < vc.envD → vc' = { vc with
        envStage := .decay, envCounter := m
        envLevel := NumVal.sub nf (NumVal.one nf) (NumVal.mul nf (NumVal.sub nf (NumVal.one nf) vc.envSustain)
          (NumVal.div nf (NumVal.ofNat nf m) (NumVal.ofNat nf vc.envD))) }) ∧
      (vc.envA + vc.envD ≤ j → vc' = { vc with
        envStage := .sustain, envCounter := 0, envLevel := vc.envSustain })

/-- 42_envelope.md R109 item 3, its derived property: after ENV_RELEASE on an active voice, R ENV_NEXTs leave it Idle with
level 0. -/
def Obligations.ReleaseReachesIdleWithinItsCount : Prop :=
  ∀ (v : Nat) (s : State) (vc : Voice), s.voices[v]? = some vc → vc.envStage ≠ .idle → 1 ≤ vc.envR →
    ∃ t, execAll (.envRelease v :: List.replicate vc.envR (.envNext v)) s = .next t ∧
      t.voices[v]? = some { vc with
        envStage := .idle, envCounter := 0, envLevel := NumVal.zero, envRsl := vc.envLevel }

/-- 40_wavetable_rom.md R81 item 2, its derived property: sample 0 of every generated table that has one is 0.0, for every
family, in a NUM of the reference's kind at least as wide as binary32 (log entry 23). -/
def Obligations.GeneratedTablesStartAtZero : Prop :=
  ∀ (nf : Arith) (f : Family) (fs bankFreq : NumVal), nf.wide = true → 0 < (generateWaveBin nf fs bankFreq).len →
    waveSample nf f (generateWaveBin nf fs bankFreq) 0 = NumVal.zero

/-- 00_scope.md R13, the reference arithmetic's "round-to-nearest": no value of NUM is nearer to the exact sum, product or
quotient of two finite values than the result, when the result is finite; in every NUM of the reference's kind, of any
precision and range (log entry 23). -/
def Obligations.OperatorsRoundToNearest : Prop :=
  ∀ (nf : Arith) (x y z : NumVal), nf.ieee = true → x.finite = true → y.finite = true → z.finite = true →
    NumVal.inFmt nf z = true →
    ((NumVal.add nf x y).finite = true →
      |(NumVal.add nf x y).sval - (x.sval + y.sval)| ≤ |z.sval - (x.sval + y.sval)|) ∧
    ((NumVal.mul nf x y).finite = true →
      |(NumVal.mul nf x y).sval * NumVal.unitMag nf - x.sval * y.sval| ≤
        |z.sval * NumVal.unitMag nf - x.sval * y.sval|) ∧
    ((NumVal.div nf x y).finite = true → y.isZero = false →
      |(NumVal.div nf x y).sval * y.sval - x.sval * NumVal.unitMag nf| ≤
        |z.sval * y.sval - x.sval * NumVal.unitMag nf|)

/-- The model's reading of 43_filter.md R120 inside RENDER (log entry 18), with 60_exceptions.md R145: a filter input that is
not finite, at sample `k` of an active voice whose phase is in [0, 1), faults NONFINITE and changes no register, ROM or
buffer element. -/
def Obligations.RenderNonfiniteChangesNothing : Prop :=
  ∀ (v n off k : Nat) (s : State) (vc : Voice), s.voices[v]? = some vc → off + n ≤ s.params.bufLen → k < n →
    Voice.ticksOk s k vc = true → (Voice.ticks s k vc).envStage ≠ .idle →
    phaseInRange s.params.num (Voice.ticks s k vc).oscPhase = true →
    ((Voice.ticks s k vc).tickInput s).finite = false →
    exec (.render v n off) s = .fault (.nonfinite { s with
      outcome := some (.faulted .nonfinite s.cmdIndex (BitVec.ofNat 32 (0x0A + v * 2 ^ 20)) none) })

/-- 40_wavetable_rom.md R72 to R75, the rules of table generation written out: the length, the harmonic count and the raw
samples of a generated table, each sum from 0.0 in increasing order of its harmonics. A quotient that is not finite or
rounds below 0 has no length in the rule (log entry 33). -/
def Obligations.GeneratedTablesFollowTheHarmonicSums : Prop :=
  ∀ (nf : Arith) (fs bankFreq : NumVal) (len count n : Nat) (arg : Nat → NumVal),
    (∀ k, arg k = NumVal.div nf (NumVal.mul nf (NumVal.mul nf (NumVal.mul nf (NumVal.ofNat nf 2) (NumVal.pi nf))
      (NumVal.ofNat nf k)) (NumVal.ofNat nf n)) (NumVal.ofNat nf len)) →
    ((NumVal.div nf fs bankFreq).finite = true → 0 ≤ NumVal.round nf (NumVal.div nf fs bankFreq) →
      (generateWaveBin nf fs bankFreq).len = (NumVal.round nf (NumVal.div nf fs bankFreq)).toNat) ∧
    (generateWaveBin nf fs bankFreq).harmonics =
      Nat.min (if NumVal.lt (NumVal.ofNat nf 10000) bankFreq = true then 32 else 128)
        (NumVal.floor nf (NumVal.div nf (NumVal.mul nf (NumVal.ofRat nf 9 10) (NumVal.div nf fs (NumVal.ofNat nf 2)))
          bankFreq)).toNat ∧
    rawSample nf .sine len count n = NumVal.sin nf (arg 1) ∧
    rawSample nf .saw len count n = (List.range count).foldl (fun sum j =>
      NumVal.add nf sum (NumVal.div nf (NumVal.sin nf (arg (j + 1))) (NumVal.ofNat nf (j + 1)))) NumVal.zero ∧
    rawSample nf .square len count n = (List.range count).foldl (fun sum j =>
      NumVal.add nf sum (NumVal.div nf (NumVal.sin nf (arg (2 * j + 1))) (NumVal.ofNat nf (2 * j + 1))))
        NumVal.zero ∧
    rawSample nf .triangle len count n = (List.range count).foldl (fun sum m =>
      NumVal.add nf sum (NumVal.div nf
        (NumVal.mul nf (NumVal.ofInt nf (if m % 2 = 0 then 1 else -1)) (NumVal.sin nf (arg (2 * m + 1))))
        (NumVal.ofNat nf ((2 * m + 1) * (2 * m + 1))))) NumVal.zero
end

