-- ==== Sys2Proof/Laws/Decode.lean ====
section
/-! SUPPORT. The laws of the stream's words: bytes and numbers, the operand words of a command, the fields of a command word, and decoding a command whose words have all arrived. -/

namespace Sys2Proof

open Sys2Proof.Machine (RefuseReason)

/-! ### Bytes and numbers -/

@[simp] theorem leBytes_length (k w : Nat) : (leBytes k w).length = k := by
  induction k generalizing w with
  | zero => rfl
  | succ k ih => simp [leBytes, ih]

theorem leNat_leBytes (k w : Nat) : leNat (leBytes k w) = w % 256 ^ k := by
  induction k generalizing w with
  | zero => simp [leBytes, leNat, Nat.mod_one]
  | succ k ih =>
    rw [leBytes, leNat, ih, pow_succ, Nat.mul_comm (256 ^ k), Nat.mod_mul]
    simp

/-- A number that fits comes back from its bytes. -/
theorem leNat_leBytes_of_lt {k w : Nat} (h : w < 256 ^ k) : leNat (leBytes k w) = w := by
  rw [leNat_leBytes, Nat.mod_eq_of_lt h]

theorem leNat_lt (bs : List Byte) : leNat bs < 256 ^ bs.length := by
  induction bs with
  | nil => simp [leNat]
  | cons b bs ih =>
    have hb := b.isLt
    rw [leNat, List.length_cons, pow_succ]
    omega

/-- Bytes come back from their number. -/
theorem leBytes_leNat (bs : List Byte) : leBytes bs.length (leNat bs) = bs := by
  induction bs with
  | nil => rfl
  | cons b bs ih =>
    have hb := b.isLt
    rw [List.length_cons, leBytes, leNat]
    have h1 : (b.toNat + 256 * leNat bs) / 256 = leNat bs := by omega
    rw [h1, ih]
    congr 1
    apply BitVec.eq_of_toNat_eq
    rw [BitVec.toNat_ofNat]
    omega

/-! ### The operand words of a command -/

theorem flatMap_leBytes_length (ops : List Nat) : (ops.flatMap (leBytes 8)).length = 8 * ops.length := by
  induction ops with
  | nil => rfl
  | cons w ops ih => simp only [List.flatMap_cons, List.length_append, leBytes_length, ih, List.length_cons]; omega

/-- The operand words come back from their bytes. -/
theorem takeWords_flatMap (ops : List Nat) (rest : List Byte) (h : ∀ w ∈ ops, w < 2 ^ 64) :
    takeWords ops.length (ops.flatMap (leBytes 8) ++ rest) = some (ops, rest) := by
  induction ops with
  | nil => rfl
  | cons w ops ih =>
    have hw : leNat (leBytes 8 w) = w :=
      leNat_leBytes_of_lt (by have := h w (by simp); norm_num at this ⊢; exact this)
    have ht : (leBytes 8 w ++ (ops.flatMap (leBytes 8) ++ rest)).take 8 = leBytes 8 w :=
      List.take_left' (leBytes_length 8 w)
    have hd : (leBytes 8 w ++ (ops.flatMap (leBytes 8) ++ rest)).drop 8 = ops.flatMap (leBytes 8) ++ rest :=
      List.drop_left' (leBytes_length 8 w)
    rw [List.length_cons, takeWords, List.flatMap_cons, List.append_assoc, ht, hd,
      ih fun w hw' => h w (by simp [hw'])]
    simp [hw]

/-- What taking operand words says of the bytes. -/
theorem takeWords_some {k : Nat} {bs rest : List Byte} {ops : List Nat} (h : takeWords k bs = some (ops, rest)) :
    ops.length = k ∧ bs = ops.flatMap (leBytes 8) ++ rest ∧ ∀ w ∈ ops, w < 2 ^ 64 := by
  induction k generalizing bs ops rest with
  | zero => cases h; simp
  | succ k ih =>
    rw [takeWords] at h
    split at h
    · cases h
    next hlen =>
    cases ht : takeWords k (bs.drop 8) with
    | none => rw [ht] at h; cases h
    | some p =>
      obtain ⟨ws, r⟩ := p
      rw [ht] at h
      obtain ⟨h1, h2, h3⟩ := ih ht
      simp only [Option.some.injEq, Prod.mk.injEq] at h
      obtain ⟨rfl, rfl⟩ := h
      have h8 : (bs.take 8).length = 8 := by rw [List.length_take]; omega
      refine ⟨by rw [List.length_cons, h1], ?_, ?_⟩
      · rw [List.flatMap_cons, List.append_assoc, ← h2]
        have := leBytes_leNat (bs.take 8)
        rw [h8] at this
        rw [this, List.take_append_drop]
      · intro w hw
        rcases List.mem_cons.1 hw with rfl | hw
        · have := leNat_lt (bs.take 8)
          rw [h8] at this
          exact lt_of_lt_of_eq this (by norm_num)
        · exact h3 w hw

/-- The words have not all arrived exactly when the bytes are too few. -/
theorem takeWords_none {k : Nat} {bs : List Byte} : takeWords k bs = none ↔ bs.length < 8 * k := by
  induction k generalizing bs with
  | zero => simp [takeWords]
  | succ k ih =>
    rw [takeWords]
    split
    · simp; omega
    next hlen =>
    cases ht : takeWords k (bs.drop 8) with
    | none =>
      have := ih.1 ht
      rw [List.length_drop] at this
      simp; omega
    | some p =>
      have : ¬ (bs.drop 8).length < 8 * k := fun hc => by rw [ih.2 hc] at ht; cases ht
      rw [List.length_drop] at this
      simp; omega

/-! ### Decoding a command whose words have all arrived -/

/-- The words of a command whose operand words have all arrived decide what is decoded. -/
theorem decode_words (n : Nat) {cw : Nat} {ops : List Nat} (rest : List Byte) (hcw : cw < 2 ^ 32)
    (hops : ∀ w ∈ ops, w < 2 ^ 64) (hlen : ops.length = operandCount (fieldOp cw)) :
    decode n (leBytes 4 cw ++ ops.flatMap (leBytes 8) ++ rest) =
      match decodeWords n cw ops with
      | .error e => .error e
      | .ok i => .ok (i, rest) := by
  have h4 : (leBytes 4 cw ++ ops.flatMap (leBytes 8) ++ rest).take 4 = leBytes 4 cw := by
    rw [List.append_assoc]; exact List.take_left' (leBytes_length 4 cw)
  have hd : (leBytes 4 cw ++ ops.flatMap (leBytes 8) ++ rest).drop 4 = ops.flatMap (leBytes 8) ++ rest := by
    rw [List.append_assoc]; exact List.drop_left' (leBytes_length 4 cw)
  have hw : leNat (leBytes 4 cw) = cw :=
    leNat_leBytes_of_lt (by norm_num at hcw ⊢; exact hcw)
  rw [decode, if_neg (by simp), h4, hd, hw]
  dsimp only
  rw [← hlen, takeWords_flatMap ops rest hops]
  all_goals (dsimp only; cases decodeWords n cw ops <;> rfl)

/-- What a decoded command says of the stream's bytes: a command word and as many operand words as its opcode fixes. -/
theorem decode_ok {n : Nat} {bs rest : List Byte} {i : Instr} (h : decode n bs = .ok (i, rest)) :
    ∃ cw ops, cw < 2 ^ 32 ∧ (∀ w ∈ ops, w < 2 ^ 64) ∧ ops.length = operandCount (fieldOp cw) ∧
      bs = leBytes 4 cw ++ ops.flatMap (leBytes 8) ++ rest ∧ decodeWords n cw ops = .ok i := by
  rw [decode] at h
  split at h
  · cases h
  next hlen =>
  have h4 : (bs.take 4).length = 4 := by rw [List.length_take]; omega
  simp only at h
  cases ht : takeWords (operandCount (fieldOp (leNat (bs.take 4)))) (bs.drop 4) with
  | none => rw [ht] at h; cases h
  | some p =>
    obtain ⟨ops, r⟩ := p
    rw [ht] at h
    simp only at h
    cases hdw : decodeWords n (leNat (bs.take 4)) ops with
    | error e => rw [hdw] at h; cases h
    | ok j =>
      rw [hdw] at h
      simp only [Except.ok.injEq, Prod.mk.injEq] at h
      obtain ⟨rfl, rfl⟩ := h
      obtain ⟨h1, h2, h3⟩ := takeWords_some ht
      have hb := leBytes_leNat (bs.take 4)
      rw [h4] at hb
      refine ⟨leNat (bs.take 4), ops, ?_, h3, h1, ?_, hdw⟩
      · have := leNat_lt (bs.take 4)
        rw [h4] at this
        exact lt_of_lt_of_eq this (by norm_num)
      · rw [hb, List.append_assoc, ← h2, List.take_append_drop]

/-- A stream that ends inside a command. -/
theorem decode_truncated (n : Nat) {bs : List Byte} (h4 : 4 ≤ bs.length)
    (h : bs.length < 4 + 8 * operandCount (fieldOp (leNat (bs.take 4)))) :
    decode n bs = .error { reason := .truncated, cw := some (BitVec.ofNat 32 (leNat (bs.take 4))) } := by
  rw [decode, if_neg (by omega)]
  dsimp only
  rw [takeWords_none.2 (by rw [List.length_drop]; omega)]

/-! ### The fields of a command word -/

/-- The fields come back from the command word of the parts. -/
theorem Parts.fields {p : Parts} (ho : p.op < 256) (hs : p.sel < 16) (hb : p.bin < 64) (hc : p.cix < 4)
    (hv : p.voice < 16) :
    p.word < 2 ^ 32 ∧ fieldOp p.word = p.op ∧ fieldSel p.word = p.sel ∧ fieldBin p.word = p.bin ∧
      fieldCix p.word = p.cix ∧ fieldVoice p.word = p.voice ∧ fieldRsv p.word = 0 := by
  simp only [Parts.word, fieldOp, fieldSel, fieldBin, fieldCix, fieldVoice, fieldRsv]
  norm_num
  omega

/-- A command word whose RSV is 0 is the word of its fields. -/
theorem word_of_fields {cw : Nat} (h : cw < 2 ^ 32) (hr : fieldRsv cw = 0) :
    cw = fieldOp cw + fieldSel cw * 2 ^ 8 + fieldBin cw * 2 ^ 12 + fieldCix cw * 2 ^ 18 + fieldVoice cw * 2 ^ 20 := by
  simp only [fieldOp, fieldSel, fieldBin, fieldCix, fieldVoice, fieldRsv] at *
  norm_num at *
  omega

/-! ### The parts of a command and the row of its opcode -/

theorem f64Word_toNat (w : OperandWord) : f64Word w.toNat = w := by simp [f64Word]

theorem toNat_f64Word {w : Nat} (h : w < 2 ^ 64) : (f64Word w).toNat = w := by
  rw [f64Word, BitVec.toNat_ofNat]; exact Nat.mod_eq_of_lt h

theorem fields_lt (cw : Nat) : fieldSel cw < 16 ∧ fieldBin cw < 64 ∧ fieldCix cw < 4 ∧ fieldVoice cw < 16 := by
  simp only [fieldSel, fieldBin, fieldCix, fieldVoice]; omega

theorem operandCount_parts (i : Instr) : i.parts.operands.length = operandCount i.parts.op := by
  cases i <;> rfl

/-- A well-formed command's fields fit the command word. -/
theorem parts_fit {i : Instr} (h : i.wellFormed = true) : i.parts.op < 256 ∧ i.parts.sel < 16 ∧ i.parts.bin < 64 ∧
    i.parts.cix < 4 ∧ i.parts.voice < 16 := by
  cases i <;> simp [Instr.wellFormed, Instr.parts, voiceFits, selFits, binFits, cixFits, u32Fits] at h ⊢ <;> omega

/-- A well-formed command's operands fit their words. -/
theorem operands_fit {i : Instr} (h : i.wellFormed = true) : ∀ w ∈ i.parts.operands, w < 2 ^ 64 := by
  rw [show (2 : Nat) ^ 64 = 18446744073709551616 by norm_num]
  cases i <;> simp [Instr.wellFormed, Instr.parts, voiceFits, selFits, binFits, cixFits, u32Fits] at h ⊢ <;> omega

/-- A well-formed command uses only the fields of its opcode's row, and its U32 operands fit. -/
theorem row_parts {n : Nat} {i : Instr} (h : i.wellFormed = true) (hv : ∀ v, i.voice? = some v → v < n) :
    ∃ r, findRow i.parts.op = some r ∧ (r.sel = false → i.parts.sel = 0) ∧ (r.bin = false → i.parts.bin = 0) ∧
      (r.cix = false → i.parts.cix = 0) ∧ (r.voice = false → i.parts.voice = 0) ∧
      (r.voice = true → i.parts.voice < n) ∧ badOperandAmong r.operands i.parts.operands = false := by
  cases i <;> simp [Instr.wellFormed, Instr.voice?] at h hv <;>
    refine ⟨_, rfl, ?_⟩ <;> simp [Instr.parts, voiceRow, romRow, badOperandAmong, h, hv]

/-- The command of its own parts. -/
theorem assemble_parts {cw : Nat} (i : Instr) (h1 : fieldOp cw = i.parts.op) (h2 : fieldSel cw = i.parts.sel)
    (h3 : fieldBin cw = i.parts.bin) (h4 : fieldCix cw = i.parts.cix) (h5 : fieldVoice cw = i.parts.voice) :
    assemble cw i.parts.operands = some i := by
  unfold assemble
  rw [h1, h2, h3, h4, h5]
  cases i <;> simp [Instr.parts, f64Word_toNat]

/-- A well-formed command whose voice exists passes every check of R65. -/
theorem legality_parts {cw n : Nat} {i : Instr} (h : i.wellFormed = true) (hv : ∀ v, i.voice? = some v → v < n)
    (h2 : fieldSel cw = i.parts.sel) (h3 : fieldBin cw = i.parts.bin) (h4 : fieldCix cw = i.parts.cix)
    (h5 : fieldVoice cw = i.parts.voice) (h6 : fieldRsv cw = 0) :
    legality n (findRow i.parts.op) cw i.parts.operands = none := by
  obtain ⟨r, hr, a, b, c, d, e, f⟩ := row_parts h hv
  have hu : unusedFieldSet r cw = false := by
    simp only [unusedFieldSet, h2, h3, h4, h5]
    cases hs : r.sel <;> cases hb : r.bin <;> cases hc : r.cix <;> cases hvv : r.voice <;>
      simp [hs, hb, hc, hvv] at a b c d ⊢ <;> simp [*]
  have hv2 : (r.voice && decide (n ≤ fieldVoice cw)) = false := by
    rw [h5]; cases hvv : r.voice <;> simp [hvv] at e ⊢; exact e
  simp [legality, hr, h6, hu, hv2, f]

/-- What passing every check says. -/
theorem legality_none {n cw : Nat} {row : Option OpRow} {ops : List Nat} (h : legality n row cw ops = none) :
    ∃ r, row = some r ∧ fieldRsv cw = 0 ∧ unusedFieldSet r cw = false ∧ (r.voice = true → fieldVoice cw < n) ∧
      badOperandAmong r.operands ops = false := by
  cases row with
  | none => simp [legality] at h
  | some r =>
    rw [legality] at h
    split at h; · cases h
    split at h; · cases h
    split at h; · cases h
    split at h; · cases h
    refine ⟨r, rfl, by omega, by simp_all, ?_, by simp_all⟩
    intro hv; simp_all

/-- What an assembled command's parts are, when its word passed the checks. -/
theorem assemble_some {n cw : Nat} {ops : List Nat} {i : Instr} {r : OpRow} (h : assemble cw ops = some i)
    (hops : ∀ w ∈ ops, w < 2 ^ 64) (hr : findRow (fieldOp cw) = some r) (hu : unusedFieldSet r cw = false)
    (hv : r.voice = true → fieldVoice cw < n) (hb : badOperandAmong r.operands ops = false) :
    i.parts = { op := fieldOp cw, voice := fieldVoice cw, sel := fieldSel cw, bin := fieldBin cw, cix := fieldCix cw
                operands := ops } ∧
      i.wellFormed = true ∧ ∀ v, i.voice? = some v → v < n := by
  obtain ⟨h1, h2, h3, h4⟩ := fields_lt cw
  unfold assemble at h
  generalize hop : fieldOp cw = op at h hr ⊢
  split at h <;> cases h <;> cases hr <;>
    simp [unusedFieldSet, voiceRow, romRow, badOperandAmong, u32Fits] at hu hv hb <;>
    simp at hops <;>
    simp [Instr.parts, Instr.wellFormed, voiceFits, selFits, binFits, cixFits, u32Fits, Instr.voice?, toNat_f64Word, *]

end Sys2Proof
end

