-- ==== Sys2Proof/Laws/State.lean ====
section
/-! SUPPORT. What each update of the state leaves in each field: one lemma per field per update, and the accumulate operations' fields. -/

namespace Sys2Proof.Machine

open Sys2Proof Sys2Proof.Config

/-! ### `State.resetWith` -/

section resetWith
variable (params : Params) (numVoices : Nat) (out : List Memory)

@[simp] theorem State.resetWith_params :
    (State.resetWith params numVoices out).params = params := rfl
@[simp] theorem State.resetWith_fs :
    (State.resetWith params numVoices out).fs = NumVal.fsReset params.num := rfl
@[simp] theorem State.resetWith_waveRom :
    (State.resetWith params numVoices out).waveRom = generateWaveRom params.num params.bankFreq (NumVal.fsReset params.num) := rfl
@[simp] theorem State.resetWith_filterRom :
    (State.resetWith params numVoices out).filterRom = generateFilterRom params.num (NumVal.fsReset params.num) := rfl
@[simp] theorem State.resetWith_voices :
    (State.resetWith params numVoices out).voices = List.replicate numVoices (Voice.reset params.num) := rfl
@[simp] theorem State.resetWith_out :
    (State.resetWith params numVoices out).out = out := rfl
@[simp] theorem State.resetWith_stream :
    (State.resetWith params numVoices out).stream = [] := rfl
@[simp] theorem State.resetWith_cmdIndex :
    (State.resetWith params numVoices out).cmdIndex = 0 := rfl
@[simp] theorem State.resetWith_responses :
    (State.resetWith params numVoices out).responses = [] := rfl
@[simp] theorem State.resetWith_outcome :
    (State.resetWith params numVoices out).outcome = none := rfl

end resetWith

/-! ### `State.setVoice` -/

@[simp] theorem State.setVoice_params (s : State) (v : Nat) (vc : Voice) :
    (s.setVoice v vc).params = s.params := rfl
@[simp] theorem State.setVoice_fs (s : State) (v : Nat) (vc : Voice) :
    (s.setVoice v vc).fs = s.fs := rfl
@[simp] theorem State.setVoice_waveRom (s : State) (v : Nat) (vc : Voice) :
    (s.setVoice v vc).waveRom = s.waveRom := rfl
@[simp] theorem State.setVoice_filterRom (s : State) (v : Nat) (vc : Voice) :
    (s.setVoice v vc).filterRom = s.filterRom := rfl
@[simp] theorem State.setVoice_voices (s : State) (v : Nat) (vc : Voice) :
    (s.setVoice v vc).voices = s.voices.set v vc := rfl
@[simp] theorem State.setVoice_out (s : State) (v : Nat) (vc : Voice) :
    (s.setVoice v vc).out = s.out := rfl
@[simp] theorem State.setVoice_stream (s : State) (v : Nat) (vc : Voice) :
    (s.setVoice v vc).stream = s.stream := rfl
@[simp] theorem State.setVoice_cmdIndex (s : State) (v : Nat) (vc : Voice) :
    (s.setVoice v vc).cmdIndex = s.cmdIndex := rfl
@[simp] theorem State.setVoice_responses (s : State) (v : Nat) (vc : Voice) :
    (s.setVoice v vc).responses = s.responses := rfl
@[simp] theorem State.setVoice_outcome (s : State) (v : Nat) (vc : Voice) :
    (s.setVoice v vc).outcome = s.outcome := rfl

/-! ### `State.respond` -/

@[simp] theorem State.respondNum_eq (s : State) (x : NumVal) :
    s.respondNum x = s.respond (.f64 (NumVal.toF64 s.params.num x)) := rfl

@[simp] theorem State.respond_params (s : State) (r : Response) :
    (s.respond r).params = s.params := rfl
@[simp] theorem State.respond_fs (s : State) (r : Response) :
    (s.respond r).fs = s.fs := rfl
@[simp] theorem State.respond_waveRom (s : State) (r : Response) :
    (s.respond r).waveRom = s.waveRom := rfl
@[simp] theorem State.respond_filterRom (s : State) (r : Response) :
    (s.respond r).filterRom = s.filterRom := rfl
@[simp] theorem State.respond_voices (s : State) (r : Response) :
    (s.respond r).voices = s.voices := rfl
@[simp] theorem State.respond_out (s : State) (r : Response) :
    (s.respond r).out = s.out := rfl
@[simp] theorem State.respond_stream (s : State) (r : Response) :
    (s.respond r).stream = s.stream := rfl
@[simp] theorem State.respond_cmdIndex (s : State) (r : Response) :
    (s.respond r).cmdIndex = s.cmdIndex := rfl
@[simp] theorem State.respond_responses (s : State) (r : Response) :
    (s.respond r).responses = s.responses ++ [r] := rfl
@[simp] theorem State.respond_outcome (s : State) (r : Response) :
    (s.respond r).outcome = s.outcome := rfl

/-! ### `State.memWrite` -/

@[simp] theorem State.memWrite_params (s : State) (ch i : Nat) (x : NumVal) :
    (s.memWrite ch i x).params = s.params := rfl
@[simp] theorem State.memWrite_fs (s : State) (ch i : Nat) (x : NumVal) :
    (s.memWrite ch i x).fs = s.fs := rfl
@[simp] theorem State.memWrite_waveRom (s : State) (ch i : Nat) (x : NumVal) :
    (s.memWrite ch i x).waveRom = s.waveRom := rfl
@[simp] theorem State.memWrite_filterRom (s : State) (ch i : Nat) (x : NumVal) :
    (s.memWrite ch i x).filterRom = s.filterRom := rfl
@[simp] theorem State.memWrite_voices (s : State) (ch i : Nat) (x : NumVal) :
    (s.memWrite ch i x).voices = s.voices := rfl
@[simp] theorem State.memWrite_out (s : State) (ch i : Nat) (x : NumVal) :
    (s.memWrite ch i x).out = s.out.modify ch fun m => Memory.write m i x := rfl
@[simp] theorem State.memWrite_stream (s : State) (ch i : Nat) (x : NumVal) :
    (s.memWrite ch i x).stream = s.stream := rfl
@[simp] theorem State.memWrite_cmdIndex (s : State) (ch i : Nat) (x : NumVal) :
    (s.memWrite ch i x).cmdIndex = s.cmdIndex := rfl
@[simp] theorem State.memWrite_responses (s : State) (ch i : Nat) (x : NumVal) :
    (s.memWrite ch i x).responses = s.responses := rfl
@[simp] theorem State.memWrite_outcome (s : State) (ch i : Nat) (x : NumVal) :
    (s.memWrite ch i x).outcome = s.outcome := rfl

/-! ### `State.record` -/

@[simp] theorem State.record_params (s : State) (r : OutcomeRecord) :
    (s.record r).params = s.params := rfl
@[simp] theorem State.record_fs (s : State) (r : OutcomeRecord) :
    (s.record r).fs = s.fs := rfl
@[simp] theorem State.record_waveRom (s : State) (r : OutcomeRecord) :
    (s.record r).waveRom = s.waveRom := rfl
@[simp] theorem State.record_filterRom (s : State) (r : OutcomeRecord) :
    (s.record r).filterRom = s.filterRom := rfl
@[simp] theorem State.record_voices (s : State) (r : OutcomeRecord) :
    (s.record r).voices = s.voices := rfl
@[simp] theorem State.record_out (s : State) (r : OutcomeRecord) :
    (s.record r).out = s.out := rfl
@[simp] theorem State.record_stream (s : State) (r : OutcomeRecord) :
    (s.record r).stream = s.stream := rfl
@[simp] theorem State.record_cmdIndex (s : State) (r : OutcomeRecord) :
    (s.record r).cmdIndex = s.cmdIndex := rfl
@[simp] theorem State.record_responses (s : State) (r : OutcomeRecord) :
    (s.record r).responses = s.responses := rfl
@[simp] theorem State.record_outcome (s : State) (r : OutcomeRecord) :
    (s.record r).outcome = some r := rfl

/-! ### `State.offer` -/

@[simp] theorem State.offer_params (s : State) (bs : List Byte) :
    (s.offer bs).params = s.params := rfl
@[simp] theorem State.offer_fs (s : State) (bs : List Byte) :
    (s.offer bs).fs = s.fs := rfl
@[simp] theorem State.offer_waveRom (s : State) (bs : List Byte) :
    (s.offer bs).waveRom = s.waveRom := rfl
@[simp] theorem State.offer_filterRom (s : State) (bs : List Byte) :
    (s.offer bs).filterRom = s.filterRom := rfl
@[simp] theorem State.offer_voices (s : State) (bs : List Byte) :
    (s.offer bs).voices = s.voices := rfl
@[simp] theorem State.offer_out (s : State) (bs : List Byte) :
    (s.offer bs).out = s.out := rfl
@[simp] theorem State.offer_stream (s : State) (bs : List Byte) :
    (s.offer bs).stream = s.stream ++ bs := rfl
@[simp] theorem State.offer_cmdIndex (s : State) (bs : List Byte) :
    (s.offer bs).cmdIndex = s.cmdIndex := rfl
@[simp] theorem State.offer_responses (s : State) (bs : List Byte) :
    (s.offer bs).responses = s.responses := rfl
@[simp] theorem State.offer_outcome (s : State) (bs : List Byte) :
    (s.offer bs).outcome = s.outcome := rfl

/-! ### `State.retire` -/

@[simp] theorem State.retire_params (s : State) :
    s.retire.params = s.params := rfl
@[simp] theorem State.retire_fs (s : State) :
    s.retire.fs = s.fs := rfl
@[simp] theorem State.retire_waveRom (s : State) :
    s.retire.waveRom = s.waveRom := rfl
@[simp] theorem State.retire_filterRom (s : State) :
    s.retire.filterRom = s.filterRom := rfl
@[simp] theorem State.retire_voices (s : State) :
    s.retire.voices = s.voices := rfl
@[simp] theorem State.retire_out (s : State) :
    s.retire.out = s.out := rfl
@[simp] theorem State.retire_stream (s : State) :
    s.retire.stream = s.stream := rfl
@[simp] theorem State.retire_cmdIndex (s : State) :
    s.retire.cmdIndex = s.cmdIndex + 1 := rfl
@[simp] theorem State.retire_responses (s : State) :
    s.retire.responses = s.responses := rfl
@[simp] theorem State.retire_outcome (s : State) :
    s.retire.outcome = s.outcome := rfl

/-! ### `State.reconfigure` -/

@[simp] theorem State.reconfigure_params (s : State) (h : NumVal) :
    (s.reconfigure h).params = s.params := rfl
@[simp] theorem State.reconfigure_fs (s : State) (h : NumVal) :
    (s.reconfigure h).fs = h := rfl
@[simp] theorem State.reconfigure_waveRom (s : State) (h : NumVal) :
    (s.reconfigure h).waveRom = generateWaveRom s.params.num s.params.bankFreq h := rfl
@[simp] theorem State.reconfigure_filterRom (s : State) (h : NumVal) :
    (s.reconfigure h).filterRom = generateFilterRom s.params.num h := rfl
@[simp] theorem State.reconfigure_voices (s : State) (h : NumVal) :
    (s.reconfigure h).voices = s.voices.map fun vc => vc.rerate s.params.num h (generateFilterRom s.params.num h) := rfl
@[simp] theorem State.reconfigure_out (s : State) (h : NumVal) :
    (s.reconfigure h).out = s.out := rfl
@[simp] theorem State.reconfigure_stream (s : State) (h : NumVal) :
    (s.reconfigure h).stream = s.stream := rfl
@[simp] theorem State.reconfigure_cmdIndex (s : State) (h : NumVal) :
    (s.reconfigure h).cmdIndex = s.cmdIndex := rfl
@[simp] theorem State.reconfigure_responses (s : State) (h : NumVal) :
    (s.reconfigure h).responses = s.responses := rfl
@[simp] theorem State.reconfigure_outcome (s : State) (h : NumVal) :
    (s.reconfigure h).outcome = s.outcome := rfl

/-! ### Accumulating a sample -/

@[simp] theorem State.accumulate_params (s : State) (ch i : Nat) (y : NumVal) :
    (s.accumulate ch i y).params = s.params := rfl
@[simp] theorem State.accumulate_fs (s : State) (ch i : Nat) (y : NumVal) :
    (s.accumulate ch i y).fs = s.fs := rfl
@[simp] theorem State.accumulate_waveRom (s : State) (ch i : Nat) (y : NumVal) :
    (s.accumulate ch i y).waveRom = s.waveRom := rfl
@[simp] theorem State.accumulate_filterRom (s : State) (ch i : Nat) (y : NumVal) :
    (s.accumulate ch i y).filterRom = s.filterRom := rfl
@[simp] theorem State.accumulate_voices (s : State) (ch i : Nat) (y : NumVal) :
    (s.accumulate ch i y).voices = s.voices := rfl
@[simp] theorem State.accumulate_stream (s : State) (ch i : Nat) (y : NumVal) :
    (s.accumulate ch i y).stream = s.stream := rfl
@[simp] theorem State.accumulate_cmdIndex (s : State) (ch i : Nat) (y : NumVal) :
    (s.accumulate ch i y).cmdIndex = s.cmdIndex := rfl
@[simp] theorem State.accumulate_responses (s : State) (ch i : Nat) (y : NumVal) :
    (s.accumulate ch i y).responses = s.responses := rfl
@[simp] theorem State.accumulate_outcome (s : State) (ch i : Nat) (y : NumVal) :
    (s.accumulate ch i y).outcome = s.outcome := rfl

@[simp] theorem State.accumulateTo_params (s : State) (i : Nat) (y : NumVal) (n : Nat) :
    (s.accumulateTo i y n).params = s.params := by
  induction n with
  | zero => rfl
  | succ n ih => simpa [State.accumulateTo] using ih
@[simp] theorem State.accumulateTo_fs (s : State) (i : Nat) (y : NumVal) (n : Nat) :
    (s.accumulateTo i y n).fs = s.fs := by
  induction n with
  | zero => rfl
  | succ n ih => simpa [State.accumulateTo] using ih
@[simp] theorem State.accumulateTo_waveRom (s : State) (i : Nat) (y : NumVal) (n : Nat) :
    (s.accumulateTo i y n).waveRom = s.waveRom := by
  induction n with
  | zero => rfl
  | succ n ih => simpa [State.accumulateTo] using ih
@[simp] theorem State.accumulateTo_filterRom (s : State) (i : Nat) (y : NumVal) (n : Nat) :
    (s.accumulateTo i y n).filterRom = s.filterRom := by
  induction n with
  | zero => rfl
  | succ n ih => simpa [State.accumulateTo] using ih
@[simp] theorem State.accumulateTo_voices (s : State) (i : Nat) (y : NumVal) (n : Nat) :
    (s.accumulateTo i y n).voices = s.voices := by
  induction n with
  | zero => rfl
  | succ n ih => simpa [State.accumulateTo] using ih
@[simp] theorem State.accumulateTo_stream (s : State) (i : Nat) (y : NumVal) (n : Nat) :
    (s.accumulateTo i y n).stream = s.stream := by
  induction n with
  | zero => rfl
  | succ n ih => simpa [State.accumulateTo] using ih
@[simp] theorem State.accumulateTo_cmdIndex (s : State) (i : Nat) (y : NumVal) (n : Nat) :
    (s.accumulateTo i y n).cmdIndex = s.cmdIndex := by
  induction n with
  | zero => rfl
  | succ n ih => simpa [State.accumulateTo] using ih
@[simp] theorem State.accumulateTo_responses (s : State) (i : Nat) (y : NumVal) (n : Nat) :
    (s.accumulateTo i y n).responses = s.responses := by
  induction n with
  | zero => rfl
  | succ n ih => simpa [State.accumulateTo] using ih
@[simp] theorem State.accumulateTo_outcome (s : State) (i : Nat) (y : NumVal) (n : Nat) :
    (s.accumulateTo i y n).outcome = s.outcome := by
  induction n with
  | zero => rfl
  | succ n ih => simpa [State.accumulateTo] using ih

@[simp] theorem State.accumulateAll_params (s : State) (i : Nat) (y : NumVal) :
    (s.accumulateAll i y).params = s.params := by simp [State.accumulateAll]
@[simp] theorem State.accumulateAll_fs (s : State) (i : Nat) (y : NumVal) :
    (s.accumulateAll i y).fs = s.fs := by simp [State.accumulateAll]
@[simp] theorem State.accumulateAll_waveRom (s : State) (i : Nat) (y : NumVal) :
    (s.accumulateAll i y).waveRom = s.waveRom := by simp [State.accumulateAll]
@[simp] theorem State.accumulateAll_filterRom (s : State) (i : Nat) (y : NumVal) :
    (s.accumulateAll i y).filterRom = s.filterRom := by simp [State.accumulateAll]
@[simp] theorem State.accumulateAll_voices (s : State) (i : Nat) (y : NumVal) :
    (s.accumulateAll i y).voices = s.voices := by simp [State.accumulateAll]
@[simp] theorem State.accumulateAll_stream (s : State) (i : Nat) (y : NumVal) :
    (s.accumulateAll i y).stream = s.stream := by simp [State.accumulateAll]
@[simp] theorem State.accumulateAll_cmdIndex (s : State) (i : Nat) (y : NumVal) :
    (s.accumulateAll i y).cmdIndex = s.cmdIndex := by simp [State.accumulateAll]
@[simp] theorem State.accumulateAll_responses (s : State) (i : Nat) (y : NumVal) :
    (s.accumulateAll i y).responses = s.responses := by simp [State.accumulateAll]
@[simp] theorem State.accumulateAll_outcome (s : State) (i : Nat) (y : NumVal) :
    (s.accumulateAll i y).outcome = s.outcome := by simp [State.accumulateAll]

/-! ### One rendered sample -/

@[simp] theorem State.renderSample_params (s : State) (v : Nat) (vc : Voice) (e : Nat) :
    (s.renderSample v vc e).params = s.params := by simp [State.renderSample]
@[simp] theorem State.renderSample_fs (s : State) (v : Nat) (vc : Voice) (e : Nat) :
    (s.renderSample v vc e).fs = s.fs := by simp [State.renderSample]
@[simp] theorem State.renderSample_waveRom (s : State) (v : Nat) (vc : Voice) (e : Nat) :
    (s.renderSample v vc e).waveRom = s.waveRom := by simp [State.renderSample]
@[simp] theorem State.renderSample_filterRom (s : State) (v : Nat) (vc : Voice) (e : Nat) :
    (s.renderSample v vc e).filterRom = s.filterRom := by simp [State.renderSample]
@[simp] theorem State.renderSample_stream (s : State) (v : Nat) (vc : Voice) (e : Nat) :
    (s.renderSample v vc e).stream = s.stream := by simp [State.renderSample]
@[simp] theorem State.renderSample_cmdIndex (s : State) (v : Nat) (vc : Voice) (e : Nat) :
    (s.renderSample v vc e).cmdIndex = s.cmdIndex := by simp [State.renderSample]
@[simp] theorem State.renderSample_responses (s : State) (v : Nat) (vc : Voice) (e : Nat) :
    (s.renderSample v vc e).responses = s.responses := by simp [State.renderSample]
@[simp] theorem State.renderSample_outcome (s : State) (v : Nat) (vc : Voice) (e : Nat) :
    (s.renderSample v vc e).outcome = s.outcome := by simp [State.renderSample]
@[simp] theorem State.renderSample_voices (s : State) (v : Nat) (vc : Voice) (e : Nat) :
    (s.renderSample v vc e).voices = s.voices.set v (vc.ticked s) := by simp [State.renderSample]

end Sys2Proof.Machine
end

