-- ==== Sys2Proof/Laws/Memory.lean ====
section
/-! SUPPORT. The laws of the output buffer: reading after writing, the canonical form, and what one accumulate and one rendered sample do to an element. -/

namespace Sys2Proof.Machine

open Sys2Proof Sys2Proof.Config

variable {nf : Arith}

/-! ### One channel -/

/-- Every index the list holds is above `low`. -/
def Memory.Above (low : Nat) (m : Memory) : Prop := ∀ p ∈ m, low < p.1

theorem Memory.wfAbove_cons {low : Option Nat} {j : Nat} {x : NumVal} {m : Memory} :
    Memory.wfAbove low ((j, x) :: m) = true ↔
      (∀ l, low = some l → l < j) ∧ x ≠ Memory.unlisted ∧ Memory.wfAbove (some j) m = true := by
  cases low <;> simp [Memory.wfAbove, and_assoc]

/-- The bound can be dropped. -/
theorem Memory.wfAbove_weaken {m : Memory} {low : Option Nat} {l : Nat}
    (h : Memory.wfAbove (some l) m = true) (hl : ∀ k, low = some k → k ≤ l) : Memory.wfAbove low m = true := by
  cases m with
  | nil => simp [Memory.wfAbove]
  | cons p m =>
    obtain ⟨j, x⟩ := p
    rw [Memory.wfAbove_cons] at h ⊢
    exact ⟨fun k hk => lt_of_le_of_lt (hl k hk) (h.1 l rfl), h.2⟩

/-- Below its first index a canonical list holds nothing. -/
theorem Memory.read_below {m : Memory} {l i : Nat} (h : Memory.wfAbove (some l) m = true) (hi : i ≤ l) :
    Memory.read m i = Memory.unlisted := by
  induction m generalizing l with
  | nil => rfl
  | cons p m ih =>
    obtain ⟨j, x⟩ := p
    obtain ⟨hj, -, hm⟩ := Memory.wfAbove_cons.1 h
    have : l < j := hj l rfl
    rw [Memory.read, if_neg (by omega)]
    exact ih hm (by omega)

/-- Inserting puts the value at the index and leaves every other index alone. -/
theorem Memory.read_insert (m : Memory) (i k : Nat) (x : NumVal) :
    Memory.read (Memory.insert m i x) k = if k = i then x else Memory.read m k := by
  induction m with
  | nil => simp [Memory.insert, Memory.read]
  | cons p m ih =>
    obtain ⟨j, y⟩ := p
    simp only [Memory.insert]
    split_ifs with h1 h2 h3 h3 <;> simp_all [Memory.read]

/-- Erasing makes the index read as unlisted and leaves every other index alone. -/
theorem Memory.read_erase {m : Memory} {low : Option Nat} (h : Memory.wfAbove low m = true) (i k : Nat) :
    Memory.read (Memory.erase m i) k = if k = i then Memory.unlisted else Memory.read m k := by
  induction m generalizing low with
  | nil => simp [Memory.erase, Memory.read]
  | cons p m ih =>
    obtain ⟨j, y⟩ := p
    obtain ⟨-, -, hm⟩ := Memory.wfAbove_cons.1 h
    by_cases hij : i = j
    · subst hij
      simp only [Memory.erase, if_true, Memory.read]
      split_ifs with hk
      · exact hk ▸ Memory.read_below hm le_rfl
      · rfl
    · simp only [Memory.erase, if_neg hij, Memory.read]
      split_ifs with hk hk'
      · omega
      · rfl
      · rw [ih hm, if_pos ‹_›]
      · rw [ih hm, if_neg ‹_›]

/-- Reading after writing, in a canonical channel. -/
theorem Memory.read_write {m : Memory} (h : Memory.wf m = true) (i k : Nat) (x : NumVal) :
    Memory.read (Memory.write m i x) k = if k = i then x else Memory.read m k := by
  unfold Memory.write
  split_ifs with hx hk hk
  · rw [Memory.read_erase h, if_pos hk, hx]
  · rw [Memory.read_erase h, if_neg hk]
  · rw [Memory.read_insert, if_pos hk]
  · rw [Memory.read_insert, if_neg hk]

/-- Writing leaves every other index alone, in any channel. -/
theorem Memory.read_write_other (m : Memory) {i k : Nat} (x : NumVal) (hk : k ≠ i) :
    Memory.read (Memory.write m i x) k = Memory.read m k := by
  unfold Memory.write
  split_ifs with hx
  · induction m with
    | nil => rfl
    | cons p m ih =>
      obtain ⟨j, y⟩ := p
      simp only [Memory.erase]
      split_ifs with hij
      · rw [Memory.read, if_neg (hij ▸ hk)]
      · simp only [Memory.read, ih]
  · rw [Memory.read_insert, if_neg hk]

theorem Memory.wfAbove_insert {m : Memory} {low : Option Nat} {i : Nat} {x : NumVal}
    (h : Memory.wfAbove low m = true) (hi : ∀ l, low = some l → l < i) (hx : x ≠ Memory.unlisted) :
    Memory.wfAbove low (Memory.insert m i x) = true := by
  induction m generalizing low with
  | nil => exact Memory.wfAbove_cons.2 ⟨hi, hx, rfl⟩
  | cons p m ih =>
    obtain ⟨j, y⟩ := p
    obtain ⟨hj, hy, hm⟩ := Memory.wfAbove_cons.1 h
    simp only [Memory.insert]
    split_ifs with h1 h2
    · exact Memory.wfAbove_cons.2 ⟨hi, hx, Memory.wfAbove_cons.2 ⟨fun l hl => by cases hl; exact h1, hy, hm⟩⟩
    · exact Memory.wfAbove_cons.2 ⟨hi, hx, h2 ▸ hm⟩
    · exact Memory.wfAbove_cons.2 ⟨hj, hy, ih hm fun l hl => by cases hl; omega⟩

theorem Memory.wfAbove_erase {m : Memory} {low : Option Nat} {i : Nat}
    (h : Memory.wfAbove low m = true) : Memory.wfAbove low (Memory.erase m i) = true := by
  induction m generalizing low with
  | nil => rfl
  | cons p m ih =>
    obtain ⟨j, y⟩ := p
    obtain ⟨hj, hy, hm⟩ := Memory.wfAbove_cons.1 h
    simp only [Memory.erase]
    split_ifs with h1
    · exact Memory.wfAbove_weaken hm fun k hk => (hj k hk).le
    · exact Memory.wfAbove_cons.2 ⟨hj, hy, ih hm⟩

/-- Writing keeps the canonical form. -/
theorem Memory.wf_write {m : Memory} (h : Memory.wf m = true) (i : Nat) (x : NumVal) :
    Memory.wf (Memory.write m i x) = true := by
  unfold Memory.write
  split_ifs with hx
  · exact Memory.wfAbove_erase h
  · exact Memory.wfAbove_insert h (fun l hl => by cases hl) hx

/-- Canonical channels that read alike everywhere are equal. -/
theorem Memory.ext_of_read {m m' : Memory} {low low' : Option Nat} (h : Memory.wfAbove low m = true)
    (h' : Memory.wfAbove low' m' = true) (hr : ∀ i, Memory.read m i = Memory.read m' i) : m = m' := by
  induction m generalizing m' low low' with
  | nil =>
    cases m' with
    | nil => rfl
    | cons p m' =>
      obtain ⟨j, x⟩ := p
      obtain ⟨-, hx, -⟩ := Memory.wfAbove_cons.1 h'
      exact absurd (by simpa [Memory.read] using (hr j).symm) hx
  | cons p m ih =>
    obtain ⟨j, x⟩ := p
    obtain ⟨-, hx, hm⟩ := Memory.wfAbove_cons.1 h
    cases m' with
    | nil => exact absurd (by simpa [Memory.read] using hr j) hx
    | cons p' m' =>
      obtain ⟨j', x'⟩ := p'
      obtain ⟨-, hx', hm'⟩ := Memory.wfAbove_cons.1 h'
      have hj : j = j' := by
        rcases lt_trichotomy j j' with hlt | heq | hgt
        · have := hr j
          rw [Memory.read, if_pos rfl, Memory.read, if_neg (by omega), Memory.read_below hm' (by omega)] at this
          exact absurd this hx
        · exact heq
        · have := (hr j').symm
          rw [Memory.read, if_pos rfl, Memory.read, if_neg (by omega), Memory.read_below hm (by omega)] at this
          exact absurd this hx'
      subst hj
      have hxx : x = x' := by simpa [Memory.read] using hr j
      subst hxx
      have : m = m' := ih hm hm' fun i => by
        by_cases hi : i = j
        · rw [hi, Memory.read_below hm le_rfl, Memory.read_below hm' le_rfl]
        · simpa [Memory.read, hi] using hr i
      rw [this]

/-! ### The indices a channel lists -/

/-- Writing lists no index but the written one and those already listed. -/
theorem Memory.mem_write {m : Memory} {i : Nat} {x : NumVal} {p : Nat × NumVal} (h : p ∈ Memory.write m i x) :
    p.1 = i ∨ p ∈ m := by
  have hi : p ∈ Memory.insert m i x → p.1 = i ∨ p ∈ m := by
    clear h
    induction m with
    | nil => simp only [Memory.insert, List.mem_singleton]; rintro rfl; exact .inl rfl
    | cons q m ih =>
      simp only [Memory.insert]
      split_ifs with h1 h2 <;> simp only [List.mem_cons]
      · rintro (rfl | h); exacts [.inl rfl, .inr h]
      · rintro (rfl | h); exacts [.inl rfl, .inr (.inr h)]
      · rintro (rfl | h); exacts [.inr (.inl rfl), (ih h).imp id .inr]
  have he : p ∈ Memory.erase m i → p ∈ m := by
    clear h hi
    induction m with
    | nil => exact id
    | cons q m ih =>
      simp only [Memory.erase]
      split_ifs with h1 <;> simp only [List.mem_cons]
      · exact .inr
      · exact Or.imp id ih
  unfold Memory.write at h
  split_ifs at h
  · exact .inr (he h)
  · exact hi h

/-! ### The buffer -/

@[simp] theorem State.memWrite_out_length (s : State) (ch i : Nat) (x : NumVal) :
    (s.memWrite ch i x).out.length = s.out.length := by simp

@[simp] theorem State.accumulate_out_length (s : State) (ch i : Nat) (y : NumVal) :
    (s.accumulate ch i y).out.length = s.out.length := by simp [State.accumulate]

@[simp] theorem State.accumulateTo_out_length (s : State) (i : Nat) (y : NumVal) (n : Nat) :
    (s.accumulateTo i y n).out.length = s.out.length := by
  induction n with
  | zero => rfl
  | succ n ih => simpa [State.accumulateTo] using ih

@[simp] theorem State.accumulateAll_out_length (s : State) (i : Nat) (y : NumVal) :
    (s.accumulateAll i y).out.length = s.out.length := by simp [State.accumulateAll]

/-- Reading an element other than the one written gives what it held. -/
theorem State.memRead_memWrite_other (s : State) {ch ch' i i' : Nat} (x : NumVal) (h : ch' ≠ ch ∨ i' ≠ i) :
    (s.memWrite ch i x).memRead ch' i' = s.memRead ch' i' := by
  simp only [State.memRead, State.memWrite_out, List.getD_eq_getElem?_getD, List.getElem?_modify]
  cases hm : s.out[ch']? with
  | none => rfl
  | some m =>
    by_cases hc : ch = ch'
    · have hi : i' ≠ i := h.resolve_left fun hn => hn hc.symm
      simp [hc, Memory.read_write_other m x hi]
    · simp [hc]

/-- Reading the element written, in a channel the buffer has and in canonical form. -/
theorem State.memRead_memWrite_same (s : State) {ch i : Nat} (x : NumVal) (hch : ch < s.out.length)
    (hwf : ∀ m ∈ s.out, Memory.wf m = true) : (s.memWrite ch i x).memRead ch i = x := by
  have hm : s.out[ch]? = some s.out[ch] := List.getElem?_eq_getElem hch
  simp [State.memRead, List.getD_eq_getElem?_getD, hm,
    Memory.read_write (hwf _ (List.getElem_mem hch)) i i x]

/-- Writing an element keeps every channel canonical. -/
theorem State.memWrite_canonical (s : State) (ch i : Nat) (x : NumVal)
    (hwf : ∀ m ∈ s.out, Memory.wf m = true) : ∀ m ∈ (s.memWrite ch i x).out, Memory.wf m = true := by
  intro m hm
  simp only [State.memWrite_out] at hm
  obtain ⟨k, hk, rfl⟩ := List.getElem_of_mem hm
  rw [List.getElem_modify]
  have hk' : k < s.out.length := by simpa using hk
  split_ifs
  · exact Memory.wf_write (hwf _ (List.getElem_mem hk')) i x
  · exact hwf _ (List.getElem_mem hk')

/-- An accumulate leaves every other element alone. -/
theorem State.memRead_accumulate_other (s : State) {ch ch' i i' : Nat} (y : NumVal) (h : ch' ≠ ch ∨ i' ≠ i) :
    (s.accumulate ch i y).memRead ch' i' = s.memRead ch' i' := State.memRead_memWrite_other s _ h

/-- Accumulating into element `i` leaves every other element of every channel alone. -/
theorem State.memRead_accumulateTo_other (s : State) {i i' : Nat} (y : NumVal) (ch n : Nat) (h : i' ≠ i) :
    (s.accumulateTo i y n).memRead ch i' = s.memRead ch i' := by
  induction n with
  | zero => rfl
  | succ n ih => rw [State.accumulateTo, State.memRead_accumulate_other _ _ (.inr h), ih]

/-- A channel not yet reached keeps its element. -/
theorem State.memRead_accumulateTo_later (s : State) (i : Nat) (y : NumVal) {ch n : Nat} (h : n ≤ ch) (i' : Nat) :
    (s.accumulateTo i y n).memRead ch i' = s.memRead ch i' := by
  induction n with
  | zero => rfl
  | succ n ih => rw [State.accumulateTo, State.memRead_accumulate_other _ _ (.inl (by omega)), ih (by omega)]

theorem State.accumulateTo_canonical (s : State) (i : Nat) (y : NumVal) (n : Nat)
    (hwf : ∀ m ∈ s.out, Memory.wf m = true) : ∀ m ∈ (s.accumulateTo i y n).out, Memory.wf m = true := by
  induction n with
  | zero => exact hwf
  | succ n ih => exact State.memWrite_canonical _ n i _ ih

/-- Accumulating into every channel keeps every channel canonical. -/
theorem State.accumulateAll_canonical (s : State) (i : Nat) (y : NumVal)
    (hwf : ∀ m ∈ s.out, Memory.wf m = true) : ∀ m ∈ (s.accumulateAll i y).out, Memory.wf m = true :=
  State.accumulateTo_canonical s i y s.out.length hwf

/-- Every channel's element gets the same value: what it held plus the sample, converted to OUT_FMT (44_voice.md R136). -/
theorem State.memRead_accumulateTo_same (s : State) (i : Nat) (y : NumVal) {ch n : Nat} (h : ch < n)
    (hn : n ≤ s.out.length) (hwf : ∀ m ∈ s.out, Memory.wf m = true) :
    (s.accumulateTo i y n).memRead ch i = mixed s.params (s.memRead ch i) y := by
  induction n with
  | zero => omega
  | succ n ih =>
    rw [State.accumulateTo]
    by_cases hc : ch = n
    · subst hc
      rw [State.accumulate, State.memRead_memWrite_same _ _ (by simpa using hn) (State.accumulateTo_canonical s i y ch hwf),
        State.memRead_accumulateTo_later s i y le_rfl, State.accumulateTo_params]
    · rw [State.memRead_accumulate_other _ _ (.inl hc), ih (by omega) (by omega)]

theorem State.memRead_accumulateAll_same (s : State) (i : Nat) (y : NumVal) {ch : Nat} (h : ch < s.out.length)
    (hwf : ∀ m ∈ s.out, Memory.wf m = true) :
    (s.accumulateAll i y).memRead ch i = mixed s.params (s.memRead ch i) y :=
  State.memRead_accumulateTo_same s i y h le_rfl hwf

theorem State.memRead_accumulateAll_other (s : State) {i i' : Nat} (y : NumVal) (ch : Nat) (h : i' ≠ i) :
    (s.accumulateAll i y).memRead ch i' = s.memRead ch i' :=
  State.memRead_accumulateTo_other s y ch s.out.length h

end Sys2Proof.Machine
end

