-- ==== Sys2Proof/Laws/Voice.lean ====
section
/-! SUPPORT. What the operations on a voice leave unchanged: one lemma per register the operation does not write, so that no proof unfolds a branch of it. -/

namespace Sys2Proof.Machine

open Sys2Proof Sys2Proof.Config

variable {nf : Arith}

/-! ### `Voice.advance` -/

@[simp] theorem Voice.advance_oscFreq (vc : Voice) : (vc.advance nf).oscFreq = vc.oscFreq := rfl
@[simp] theorem Voice.advance_oscPhase (vc : Voice) : (vc.advance nf).oscPhase = advancePhase nf vc.oscPhase vc.oscDelta := rfl
@[simp] theorem Voice.advance_oscDelta (vc : Voice) : (vc.advance nf).oscDelta = vc.oscDelta := rfl
@[simp] theorem Voice.advance_oscAmp (vc : Voice) : (vc.advance nf).oscAmp = vc.oscAmp := rfl
@[simp] theorem Voice.advance_oscWave (vc : Voice) : (vc.advance nf).oscWave = vc.oscWave := rfl
@[simp] theorem Voice.advance_envStage (vc : Voice) : (vc.advance nf).envStage = vc.envStage := rfl
@[simp] theorem Voice.advance_envCounter (vc : Voice) : (vc.advance nf).envCounter = vc.envCounter := rfl
@[simp] theorem Voice.advance_envLevel (vc : Voice) : (vc.advance nf).envLevel = vc.envLevel := rfl
@[simp] theorem Voice.advance_envAttackSec (vc : Voice) : (vc.advance nf).envAttackSec = vc.envAttackSec := rfl
@[simp] theorem Voice.advance_envDecaySec (vc : Voice) : (vc.advance nf).envDecaySec = vc.envDecaySec := rfl
@[simp] theorem Voice.advance_envReleaseSec (vc : Voice) : (vc.advance nf).envReleaseSec = vc.envReleaseSec := rfl
@[simp] theorem Voice.advance_envA (vc : Voice) : (vc.advance nf).envA = vc.envA := rfl
@[simp] theorem Voice.advance_envD (vc : Voice) : (vc.advance nf).envD = vc.envD := rfl
@[simp] theorem Voice.advance_envR (vc : Voice) : (vc.advance nf).envR = vc.envR := rfl
@[simp] theorem Voice.advance_envSustain (vc : Voice) : (vc.advance nf).envSustain = vc.envSustain := rfl
@[simp] theorem Voice.advance_envRsl (vc : Voice) : (vc.advance nf).envRsl = vc.envRsl := rfl
@[simp] theorem Voice.advance_fltType (vc : Voice) : (vc.advance nf).fltType = vc.fltType := rfl
@[simp] theorem Voice.advance_fltCutoff (vc : Voice) : (vc.advance nf).fltCutoff = vc.fltCutoff := rfl
@[simp] theorem Voice.advance_fltBin (vc : Voice) : (vc.advance nf).fltBin = vc.fltBin := rfl
@[simp] theorem Voice.advance_fltX1 (vc : Voice) : (vc.advance nf).fltX1 = vc.fltX1 := rfl
@[simp] theorem Voice.advance_fltY1 (vc : Voice) : (vc.advance nf).fltY1 = vc.fltY1 := rfl
@[simp] theorem Voice.advance_fltX2 (vc : Voice) : (vc.advance nf).fltX2 = vc.fltX2 := rfl
@[simp] theorem Voice.advance_fltY2 (vc : Voice) : (vc.advance nf).fltY2 = vc.fltY2 := rfl

/-! ### `Voice.enterAttack` -/

@[simp] theorem Voice.enterAttack_oscFreq (vc : Voice) : vc.enterAttack.oscFreq = vc.oscFreq := rfl
@[simp] theorem Voice.enterAttack_oscPhase (vc : Voice) : vc.enterAttack.oscPhase = vc.oscPhase := rfl
@[simp] theorem Voice.enterAttack_oscDelta (vc : Voice) : vc.enterAttack.oscDelta = vc.oscDelta := rfl
@[simp] theorem Voice.enterAttack_oscAmp (vc : Voice) : vc.enterAttack.oscAmp = vc.oscAmp := rfl
@[simp] theorem Voice.enterAttack_oscWave (vc : Voice) : vc.enterAttack.oscWave = vc.oscWave := rfl
@[simp] theorem Voice.enterAttack_envStage (vc : Voice) : vc.enterAttack.envStage = .attack := rfl
@[simp] theorem Voice.enterAttack_envCounter (vc : Voice) : vc.enterAttack.envCounter = 0 := rfl
@[simp] theorem Voice.enterAttack_envLevel (vc : Voice) : vc.enterAttack.envLevel = NumVal.zero := rfl
@[simp] theorem Voice.enterAttack_envAttackSec (vc : Voice) : vc.enterAttack.envAttackSec = vc.envAttackSec := rfl
@[simp] theorem Voice.enterAttack_envDecaySec (vc : Voice) : vc.enterAttack.envDecaySec = vc.envDecaySec := rfl
@[simp] theorem Voice.enterAttack_envReleaseSec (vc : Voice) : vc.enterAttack.envReleaseSec = vc.envReleaseSec := rfl
@[simp] theorem Voice.enterAttack_envA (vc : Voice) : vc.enterAttack.envA = vc.envA := rfl
@[simp] theorem Voice.enterAttack_envD (vc : Voice) : vc.enterAttack.envD = vc.envD := rfl
@[simp] theorem Voice.enterAttack_envR (vc : Voice) : vc.enterAttack.envR = vc.envR := rfl
@[simp] theorem Voice.enterAttack_envSustain (vc : Voice) : vc.enterAttack.envSustain = vc.envSustain := rfl
@[simp] theorem Voice.enterAttack_envRsl (vc : Voice) : vc.enterAttack.envRsl = vc.envRsl := rfl
@[simp] theorem Voice.enterAttack_fltType (vc : Voice) : vc.enterAttack.fltType = vc.fltType := rfl
@[simp] theorem Voice.enterAttack_fltCutoff (vc : Voice) : vc.enterAttack.fltCutoff = vc.fltCutoff := rfl
@[simp] theorem Voice.enterAttack_fltBin (vc : Voice) : vc.enterAttack.fltBin = vc.fltBin := rfl
@[simp] theorem Voice.enterAttack_fltX1 (vc : Voice) : vc.enterAttack.fltX1 = vc.fltX1 := rfl
@[simp] theorem Voice.enterAttack_fltY1 (vc : Voice) : vc.enterAttack.fltY1 = vc.fltY1 := rfl
@[simp] theorem Voice.enterAttack_fltX2 (vc : Voice) : vc.enterAttack.fltX2 = vc.fltX2 := rfl
@[simp] theorem Voice.enterAttack_fltY2 (vc : Voice) : vc.enterAttack.fltY2 = vc.fltY2 := rfl

/-! ### `Voice.envSilence` -/

@[simp] theorem Voice.envSilence_oscFreq (vc : Voice) : vc.envSilence.oscFreq = vc.oscFreq := rfl
@[simp] theorem Voice.envSilence_oscPhase (vc : Voice) : vc.envSilence.oscPhase = vc.oscPhase := rfl
@[simp] theorem Voice.envSilence_oscDelta (vc : Voice) : vc.envSilence.oscDelta = vc.oscDelta := rfl
@[simp] theorem Voice.envSilence_oscAmp (vc : Voice) : vc.envSilence.oscAmp = vc.oscAmp := rfl
@[simp] theorem Voice.envSilence_oscWave (vc : Voice) : vc.envSilence.oscWave = vc.oscWave := rfl
@[simp] theorem Voice.envSilence_envStage (vc : Voice) : vc.envSilence.envStage = .idle := rfl
@[simp] theorem Voice.envSilence_envCounter (vc : Voice) : vc.envSilence.envCounter = 0 := rfl
@[simp] theorem Voice.envSilence_envLevel (vc : Voice) : vc.envSilence.envLevel = NumVal.zero := rfl
@[simp] theorem Voice.envSilence_envAttackSec (vc : Voice) : vc.envSilence.envAttackSec = vc.envAttackSec := rfl
@[simp] theorem Voice.envSilence_envDecaySec (vc : Voice) : vc.envSilence.envDecaySec = vc.envDecaySec := rfl
@[simp] theorem Voice.envSilence_envReleaseSec (vc : Voice) : vc.envSilence.envReleaseSec = vc.envReleaseSec := rfl
@[simp] theorem Voice.envSilence_envA (vc : Voice) : vc.envSilence.envA = vc.envA := rfl
@[simp] theorem Voice.envSilence_envD (vc : Voice) : vc.envSilence.envD = vc.envD := rfl
@[simp] theorem Voice.envSilence_envR (vc : Voice) : vc.envSilence.envR = vc.envR := rfl
@[simp] theorem Voice.envSilence_envSustain (vc : Voice) : vc.envSilence.envSustain = vc.envSustain := rfl
@[simp] theorem Voice.envSilence_envRsl (vc : Voice) : vc.envSilence.envRsl = vc.envRsl := rfl
@[simp] theorem Voice.envSilence_fltType (vc : Voice) : vc.envSilence.fltType = vc.fltType := rfl
@[simp] theorem Voice.envSilence_fltCutoff (vc : Voice) : vc.envSilence.fltCutoff = vc.fltCutoff := rfl
@[simp] theorem Voice.envSilence_fltBin (vc : Voice) : vc.envSilence.fltBin = vc.fltBin := rfl
@[simp] theorem Voice.envSilence_fltX1 (vc : Voice) : vc.envSilence.fltX1 = vc.fltX1 := rfl
@[simp] theorem Voice.envSilence_fltY1 (vc : Voice) : vc.envSilence.fltY1 = vc.fltY1 := rfl
@[simp] theorem Voice.envSilence_fltX2 (vc : Voice) : vc.envSilence.fltX2 = vc.fltX2 := rfl
@[simp] theorem Voice.envSilence_fltY2 (vc : Voice) : vc.envSilence.fltY2 = vc.fltY2 := rfl

/-! ### `Voice.filterZeroed` -/

@[simp] theorem Voice.filterZeroed_oscFreq (vc : Voice) : vc.filterZeroed.oscFreq = vc.oscFreq := rfl
@[simp] theorem Voice.filterZeroed_oscPhase (vc : Voice) : vc.filterZeroed.oscPhase = vc.oscPhase := rfl
@[simp] theorem Voice.filterZeroed_oscDelta (vc : Voice) : vc.filterZeroed.oscDelta = vc.oscDelta := rfl
@[simp] theorem Voice.filterZeroed_oscAmp (vc : Voice) : vc.filterZeroed.oscAmp = vc.oscAmp := rfl
@[simp] theorem Voice.filterZeroed_oscWave (vc : Voice) : vc.filterZeroed.oscWave = vc.oscWave := rfl
@[simp] theorem Voice.filterZeroed_envStage (vc : Voice) : vc.filterZeroed.envStage = vc.envStage := rfl
@[simp] theorem Voice.filterZeroed_envCounter (vc : Voice) : vc.filterZeroed.envCounter = vc.envCounter := rfl
@[simp] theorem Voice.filterZeroed_envLevel (vc : Voice) : vc.filterZeroed.envLevel = vc.envLevel := rfl
@[simp] theorem Voice.filterZeroed_envAttackSec (vc : Voice) : vc.filterZeroed.envAttackSec = vc.envAttackSec := rfl
@[simp] theorem Voice.filterZeroed_envDecaySec (vc : Voice) : vc.filterZeroed.envDecaySec = vc.envDecaySec := rfl
@[simp] theorem Voice.filterZeroed_envReleaseSec (vc : Voice) : vc.filterZeroed.envReleaseSec = vc.envReleaseSec := rfl
@[simp] theorem Voice.filterZeroed_envA (vc : Voice) : vc.filterZeroed.envA = vc.envA := rfl
@[simp] theorem Voice.filterZeroed_envD (vc : Voice) : vc.filterZeroed.envD = vc.envD := rfl
@[simp] theorem Voice.filterZeroed_envR (vc : Voice) : vc.filterZeroed.envR = vc.envR := rfl
@[simp] theorem Voice.filterZeroed_envSustain (vc : Voice) : vc.filterZeroed.envSustain = vc.envSustain := rfl
@[simp] theorem Voice.filterZeroed_envRsl (vc : Voice) : vc.filterZeroed.envRsl = vc.envRsl := rfl
@[simp] theorem Voice.filterZeroed_fltType (vc : Voice) : vc.filterZeroed.fltType = vc.fltType := rfl
@[simp] theorem Voice.filterZeroed_fltCutoff (vc : Voice) : vc.filterZeroed.fltCutoff = vc.fltCutoff := rfl
@[simp] theorem Voice.filterZeroed_fltBin (vc : Voice) : vc.filterZeroed.fltBin = vc.fltBin := rfl
@[simp] theorem Voice.filterZeroed_fltX1 (vc : Voice) : vc.filterZeroed.fltX1 = NumVal.zero := rfl
@[simp] theorem Voice.filterZeroed_fltY1 (vc : Voice) : vc.filterZeroed.fltY1 = NumVal.zero := rfl
@[simp] theorem Voice.filterZeroed_fltX2 (vc : Voice) : vc.filterZeroed.fltX2 = NumVal.zero := rfl
@[simp] theorem Voice.filterZeroed_fltY2 (vc : Voice) : vc.filterZeroed.fltY2 = NumVal.zero := rfl

/-! ### `Voice.setFrequency` -/

@[simp] theorem Voice.setFrequency_oscFreq (vc : Voice) (fs f : NumVal) : (vc.setFrequency nf fs f).oscFreq = f := rfl
@[simp] theorem Voice.setFrequency_oscPhase (vc : Voice) (fs f : NumVal) : (vc.setFrequency nf fs f).oscPhase = vc.oscPhase := rfl
@[simp] theorem Voice.setFrequency_oscDelta (vc : Voice) (fs f : NumVal) : (vc.setFrequency nf fs f).oscDelta = NumVal.div nf f fs := rfl
@[simp] theorem Voice.setFrequency_oscAmp (vc : Voice) (fs f : NumVal) : (vc.setFrequency nf fs f).oscAmp = vc.oscAmp := rfl
@[simp] theorem Voice.setFrequency_oscWave (vc : Voice) (fs f : NumVal) : (vc.setFrequency nf fs f).oscWave = vc.oscWave := rfl
@[simp] theorem Voice.setFrequency_envStage (vc : Voice) (fs f : NumVal) : (vc.setFrequency nf fs f).envStage = vc.envStage := rfl
@[simp] theorem Voice.setFrequency_envCounter (vc : Voice) (fs f : NumVal) : (vc.setFrequency nf fs f).envCounter = vc.envCounter := rfl
@[simp] theorem Voice.setFrequency_envLevel (vc : Voice) (fs f : NumVal) : (vc.setFrequency nf fs f).envLevel = vc.envLevel := rfl
@[simp] theorem Voice.setFrequency_envAttackSec (vc : Voice) (fs f : NumVal) : (vc.setFrequency nf fs f).envAttackSec = vc.envAttackSec := rfl
@[simp] theorem Voice.setFrequency_envDecaySec (vc : Voice) (fs f : NumVal) : (vc.setFrequency nf fs f).envDecaySec = vc.envDecaySec := rfl
@[simp] theorem Voice.setFrequency_envReleaseSec (vc : Voice) (fs f : NumVal) : (vc.setFrequency nf fs f).envReleaseSec = vc.envReleaseSec := rfl
@[simp] theorem Voice.setFrequency_envA (vc : Voice) (fs f : NumVal) : (vc.setFrequency nf fs f).envA = vc.envA := rfl
@[simp] theorem Voice.setFrequency_envD (vc : Voice) (fs f : NumVal) : (vc.setFrequency nf fs f).envD = vc.envD := rfl
@[simp] theorem Voice.setFrequency_envR (vc : Voice) (fs f : NumVal) : (vc.setFrequency nf fs f).envR = vc.envR := rfl
@[simp] theorem Voice.setFrequency_envSustain (vc : Voice) (fs f : NumVal) : (vc.setFrequency nf fs f).envSustain = vc.envSustain := rfl
@[simp] theorem Voice.setFrequency_envRsl (vc : Voice) (fs f : NumVal) : (vc.setFrequency nf fs f).envRsl = vc.envRsl := rfl
@[simp] theorem Voice.setFrequency_fltType (vc : Voice) (fs f : NumVal) : (vc.setFrequency nf fs f).fltType = vc.fltType := rfl
@[simp] theorem Voice.setFrequency_fltCutoff (vc : Voice) (fs f : NumVal) : (vc.setFrequency nf fs f).fltCutoff = vc.fltCutoff := rfl
@[simp] theorem Voice.setFrequency_fltBin (vc : Voice) (fs f : NumVal) : (vc.setFrequency nf fs f).fltBin = vc.fltBin := rfl
@[simp] theorem Voice.setFrequency_fltX1 (vc : Voice) (fs f : NumVal) : (vc.setFrequency nf fs f).fltX1 = vc.fltX1 := rfl
@[simp] theorem Voice.setFrequency_fltY1 (vc : Voice) (fs f : NumVal) : (vc.setFrequency nf fs f).fltY1 = vc.fltY1 := rfl
@[simp] theorem Voice.setFrequency_fltX2 (vc : Voice) (fs f : NumVal) : (vc.setFrequency nf fs f).fltX2 = vc.fltX2 := rfl
@[simp] theorem Voice.setFrequency_fltY2 (vc : Voice) (fs f : NumVal) : (vc.setFrequency nf fs f).fltY2 = vc.fltY2 := rfl

/-! ### `Voice.reconvert` -/

@[simp] theorem Voice.reconvert_oscFreq (vc : Voice) (fs : NumVal) : (vc.reconvert nf fs).oscFreq = vc.oscFreq := rfl
@[simp] theorem Voice.reconvert_oscPhase (vc : Voice) (fs : NumVal) : (vc.reconvert nf fs).oscPhase = vc.oscPhase := rfl
@[simp] theorem Voice.reconvert_oscDelta (vc : Voice) (fs : NumVal) : (vc.reconvert nf fs).oscDelta = vc.oscDelta := rfl
@[simp] theorem Voice.reconvert_oscAmp (vc : Voice) (fs : NumVal) : (vc.reconvert nf fs).oscAmp = vc.oscAmp := rfl
@[simp] theorem Voice.reconvert_oscWave (vc : Voice) (fs : NumVal) : (vc.reconvert nf fs).oscWave = vc.oscWave := rfl
@[simp] theorem Voice.reconvert_envStage (vc : Voice) (fs : NumVal) : (vc.reconvert nf fs).envStage = vc.envStage := rfl
@[simp] theorem Voice.reconvert_envCounter (vc : Voice) (fs : NumVal) : (vc.reconvert nf fs).envCounter = vc.envCounter := rfl
@[simp] theorem Voice.reconvert_envLevel (vc : Voice) (fs : NumVal) : (vc.reconvert nf fs).envLevel = vc.envLevel := rfl
@[simp] theorem Voice.reconvert_envAttackSec (vc : Voice) (fs : NumVal) : (vc.reconvert nf fs).envAttackSec = vc.envAttackSec := rfl
@[simp] theorem Voice.reconvert_envDecaySec (vc : Voice) (fs : NumVal) : (vc.reconvert nf fs).envDecaySec = vc.envDecaySec := rfl
@[simp] theorem Voice.reconvert_envReleaseSec (vc : Voice) (fs : NumVal) : (vc.reconvert nf fs).envReleaseSec = vc.envReleaseSec := rfl
@[simp] theorem Voice.reconvert_envA (vc : Voice) (fs : NumVal) : (vc.reconvert nf fs).envA = conv nf fs vc.envAttackSec := rfl
@[simp] theorem Voice.reconvert_envD (vc : Voice) (fs : NumVal) : (vc.reconvert nf fs).envD = conv nf fs vc.envDecaySec := rfl
@[simp] theorem Voice.reconvert_envR (vc : Voice) (fs : NumVal) : (vc.reconvert nf fs).envR = conv nf fs vc.envReleaseSec := rfl
@[simp] theorem Voice.reconvert_envSustain (vc : Voice) (fs : NumVal) : (vc.reconvert nf fs).envSustain = vc.envSustain := rfl
@[simp] theorem Voice.reconvert_envRsl (vc : Voice) (fs : NumVal) : (vc.reconvert nf fs).envRsl = vc.envRsl := rfl
@[simp] theorem Voice.reconvert_fltType (vc : Voice) (fs : NumVal) : (vc.reconvert nf fs).fltType = vc.fltType := rfl
@[simp] theorem Voice.reconvert_fltCutoff (vc : Voice) (fs : NumVal) : (vc.reconvert nf fs).fltCutoff = vc.fltCutoff := rfl
@[simp] theorem Voice.reconvert_fltBin (vc : Voice) (fs : NumVal) : (vc.reconvert nf fs).fltBin = vc.fltBin := rfl
@[simp] theorem Voice.reconvert_fltX1 (vc : Voice) (fs : NumVal) : (vc.reconvert nf fs).fltX1 = vc.fltX1 := rfl
@[simp] theorem Voice.reconvert_fltY1 (vc : Voice) (fs : NumVal) : (vc.reconvert nf fs).fltY1 = vc.fltY1 := rfl
@[simp] theorem Voice.reconvert_fltX2 (vc : Voice) (fs : NumVal) : (vc.reconvert nf fs).fltX2 = vc.fltX2 := rfl
@[simp] theorem Voice.reconvert_fltY2 (vc : Voice) (fs : NumVal) : (vc.reconvert nf fs).fltY2 = vc.fltY2 := rfl

/-! ### `Voice.setEnvelope` -/

@[simp] theorem Voice.setEnvelope_oscFreq (vc : Voice) (fs a d s r : NumVal) : (vc.setEnvelope nf fs a d s r).oscFreq = vc.oscFreq := rfl
@[simp] theorem Voice.setEnvelope_oscPhase (vc : Voice) (fs a d s r : NumVal) : (vc.setEnvelope nf fs a d s r).oscPhase = vc.oscPhase := rfl
@[simp] theorem Voice.setEnvelope_oscDelta (vc : Voice) (fs a d s r : NumVal) : (vc.setEnvelope nf fs a d s r).oscDelta = vc.oscDelta := rfl
@[simp] theorem Voice.setEnvelope_oscAmp (vc : Voice) (fs a d s r : NumVal) : (vc.setEnvelope nf fs a d s r).oscAmp = vc.oscAmp := rfl
@[simp] theorem Voice.setEnvelope_oscWave (vc : Voice) (fs a d s r : NumVal) : (vc.setEnvelope nf fs a d s r).oscWave = vc.oscWave := rfl
@[simp] theorem Voice.setEnvelope_envStage (vc : Voice) (fs a d s r : NumVal) : (vc.setEnvelope nf fs a d s r).envStage = vc.envStage := rfl
@[simp] theorem Voice.setEnvelope_envCounter (vc : Voice) (fs a d s r : NumVal) : (vc.setEnvelope nf fs a d s r).envCounter = vc.envCounter := rfl
@[simp] theorem Voice.setEnvelope_envLevel (vc : Voice) (fs a d s r : NumVal) : (vc.setEnvelope nf fs a d s r).envLevel = vc.envLevel := rfl
@[simp] theorem Voice.setEnvelope_envAttackSec (vc : Voice) (fs a d s r : NumVal) : (vc.setEnvelope nf fs a d s r).envAttackSec = a := rfl
@[simp] theorem Voice.setEnvelope_envDecaySec (vc : Voice) (fs a d s r : NumVal) : (vc.setEnvelope nf fs a d s r).envDecaySec = d := rfl
@[simp] theorem Voice.setEnvelope_envReleaseSec (vc : Voice) (fs a d s r : NumVal) : (vc.setEnvelope nf fs a d s r).envReleaseSec = r := rfl
@[simp] theorem Voice.setEnvelope_envA (vc : Voice) (fs a d s r : NumVal) : (vc.setEnvelope nf fs a d s r).envA = conv nf fs a := rfl
@[simp] theorem Voice.setEnvelope_envD (vc : Voice) (fs a d s r : NumVal) : (vc.setEnvelope nf fs a d s r).envD = conv nf fs d := rfl
@[simp] theorem Voice.setEnvelope_envR (vc : Voice) (fs a d s r : NumVal) : (vc.setEnvelope nf fs a d s r).envR = conv nf fs r := rfl
@[simp] theorem Voice.setEnvelope_envSustain (vc : Voice) (fs a d s r : NumVal) : (vc.setEnvelope nf fs a d s r).envSustain = clampUnit nf s := rfl
@[simp] theorem Voice.setEnvelope_envRsl (vc : Voice) (fs a d s r : NumVal) : (vc.setEnvelope nf fs a d s r).envRsl = vc.envRsl := rfl
@[simp] theorem Voice.setEnvelope_fltType (vc : Voice) (fs a d s r : NumVal) : (vc.setEnvelope nf fs a d s r).fltType = vc.fltType := rfl
@[simp] theorem Voice.setEnvelope_fltCutoff (vc : Voice) (fs a d s r : NumVal) : (vc.setEnvelope nf fs a d s r).fltCutoff = vc.fltCutoff := rfl
@[simp] theorem Voice.setEnvelope_fltBin (vc : Voice) (fs a d s r : NumVal) : (vc.setEnvelope nf fs a d s r).fltBin = vc.fltBin := rfl
@[simp] theorem Voice.setEnvelope_fltX1 (vc : Voice) (fs a d s r : NumVal) : (vc.setEnvelope nf fs a d s r).fltX1 = vc.fltX1 := rfl
@[simp] theorem Voice.setEnvelope_fltY1 (vc : Voice) (fs a d s r : NumVal) : (vc.setEnvelope nf fs a d s r).fltY1 = vc.fltY1 := rfl
@[simp] theorem Voice.setEnvelope_fltX2 (vc : Voice) (fs a d s r : NumVal) : (vc.setEnvelope nf fs a d s r).fltX2 = vc.fltX2 := rfl
@[simp] theorem Voice.setEnvelope_fltY2 (vc : Voice) (fs a d s r : NumVal) : (vc.setEnvelope nf fs a d s r).fltY2 = vc.fltY2 := rfl

/-! ### `Voice.setFilter` -/

@[simp] theorem Voice.setFilter_oscFreq (vc : Voice) (rom : FilterRom) (sel : Nat) (c : NumVal) : (vc.setFilter nf rom sel c).oscFreq = vc.oscFreq := rfl
@[simp] theorem Voice.setFilter_oscPhase (vc : Voice) (rom : FilterRom) (sel : Nat) (c : NumVal) : (vc.setFilter nf rom sel c).oscPhase = vc.oscPhase := rfl
@[simp] theorem Voice.setFilter_oscDelta (vc : Voice) (rom : FilterRom) (sel : Nat) (c : NumVal) : (vc.setFilter nf rom sel c).oscDelta = vc.oscDelta := rfl
@[simp] theorem Voice.setFilter_oscAmp (vc : Voice) (rom : FilterRom) (sel : Nat) (c : NumVal) : (vc.setFilter nf rom sel c).oscAmp = vc.oscAmp := rfl
@[simp] theorem Voice.setFilter_oscWave (vc : Voice) (rom : FilterRom) (sel : Nat) (c : NumVal) : (vc.setFilter nf rom sel c).oscWave = vc.oscWave := rfl
@[simp] theorem Voice.setFilter_envStage (vc : Voice) (rom : FilterRom) (sel : Nat) (c : NumVal) : (vc.setFilter nf rom sel c).envStage = vc.envStage := rfl
@[simp] theorem Voice.setFilter_envCounter (vc : Voice) (rom : FilterRom) (sel : Nat) (c : NumVal) : (vc.setFilter nf rom sel c).envCounter = vc.envCounter := rfl
@[simp] theorem Voice.setFilter_envLevel (vc : Voice) (rom : FilterRom) (sel : Nat) (c : NumVal) : (vc.setFilter nf rom sel c).envLevel = vc.envLevel := rfl
@[simp] theorem Voice.setFilter_envAttackSec (vc : Voice) (rom : FilterRom) (sel : Nat) (c : NumVal) : (vc.setFilter nf rom sel c).envAttackSec = vc.envAttackSec := rfl
@[simp] theorem Voice.setFilter_envDecaySec (vc : Voice) (rom : FilterRom) (sel : Nat) (c : NumVal) : (vc.setFilter nf rom sel c).envDecaySec = vc.envDecaySec := rfl
@[simp] theorem Voice.setFilter_envReleaseSec (vc : Voice) (rom : FilterRom) (sel : Nat) (c : NumVal) : (vc.setFilter nf rom sel c).envReleaseSec = vc.envReleaseSec := rfl
@[simp] theorem Voice.setFilter_envA (vc : Voice) (rom : FilterRom) (sel : Nat) (c : NumVal) : (vc.setFilter nf rom sel c).envA = vc.envA := rfl
@[simp] theorem Voice.setFilter_envD (vc : Voice) (rom : FilterRom) (sel : Nat) (c : NumVal) : (vc.setFilter nf rom sel c).envD = vc.envD := rfl
@[simp] theorem Voice.setFilter_envR (vc : Voice) (rom : FilterRom) (sel : Nat) (c : NumVal) : (vc.setFilter nf rom sel c).envR = vc.envR := rfl
@[simp] theorem Voice.setFilter_envSustain (vc : Voice) (rom : FilterRom) (sel : Nat) (c : NumVal) : (vc.setFilter nf rom sel c).envSustain = vc.envSustain := rfl
@[simp] theorem Voice.setFilter_envRsl (vc : Voice) (rom : FilterRom) (sel : Nat) (c : NumVal) : (vc.setFilter nf rom sel c).envRsl = vc.envRsl := rfl
@[simp] theorem Voice.setFilter_fltType (vc : Voice) (rom : FilterRom) (sel : Nat) (c : NumVal) : (vc.setFilter nf rom sel c).fltType = (topologyOfSel sel).getD vc.fltType := rfl
@[simp] theorem Voice.setFilter_fltCutoff (vc : Voice) (rom : FilterRom) (sel : Nat) (c : NumVal) : (vc.setFilter nf rom sel c).fltCutoff = c := rfl
@[simp] theorem Voice.setFilter_fltBin (vc : Voice) (rom : FilterRom) (sel : Nat) (c : NumVal) : (vc.setFilter nf rom sel c).fltBin = nearestFilterBin nf rom c := rfl
@[simp] theorem Voice.setFilter_fltX1 (vc : Voice) (rom : FilterRom) (sel : Nat) (c : NumVal) : (vc.setFilter nf rom sel c).fltX1 = vc.fltX1 := rfl
@[simp] theorem Voice.setFilter_fltY1 (vc : Voice) (rom : FilterRom) (sel : Nat) (c : NumVal) : (vc.setFilter nf rom sel c).fltY1 = vc.fltY1 := rfl
@[simp] theorem Voice.setFilter_fltX2 (vc : Voice) (rom : FilterRom) (sel : Nat) (c : NumVal) : (vc.setFilter nf rom sel c).fltX2 = vc.fltX2 := rfl
@[simp] theorem Voice.setFilter_fltY2 (vc : Voice) (rom : FilterRom) (sel : Nat) (c : NumVal) : (vc.setFilter nf rom sel c).fltY2 = vc.fltY2 := rfl

/-! ### `Voice.rerate` -/

@[simp] theorem Voice.rerate_oscFreq (vc : Voice) (fs : NumVal) (rom : FilterRom) : (vc.rerate nf fs rom).oscFreq = vc.oscFreq := rfl
@[simp] theorem Voice.rerate_oscPhase (vc : Voice) (fs : NumVal) (rom : FilterRom) : (vc.rerate nf fs rom).oscPhase = vc.oscPhase := rfl
@[simp] theorem Voice.rerate_oscDelta (vc : Voice) (fs : NumVal) (rom : FilterRom) : (vc.rerate nf fs rom).oscDelta = NumVal.div nf vc.oscFreq fs := rfl
@[simp] theorem Voice.rerate_oscAmp (vc : Voice) (fs : NumVal) (rom : FilterRom) : (vc.rerate nf fs rom).oscAmp = vc.oscAmp := rfl
@[simp] theorem Voice.rerate_oscWave (vc : Voice) (fs : NumVal) (rom : FilterRom) : (vc.rerate nf fs rom).oscWave = vc.oscWave := rfl
@[simp] theorem Voice.rerate_envStage (vc : Voice) (fs : NumVal) (rom : FilterRom) : (vc.rerate nf fs rom).envStage = vc.envStage := rfl
@[simp] theorem Voice.rerate_envCounter (vc : Voice) (fs : NumVal) (rom : FilterRom) : (vc.rerate nf fs rom).envCounter = vc.envCounter := rfl
@[simp] theorem Voice.rerate_envLevel (vc : Voice) (fs : NumVal) (rom : FilterRom) : (vc.rerate nf fs rom).envLevel = vc.envLevel := rfl
@[simp] theorem Voice.rerate_envAttackSec (vc : Voice) (fs : NumVal) (rom : FilterRom) : (vc.rerate nf fs rom).envAttackSec = vc.envAttackSec := rfl
@[simp] theorem Voice.rerate_envDecaySec (vc : Voice) (fs : NumVal) (rom : FilterRom) : (vc.rerate nf fs rom).envDecaySec = vc.envDecaySec := rfl
@[simp] theorem Voice.rerate_envReleaseSec (vc : Voice) (fs : NumVal) (rom : FilterRom) : (vc.rerate nf fs rom).envReleaseSec = vc.envReleaseSec := rfl
@[simp] theorem Voice.rerate_envA (vc : Voice) (fs : NumVal) (rom : FilterRom) : (vc.rerate nf fs rom).envA = conv nf fs vc.envAttackSec := rfl
@[simp] theorem Voice.rerate_envD (vc : Voice) (fs : NumVal) (rom : FilterRom) : (vc.rerate nf fs rom).envD = conv nf fs vc.envDecaySec := rfl
@[simp] theorem Voice.rerate_envR (vc : Voice) (fs : NumVal) (rom : FilterRom) : (vc.rerate nf fs rom).envR = conv nf fs vc.envReleaseSec := rfl
@[simp] theorem Voice.rerate_envSustain (vc : Voice) (fs : NumVal) (rom : FilterRom) : (vc.rerate nf fs rom).envSustain = vc.envSustain := rfl
@[simp] theorem Voice.rerate_envRsl (vc : Voice) (fs : NumVal) (rom : FilterRom) : (vc.rerate nf fs rom).envRsl = vc.envRsl := rfl
@[simp] theorem Voice.rerate_fltType (vc : Voice) (fs : NumVal) (rom : FilterRom) : (vc.rerate nf fs rom).fltType = vc.fltType := rfl
@[simp] theorem Voice.rerate_fltCutoff (vc : Voice) (fs : NumVal) (rom : FilterRom) : (vc.rerate nf fs rom).fltCutoff = vc.fltCutoff := rfl
@[simp] theorem Voice.rerate_fltBin (vc : Voice) (fs : NumVal) (rom : FilterRom) : (vc.rerate nf fs rom).fltBin = nearestFilterBin nf rom vc.fltCutoff := rfl
@[simp] theorem Voice.rerate_fltX1 (vc : Voice) (fs : NumVal) (rom : FilterRom) : (vc.rerate nf fs rom).fltX1 = vc.fltX1 := rfl
@[simp] theorem Voice.rerate_fltY1 (vc : Voice) (fs : NumVal) (rom : FilterRom) : (vc.rerate nf fs rom).fltY1 = vc.fltY1 := rfl
@[simp] theorem Voice.rerate_fltX2 (vc : Voice) (fs : NumVal) (rom : FilterRom) : (vc.rerate nf fs rom).fltX2 = vc.fltX2 := rfl
@[simp] theorem Voice.rerate_fltY2 (vc : Voice) (fs : NumVal) (rom : FilterRom) : (vc.rerate nf fs rom).fltY2 = vc.fltY2 := rfl

/-! ### `Voice.enterRelease` -/

@[simp] theorem Voice.enterRelease_oscFreq (vc : Voice) : vc.enterRelease.oscFreq = vc.oscFreq := by
  unfold Voice.enterRelease; split <;> rfl
@[simp] theorem Voice.enterRelease_oscPhase (vc : Voice) : vc.enterRelease.oscPhase = vc.oscPhase := by
  unfold Voice.enterRelease; split <;> rfl
@[simp] theorem Voice.enterRelease_oscDelta (vc : Voice) : vc.enterRelease.oscDelta = vc.oscDelta := by
  unfold Voice.enterRelease; split <;> rfl
@[simp] theorem Voice.enterRelease_oscAmp (vc : Voice) : vc.enterRelease.oscAmp = vc.oscAmp := by
  unfold Voice.enterRelease; split <;> rfl
@[simp] theorem Voice.enterRelease_oscWave (vc : Voice) : vc.enterRelease.oscWave = vc.oscWave := by
  unfold Voice.enterRelease; split <;> rfl
@[simp] theorem Voice.enterRelease_envAttackSec (vc : Voice) : vc.enterRelease.envAttackSec = vc.envAttackSec := by
  unfold Voice.enterRelease; split <;> rfl
@[simp] theorem Voice.enterRelease_envDecaySec (vc : Voice) : vc.enterRelease.envDecaySec = vc.envDecaySec := by
  unfold Voice.enterRelease; split <;> rfl
@[simp] theorem Voice.enterRelease_envReleaseSec (vc : Voice) : vc.enterRelease.envReleaseSec = vc.envReleaseSec := by
  unfold Voice.enterRelease; split <;> rfl
@[simp] theorem Voice.enterRelease_envA (vc : Voice) : vc.enterRelease.envA = vc.envA := by
  unfold Voice.enterRelease; split <;> rfl
@[simp] theorem Voice.enterRelease_envD (vc : Voice) : vc.enterRelease.envD = vc.envD := by
  unfold Voice.enterRelease; split <;> rfl
@[simp] theorem Voice.enterRelease_envR (vc : Voice) : vc.enterRelease.envR = vc.envR := by
  unfold Voice.enterRelease; split <;> rfl
@[simp] theorem Voice.enterRelease_envSustain (vc : Voice) : vc.enterRelease.envSustain = vc.envSustain := by
  unfold Voice.enterRelease; split <;> rfl
@[simp] theorem Voice.enterRelease_fltType (vc : Voice) : vc.enterRelease.fltType = vc.fltType := by
  unfold Voice.enterRelease; split <;> rfl
@[simp] theorem Voice.enterRelease_fltCutoff (vc : Voice) : vc.enterRelease.fltCutoff = vc.fltCutoff := by
  unfold Voice.enterRelease; split <;> rfl
@[simp] theorem Voice.enterRelease_fltBin (vc : Voice) : vc.enterRelease.fltBin = vc.fltBin := by
  unfold Voice.enterRelease; split <;> rfl
@[simp] theorem Voice.enterRelease_fltX1 (vc : Voice) : vc.enterRelease.fltX1 = vc.fltX1 := by
  unfold Voice.enterRelease; split <;> rfl
@[simp] theorem Voice.enterRelease_fltY1 (vc : Voice) : vc.enterRelease.fltY1 = vc.fltY1 := by
  unfold Voice.enterRelease; split <;> rfl
@[simp] theorem Voice.enterRelease_fltX2 (vc : Voice) : vc.enterRelease.fltX2 = vc.fltX2 := by
  unfold Voice.enterRelease; split <;> rfl
@[simp] theorem Voice.enterRelease_fltY2 (vc : Voice) : vc.enterRelease.fltY2 = vc.fltY2 := by
  unfold Voice.enterRelease; split <;> rfl

@[simp] theorem Voice.enterRelease_envLevel (vc : Voice) : vc.enterRelease.envLevel = vc.envLevel := by
  unfold Voice.enterRelease; split <;> rfl

/-! ### `Voice.attackStep` -/

@[simp] theorem Voice.attackStep_oscFreq (vc : Voice) : (vc.attackStep nf).oscFreq = vc.oscFreq := by
  unfold Voice.attackStep; split <;> rfl
@[simp] theorem Voice.attackStep_oscPhase (vc : Voice) : (vc.attackStep nf).oscPhase = vc.oscPhase := by
  unfold Voice.attackStep; split <;> rfl
@[simp] theorem Voice.attackStep_oscDelta (vc : Voice) : (vc.attackStep nf).oscDelta = vc.oscDelta := by
  unfold Voice.attackStep; split <;> rfl
@[simp] theorem Voice.attackStep_oscAmp (vc : Voice) : (vc.attackStep nf).oscAmp = vc.oscAmp := by
  unfold Voice.attackStep; split <;> rfl
@[simp] theorem Voice.attackStep_oscWave (vc : Voice) : (vc.attackStep nf).oscWave = vc.oscWave := by
  unfold Voice.attackStep; split <;> rfl
@[simp] theorem Voice.attackStep_envAttackSec (vc : Voice) : (vc.attackStep nf).envAttackSec = vc.envAttackSec := by
  unfold Voice.attackStep; split <;> rfl
@[simp] theorem Voice.attackStep_envDecaySec (vc : Voice) : (vc.attackStep nf).envDecaySec = vc.envDecaySec := by
  unfold Voice.attackStep; split <;> rfl
@[simp] theorem Voice.attackStep_envReleaseSec (vc : Voice) : (vc.attackStep nf).envReleaseSec = vc.envReleaseSec := by
  unfold Voice.attackStep; split <;> rfl
@[simp] theorem Voice.attackStep_envA (vc : Voice) : (vc.attackStep nf).envA = vc.envA := by
  unfold Voice.attackStep; split <;> rfl
@[simp] theorem Voice.attackStep_envD (vc : Voice) : (vc.attackStep nf).envD = vc.envD := by
  unfold Voice.attackStep; split <;> rfl
@[simp] theorem Voice.attackStep_envR (vc : Voice) : (vc.attackStep nf).envR = vc.envR := by
  unfold Voice.attackStep; split <;> rfl
@[simp] theorem Voice.attackStep_envSustain (vc : Voice) : (vc.attackStep nf).envSustain = vc.envSustain := by
  unfold Voice.attackStep; split <;> rfl
@[simp] theorem Voice.attackStep_envRsl (vc : Voice) : (vc.attackStep nf).envRsl = vc.envRsl := by
  unfold Voice.attackStep; split <;> rfl
@[simp] theorem Voice.attackStep_fltType (vc : Voice) : (vc.attackStep nf).fltType = vc.fltType := by
  unfold Voice.attackStep; split <;> rfl
@[simp] theorem Voice.attackStep_fltCutoff (vc : Voice) : (vc.attackStep nf).fltCutoff = vc.fltCutoff := by
  unfold Voice.attackStep; split <;> rfl
@[simp] theorem Voice.attackStep_fltBin (vc : Voice) : (vc.attackStep nf).fltBin = vc.fltBin := by
  unfold Voice.attackStep; split <;> rfl
@[simp] theorem Voice.attackStep_fltX1 (vc : Voice) : (vc.attackStep nf).fltX1 = vc.fltX1 := by
  unfold Voice.attackStep; split <;> rfl
@[simp] theorem Voice.attackStep_fltY1 (vc : Voice) : (vc.attackStep nf).fltY1 = vc.fltY1 := by
  unfold Voice.attackStep; split <;> rfl
@[simp] theorem Voice.attackStep_fltX2 (vc : Voice) : (vc.attackStep nf).fltX2 = vc.fltX2 := by
  unfold Voice.attackStep; split <;> rfl
@[simp] theorem Voice.attackStep_fltY2 (vc : Voice) : (vc.attackStep nf).fltY2 = vc.fltY2 := by
  unfold Voice.attackStep; split <;> rfl

/-! ### `Voice.decayStep` -/

@[simp] theorem Voice.decayStep_oscFreq (vc : Voice) : (vc.decayStep nf).oscFreq = vc.oscFreq := by
  unfold Voice.decayStep; split <;> rfl
@[simp] theorem Voice.decayStep_oscPhase (vc : Voice) : (vc.decayStep nf).oscPhase = vc.oscPhase := by
  unfold Voice.decayStep; split <;> rfl
@[simp] theorem Voice.decayStep_oscDelta (vc : Voice) : (vc.decayStep nf).oscDelta = vc.oscDelta := by
  unfold Voice.decayStep; split <;> rfl
@[simp] theorem Voice.decayStep_oscAmp (vc : Voice) : (vc.decayStep nf).oscAmp = vc.oscAmp := by
  unfold Voice.decayStep; split <;> rfl
@[simp] theorem Voice.decayStep_oscWave (vc : Voice) : (vc.decayStep nf).oscWave = vc.oscWave := by
  unfold Voice.decayStep; split <;> rfl
@[simp] theorem Voice.decayStep_envAttackSec (vc : Voice) : (vc.decayStep nf).envAttackSec = vc.envAttackSec := by
  unfold Voice.decayStep; split <;> rfl
@[simp] theorem Voice.decayStep_envDecaySec (vc : Voice) : (vc.decayStep nf).envDecaySec = vc.envDecaySec := by
  unfold Voice.decayStep; split <;> rfl
@[simp] theorem Voice.decayStep_envReleaseSec (vc : Voice) : (vc.decayStep nf).envReleaseSec = vc.envReleaseSec := by
  unfold Voice.decayStep; split <;> rfl
@[simp] theorem Voice.decayStep_envA (vc : Voice) : (vc.decayStep nf).envA = vc.envA := by
  unfold Voice.decayStep; split <;> rfl
@[simp] theorem Voice.decayStep_envD (vc : Voice) : (vc.decayStep nf).envD = vc.envD := by
  unfold Voice.decayStep; split <;> rfl
@[simp] theorem Voice.decayStep_envR (vc : Voice) : (vc.decayStep nf).envR = vc.envR := by
  unfold Voice.decayStep; split <;> rfl
@[simp] theorem Voice.decayStep_envSustain (vc : Voice) : (vc.decayStep nf).envSustain = vc.envSustain := by
  unfold Voice.decayStep; split <;> rfl
@[simp] theorem Voice.decayStep_envRsl (vc : Voice) : (vc.decayStep nf).envRsl = vc.envRsl := by
  unfold Voice.decayStep; split <;> rfl
@[simp] theorem Voice.decayStep_fltType (vc : Voice) : (vc.decayStep nf).fltType = vc.fltType := by
  unfold Voice.decayStep; split <;> rfl
@[simp] theorem Voice.decayStep_fltCutoff (vc : Voice) : (vc.decayStep nf).fltCutoff = vc.fltCutoff := by
  unfold Voice.decayStep; split <;> rfl
@[simp] theorem Voice.decayStep_fltBin (vc : Voice) : (vc.decayStep nf).fltBin = vc.fltBin := by
  unfold Voice.decayStep; split <;> rfl
@[simp] theorem Voice.decayStep_fltX1 (vc : Voice) : (vc.decayStep nf).fltX1 = vc.fltX1 := by
  unfold Voice.decayStep; split <;> rfl
@[simp] theorem Voice.decayStep_fltY1 (vc : Voice) : (vc.decayStep nf).fltY1 = vc.fltY1 := by
  unfold Voice.decayStep; split <;> rfl
@[simp] theorem Voice.decayStep_fltX2 (vc : Voice) : (vc.decayStep nf).fltX2 = vc.fltX2 := by
  unfold Voice.decayStep; split <;> rfl
@[simp] theorem Voice.decayStep_fltY2 (vc : Voice) : (vc.decayStep nf).fltY2 = vc.fltY2 := by
  unfold Voice.decayStep; split <;> rfl

/-! ### `Voice.releaseStep` -/

@[simp] theorem Voice.releaseStep_oscFreq (vc : Voice) : (vc.releaseStep nf).oscFreq = vc.oscFreq := by
  unfold Voice.releaseStep; split <;> rfl
@[simp] theorem Voice.releaseStep_oscPhase (vc : Voice) : (vc.releaseStep nf).oscPhase = vc.oscPhase := by
  unfold Voice.releaseStep; split <;> rfl
@[simp] theorem Voice.releaseStep_oscDelta (vc : Voice) : (vc.releaseStep nf).oscDelta = vc.oscDelta := by
  unfold Voice.releaseStep; split <;> rfl
@[simp] theorem Voice.releaseStep_oscAmp (vc : Voice) : (vc.releaseStep nf).oscAmp = vc.oscAmp := by
  unfold Voice.releaseStep; split <;> rfl
@[simp] theorem Voice.releaseStep_oscWave (vc : Voice) : (vc.releaseStep nf).oscWave = vc.oscWave := by
  unfold Voice.releaseStep; split <;> rfl
@[simp] theorem Voice.releaseStep_envAttackSec (vc : Voice) : (vc.releaseStep nf).envAttackSec = vc.envAttackSec := by
  unfold Voice.releaseStep; split <;> rfl
@[simp] theorem Voice.releaseStep_envDecaySec (vc : Voice) : (vc.releaseStep nf).envDecaySec = vc.envDecaySec := by
  unfold Voice.releaseStep; split <;> rfl
@[simp] theorem Voice.releaseStep_envReleaseSec (vc : Voice) : (vc.releaseStep nf).envReleaseSec = vc.envReleaseSec := by
  unfold Voice.releaseStep; split <;> rfl
@[simp] theorem Voice.releaseStep_envA (vc : Voice) : (vc.releaseStep nf).envA = vc.envA := by
  unfold Voice.releaseStep; split <;> rfl
@[simp] theorem Voice.releaseStep_envD (vc : Voice) : (vc.releaseStep nf).envD = vc.envD := by
  unfold Voice.releaseStep; split <;> rfl
@[simp] theorem Voice.releaseStep_envR (vc : Voice) : (vc.releaseStep nf).envR = vc.envR := by
  unfold Voice.releaseStep; split <;> rfl
@[simp] theorem Voice.releaseStep_envSustain (vc : Voice) : (vc.releaseStep nf).envSustain = vc.envSustain := by
  unfold Voice.releaseStep; split <;> rfl
@[simp] theorem Voice.releaseStep_envRsl (vc : Voice) : (vc.releaseStep nf).envRsl = vc.envRsl := by
  unfold Voice.releaseStep; split <;> rfl
@[simp] theorem Voice.releaseStep_fltType (vc : Voice) : (vc.releaseStep nf).fltType = vc.fltType := by
  unfold Voice.releaseStep; split <;> rfl
@[simp] theorem Voice.releaseStep_fltCutoff (vc : Voice) : (vc.releaseStep nf).fltCutoff = vc.fltCutoff := by
  unfold Voice.releaseStep; split <;> rfl
@[simp] theorem Voice.releaseStep_fltBin (vc : Voice) : (vc.releaseStep nf).fltBin = vc.fltBin := by
  unfold Voice.releaseStep; split <;> rfl
@[simp] theorem Voice.releaseStep_fltX1 (vc : Voice) : (vc.releaseStep nf).fltX1 = vc.fltX1 := by
  unfold Voice.releaseStep; split <;> rfl
@[simp] theorem Voice.releaseStep_fltY1 (vc : Voice) : (vc.releaseStep nf).fltY1 = vc.fltY1 := by
  unfold Voice.releaseStep; split <;> rfl
@[simp] theorem Voice.releaseStep_fltX2 (vc : Voice) : (vc.releaseStep nf).fltX2 = vc.fltX2 := by
  unfold Voice.releaseStep; split <;> rfl
@[simp] theorem Voice.releaseStep_fltY2 (vc : Voice) : (vc.releaseStep nf).fltY2 = vc.fltY2 := by
  unfold Voice.releaseStep; split <;> rfl

/-! ### `Voice.envStep` -/

@[simp] theorem Voice.envStep_oscFreq (vc : Voice) : (vc.envStep nf).oscFreq = vc.oscFreq := by
  unfold Voice.envStep; split <;> simp [Voice.idleStep, Voice.sustainStep]
@[simp] theorem Voice.envStep_oscPhase (vc : Voice) : (vc.envStep nf).oscPhase = vc.oscPhase := by
  unfold Voice.envStep; split <;> simp [Voice.idleStep, Voice.sustainStep]
@[simp] theorem Voice.envStep_oscDelta (vc : Voice) : (vc.envStep nf).oscDelta = vc.oscDelta := by
  unfold Voice.envStep; split <;> simp [Voice.idleStep, Voice.sustainStep]
@[simp] theorem Voice.envStep_oscAmp (vc : Voice) : (vc.envStep nf).oscAmp = vc.oscAmp := by
  unfold Voice.envStep; split <;> simp [Voice.idleStep, Voice.sustainStep]
@[simp] theorem Voice.envStep_oscWave (vc : Voice) : (vc.envStep nf).oscWave = vc.oscWave := by
  unfold Voice.envStep; split <;> simp [Voice.idleStep, Voice.sustainStep]
@[simp] theorem Voice.envStep_envAttackSec (vc : Voice) : (vc.envStep nf).envAttackSec = vc.envAttackSec := by
  unfold Voice.envStep; split <;> simp [Voice.idleStep, Voice.sustainStep]
@[simp] theorem Voice.envStep_envDecaySec (vc : Voice) : (vc.envStep nf).envDecaySec = vc.envDecaySec := by
  unfold Voice.envStep; split <;> simp [Voice.idleStep, Voice.sustainStep]
@[simp] theorem Voice.envStep_envReleaseSec (vc : Voice) : (vc.envStep nf).envReleaseSec = vc.envReleaseSec := by
  unfold Voice.envStep; split <;> simp [Voice.idleStep, Voice.sustainStep]
@[simp] theorem Voice.envStep_envA (vc : Voice) : (vc.envStep nf).envA = vc.envA := by
  unfold Voice.envStep; split <;> simp [Voice.idleStep, Voice.sustainStep]
@[simp] theorem Voice.envStep_envD (vc : Voice) : (vc.envStep nf).envD = vc.envD := by
  unfold Voice.envStep; split <;> simp [Voice.idleStep, Voice.sustainStep]
@[simp] theorem Voice.envStep_envR (vc : Voice) : (vc.envStep nf).envR = vc.envR := by
  unfold Voice.envStep; split <;> simp [Voice.idleStep, Voice.sustainStep]
@[simp] theorem Voice.envStep_envSustain (vc : Voice) : (vc.envStep nf).envSustain = vc.envSustain := by
  unfold Voice.envStep; split <;> simp [Voice.idleStep, Voice.sustainStep]
@[simp] theorem Voice.envStep_envRsl (vc : Voice) : (vc.envStep nf).envRsl = vc.envRsl := by
  unfold Voice.envStep; split <;> simp [Voice.idleStep, Voice.sustainStep]
@[simp] theorem Voice.envStep_fltType (vc : Voice) : (vc.envStep nf).fltType = vc.fltType := by
  unfold Voice.envStep; split <;> simp [Voice.idleStep, Voice.sustainStep]
@[simp] theorem Voice.envStep_fltCutoff (vc : Voice) : (vc.envStep nf).fltCutoff = vc.fltCutoff := by
  unfold Voice.envStep; split <;> simp [Voice.idleStep, Voice.sustainStep]
@[simp] theorem Voice.envStep_fltBin (vc : Voice) : (vc.envStep nf).fltBin = vc.fltBin := by
  unfold Voice.envStep; split <;> simp [Voice.idleStep, Voice.sustainStep]
@[simp] theorem Voice.envStep_fltX1 (vc : Voice) : (vc.envStep nf).fltX1 = vc.fltX1 := by
  unfold Voice.envStep; split <;> simp [Voice.idleStep, Voice.sustainStep]
@[simp] theorem Voice.envStep_fltY1 (vc : Voice) : (vc.envStep nf).fltY1 = vc.fltY1 := by
  unfold Voice.envStep; split <;> simp [Voice.idleStep, Voice.sustainStep]
@[simp] theorem Voice.envStep_fltX2 (vc : Voice) : (vc.envStep nf).fltX2 = vc.fltX2 := by
  unfold Voice.envStep; split <;> simp [Voice.idleStep, Voice.sustainStep]
@[simp] theorem Voice.envStep_fltY2 (vc : Voice) : (vc.envStep nf).fltY2 = vc.fltY2 := by
  unfold Voice.envStep; split <;> simp [Voice.idleStep, Voice.sustainStep]

/-! ### `Voice.filtered` -/

@[simp] theorem Voice.filtered_oscFreq (vc : Voice) (b : FilterBin) (x : NumVal) : (vc.filtered nf b x).oscFreq = vc.oscFreq := by
  unfold Voice.filtered; split <;> rfl
@[simp] theorem Voice.filtered_oscPhase (vc : Voice) (b : FilterBin) (x : NumVal) : (vc.filtered nf b x).oscPhase = vc.oscPhase := by
  unfold Voice.filtered; split <;> rfl
@[simp] theorem Voice.filtered_oscDelta (vc : Voice) (b : FilterBin) (x : NumVal) : (vc.filtered nf b x).oscDelta = vc.oscDelta := by
  unfold Voice.filtered; split <;> rfl
@[simp] theorem Voice.filtered_oscAmp (vc : Voice) (b : FilterBin) (x : NumVal) : (vc.filtered nf b x).oscAmp = vc.oscAmp := by
  unfold Voice.filtered; split <;> rfl
@[simp] theorem Voice.filtered_oscWave (vc : Voice) (b : FilterBin) (x : NumVal) : (vc.filtered nf b x).oscWave = vc.oscWave := by
  unfold Voice.filtered; split <;> rfl
@[simp] theorem Voice.filtered_envStage (vc : Voice) (b : FilterBin) (x : NumVal) : (vc.filtered nf b x).envStage = vc.envStage := by
  unfold Voice.filtered; split <;> rfl
@[simp] theorem Voice.filtered_envCounter (vc : Voice) (b : FilterBin) (x : NumVal) : (vc.filtered nf b x).envCounter = vc.envCounter := by
  unfold Voice.filtered; split <;> rfl
@[simp] theorem Voice.filtered_envLevel (vc : Voice) (b : FilterBin) (x : NumVal) : (vc.filtered nf b x).envLevel = vc.envLevel := by
  unfold Voice.filtered; split <;> rfl
@[simp] theorem Voice.filtered_envAttackSec (vc : Voice) (b : FilterBin) (x : NumVal) : (vc.filtered nf b x).envAttackSec = vc.envAttackSec := by
  unfold Voice.filtered; split <;> rfl
@[simp] theorem Voice.filtered_envDecaySec (vc : Voice) (b : FilterBin) (x : NumVal) : (vc.filtered nf b x).envDecaySec = vc.envDecaySec := by
  unfold Voice.filtered; split <;> rfl
@[simp] theorem Voice.filtered_envReleaseSec (vc : Voice) (b : FilterBin) (x : NumVal) : (vc.filtered nf b x).envReleaseSec = vc.envReleaseSec := by
  unfold Voice.filtered; split <;> rfl
@[simp] theorem Voice.filtered_envA (vc : Voice) (b : FilterBin) (x : NumVal) : (vc.filtered nf b x).envA = vc.envA := by
  unfold Voice.filtered; split <;> rfl
@[simp] theorem Voice.filtered_envD (vc : Voice) (b : FilterBin) (x : NumVal) : (vc.filtered nf b x).envD = vc.envD := by
  unfold Voice.filtered; split <;> rfl
@[simp] theorem Voice.filtered_envR (vc : Voice) (b : FilterBin) (x : NumVal) : (vc.filtered nf b x).envR = vc.envR := by
  unfold Voice.filtered; split <;> rfl
@[simp] theorem Voice.filtered_envSustain (vc : Voice) (b : FilterBin) (x : NumVal) : (vc.filtered nf b x).envSustain = vc.envSustain := by
  unfold Voice.filtered; split <;> rfl
@[simp] theorem Voice.filtered_envRsl (vc : Voice) (b : FilterBin) (x : NumVal) : (vc.filtered nf b x).envRsl = vc.envRsl := by
  unfold Voice.filtered; split <;> rfl
@[simp] theorem Voice.filtered_fltType (vc : Voice) (b : FilterBin) (x : NumVal) : (vc.filtered nf b x).fltType = vc.fltType := by
  unfold Voice.filtered; split <;> rfl
@[simp] theorem Voice.filtered_fltCutoff (vc : Voice) (b : FilterBin) (x : NumVal) : (vc.filtered nf b x).fltCutoff = vc.fltCutoff := by
  unfold Voice.filtered; split <;> rfl
@[simp] theorem Voice.filtered_fltBin (vc : Voice) (b : FilterBin) (x : NumVal) : (vc.filtered nf b x).fltBin = vc.fltBin := by
  unfold Voice.filtered; split <;> rfl

@[simp] theorem Voice.filtered_fltX1 (vc : Voice) (b : FilterBin) (x : NumVal) : (vc.filtered nf b x).fltX1 = x := by
  unfold Voice.filtered; split <;> rfl

/-! ### `Voice.ticked` -/

@[simp] theorem Voice.ticked_oscFreq (vc : Voice) (s : State) : (vc.ticked s).oscFreq = vc.oscFreq := by
  simp [Voice.ticked]
@[simp] theorem Voice.ticked_oscPhase (vc : Voice) (s : State) : (vc.ticked s).oscPhase = advancePhase s.params.num vc.oscPhase vc.oscDelta := by
  simp [Voice.ticked]
@[simp] theorem Voice.ticked_oscDelta (vc : Voice) (s : State) : (vc.ticked s).oscDelta = vc.oscDelta := by
  simp [Voice.ticked]
@[simp] theorem Voice.ticked_oscAmp (vc : Voice) (s : State) : (vc.ticked s).oscAmp = vc.oscAmp := by
  simp [Voice.ticked]
@[simp] theorem Voice.ticked_oscWave (vc : Voice) (s : State) : (vc.ticked s).oscWave = vc.oscWave := by
  simp [Voice.ticked]
@[simp] theorem Voice.ticked_envAttackSec (vc : Voice) (s : State) : (vc.ticked s).envAttackSec = vc.envAttackSec := by
  simp [Voice.ticked]
@[simp] theorem Voice.ticked_envDecaySec (vc : Voice) (s : State) : (vc.ticked s).envDecaySec = vc.envDecaySec := by
  simp [Voice.ticked]
@[simp] theorem Voice.ticked_envReleaseSec (vc : Voice) (s : State) : (vc.ticked s).envReleaseSec = vc.envReleaseSec := by
  simp [Voice.ticked]
@[simp] theorem Voice.ticked_envA (vc : Voice) (s : State) : (vc.ticked s).envA = vc.envA := by
  simp [Voice.ticked]
@[simp] theorem Voice.ticked_envD (vc : Voice) (s : State) : (vc.ticked s).envD = vc.envD := by
  simp [Voice.ticked]
@[simp] theorem Voice.ticked_envR (vc : Voice) (s : State) : (vc.ticked s).envR = vc.envR := by
  simp [Voice.ticked]
@[simp] theorem Voice.ticked_envSustain (vc : Voice) (s : State) : (vc.ticked s).envSustain = vc.envSustain := by
  simp [Voice.ticked]
@[simp] theorem Voice.ticked_envRsl (vc : Voice) (s : State) : (vc.ticked s).envRsl = vc.envRsl := by
  simp [Voice.ticked]
@[simp] theorem Voice.ticked_fltType (vc : Voice) (s : State) : (vc.ticked s).fltType = vc.fltType := by
  simp [Voice.ticked]
@[simp] theorem Voice.ticked_fltCutoff (vc : Voice) (s : State) : (vc.ticked s).fltCutoff = vc.fltCutoff := by
  simp [Voice.ticked]
@[simp] theorem Voice.ticked_fltBin (vc : Voice) (s : State) : (vc.ticked s).fltBin = vc.fltBin := by
  simp [Voice.ticked]
@[simp] theorem Voice.ticked_envStage (vc : Voice) (s : State) :
    (vc.ticked s).envStage = ((vc.advance s.params.num).envStep s.params.num).envStage := by simp [Voice.ticked]
@[simp] theorem Voice.ticked_envCounter (vc : Voice) (s : State) :
    (vc.ticked s).envCounter = ((vc.advance s.params.num).envStep s.params.num).envCounter := by simp [Voice.ticked]
@[simp] theorem Voice.ticked_envLevel (vc : Voice) (s : State) :
    (vc.ticked s).envLevel = ((vc.advance s.params.num).envStep s.params.num).envLevel := by simp [Voice.ticked]

end Sys2Proof.Machine
end

