-- ==== Sys2Proof/Laws/Render.lean ====
section
/-! SUPPORT. What RENDER does: its loop in terms of the voice's ticks and their samples, and what it leaves in each field and each element. -/

namespace Sys2Proof.Machine

open Sys2Proof Sys2Proof.Config

variable {nf : Arith}

/-! ### A tick reads the parameters and the ROMs only -/

/-- Two states give a voice the same ticks. -/
def State.SameRoms (s s' : State) : Prop :=
  s'.params = s.params ∧ s'.waveRom = s.waveRom ∧ s'.filterRom = s.filterRom

theorem Voice.tickInput_congr {s s' : State} (h : s.SameRoms s') (vc : Voice) : vc.tickInput s' = vc.tickInput s := by
  obtain ⟨h1, h2, -⟩ := h
  simp only [Voice.tickInput, Voice.oscOut, Voice.bankBin, h1, h2]

theorem Voice.filterBin_congr {s s' : State} (h : s.SameRoms s') (vc : Voice) : vc.filterBin s' = vc.filterBin s := by
  simp only [Voice.filterBin, h.2.2]

theorem Voice.ticked_congr {s s' : State} (h : s.SameRoms s') (vc : Voice) : vc.ticked s' = vc.ticked s := by
  simp only [Voice.ticked, Voice.tickInput_congr h, Voice.filterBin_congr h, h.1]

theorem Voice.tickOut_congr {s s' : State} (h : s.SameRoms s') (vc : Voice) : vc.tickOut s' = vc.tickOut s := by
  simp only [Voice.tickOut, Voice.tickInput_congr h, Voice.filterBin_congr h, h.1]

theorem Voice.ticks_congr {s s' : State} (h : s.SameRoms s') (n : Nat) (vc : Voice) :
    Voice.ticks s' n vc = Voice.ticks s n vc := by
  induction n generalizing vc with
  | zero => rfl
  | succ n ih => simp only [Voice.ticks, Voice.ticked_congr h, ih]

theorem Voice.tickOuts_congr {s s' : State} (h : s.SameRoms s') (n : Nat) (vc : Voice) :
    Voice.tickOuts s' n vc = Voice.tickOuts s n vc := by
  induction n generalizing vc with
  | zero => rfl
  | succ n ih => simp only [Voice.tickOuts, Voice.ticked_congr h, Voice.tickOut_congr h, ih]

theorem Voice.ticksOk_congr {s s' : State} (h : s.SameRoms s') (n : Nat) (vc : Voice) :
    Voice.ticksOk s' n vc = Voice.ticksOk s n vc := by
  induction n generalizing vc with
  | zero => rfl
  | succ n ih => simp only [Voice.ticksOk, Voice.ticked_congr h, Voice.tickInput_congr h, h.1, ih]

/-! ### Elements stay inside the buffer (20_memory.md R38) -/

theorem State.memWrite_inside {s : State} (h : s.BufferInside) (ch : Nat) {i : Nat} (x : NumVal)
    (hi : i < s.params.bufLen) : (s.memWrite ch i x).BufferInside := by
  intro m hm p hp
  simp only [State.memWrite_out, State.memWrite_params] at hm ⊢
  obtain ⟨k, hk, rfl⟩ := List.getElem_of_mem hm
  have hk' : k < s.out.length := by simpa using hk
  rw [List.getElem_modify] at hp
  split_ifs at hp with hc
  · rcases Memory.mem_write hp with h1 | h1
    · exact h1 ▸ hi
    · exact h _ (List.getElem_mem hk') p h1
  · exact h _ (List.getElem_mem hk') p hp

theorem State.accumulateTo_inside {s : State} (h : s.BufferInside) {i : Nat} (y : NumVal) (n : Nat)
    (hi : i < s.params.bufLen) : (s.accumulateTo i y n).BufferInside := by
  induction n with
  | zero => exact h
  | succ n ih => exact State.memWrite_inside ih n _ (by simpa using hi)

/-! ### Samples accumulated one after another -/

/-- Samples accumulated into every channel, the first at element `e`. -/
def State.accumulateList (s : State) (e : Nat) : List NumVal → State
  | [] => s
  | y :: ys => (s.accumulateAll e y).accumulateList (e + 1) ys

theorem State.accumulateList_fields (s : State) (e : Nat) (ys : List NumVal) :
    (s.accumulateList e ys).params = s.params ∧ (s.accumulateList e ys).fs = s.fs ∧
    (s.accumulateList e ys).waveRom = s.waveRom ∧ (s.accumulateList e ys).filterRom = s.filterRom ∧
    (s.accumulateList e ys).voices = s.voices ∧ (s.accumulateList e ys).stream = s.stream ∧
    (s.accumulateList e ys).cmdIndex = s.cmdIndex ∧ (s.accumulateList e ys).responses = s.responses ∧
    (s.accumulateList e ys).outcome = s.outcome ∧ (s.accumulateList e ys).out.length = s.out.length := by
  induction ys generalizing s e with
  | nil => simp [State.accumulateList]
  | cons y ys ih =>
    have := ih (s.accumulateAll e y) (e + 1)
    simpa [State.accumulateList] using this

theorem State.accumulateList_canonical (s : State) (e : Nat) (ys : List NumVal)
    (hwf : ∀ m ∈ s.out, Memory.wf m = true) : ∀ m ∈ (s.accumulateList e ys).out, Memory.wf m = true := by
  induction ys generalizing s e with
  | nil => exact hwf
  | cons y ys ih => exact ih _ _ (State.accumulateAll_canonical s e y hwf)

/-- An element outside the samples' range keeps its value. -/
theorem State.memRead_accumulateList_other (s : State) (e : Nat) (ys : List NumVal) (ch i : Nat)
    (h : i < e ∨ e + ys.length ≤ i) : (s.accumulateList e ys).memRead ch i = s.memRead ch i := by
  induction ys generalizing s e with
  | nil => rfl
  | cons y ys ih =>
    simp only [List.length_cons] at h
    rw [State.accumulateList, ih _ _ (by omega), State.memRead_accumulateAll_other _ _ _ (by omega)]

/-- Every element of the samples' range gets its sample added, in every channel. -/
theorem State.memRead_accumulateList_same (s : State) (e : Nat) (ys : List NumVal) {ch j : Nat} {y : NumVal}
    (hch : ch < s.out.length) (hj : ys[j]? = some y) (hwf : ∀ m ∈ s.out, Memory.wf m = true) :
    (s.accumulateList e ys).memRead ch (e + j) = mixed s.params (s.memRead ch (e + j)) y := by
  induction ys generalizing s e j with
  | nil => simp at hj
  | cons y' ys ih =>
    rw [State.accumulateList]
    cases j with
    | zero =>
      obtain rfl : y' = y := by simpa using hj
      simp only [Nat.add_zero]
      rw [State.memRead_accumulateList_other _ _ _ _ _ (.inl (by omega)), State.memRead_accumulateAll_same _ _ _ hch hwf]
    | succ j =>
      have := ih (s.accumulateAll e y') (e + 1) (j := j) (by simpa using hch) (by simpa using hj)
        (State.accumulateAll_canonical s e y' hwf)
      rw [show e + (j + 1) = e + 1 + j by omega, this, State.accumulateAll_params,
        State.memRead_accumulateAll_other _ _ _ (by omega)]

/-- Samples accumulated inside the buffer list no element outside it. -/
theorem State.accumulateList_inside {s : State} (h : s.BufferInside) {e : Nat} {ys : List NumVal}
    (he : e + ys.length ≤ s.params.bufLen) : (s.accumulateList e ys).BufferInside := by
  induction ys generalizing s e with
  | nil => exact h
  | cons y ys ih =>
    simp only [List.length_cons] at he
    exact ih (State.accumulateTo_inside h y s.out.length (by omega)) (by simp; omega)

/-- A voice's samples are at most as many as its ticks. -/
theorem Voice.tickOuts_length_le (s : State) (n : Nat) (vc : Voice) : (Voice.tickOuts s n vc).length ≤ n := by
  induction n generalizing vc with
  | zero => exact le_rfl
  | succ n ih =>
    rw [Voice.tickOuts]
    split
    · exact Nat.zero_le _
    · simpa using ih (vc.ticked s)

/-- Replacing a voice and accumulating a sample commute. -/
theorem State.setVoice_accumulateTo (s : State) (v : Nat) (vc : Voice) (e : Nat) (y : NumVal) (n : Nat) :
    (s.setVoice v vc).accumulateTo e y n = (s.accumulateTo e y n).setVoice v vc := by
  induction n with
  | zero => rfl
  | succ n ih => simp only [State.accumulateTo, ih]; rfl

theorem State.setVoice_accumulateAll (s : State) (v : Nat) (vc : Voice) (e : Nat) (y : NumVal) :
    (s.setVoice v vc).accumulateAll e y = (s.accumulateAll e y).setVoice v vc :=
  State.setVoice_accumulateTo s v vc e y s.out.length

theorem State.setVoice_accumulateList (s : State) (v : Nat) (vc : Voice) (e : Nat) (ys : List NumVal) :
    (s.setVoice v vc).accumulateList e ys = (s.accumulateList e ys).setVoice v vc := by
  induction ys generalizing s e with
  | nil => rfl
  | cons y ys ih => rw [State.accumulateList, State.setVoice_accumulateAll, ih]; rfl

theorem State.setVoice_setVoice (s : State) (v : Nat) (vc vc' : Voice) :
    (s.setVoice v vc).setVoice v vc' = s.setVoice v vc' := by simp [State.setVoice]

/-! ### The loop -/

/-- The state after `n` samples of a voice's render from element `e` on. -/
def State.rendered (s : State) (v : Nat) (vc : Voice) (n e : Nat) : State :=
  (s.accumulateList e (Voice.tickOuts s n vc)).setVoice v (Voice.ticks s n vc)

theorem State.renderSample_sameRoms (s : State) (v : Nat) (vc : Voice) (e : Nat) :
    s.SameRoms (s.renderSample v vc e) := by
  simp [State.SameRoms, State.renderSample]

theorem State.renderSample_voice {s : State} {v : Nat} {vc : Voice} (h : s.voices[v]? = some vc) (e : Nat) :
    (s.renderSample v vc e).voices[v]? = some (vc.ticked s) := by
  have hv : v < s.voices.length := (List.getElem?_eq_some_iff.1 h).1
  simp [State.renderSample, hv]

theorem State.rendered_succ {s : State} {v : Nat} {vc : Voice} (hi : vc.envStage ≠ .idle) (n e : Nat) :
    (s.renderSample v vc e).rendered v (vc.ticked s) n (e + 1) = s.rendered v vc (n + 1) e := by
  have hs := State.renderSample_sameRoms s v vc e
  rw [State.rendered, Voice.tickOuts_congr hs, Voice.ticks_congr hs, State.rendered, Voice.tickOuts, Voice.ticks,
    if_neg hi, if_neg hi, State.accumulateList, State.renderSample, State.setVoice_accumulateAll,
    State.setVoice_accumulateList, State.setVoice_setVoice]

theorem State.rendered_idle {s : State} {v : Nat} {vc : Voice} (h : s.voices[v]? = some vc)
    (hi : vc.envStage = .idle) (n e : Nat) : s.rendered v vc n e = s := by
  have hset : s.setVoice v vc = s := by
    have hv := List.getElem?_eq_some_iff.1 h
    simp [State.setVoice, ← hv.2]
  cases n with
  | zero => simpa [State.rendered, Voice.tickOuts, Voice.ticks, State.accumulateList] using hset
  | succ n => simpa [State.rendered, Voice.tickOuts, Voice.ticks, State.accumulateList, hi] using hset

theorem State.rendered_zero {s : State} {v : Nat} {vc : Voice} (h : s.voices[v]? = some vc) (e : Nat) :
    s.rendered v vc 0 e = s := by
  have hv := List.getElem?_eq_some_iff.1 h
  simp [State.rendered, Voice.tickOuts, Voice.ticks, State.accumulateList, State.setVoice, ← hv.2]

/-- The loop completes when every tick executes normally, and leaves the rendered state. -/
theorem renderFrom_ok (cmd : Instr) {v : Nat} (off : Nat) (start : State) (n i : Nat) {s : State} {vc : Voice}
    (h : s.voices[v]? = some vc)
    (hok : Voice.ticksOk s n vc = true) : renderFrom cmd v off start n i s = .next (s.rendered v vc n (off + i)) := by
  induction n generalizing i s vc with
  | zero => rw [State.rendered_zero h]; rfl
  | succ n ih =>
    simp only [renderFrom, withVoice, h]
    by_cases hi : vc.envStage = .idle
    · rw [if_pos hi, State.rendered_idle h hi]
    · simp only [Voice.ticksOk, Bool.or_eq_true, beq_iff_eq, hi, false_or, Bool.and_eq_true] at hok
      obtain ⟨⟨hp, hf⟩, hr⟩ := hok
      have hs := State.renderSample_sameRoms s v vc (off + i)
      rw [if_neg hi, hp, hf]
      simp only [Bool.not_true, Bool.false_eq_true, if_false]
      rw [ih (i + 1) (State.renderSample_voice h _) ((Voice.ticksOk_congr hs n _).trans hr), ← State.rendered_succ hi]
      rfl

/-- While its ticks execute normally and the voice stays active, the loop is at the state rendered so far. -/
theorem renderFrom_run (cmd : Instr) {v : Nat} (off : Nat) (start : State) (k m i : Nat) {s : State} {vc : Voice}
    (h : s.voices[v]? = some vc)
    (hok : Voice.ticksOk s k vc = true) (hi : (Voice.ticks s k vc).envStage ≠ .idle) :
    renderFrom cmd v off start (k + m) i s = renderFrom cmd v off start m (i + k) (s.rendered v vc k (off + i)) := by
  induction k generalizing i s vc with
  | zero => rw [State.rendered_zero h, Nat.zero_add, Nat.add_zero]
  | succ k ih =>
    have hvi : vc.envStage ≠ .idle := fun hc => hi (by rw [Voice.ticks, if_pos hc, hc])
    rw [Voice.ticks, if_neg hvi] at hi
    simp only [Voice.ticksOk, Bool.or_eq_true, beq_iff_eq, hvi, false_or, Bool.and_eq_true] at hok
    have hs := State.renderSample_sameRoms s v vc (off + i)
    have hun : renderFrom cmd v off start (k + 1 + m) i s =
        renderFrom cmd v off start (k + m) (i + 1) (s.renderSample v vc (off + i)) := by
      rw [show k + 1 + m = k + m + 1 by omega]
      simp [renderFrom, withVoice, h, hvi, hok.1.1, hok.1.2]
    rw [hun, ih (i + 1) (State.renderSample_voice h _) ((Voice.ticksOk_congr hs k _).trans hok.2)
      (by rwa [Voice.ticks_congr hs]), ← State.rendered_succ hvi, show i + 1 + k = i + (k + 1) by omega]
    rfl

/-- The loop stops at the first tick that does not execute normally: PHASE_RANGE keeps the samples before it, NONFINITE
raises from the starting state. -/
theorem renderFrom_stop (cmd : Instr) {v : Nat} (off : Nat) (start : State) (n i : Nat) {s : State} {vc : Voice}
    (h : s.voices[v]? = some vc)
    (hok : Voice.ticksOk s n vc = false) :
    ∃ k, k < n ∧ Voice.ticksOk s k vc = true ∧ (Voice.ticks s k vc).envStage ≠ .idle ∧
      ((phaseInRange s.params.num (Voice.ticks s k vc).oscPhase = false ∧ renderFrom cmd v off start n i s =
          raise .phaseRange cmd (some { voice := v, sample := i + k, phase := (Voice.ticks s k vc).oscPhase })
            (s.rendered v vc k (off + i))) ∨
       (phaseInRange s.params.num (Voice.ticks s k vc).oscPhase = true ∧ ((Voice.ticks s k vc).tickInput s).finite = false ∧
          renderFrom cmd v off start n i s = raise .nonfinite cmd none start)) := by
  induction n generalizing i s vc with
  | zero => simp [Voice.ticksOk] at hok
  | succ n ih =>
    have hi : vc.envStage ≠ .idle := by
      intro hc; simp [Voice.ticksOk, hc] at hok
    have hb : (vc.envStage == Stage.idle) = false := by simpa using hi
    simp only [Voice.ticksOk, hb, Bool.false_or] at hok
    have hun : renderFrom cmd v off start (n + 1) i s =
        if !phaseInRange s.params.num vc.oscPhase then
          raise .phaseRange cmd (some { voice := v, sample := i, phase := vc.oscPhase }) s
        else if !(vc.tickInput s).finite then raise .nonfinite cmd none start
        else renderFrom cmd v off start n (i + 1) (s.renderSample v vc (off + i)) := by
      simp only [renderFrom, withVoice, h]
      rw [if_neg hi]
    cases hp : phaseInRange s.params.num vc.oscPhase with
    | false =>
      refine ⟨0, Nat.succ_pos n, rfl, hi, .inl ⟨hp, ?_⟩⟩
      rw [hun, hp, State.rendered_zero h]; rfl
    | true =>
      cases hf : (vc.tickInput s).finite with
      | false =>
        refine ⟨0, Nat.succ_pos n, rfl, hi, .inr ⟨hp, hf, ?_⟩⟩
        rw [hun, hp, hf]; rfl
      | true =>
        rw [hp, hf] at hok
        have hs := State.renderSample_sameRoms s v vc (off + i)
        obtain ⟨k, hk, h1, h2, h3⟩ := ih (i + 1) (State.renderSample_voice h (off + i))
          ((Voice.ticksOk_congr hs n _).trans (by simpa using hok))
        rw [Voice.ticksOk_congr hs] at h1
        simp only [Voice.ticks_congr hs, Voice.tickInput_congr hs, hs.1] at h2 h3
        have hkk : Voice.ticks s (k + 1) vc = Voice.ticks s k (vc.ticked s) := by rw [Voice.ticks, if_neg hi]
        have hre : (s.renderSample v vc (off + i)).rendered v (vc.ticked s) k (off + (i + 1)) =
            s.rendered v vc (k + 1) (off + i) := State.rendered_succ hi k (off + i)
        refine ⟨k + 1, by omega, by simp [Voice.ticksOk, hp, hf, h1], hkk ▸ h2, ?_⟩
        rw [hun, hp, hf, hkk, ← hre, show i + (k + 1) = i + 1 + k by omega]
        exact h3

/-- What RENDER does, in full. -/
theorem execRender_spec {v : Nat} {s : State} {vc : Voice} (h : s.voices[v]? = some vc) (n off : Nat) :
    (s.params.bufLen < off + n ∧ execRender v n off s = raise .bufferRange (.render v n off) none s) ∨
    (off + n ≤ s.params.bufLen ∧ Voice.ticksOk s n vc = true ∧ execRender v n off s = .next (s.rendered v vc n off)) ∨
    (off + n ≤ s.params.bufLen ∧ Voice.ticksOk s n vc = false ∧
      execRender v n off s = renderFrom (.render v n off) v off s n 0 s) := by
  have hun : execRender v n off s = if s.params.bufLen < off + n then raise .bufferRange (.render v n off) none s
      else renderFrom (.render v n off) v off s n 0 s := by simp only [execRender, withVoice, h]
  rw [hun]
  by_cases hb : s.params.bufLen < off + n
  · exact .inl ⟨hb, if_pos hb⟩
  · rw [if_neg hb]
    cases hok : Voice.ticksOk s n vc with
    | true => exact .inr (.inl ⟨by omega, rfl, renderFrom_ok _ off s n 0 h hok⟩)
    | false => exact .inr (.inr ⟨by omega, rfl, rfl⟩)

/-! ### What a render leaves in each field -/

section rendered
variable (s : State) (v : Nat) (vc : Voice) (n e : Nat)

@[simp] theorem State.rendered_params : (s.rendered v vc n e).params = s.params :=
  (State.accumulateList_fields _ _ _).1
@[simp] theorem State.rendered_fs : (s.rendered v vc n e).fs = s.fs :=
  (State.accumulateList_fields _ _ _).2.1
@[simp] theorem State.rendered_waveRom : (s.rendered v vc n e).waveRom = s.waveRom :=
  (State.accumulateList_fields _ _ _).2.2.1
@[simp] theorem State.rendered_filterRom : (s.rendered v vc n e).filterRom = s.filterRom :=
  (State.accumulateList_fields _ _ _).2.2.2.1
@[simp] theorem State.rendered_voices : (s.rendered v vc n e).voices = s.voices.set v (Voice.ticks s n vc) := by
  rw [State.rendered, State.setVoice_voices, (State.accumulateList_fields _ _ _).2.2.2.2.1]
@[simp] theorem State.rendered_stream : (s.rendered v vc n e).stream = s.stream :=
  (State.accumulateList_fields _ _ _).2.2.2.2.2.1
@[simp] theorem State.rendered_cmdIndex : (s.rendered v vc n e).cmdIndex = s.cmdIndex :=
  (State.accumulateList_fields _ _ _).2.2.2.2.2.2.1
@[simp] theorem State.rendered_responses : (s.rendered v vc n e).responses = s.responses :=
  (State.accumulateList_fields _ _ _).2.2.2.2.2.2.2.1
@[simp] theorem State.rendered_outcome : (s.rendered v vc n e).outcome = s.outcome :=
  (State.accumulateList_fields _ _ _).2.2.2.2.2.2.2.2.1
@[simp] theorem State.rendered_out_length : (s.rendered v vc n e).out.length = s.out.length :=
  (State.accumulateList_fields _ _ _).2.2.2.2.2.2.2.2.2

end rendered

theorem State.rendered_voice {v : Nat} {s : State} {vc : Voice} {n off : Nat} (hv : s.voices[v]? = some vc) :
    (s.rendered v vc n off).voices[v]? = some (Voice.ticks s n vc) := by
  rw [State.rendered_voices, List.getElem?_set, if_pos rfl, if_pos (List.getElem?_eq_some_iff.1 hv).1]

theorem State.rendered_sameRoms (s : State) (v : Nat) (vc : Voice) (n off : Nat) :
    s.SameRoms (s.rendered v vc n off) := by
  simp [State.SameRoms]

/-- A render inside the buffer lists no element outside it. -/
theorem State.rendered_inside {s : State} (h : s.BufferInside) {v : Nat} {vc : Voice} {n e : Nat}
    (he : e + n ≤ s.params.bufLen) : (s.rendered v vc n e).BufferInside :=
  State.accumulateList_inside h ((Nat.add_le_add_left (Voice.tickOuts_length_le s n vc) e).trans he)

/-- A property of a voice that every tick keeps holds after the ticks. -/
theorem Voice.ticks_induction {s : State} {P : Voice → Prop}
    (step : ∀ vc, P vc → vc.envStage ≠ .idle → phaseInRange s.params.num vc.oscPhase = true → P (vc.ticked s))
    (n : Nat) {vc : Voice} (h : P vc) (hok : Voice.ticksOk s n vc = true) : P (Voice.ticks s n vc) := by
  induction n generalizing vc with
  | zero => exact h
  | succ n ih =>
    rw [Voice.ticks]
    split_ifs with hi
    · exact h
    · simp only [Voice.ticksOk, Bool.or_eq_true, beq_iff_eq, hi, false_or, Bool.and_eq_true] at hok
      exact ih (step vc h hi hok.1.1) hok.2

/-- The phase advance and the envelope step touch disjoint registers (44_voice.md R126). -/
theorem Voice.advance_envStep (vc : Voice) : (vc.advance nf).envStep nf = (vc.envStep nf).advance nf := by
  cases h : vc.envStage with
  | idle => simp only [Voice.envStep, Voice.advance, h, Voice.idleStep]
  | attack =>
    by_cases hc : vc.envA ≤ vc.envCounter + 1 <;>
      simp only [Voice.envStep, Voice.advance, h, Voice.attackStep, hc, if_true, if_false]
  | decay =>
    by_cases hc : vc.envD ≤ vc.envCounter + 1 <;>
      simp only [Voice.envStep, Voice.advance, h, Voice.decayStep, hc, if_true, if_false]
  | sustain => simp only [Voice.envStep, Voice.advance, h, Voice.sustainStep]
  | release =>
    by_cases hc : (decide (vc.envR ≤ vc.envCounter + 1) ||
        NumVal.le (releaseLevel nf vc.envRsl (vc.envCounter + 1) vc.envR) (NumVal.relFloor nf)) = true <;>
      simp only [Voice.envStep, Voice.advance, h, Voice.releaseStep, hc, if_true, if_false, Bool.false_eq_true]

end Sys2Proof.Machine
end

