-- ==== Sys2Proof/Laws/Exec.lean ====
section
/-! SUPPORT. What a command and a step can do, said once: the state every command that completes leaves (`exec_next`), the ways a command can stop, and what a step adds around it. -/

namespace Sys2Proof.Machine

open Sys2Proof Sys2Proof.Config

/-! ### Stopping and selecting a voice -/

@[simp] theorem raise_ne_next (code : FaultCode) (i : Instr) (p : Option PhaseInfo) (s t : State) :
    raise code i p s ≠ .next t := nofun
@[simp] theorem refuse_ne_next (r : RefuseReason) (cw : Option CommandWord) (s t : State) :
    refuse r cw s ≠ .next t := nofun
@[simp] theorem raise_ne_refused (code : FaultCode) (i : Instr) (p : Option PhaseInfo) (s : State) (r : Refusal) :
    raise code i p s ≠ .refused r := nofun
@[simp] theorem refuse_ne_fault (r : RefuseReason) (cw : Option CommandWord) (s : State) (f : Fault) :
    refuse r cw s ≠ .fault f := nofun

theorem withVoice_some {i : Instr} {v : Nat} {s : State} {vc : Voice} {run : Voice → Result}
    (h : s.voices[v]? = some vc) : withVoice i v s run = run vc := by simp [withVoice, h]

theorem withVoice_none {i : Instr} {v : Nat} {s : State} {run : Voice → Result} (h : s.voices[v]? = none) :
    withVoice i v s run = refuse .badVoice (some i.commandWord) s := by simp [withVoice, h]

theorem withVoice_next {i : Instr} {v : Nat} {s t : State} {run : Voice → Result} (h : withVoice i v s run = .next t) :
    ∃ vc, s.voices[v]? = some vc ∧ run vc = .next t := by
  cases hv : s.voices[v]? with
  | none => rw [withVoice_none hv] at h; exact absurd h (refuse_ne_next _ _ _ _)
  | some vc => exact ⟨vc, rfl, (withVoice_some hv).symm.trans h⟩

/-! ### The state a command that completes leaves -/

/-- `Effect i s t`: command `i` completes from `s` and leaves `t`. One constructor per way a command completes, with the
conditions under which it does. -/
inductive Effect : Instr → State → State → Prop
  | setNote {s v vc} (m : Nat) (hv : s.voices[v]? = some vc) :
      Effect (.setNote v m) s (s.setVoice v (vc.setFrequency s.params.num s.fs (midiFrequency s.params.num m)))
  | setFreq {s v vc} (x : OperandWord) (hv : s.voices[v]? = some vc) (hx : (opndF64 s.params.num x).finite = true) :
      Effect (.setFreq v x) s (s.setVoice v (vc.setFrequency s.params.num s.fs (opndF64 s.params.num x)))
  | setAmp {s v vc} (x : OperandWord) (hv : s.voices[v]? = some vc) (hx : (opndF64 s.params.num x).finite = true) :
      Effect (.setAmp v x) s (s.setVoice v { vc with oscAmp := clampUnit s.params.num (opndF64 s.params.num x) })
  | setWave {s v vc} (sel : Nat) (hv : s.voices[v]? = some vc) :
      Effect (.setWave v sel) s (s.setVoice v { vc with oscWave := (familyOfSel sel).getD vc.oscWave })
  | startNote {s v vc} (hv : s.voices[v]? = some vc) :
      Effect (.startNote v) s (s.setVoice v vc.enterAttack.filterZeroed)
  | stopNote {s v vc} (hv : s.voices[v]? = some vc) :
      Effect (.stopNote v) s (s.setVoice v vc.enterRelease)
  | setEnv {s v vc} (a d u r : OperandWord) (hv : s.voices[v]? = some vc) (ha : (opndF64 s.params.num a).finite = true)
      (hd : (opndF64 s.params.num d).finite = true) (hu : (opndF64 s.params.num u).finite = true)
      (hr : (opndF64 s.params.num r).finite = true) :
      Effect (.setEnv v a d u r) s
        (s.setVoice v (vc.setEnvelope s.params.num s.fs (opndF64 s.params.num a) (opndF64 s.params.num d)
          (opndF64 s.params.num u) (opndF64 s.params.num r)))
  | setFilter {s v vc} (sel : Nat) (x : OperandWord) (hv : s.voices[v]? = some vc)
      (hx : (opndF64 s.params.num x).finite = true) :
      Effect (.setFilter v sel x) s (s.setVoice v (vc.setFilter s.params.num s.filterRom sel (opndF64 s.params.num x)))
  | rateRejected {s : State} (x : OperandWord) (hx : NumVal.le (opndF64 s.params.num x) NumVal.zero = true) :
      Effect (.setSampleRate x) s s
  | rateAccepted {s : State} (x : OperandWord) (h0 : NumVal.le (opndF64 s.params.num x) NumVal.zero = false)
      (hf : (opndF64 s.params.num x).finite = true)
      (hm : NumVal.le (opndF64 s.params.num x) (NumVal.fsMin s.params.num) = false) :
      Effect (.setSampleRate x) s (s.reconfigure (opndF64 s.params.num x))
  | render {s v vc} (n off : Nat) (hv : s.voices[v]? = some vc) (hb : off + n ≤ s.params.bufLen)
      (hok : Voice.ticksOk s n vc = true) : Effect (.render v n off) s (s.rendered v vc n off)
  | oscNext {s v vc} (hv : s.voices[v]? = some vc) (hp : phaseInRange s.params.num vc.oscPhase = true) :
      Effect (.oscNext v) s ((s.setVoice v (vc.advance s.params.num)).respond (.f64 (NumVal.toF64 s.params.num (vc.oscOut s))))
  | oscResetPhase {s v vc} (hv : s.voices[v]? = some vc) :
      Effect (.oscResetPhase v) s (s.setVoice v { vc with oscPhase := NumVal.zero })
  | envAttack {s v vc} (hv : s.voices[v]? = some vc) : Effect (.envAttack v) s (s.setVoice v vc.enterAttack)
  | envRelease {s v vc} (hv : s.voices[v]? = some vc) : Effect (.envRelease v) s (s.setVoice v vc.enterRelease)
  | envReset {s v vc} (hv : s.voices[v]? = some vc) : Effect (.envReset v) s (s.setVoice v vc.envSilence)
  | envNext {s v vc} (hv : s.voices[v]? = some vc) :
      Effect (.envNext v) s ((s.setVoice v (vc.envStep s.params.num)).respond
        (.f64 (NumVal.toF64 s.params.num (vc.envStep s.params.num).envLevel)))
  | envActive {s v vc} (hv : s.voices[v]? = some vc) :
      Effect (.envActive v) s (s.respond (.u32 (flagValue vc.active)))
  | fltProcess {s v vc} (x : OperandWord) (hv : s.voices[v]? = some vc) (hx : (opndF64 s.params.num x).finite = true) :
      Effect (.fltProcess v x) s ((s.setVoice v (vc.filtered s.params.num (vc.filterBin s) (opndF64 s.params.num x))).respond
        (.f64 (NumVal.toF64 s.params.num (vc.filterOut s.params.num (vc.filterBin s) (opndF64 s.params.num x)))))
  | fltReset {s v vc} (hv : s.voices[v]? = some vc) : Effect (.fltReset v) s (s.setVoice v vc.filterZeroed)
  | wtRead {s sel f bin w} (n : Nat) (hf : familyOfSel sel = some f) (hw : s.waveRom[bin]? = some w) (hn : n < w.len) :
      Effect (.wtRead sel bin n) s (s.respond (.f64 (NumVal.toF64 s.params.num (waveSample s.params.num f w n))))
  | wtLen {s bin w} (hw : s.waveRom[bin]? = some w) : Effect (.wtLen bin) s (s.respond (.u32 (u32Of w.len)))
  | wtFreq {s bin f} (hf : s.params.bankFreq[bin]? = some f) :
      Effect (.wtFreq bin) s (s.respond (.f64 (NumVal.toF64 s.params.num f)))
  | fcRead {s bin b sel cix c} (hb : s.filterRom[bin]? = some b) (hc : b.coeff sel cix = some c) :
      Effect (.fcRead sel bin cix) s (s.respond (.f64 (NumVal.toF64 s.params.num c)))
  | fcCutoff {s bin b} (hb : s.filterRom[bin]? = some b) :
      Effect (.fcCutoff bin) s (s.respond (.f64 (NumVal.toF64 s.params.num b.cutoff)))

/-- The state of a command that completes. -/
theorem exec_next {i : Instr} {s t : State} (h : exec i s = .next t) : Effect i s t := by
  cases i with
  | setNote v m =>
    obtain ⟨vc, hv, hr⟩ := withVoice_next h
    cases hr; exact .setNote m hv
  | setFreq v x =>
    obtain ⟨vc, hv, hr⟩ := withVoice_next h
    split at hr
    · cases hr; exact .setFreq x hv ‹_›
    · exact absurd hr (raise_ne_next _ _ _ _ _)
  | setAmp v x =>
    obtain ⟨vc, hv, hr⟩ := withVoice_next h
    split at hr
    · cases hr; exact .setAmp x hv ‹_›
    · exact absurd hr (raise_ne_next _ _ _ _ _)
  | setWave v sel =>
    obtain ⟨vc, hv, hr⟩ := withVoice_next h
    cases hr; exact .setWave sel hv
  | startNote v =>
    obtain ⟨vc, hv, hr⟩ := withVoice_next h
    cases hr; exact .startNote hv
  | stopNote v =>
    obtain ⟨vc, hv, hr⟩ := withVoice_next h
    cases hr; exact .stopNote hv
  | setEnv v a d u r =>
    obtain ⟨vc, hv, hr⟩ := withVoice_next h
    split at hr
    · next hf =>
      simp only [Bool.and_eq_true] at hf
      cases hr; exact .setEnv a d u r hv hf.1.1.1 hf.1.1.2 hf.1.2 hf.2
    · exact absurd hr (raise_ne_next _ _ _ _ _)
  | setFilter v sel x =>
    obtain ⟨vc, hv, hr⟩ := withVoice_next h
    split at hr
    · cases hr; exact .setFilter sel x hv ‹_›
    · exact absurd hr (raise_ne_next _ _ _ _ _)
  | setSampleRate x =>
    simp only [exec, execSetSampleRate] at h
    split at h
    · cases h; exact .rateRejected x ‹_›
    split at h
    · exact absurd h (raise_ne_next _ _ _ _ _)
    split at h
    · exact absurd h (raise_ne_next _ _ _ _ _)
    · cases h; exact .rateAccepted x (by simpa using ‹¬ NumVal.le (opndF64 s.params.num x) NumVal.zero = true›)
        (by simpa using ‹¬ (!(opndF64 s.params.num x).finite) = true›)
        (by simpa using ‹¬ NumVal.le (opndF64 s.params.num x) (NumVal.fsMin s.params.num) = true›)
  | render v n off =>
    obtain ⟨vc, hv, -⟩ := withVoice_next h
    rcases execRender_spec hv n off with ⟨-, he⟩ | ⟨hb, hok, he⟩ | ⟨-, hok, he⟩
    · exact absurd (he.symm.trans h) (raise_ne_next _ _ _ _ _)
    · cases he.symm.trans h; exact .render n off hv hb hok
    · obtain ⟨k, -, -, -, ⟨-, hs⟩ | ⟨-, -, hs⟩⟩ := renderFrom_stop (.render v n off) off s n 0 hv hok <;>
        exact absurd ((he.trans hs).symm.trans h) (raise_ne_next _ _ _ _ _)
  | oscNext v =>
    obtain ⟨vc, hv, hr⟩ := withVoice_next h
    split at hr
    · cases hr; exact .oscNext hv ‹_›
    · exact absurd hr (raise_ne_next _ _ _ _ _)
  | oscResetPhase v =>
    obtain ⟨vc, hv, hr⟩ := withVoice_next h
    cases hr; exact .oscResetPhase hv
  | envAttack v =>
    obtain ⟨vc, hv, hr⟩ := withVoice_next h
    cases hr; exact .envAttack hv
  | envRelease v =>
    obtain ⟨vc, hv, hr⟩ := withVoice_next h
    cases hr; exact .envRelease hv
  | envReset v =>
    obtain ⟨vc, hv, hr⟩ := withVoice_next h
    cases hr; exact .envReset hv
  | envNext v =>
    obtain ⟨vc, hv, hr⟩ := withVoice_next h
    cases hr; exact .envNext hv
  | envActive v =>
    obtain ⟨vc, hv, hr⟩ := withVoice_next h
    cases hr; exact .envActive hv
  | fltProcess v x =>
    obtain ⟨vc, hv, hr⟩ := withVoice_next h
    split at hr
    · cases hr; exact .fltProcess x hv ‹_›
    · exact absurd hr (raise_ne_next _ _ _ _ _)
  | fltReset v =>
    obtain ⟨vc, hv, hr⟩ := withVoice_next h
    cases hr; exact .fltReset hv
  | wtRead sel bin n =>
    simp only [exec, execWtRead] at h
    split at h
    · split at h
      · cases h; exact .wtRead n ‹_› ‹_› ‹_›
      · exact absurd h (raise_ne_next _ _ _ _ _)
    · exact absurd h (raise_ne_next _ _ _ _ _)
  | wtLen bin =>
    simp only [exec, execWtLen] at h
    split at h
    · exact absurd h (raise_ne_next _ _ _ _ _)
    · cases h; exact .wtLen ‹_›
  | wtFreq bin =>
    simp only [exec, execWtFreq] at h
    split at h
    · exact absurd h (raise_ne_next _ _ _ _ _)
    · cases h; exact .wtFreq ‹_›
  | fcRead sel bin cix =>
    simp only [exec, execFcRead] at h
    split at h
    · exact absurd h (raise_ne_next _ _ _ _ _)
    split at h
    · exact absurd h (raise_ne_next _ _ _ _ _)
    · cases h; exact .fcRead ‹_› ‹_›
  | fcCutoff bin =>
    simp only [exec, execFcCutoff] at h
    split at h
    · exact absurd h (raise_ne_next _ _ _ _ _)
    · cases h; exact .fcCutoff ‹_›

/-! ### Stopping -/

/-- How a command that does not complete stops: refused BAD_VOICE; faulted with nothing of the state changed but the
record; or, for a PHASE_RANGE of
RENDER, stopped inside its loop with the samples before kept. -/
inductive Stop : Instr → State → Result → Prop
  | badVoice {i s} (v : Nat) (hi : i.voice? = some v) (hv : s.voices[v]? = none) :
      Stop i s (refuse .badVoice (some i.commandWord) s)
  | nonfinite {i s} (hi : (∃ v x, i = .setFreq v x ∧ (opndF64 s.params.num x).finite = false) ∨
      (∃ v x, i = .setAmp v x ∧ (opndF64 s.params.num x).finite = false) ∨
      (∃ v a d u r, i = .setEnv v a d u r ∧ ((opndF64 s.params.num a).finite = false ∨
        (opndF64 s.params.num d).finite = false ∨ (opndF64 s.params.num u).finite = false ∨ (opndF64 s.params.num r).finite = false)) ∨
      (∃ v sel x, i = .setFilter v sel x ∧ (opndF64 s.params.num x).finite = false) ∨
      (∃ v x, i = .fltProcess v x ∧ (opndF64 s.params.num x).finite = false) ∨
      (∃ x, i = .setSampleRate x ∧ NumVal.le (opndF64 s.params.num x) NumVal.zero = false ∧
        (opndF64 s.params.num x).finite = false))
      (hv : ∀ v, i.voice? = some v → ∃ vc, s.voices[v]? = some vc) :
      Stop i s (raise .nonfinite i none s)
  | sampleRateRange {s} (x : OperandWord) (h0 : NumVal.le (opndF64 s.params.num x) NumVal.zero = false)
      (hf : (opndF64 s.params.num x).finite = true)
      (hm : NumVal.le (opndF64 s.params.num x) (NumVal.fsMin s.params.num) = true) :
      Stop (.setSampleRate x) s (raise .sampleRateRange (.setSampleRate x) none s)
  | bufferRange {s v vc} (n off : Nat) (hv : s.voices[v]? = some vc) (hb : s.params.bufLen < off + n) :
      Stop (.render v n off) s (raise .bufferRange (.render v n off) none s)
  | renderPhase {s v vc} (n off k : Nat) (hv : s.voices[v]? = some vc) (hb : off + n ≤ s.params.bufLen) (hk : k < n)
      (hok : Voice.ticksOk s k vc = true) (hst : (Voice.ticks s k vc).envStage ≠ .idle)
      (hp : phaseInRange s.params.num (Voice.ticks s k vc).oscPhase = false) :
      Stop (.render v n off) s (raise .phaseRange (.render v n off)
        (some { voice := v, sample := k, phase := (Voice.ticks s k vc).oscPhase }) (s.rendered v vc k off))
  | renderNonfinite {s v vc} (n off k : Nat) (hv : s.voices[v]? = some vc) (hb : off + n ≤ s.params.bufLen)
      (hk : k < n) (hok : Voice.ticksOk s k vc = true) (hst : (Voice.ticks s k vc).envStage ≠ .idle)
      (hp : phaseInRange s.params.num (Voice.ticks s k vc).oscPhase = true)
      (hf : ((Voice.ticks s k vc).tickInput s).finite = false) :
      Stop (.render v n off) s (raise .nonfinite (.render v n off) none s)
  | oscNext {s v vc} (hv : s.voices[v]? = some vc) (hp : phaseInRange s.params.num vc.oscPhase = false) :
      Stop (.oscNext v) s (raise .phaseRange (.oscNext v) (some { voice := v, sample := 0, phase := vc.oscPhase }) s)
  | wtRead {s} (sel bin n : Nat) (h : ∀ f w, familyOfSel sel = some f → s.waveRom[bin]? = some w → w.len ≤ n) :
      Stop (.wtRead sel bin n) s (raise .romIndex (.wtRead sel bin n) none s)
  | wtLen {s} (bin : Nat) (h : s.waveRom[bin]? = none) : Stop (.wtLen bin) s (raise .romIndex (.wtLen bin) none s)
  | wtFreq {s} (bin : Nat) (h : s.params.bankFreq[bin]? = none) :
      Stop (.wtFreq bin) s (raise .romIndex (.wtFreq bin) none s)
  | fcRead {s} (sel bin cix : Nat) (h : ∀ b, s.filterRom[bin]? = some b → b.coeff sel cix = none) :
      Stop (.fcRead sel bin cix) s (raise .romIndex (.fcRead sel bin cix) none s)
  | fcCutoff {s} (bin : Nat) (h : s.filterRom[bin]? = none) :
      Stop (.fcCutoff bin) s (raise .romIndex (.fcCutoff bin) none s)

/-- Every command completes with its effect or stops. -/
theorem exec_cases (i : Instr) (s : State) : (∃ t, exec i s = .next t ∧ Effect i s t) ∨ Stop i s (exec i s) := by
  have key : ∀ v run, i.voice? = some v → exec i s = withVoice i v s run →
      (∀ vc, s.voices[v]? = some vc → (∃ t, run vc = .next t) ∨ Stop i s (run vc)) →
      (∃ t, exec i s = .next t ∧ Effect i s t) ∨ Stop i s (exec i s) := by
    intro v run hi he hr
    cases hv : s.voices[v]? with
    | none => exact .inr (by rw [he, withVoice_none hv]; exact .badVoice v hi hv)
    | some vc =>
      rw [he, withVoice_some hv]
      rcases hr vc hv with ⟨t, ht⟩ | hs
      · exact .inl ⟨t, ht, exec_next (by rw [he, withVoice_some hv, ht])⟩
      · exact .inr hs
  have plain : ∀ v (g : Voice → State), i.voice? = some v → exec i s = withVoice i v s (fun vc => .next (g vc)) →
      (∃ t, exec i s = .next t ∧ Effect i s t) ∨ Stop i s (exec i s) :=
    fun v g hi he => key v _ hi he fun vc _ => .inl ⟨g vc, rfl⟩
  cases i with
  | setNote v m => exact plain v _ rfl rfl
  | setFreq v x =>
    refine key v _ rfl rfl fun vc hv => ?_
    by_cases hf : (opndF64 s.params.num x).finite = true
    · exact .inl ⟨_, if_pos hf⟩
    · refine .inr ?_
      rw [if_neg hf]
      exact .nonfinite (.inl ⟨v, x, rfl, by simpa using hf⟩) fun _ hw => ⟨vc, by cases hw; exact hv⟩
  | setAmp v x =>
    refine key v _ rfl rfl fun vc hv => ?_
    by_cases hf : (opndF64 s.params.num x).finite = true
    · exact .inl ⟨_, if_pos hf⟩
    · refine .inr ?_
      rw [if_neg hf]
      exact .nonfinite (.inr (.inl ⟨v, x, rfl, by simpa using hf⟩)) fun _ hw => ⟨vc, by cases hw; exact hv⟩
  | setWave v sel => exact plain v _ rfl rfl
  | startNote v => exact plain v _ rfl rfl
  | stopNote v => exact plain v _ rfl rfl
  | setEnv v a d u r =>
    refine key v _ rfl rfl fun vc hv => ?_
    by_cases hf : ((opndF64 s.params.num a).finite && (opndF64 s.params.num d).finite &&
        (opndF64 s.params.num u).finite && (opndF64 s.params.num r).finite) = true
    · exact .inl ⟨_, if_pos hf⟩
    · refine .inr ?_
      rw [if_neg hf]
      refine .nonfinite (.inr (.inr (.inl ⟨v, a, d, u, r, rfl, ?_⟩))) fun _ hw => ⟨vc, by cases hw; exact hv⟩
      cases h1 : (opndF64 s.params.num a).finite <;> cases h2 : (opndF64 s.params.num d).finite <;>
        cases h3 : (opndF64 s.params.num u).finite <;>
        cases h4 : (opndF64 s.params.num r).finite <;> simp_all
  | setFilter v sel x =>
    refine key v _ rfl rfl fun vc hv => ?_
    by_cases hf : (opndF64 s.params.num x).finite = true
    · exact .inl ⟨_, if_pos hf⟩
    · refine .inr ?_
      rw [if_neg hf]
      exact .nonfinite (.inr (.inr (.inr (.inl ⟨v, sel, x, rfl, by simpa using hf⟩)))) fun _ hw => ⟨vc, by cases hw; exact hv⟩
  | setSampleRate x =>
    by_cases h0 : NumVal.le (opndF64 s.params.num x) NumVal.zero = true
    · exact .inl ⟨s, by simp [exec, execSetSampleRate, h0], .rateRejected x h0⟩
    · have h0' : NumVal.le (opndF64 s.params.num x) NumVal.zero = false := by simpa using h0
      cases hf : (opndF64 s.params.num x).finite with
      | false =>
        refine .inr ?_
        have : exec (.setSampleRate x) s = raise .nonfinite (.setSampleRate x) none s := by
          simp [exec, execSetSampleRate, h0', hf]
        rw [this]
        exact .nonfinite (.inr (.inr (.inr (.inr (.inr ⟨x, rfl, h0', hf⟩))))) nofun
      | true =>
        cases hm : NumVal.le (opndF64 s.params.num x) (NumVal.fsMin s.params.num) with
        | true =>
          refine .inr ?_
          have : exec (.setSampleRate x) s = raise .sampleRateRange (.setSampleRate x) none s := by
            simp [exec, execSetSampleRate, h0', hf, hm]
          rw [this]
          exact .sampleRateRange x h0' hf hm
        | false => exact .inl ⟨_, by simp [exec, execSetSampleRate, h0', hf, hm], .rateAccepted x h0' hf hm⟩
  | render v n off =>
    refine key v _ rfl rfl fun vc hv => ?_
    have hun := execRender_spec hv n off
    rw [execRender, withVoice_some hv] at hun
    rcases hun with ⟨hb, he⟩ | ⟨hb, hok, he⟩ | ⟨hb, hok, he⟩
    · refine .inr ?_
      rw [if_pos hb]
      exact .bufferRange n off hv hb
    · exact .inl ⟨_, he⟩
    · obtain ⟨k, hk, h1, h2, h3⟩ := renderFrom_stop (.render v n off) off s n 0 hv hok
      simp only [Nat.zero_add, Nat.add_zero] at h3
      rcases h3 with ⟨hp, hs⟩ | ⟨hp, hf, hs⟩
      · exact .inr ((he.trans hs) ▸ .renderPhase n off k hv hb hk h1 h2 hp)
      · exact .inr ((he.trans hs) ▸ .renderNonfinite n off k hv hb hk h1 h2 hp hf)
  | oscNext v =>
    refine key v _ rfl rfl fun vc hv => ?_
    by_cases hf : phaseInRange s.params.num vc.oscPhase = true
    · exact .inl ⟨_, if_pos hf⟩
    · exact .inr (by rw [if_neg hf]; exact .oscNext hv (by simpa using hf))
  | oscResetPhase v => exact plain v _ rfl rfl
  | envAttack v => exact plain v _ rfl rfl
  | envRelease v => exact plain v _ rfl rfl
  | envReset v => exact plain v _ rfl rfl
  | envNext v => exact plain v _ rfl rfl
  | envActive v => exact plain v _ rfl rfl
  | fltProcess v x =>
    refine key v _ rfl rfl fun vc hv => ?_
    by_cases hf : (opndF64 s.params.num x).finite = true
    · exact .inl ⟨_, if_pos hf⟩
    · refine .inr ?_
      rw [if_neg hf]
      exact .nonfinite (.inr (.inr (.inr (.inr (.inl ⟨v, x, rfl, by simpa using hf⟩))))) fun _ hw => ⟨vc, by cases hw; exact hv⟩
  | fltReset v => exact plain v _ rfl rfl
  | wtRead sel bin n =>
    cases hf : familyOfSel sel with
    | none =>
      have : exec (.wtRead sel bin n) s = raise .romIndex (.wtRead sel bin n) none s := by
        simp [exec, execWtRead, hf]
      exact .inr (this ▸ .wtRead sel bin n fun f w hf' => by rw [hf] at hf'; cases hf')
    | some f =>
      cases hw : s.waveRom[bin]? with
      | none =>
        have : exec (.wtRead sel bin n) s = raise .romIndex (.wtRead sel bin n) none s := by
          simp [exec, execWtRead, hf, hw]
        exact .inr (this ▸ .wtRead sel bin n fun f w _ hw' => by rw [hw] at hw'; cases hw')
      | some w =>
        by_cases hn : n < w.len
        · exact .inl ⟨_, by simp [exec, execWtRead, hf, hw, hn], .wtRead n hf hw hn⟩
        · have : exec (.wtRead sel bin n) s = raise .romIndex (.wtRead sel bin n) none s := by
            simp [exec, execWtRead, hf, hw, hn]
          exact .inr (this ▸ .wtRead sel bin n fun f' w' _ hw' => by rw [hw] at hw'; cases hw'; omega)
  | wtLen bin =>
    cases hw : s.waveRom[bin]? with
    | none =>
      have : exec (.wtLen bin) s = raise .romIndex (.wtLen bin) none s := by simp [exec, execWtLen, hw]
      exact .inr (this ▸ .wtLen bin hw)
    | some w => exact .inl ⟨_, by simp [exec, execWtLen, hw], .wtLen hw⟩
  | wtFreq bin =>
    cases hw : s.params.bankFreq[bin]? with
    | none =>
      have : exec (.wtFreq bin) s = raise .romIndex (.wtFreq bin) none s := by simp [exec, execWtFreq, hw]
      exact .inr (this ▸ .wtFreq bin hw)
    | some w => exact .inl ⟨_, by simp [exec, execWtFreq, hw], .wtFreq hw⟩
  | fcRead sel bin cix =>
    cases hb : s.filterRom[bin]? with
    | none =>
      have : exec (.fcRead sel bin cix) s = raise .romIndex (.fcRead sel bin cix) none s := by
        simp [exec, execFcRead, hb]
      exact .inr (this ▸ .fcRead sel bin cix fun b hb' => by rw [hb] at hb'; cases hb')
    | some b =>
      cases hc : b.coeff sel cix with
      | none =>
        have : exec (.fcRead sel bin cix) s = raise .romIndex (.fcRead sel bin cix) none s := by
          simp [exec, execFcRead, hb, hc]
        exact .inr (this ▸ .fcRead sel bin cix fun b' hb' => by rw [hb] at hb'; cases hb'; exact hc)
      | some c => exact .inl ⟨_, by simp [exec, execFcRead, hb, hc], .fcRead hb hc⟩
  | fcCutoff bin =>
    cases hb : s.filterRom[bin]? with
    | none =>
      have : exec (.fcCutoff bin) s = raise .romIndex (.fcCutoff bin) none s := by simp [exec, execFcCutoff, hb]
      exact .inr (this ▸ .fcCutoff bin hb)
    | some b => exact .inl ⟨_, by simp [exec, execFcCutoff, hb], .fcCutoff hb⟩

/-! ### A step -/

theorem step_decoded {s : State} {i : Instr} {rest : List Byte} (ho : s.outcome = none)
    (hd : decode s.voices.length s.stream = .ok (i, rest)) : step s = finish (exec i { s with stream := rest }) := by
  have hne : s.stream ≠ [] := by rintro h; rw [h] at hd; simp [decode] at hd
  simp [step, fetch, ho, hd, hne]

/-- A step that completes ran one decoded command. -/
theorem step_next {s t : State} (h : step s = .next t) :
    s.outcome = none ∧ ∃ i rest u, decode s.voices.length s.stream = .ok (i, rest) ∧
      Effect i { s with stream := rest } u ∧ t = u.retire := by
  unfold step at h
  split at h
  · cases h
  split at h
  · cases h
  · next ho _ =>
    refine ⟨by simpa using ho, ?_⟩
    simp only [fetch] at h
    cases hd : decode s.voices.length s.stream with
    | error e => rw [hd] at h; exact absurd h (refuse_ne_next _ _ _ _)
    | ok p =>
      obtain ⟨i, rest⟩ := p
      rw [hd] at h
      replace h : finish (exec i { s with stream := rest }) = .next t := h
      cases he : exec i { s with stream := rest } with
      | next u => rw [he] at h; cases h; exact ⟨i, rest, u, rfl, exec_next he, rfl⟩
      | fault f => rw [he] at h; cases h
      | refused r => rw [he] at h; cases h

/-! ### The other direction, and what no command changes -/

/-- RENDER completes when its buffer range exists and every tick executes normally. -/
theorem exec_render_ok {v : Nat} {s : State} {vc : Voice} {n off : Nat} (hv : s.voices[v]? = some vc)
    (hb : off + n ≤ s.params.bufLen) (hok : Voice.ticksOk s n vc = true) :
    exec (.render v n off) s = .next (s.rendered v vc n off) := by
  rcases execRender_spec hv n off with ⟨h, _⟩ | ⟨_, _, h⟩ | ⟨_, h, _⟩
  · omega
  · exact h
  · rw [hok] at h; cases h

/-- An effect is what `exec` answers. -/
theorem exec_effect {i : Instr} {s t : State} (h : Effect i s t) : exec i s = .next t := by
  cases h with
  | render n off hv hb hok => exact exec_render_ok hv hb hok
  | setNote m hv => simp only [exec, execSetNote, withVoice_some hv]
  | setFreq x hv hx => simp only [exec, execSetFreq, withVoice_some hv, hx, if_true]
  | setAmp x hv hx => simp only [exec, execSetAmp, withVoice_some hv, hx, if_true]
  | setWave sel hv => simp only [exec, execSetWave, withVoice_some hv]
  | startNote hv => simp only [exec, execStartNote, withVoice_some hv]
  | stopNote hv => simp only [exec, execStopNote, withVoice_some hv]
  | setEnv a d u r hv ha hd hu hr => simp only [exec, execSetEnv, withVoice_some hv, ha, hd, hu, hr, Bool.and_self, if_true]
  | setFilter sel x hv hx => simp only [exec, execSetFilter, withVoice_some hv, hx, if_true]
  | rateRejected x hx => simp only [exec, execSetSampleRate, hx, if_true]
  | rateAccepted x h0 hf hm => simp [exec, execSetSampleRate, h0, hf, hm]
  | oscNext hv hp => simp only [exec, execOscNext, withVoice_some hv, hp, if_true, State.respondNum_eq, State.setVoice_params]
  | oscResetPhase hv => simp only [exec, execOscResetPhase, withVoice_some hv]
  | envAttack hv => simp only [exec, execEnvAttack, withVoice_some hv]
  | envRelease hv => simp only [exec, execEnvRelease, withVoice_some hv]
  | envReset hv => simp only [exec, execEnvReset, withVoice_some hv]
  | envNext hv => simp only [exec, execEnvNext, withVoice_some hv, State.respondNum_eq, State.setVoice_params]
  | envActive hv => simp only [exec, execEnvActive, withVoice_some hv]
  | fltProcess x hv hx => simp only [exec, execFltProcess, withVoice_some hv, hx, if_true, State.respondNum_eq, State.setVoice_params]
  | fltReset hv => simp only [exec, execFltReset, withVoice_some hv]
  | wtRead n hf hw hn => simp only [exec, execWtRead, hf, hw, hn, if_true, State.respondNum_eq]
  | wtLen hw => simp only [exec, execWtLen, hw]
  | wtFreq hw => simp only [exec, execWtFreq, hw, State.respondNum_eq]
  | fcRead hb hc => simp only [exec, execFcRead, hb, hc, State.respondNum_eq]
  | fcCutoff hb => simp only [exec, execFcCutoff, hb, State.respondNum_eq]

/-- A stop is what `exec` answers. -/
theorem exec_of_stop {i : Instr} {s : State} {r : Result} (h : Stop i s r) : exec i s = r := by
  have vals : ∀ (n off : Nat) {v : Nat} {vc : Voice}, s.voices[v]? = some vc → off + n ≤ s.params.bufLen →
      exec (.render v n off) s = renderFrom (.render v n off) v off s n 0 s := by
    intro n off v vc hv hb
    simp only [exec, execRender, withVoice_some hv, if_neg (Nat.not_lt.2 hb)]
  cases h with
  | badVoice v hi hv =>
    cases i <;> cases hi <;> exact withVoice_none hv
  | nonfinite hi hv =>
    rcases hi with ⟨v, x, rfl, hx⟩ | ⟨v, x, rfl, hx⟩ | ⟨v, a, d, u, r, rfl, hx⟩ | ⟨v, sel, x, rfl, hx⟩ |
      ⟨v, x, rfl, hx⟩ | ⟨x, rfl, h0, hx⟩
    · obtain ⟨vc, hv⟩ := hv v rfl
      simp [exec, execSetFreq, withVoice_some hv, hx]
    · obtain ⟨vc, hv⟩ := hv v rfl
      simp [exec, execSetAmp, withVoice_some hv, hx]
    · obtain ⟨vc, hv⟩ := hv v rfl
      rcases hx with hx | hx | hx | hx <;> simp [exec, execSetEnv, withVoice_some hv, hx]
    · obtain ⟨vc, hv⟩ := hv v rfl
      simp [exec, execSetFilter, withVoice_some hv, hx]
    · obtain ⟨vc, hv⟩ := hv v rfl
      simp [exec, execFltProcess, withVoice_some hv, hx]
    · simp [exec, execSetSampleRate, h0, hx]
  | sampleRateRange x h0 hf hm => simp [exec, execSetSampleRate, h0, hf, hm]
  | bufferRange n off hv hb => simp only [exec, execRender, withVoice_some hv, if_pos hb]
  | renderPhase n off k hv hb hk hok hst hp =>
    obtain ⟨m, rfl⟩ : ∃ m, n = k + (m + 1) := ⟨n - k - 1, by omega⟩
    rw [vals _ _ hv hb, renderFrom_run _ off s k (m + 1) 0 hv hok hst]
    simp [renderFrom, withVoice_some (State.rendered_voice hv), hst, hp]
  | renderNonfinite n off k hv hb hk hok hst hp hf =>
    obtain ⟨m, rfl⟩ : ∃ m, n = k + (m + 1) := ⟨n - k - 1, by omega⟩
    rw [vals _ _ hv hb, renderFrom_run _ off s k (m + 1) 0 hv hok hst]
    simp [renderFrom, withVoice_some (State.rendered_voice hv), hst, hp, hf,
      Voice.tickInput_congr (State.rendered_sameRoms s _ _ k off)]
  | oscNext hv hp => simp [exec, execOscNext, withVoice_some hv, hp]
  | wtRead sel bin n h =>
    simp only [exec, execWtRead]
    split
    · rw [if_neg (Nat.not_lt.2 (h _ _ ‹_› ‹_›))]
    · rfl
  | wtLen bin h => simp only [exec, execWtLen, h]
  | wtFreq bin h => simp only [exec, execWtFreq, h]
  | fcRead sel bin cix h =>
    simp only [exec, execFcRead]
    split
    · rfl
    · rw [h _ ‹_›]
  | fcCutoff bin h => simp only [exec, execFcCutoff, h]

/-- What every completed command keeps. -/
theorem effect_keeps {i : Instr} {s t : State} (h : Effect i s t) :
    t.params = s.params ∧ t.voices.length = s.voices.length ∧ t.outcome = s.outcome ∧
      t.out.length = s.out.length ∧ t.stream = s.stream ∧ t.cmdIndex = s.cmdIndex := by
  cases h <;> simp

/-- A command that does not complete stops. -/
theorem exec_stop {i : Instr} {s : State} (h : ∀ t, exec i s ≠ .next t) : Stop i s (exec i s) := by
  rcases exec_cases i s with ⟨t, ht, _⟩ | h'
  · exact absurd ht (h t)
  · exact h'

/-- A step that faults ran one decoded command. -/
theorem step_fault {s : State} {f : Fault} (h : step s = .fault f) : s.outcome = none ∧
    ∃ i rest, decode s.voices.length s.stream = .ok (i, rest) ∧ exec i { s with stream := rest } = .fault f := by
  unfold step at h
  split at h
  · cases h
  split at h
  · cases h
  next ho _ =>
  refine ⟨by simpa using ho, ?_⟩
  simp only [fetch] at h
  cases hd : decode s.voices.length s.stream with
  | error e => rw [hd] at h; exact absurd h (refuse_ne_fault _ _ _ _)
  | ok p =>
    obtain ⟨i, rest⟩ := p
    rw [hd] at h
    replace h : finish (exec i { s with stream := rest }) = .fault f := h
    cases he : exec i { s with stream := rest } with
    | next u => rw [he] at h; cases h
    | fault f => rw [he] at h; cases h; exact ⟨i, rest, rfl, he⟩
    | refused r => rw [he] at h; cases h

/-! ### The stream and the index take no part in a command -/

/-- The state with another stream and another command index. -/
def State.withStream (s : State) (bs : List Byte) (k : Nat) : State := { s with stream := bs, cmdIndex := k }

theorem State.withStream_accumulateTo (s : State) (bs : List Byte) (k i : Nat) (y : NumVal) (n : Nat) :
    (s.withStream bs k).accumulateTo i y n = (s.accumulateTo i y n).withStream bs k := by
  induction n with
  | zero => rfl
  | succ n ih => rw [State.accumulateTo, ih]; rfl

theorem State.withStream_accumulateList (s : State) (bs : List Byte) (k e : Nat) (ys : List NumVal) :
    (s.withStream bs k).accumulateList e ys = (s.accumulateList e ys).withStream bs k := by
  induction ys generalizing s e with
  | nil => rfl
  | cons y ys ih =>
    have h : (s.withStream bs k).accumulateAll e y = (s.accumulateAll e y).withStream bs k :=
      State.withStream_accumulateTo s bs k e y s.out.length
    rw [State.accumulateList, h, ih]; rfl

theorem State.withStream_rendered (s : State) (bs : List Byte) (k v : Nat) (vc : Voice) (n e : Nat) :
    (s.withStream bs k).rendered v vc n e = (s.rendered v vc n e).withStream bs k := by
  have h : s.SameRoms (s.withStream bs k) := by simp [State.SameRoms, State.withStream]
  rw [State.rendered, Voice.tickOuts_congr h, Voice.ticks_congr h, State.withStream_accumulateList]; rfl

/-- A command does the same whatever stream and index stand around it. -/
theorem exec_withStream {i : Instr} {s t : State} (h : exec i s = .next t) (bs : List Byte) (k : Nat) :
    exec i (s.withStream bs k) = .next (t.withStream bs k) := by
  apply exec_effect
  have he := exec_next h
  cases he with
  | @render _ v vc n off hv hb hok => 
    rw [← State.withStream_rendered]
    exact .render n off hv hb ((Voice.ticksOk_congr (s := s) (by simp [State.SameRoms, State.withStream]) _ _).trans hok)
  | setNote m hv => exact .setNote m hv
  | setFreq x hv hx => exact .setFreq x hv hx
  | setAmp x hv hx => exact .setAmp x hv hx
  | setWave sel hv => exact .setWave sel hv
  | startNote hv => exact .startNote hv
  | stopNote hv => exact .stopNote hv
  | setEnv a d u r hv ha hd hu hr => exact .setEnv a d u r hv ha hd hu hr
  | setFilter sel x hv hx => exact .setFilter sel x hv hx
  | rateRejected x hx => exact .rateRejected x hx
  | rateAccepted x h0 hf hm => exact .rateAccepted x h0 hf hm
  | oscNext hv hp => exact .oscNext hv hp
  | oscResetPhase hv => exact .oscResetPhase hv
  | envAttack hv => exact .envAttack hv
  | envRelease hv => exact .envRelease hv
  | envReset hv => exact .envReset hv
  | envNext hv => exact .envNext hv
  | envActive hv => exact .envActive hv
  | fltProcess x hv hx => exact .fltProcess x hv hx
  | fltReset hv => exact .fltReset hv
  | wtRead n hf hw hn => exact .wtRead n hf hw hn
  | wtLen hw => exact .wtLen hw
  | wtFreq hw => exact .wtFreq hw
  | fcRead hb hc => exact .fcRead hb hc
  | fcCutoff hb => exact .fcCutoff hb

/-- A command stops the same way whatever stream stands around it. -/
theorem exec_stop_withStream {i : Instr} {s : State} {r : Result} (h : Stop i s r) (bs : List Byte) :
    (∀ (code : FaultCode) (u : State), r = .fault (code.fault u) →
      exec i { s with stream := bs } = .fault (code.fault { u with stream := bs })) ∧
    ∀ (reason : RefuseReason) (u : State), r = .refused (reason.refusal u) →
      exec i { s with stream := bs } = .refused (reason.refusal { u with stream := bs }) := by
  have fault : ∀ {code code' : FaultCode} {u u' : State}, code.fault u = code'.fault u' → code = code' ∧ u = u' := by
    intro code code' u u' h
    cases code <;> cases code' <;> cases h <;> exact ⟨rfl, rfl⟩
  have same : s.SameRoms { s with stream := bs } := by simp [State.SameRoms]
  have rend : ∀ (v : Nat) (vc : Voice) (k off : Nat), State.rendered { s with stream := bs } v vc k off =
      { s.rendered v vc k off with stream := bs } := by
    intro v vc k off
    have := State.withStream_rendered s bs s.cmdIndex v vc k off
    simpa [State.withStream] using this
  refine ⟨fun code u hr => ?_, fun reason u hr => ?_⟩
  · cases h with
    | badVoice => cases hr
    | nonfinite hi hv => 
      obtain ⟨rfl, rfl⟩ := fault (Host.Outcome.fault.inj hr)
      exact exec_of_stop (s := { s with stream := bs }) (.nonfinite hi hv)
    | sampleRateRange x h0 hf hm => 
      obtain ⟨rfl, rfl⟩ := fault (Host.Outcome.fault.inj hr)
      exact exec_of_stop (s := { s with stream := bs }) (.sampleRateRange x h0 hf hm)
    | bufferRange n off hv hb =>
      obtain ⟨rfl, rfl⟩ := fault (Host.Outcome.fault.inj hr)
      exact exec_of_stop (s := { s with stream := bs }) (.bufferRange n off hv hb)
    | renderPhase n off k hv hb hk hok hst hp =>
      obtain ⟨rfl, rfl⟩ := fault (Host.Outcome.fault.inj hr)
      have := exec_of_stop (.renderPhase (s := { s with stream := bs }) n off k hv hb hk
        ((Voice.ticksOk_congr same _ _).trans hok) (by rwa [Voice.ticks_congr same]) (by rwa [Voice.ticks_congr same]))
      rw [this, Voice.ticks_congr same, rend]; rfl
    | renderNonfinite n off k hv hb hk hok hst hp hf =>
      obtain ⟨rfl, rfl⟩ := fault (Host.Outcome.fault.inj hr)
      have := exec_of_stop (.renderNonfinite (s := { s with stream := bs }) n off k hv hb hk
        ((Voice.ticksOk_congr same _ _).trans hok) (by rwa [Voice.ticks_congr same]) (by rwa [Voice.ticks_congr same])
        (by rwa [Voice.ticks_congr same, Voice.tickInput_congr same]))
      rw [this]; rfl
    | oscNext hv hp =>
      obtain ⟨rfl, rfl⟩ := fault (Host.Outcome.fault.inj hr)
      exact exec_of_stop (s := { s with stream := bs }) (.oscNext hv hp)
    | wtRead sel bin n h =>
      obtain ⟨rfl, rfl⟩ := fault (Host.Outcome.fault.inj hr)
      exact exec_of_stop (s := { s with stream := bs }) (.wtRead sel bin n h)
    | wtLen bin h =>
      obtain ⟨rfl, rfl⟩ := fault (Host.Outcome.fault.inj hr)
      exact exec_of_stop (s := { s with stream := bs }) (.wtLen bin h)
    | wtFreq bin h =>
      obtain ⟨rfl, rfl⟩ := fault (Host.Outcome.fault.inj hr)
      exact exec_of_stop (s := { s with stream := bs }) (.wtFreq bin h)
    | fcRead sel bin cix h =>
      obtain ⟨rfl, rfl⟩ := fault (Host.Outcome.fault.inj hr)
      exact exec_of_stop (s := { s with stream := bs }) (.fcRead sel bin cix h)
    | fcCutoff bin h =>
      obtain ⟨rfl, rfl⟩ := fault (Host.Outcome.fault.inj hr)
      exact exec_of_stop (s := { s with stream := bs }) (.fcCutoff bin h)
  · cases h <;> first | (cases hr; done) | skip
    next v hi hv =>
    have hrr : RefuseReason.badVoice = reason ∧
        s.record (.refused .badVoice s.cmdIndex (some i.commandWord)) = u := by
      have := Host.Outcome.refused.inj hr
      cases reason <;> cases this
      exact ⟨rfl, rfl⟩
    obtain ⟨rfl, rfl⟩ := hrr
    exact exec_of_stop (s := { s with stream := bs }) (.badVoice v hi hv)

end Sys2Proof.Machine
end

