-- ==== Sys2Proof/Laws/Num.lean ====
section
/-! SUPPORT. The arithmetics of the reference's kind (`Arith.ieee`): rounding to nearest, in every precision and range, never passes a value of the format and keeps the order, so every operator is bounded by the exact value's bound and answers a value of the format. -/

namespace Sys2Proof.NumVal

open Sys2Proof Sys2Proof.Config

/-! ### What being of the reference's kind says -/

theorem ieee_of_wide {nf : Arith} (h : nf.wide = true) : nf.ieee = true := by
  simp only [Arith.wide, Bool.and_eq_true] at h; exact h.1

theorem ieee_iff {nf : Arith} : nf.ieee = true ↔
    nf.format = .float nf.prec nf.emax ∧ 1 ≤ nf.prec ∧ 2 ≤ nf.emax ∧ nf.rounding = .nearestEven ∧
      nf.functions = .correct := by
  have h : nf.isFloat = true ↔ nf.format = .float nf.prec nf.emax := by
    obtain ⟨f, r, k⟩ := nf
    cases f <;> simp [Arith.isFloat, Arith.prec, Arith.emax]
  simp only [Arith.ieee, Bool.and_eq_true, decide_eq_true_eq, beq_iff_eq, h, and_assoc]

section Parts

variable (nf : Arith) [h : Fact (nf.ieee = true)]

theorem format_eq : nf.format = .float nf.prec nf.emax := (ieee_iff.1 h.out).1
theorem prec_pos : 1 ≤ nf.prec := (ieee_iff.1 h.out).2.1
theorem two_le_emax : 2 ≤ nf.emax := (ieee_iff.1 h.out).2.2.1
theorem rounding_eq : nf.rounding = .nearestEven := (ieee_iff.1 h.out).2.2.2.1
theorem functions_eq : nf.functions = .correct := (ieee_iff.1 h.out).2.2.2.2

@[simp] theorem isFloat_eq : nf.isFloat = true := by rw [Arith.isFloat, format_eq]
@[simp] theorem isOther_eq : nf.isOther = false := by rw [Arith.isOther, format_eq]
@[simp] theorem computesFunctions_eq : nf.computesFunctions = true := by
  simp [Arith.computesFunctions, functions_eq]

/-- The unit of such an arithmetic is its least subnormal. -/
theorem unitBits_add : nf.format.unitBits + 2 = nf.emax + nf.prec := by
  have := two_le_emax nf
  rw [format_eq, Format.unitBits]; omega

theorem unitMag_eq : unitMag nf = 2 ^ nf.format.unitBits := by
  rw [unitMag, format_eq]; exact Nat.one_shiftLeft _

theorem unitMag_pos : 0 < unitMag nf := by rw [unitMag_eq]; positivity

end Parts

theorem overflowMag_eq (nf : Arith) : overflowMag nf = 2 ^ (nf.format.unitBits + nf.emax + 1) := by
  rw [overflowMag, Nat.one_shiftLeft]

theorem over_pos (nf : Arith) : 0 < overflowMag nf := by rw [overflowMag_eq]; positivity

/-- A unit is a positive part of 1.0 in every arithmetic. -/
theorem unit_pos (f : Format) : 0 < f.unit := by
  unfold Format.unit
  split
  · exact Nat.lt_of_lt_of_le Nat.one_pos (Nat.le_max_left _ _)
  · rw [Nat.one_shiftLeft]; positivity

variable {nf : Arith} [Fact (nf.ieee = true)] {neg : Bool}

theorem unitMag_lt_over (nf : Arith) [Fact (nf.ieee = true)] : 2 * unitMag nf < overflowMag nf := by
  have := two_le_emax nf
  rw [overflowMag_eq, unitMag_eq, ← pow_succ']
  exact Nat.pow_lt_pow_right (by norm_num) (by omega)

theorem unitMag_lt_overflow (nf : Arith) [Fact (nf.ieee = true)] : unitMag nf < overflowMag nf := by
  have := unitMag_lt_over nf; omega

/-! ### Representable magnitudes -/

/-- A magnitude of the format: a whole number of units with at most `prec` significant bits. -/
def Rep (nf : Arith) (v : Nat) : Prop := ∃ m k, m < 2 ^ nf.prec ∧ v = m * 2 ^ k

omit [Fact (nf.ieee = true)] in
theorem Rep.mul_pow {v k : Nat} (h : v < 2 ^ nf.prec) : Rep nf (v * 2 ^ k) := ⟨v, k, h, rfl⟩
theorem Rep.pow (k : Nat) : Rep nf (2 ^ k) :=
  ⟨1, k, Nat.one_lt_two_pow (by have := prec_pos nf; omega), by simp⟩
omit [Fact (nf.ieee = true)] in
theorem Rep.zero : Rep nf 0 := ⟨0, 0, by positivity, by simp⟩
omit [Fact (nf.ieee = true)] in
theorem Rep.of_lt {v : Nat} (h : v < 2 ^ nf.prec) : Rep nf v := ⟨v, 0, h, by simp⟩
theorem Rep.unitMag : Rep nf (unitMag nf) := unitMag_eq nf ▸ Rep.pow _
theorem Rep.mul_unitMag {v : Nat} (h : v < 2 ^ nf.prec) : Rep nf (v * NumVal.unitMag nf) :=
  unitMag_eq nf ▸ Rep.mul_pow h

theorem leadingSearch_eq (l n : Nat) : leadingSearch l n = Nat.log2 n := by
  induction l generalizing n with
  | zero => rfl
  | succ l ih =>
    rw [leadingSearch, ih, ih]
    split_ifs with h
    · rfl
    · generalize 2 ^ l = k at *
      have hn : n ≠ 0 := by rintro rfl; simp at h
      refine ((Nat.log2_eq_iff hn).2 ⟨?_, ?_⟩).symm
      · have := Nat.log2_self_le h
        rw [Nat.shiftRight_eq_div_pow, Nat.le_div_iff_mul_le (by positivity), ← pow_add] at this
        rwa [Nat.add_comm, ← Nat.shiftRight_eq_div_pow] at this
      · have := Nat.lt_log2_self (n := n >>> k)
        rw [Nat.shiftRight_eq_div_pow, Nat.div_lt_iff_lt_mul (by positivity), ← pow_add] at this
        rwa [show k + Nat.log2 (n >>> k) + 1 = Nat.log2 (n >>> k) + 1 + k by omega, Nat.shiftRight_eq_div_pow]

@[simp] theorem leading_eq (n : Nat) : leading n = Nat.log2 n := leadingSearch_eq 16 n

theorem stepOf_eq (nf : Arith) (q : Nat) : stepOf nf q = Nat.log2 q + 1 - nf.prec := by rw [stepOf, leading_eq]

omit [Fact (nf.ieee = true)] in
/-- Above the first binade, the step of `q` is the one its leading one gives. -/
theorem log2_of_lt_stepOf {q j : Nat} (h : j < stepOf nf q) : Nat.log2 q + 1 = stepOf nf q + nf.prec := by
  rw [stepOf_eq] at h ⊢; omega

/-- A magnitude of the format at or above `q` is a multiple of the rounding step of `q`. -/
theorem Rep.dvd_of_le {V q : Nat} (hV : Rep nf V) (h : q ≤ V) : 2 ^ stepOf nf q ∣ V := by
  obtain ⟨m, j, hm, rfl⟩ := hV
  rcases (Nat.lt_or_ge j (stepOf nf q)).symm with hj | hj
  · exact Dvd.dvd.mul_left (pow_dvd_pow 2 hj) m
  · exfalso
    have hl := log2_of_lt_stepOf hj
    have hp := prec_pos nf
    have hq0 : q ≠ 0 := by rintro rfl; simp at hl; omega
    have h1 := Nat.log2_self_le hq0
    have h2 : m * 2 ^ j < 2 ^ (nf.prec + j) := by rw [pow_add]; exact Nat.mul_lt_mul_of_pos_right hm (by positivity)
    have h3 : 2 ^ (nf.prec + j) ≤ 2 ^ Nat.log2 q := Nat.pow_le_pow_right (by norm_num) (by omega)
    omega

/-! ### Rounding -/

theorem divNearestEven_le {n e w : Nat} (he : 0 < e) (h : n ≤ w * e) : divNearestEven n e ≤ w := by
  have hq : n / e ≤ w := Nat.div_le_of_le_mul (by rwa [Nat.mul_comm])
  unfold divNearestEven
  rcases Nat.eq_or_lt_of_le hq with heq | hlt
  · have : n % e = 0 := by
      have := Nat.div_add_mod n e
      rw [heq, Nat.mul_comm] at this; omega
    rw [if_pos (by omega)]; exact hq
  · split_ifs <;> omega

theorem le_divNearestEven {n e w : Nat} (he : 0 < e) (h : w * e ≤ n) : w ≤ divNearestEven n e := by
  have hq : w ≤ n / e := (Nat.le_div_iff_mul_le he).2 h
  unfold divNearestEven
  split_ifs <;> omega

/-- Rounding to nearest does not look at the sign. -/
theorem roundMag_eq (nf : Arith) [Fact (nf.ieee = true)] (neg : Bool) (n d : Nat) : roundMag nf neg n d =
    divNearestEven n (d * 2 ^ stepOf nf (n / d)) * 2 ^ stepOf nf (n / d) := by
  simp only [roundMag, rounding_eq, divRound, Nat.shiftLeft_eq]

/-- Rounding does not pass a bound of the format above. -/
theorem roundMag_le {n d V : Nat} (hd : 0 < d) (hV : Rep nf V) (h : n ≤ V * d) : roundMag nf neg n d ≤ V := by
  have hq : n / d ≤ V := Nat.div_le_of_le_mul (by rwa [Nat.mul_comm])
  obtain ⟨w, hw⟩ := hV.dvd_of_le hq
  rw [roundMag_eq]
  generalize stepOf nf (n / d) = k at *
  rw [hw, Nat.mul_comm (2 ^ _) w]
  refine Nat.mul_le_mul_right _ (divNearestEven_le (by positivity) (h.trans_eq ?_))
  rw [hw]; ring

/-- Rounding does not pass a bound of the format below. -/
theorem le_roundMag {n d V : Nat} (hd : 0 < d) (hV : Rep nf V) (h : V * d ≤ n) : V ≤ roundMag nf neg n d := by
  have hq : V ≤ n / d := (Nat.le_div_iff_mul_le hd).2 h
  rw [roundMag_eq]
  obtain ⟨m, j, hm, hVm⟩ := hV
  rcases (Nat.lt_or_ge j (stepOf nf (n / d))).symm with hj | hj
  · generalize stepOf nf (n / d) = k at *
    have hV' : V = (m * 2 ^ (j - k)) * 2 ^ k := by rw [hVm, mul_assoc, ← pow_add]; congr 2; omega
    rw [hV']
    refine Nat.mul_le_mul_right _ (le_divNearestEven (by positivity) (le_trans (le_of_eq ?_) h))
    rw [hV']; ring
  · have hl := log2_of_lt_stepOf hj
    have hp := prec_pos nf
    generalize stepOf nf (n / d) = k at *
    have hq0 : n / d ≠ 0 := by intro h0; rw [h0] at hl; simp at hl; omega
    have hq1 := Nat.log2_self_le hq0
    have hV2 : V < 2 ^ (nf.prec + j) := by rw [hVm, pow_add]; exact Nat.mul_lt_mul_of_pos_right hm (by positivity)
    have h3 : 2 ^ (nf.prec + j) ≤ 2 ^ (nf.prec - 1) * 2 ^ k := by
      rw [← pow_add]; exact Nat.pow_le_pow_right (by norm_num) (by omega)
    refine (hV2.le.trans h3).trans (Nat.mul_le_mul_right _ (le_divNearestEven (by positivity) ?_))
    have h4 : 2 ^ (nf.prec - 1) * 2 ^ k ≤ n / d := by
      rw [← pow_add]
      exact le_trans (Nat.pow_le_pow_right (by norm_num) (by omega)) hq1
    calc 2 ^ (nf.prec - 1) * (d * 2 ^ k) = (2 ^ (nf.prec - 1) * 2 ^ k) * d := by ring
      _ ≤ n / d * d := Nat.mul_le_mul_right _ h4
      _ ≤ n := Nat.div_mul_le_self n d

/-- Rounding a magnitude of the format leaves it. -/
theorem roundMag_of_rep {V d : Nat} (hd : 0 < d) (hV : Rep nf V) : roundMag nf neg (V * d) d = V :=
  le_antisymm (roundMag_le hd hV le_rfl) (le_roundMag hd hV le_rfl)

@[simp] theorem roundMag_zero (d : Nat) (hd : 0 < d) : roundMag nf neg 0 d = 0 :=
  Nat.le_zero.1 (roundMag_le hd Rep.zero (by simp))

/-- What rounding gives is a magnitude of the format. -/
theorem roundMag_rep (n : Nat) {d : Nat} (hd : 0 < d) : Rep nf (roundMag nf neg n d) := by
  rw [roundMag_eq]
  have hle : divNearestEven n (d * 2 ^ stepOf nf (n / d)) ≤ 2 ^ nf.prec := by
    refine divNearestEven_le (by positivity) ?_
    have hq : n / d < 2 ^ (nf.prec + stepOf nf (n / d)) :=
      Nat.lt_log2_self.trans_le (Nat.pow_le_pow_right (by norm_num) (by rw [stepOf_eq]; omega))
    generalize stepOf nf (n / d) = k at *
    have := Nat.lt_mul_div_succ n hd
    calc n ≤ d * (n / d + 1) := this.le
      _ ≤ d * 2 ^ (nf.prec + k) := Nat.mul_le_mul_left _ hq
      _ = 2 ^ nf.prec * (d * 2 ^ k) := by rw [pow_add]; ring
  rcases Nat.eq_or_lt_of_le hle with he | hlt
  · rw [he, ← pow_add]; exact Rep.pow _
  · exact Rep.mul_pow hlt

theorem divNearestEven_mono {c n : Nat} (e : Nat) (h : c ≤ n) : divNearestEven c e ≤ divNearestEven n e := by
  have hq : c / e ≤ n / e := Nat.div_le_div_right h
  have hc := Nat.div_add_mod c e
  have hn := Nat.div_add_mod n e
  unfold divNearestEven
  rcases hq.eq_or_lt with heq | hlt
  · have hm : c % e ≤ n % e := by rw [heq] at hc; omega
    rw [heq]
    split_ifs <;> omega
  · split_ifs <;> omega

/-- Rounding keeps the order. -/
theorem roundMag_mono {c n d : Nat} {neg' : Bool} (hd : 0 < d) (h : c ≤ n) :
    roundMag nf neg c d ≤ roundMag nf neg' n d := by
  have hq : c / d ≤ n / d := Nat.div_le_div_right h
  by_cases hk : stepOf nf (c / d) = stepOf nf (n / d)
  · rw [roundMag_eq, roundMag_eq, hk]
    exact Nat.mul_le_mul_right _ (divNearestEven_mono _ h)
  · -- the leading ones differ, and the higher one's power of two separates the two
    have hl : Nat.log2 (c / d) < Nat.log2 (n / d) := by
      refine lt_of_le_of_ne ?_ fun he => hk (by simp only [stepOf_eq, he])
      rcases Nat.eq_zero_or_pos (c / d) with h0 | hpos
      · rw [h0]; simp
      · have a1 := Nat.log2_self_le (n := c / d) (by omega)
        have b2 := Nat.lt_log2_self (n := n / d)
        have := (Nat.pow_lt_pow_iff_right (by norm_num : 1 < 2)).1 (a1.trans_lt (hq.trans_lt b2))
        omega
    have hn0 : n / d ≠ 0 := by rintro h0; rw [h0] at hl; simp at hl
    have b1 := Nat.log2_self_le hn0
    have hV : Rep nf (2 ^ Nat.log2 (n / d)) := Rep.pow _
    have hup : 2 ^ Nat.log2 (n / d) ≤ roundMag nf neg' n d :=
      le_roundMag hd hV ((Nat.mul_le_mul_right d b1).trans (Nat.div_mul_le_self n d))
    have hcq : c / d < 2 ^ Nat.log2 (n / d) :=
      Nat.lt_log2_self.trans_le (Nat.pow_le_pow_right (by norm_num) hl)
    exact (roundMag_le hd hV ((Nat.div_lt_iff_lt_mul hd).1 hcq).le).trans hup

/-- No whole number of steps is nearer than the one chosen. -/
theorem divNearestEven_nearest {n e : Nat} (he : 0 < e) (w : Nat) :
    |((divNearestEven n e * e : Nat) : Int) - n| ≤ |((w * e : Nat) : Int) - n| := by
  have hn := Nat.div_add_mod n e
  have hm := Nat.mod_lt n he
  have hw : w * e ≤ n / e * e ∨ n / e * e + e ≤ w * e := by
    rcases Nat.lt_or_ge (n / e) w with h | h
    · right; have := Nat.mul_le_mul_right e h; rw [Nat.succ_mul] at this; exact this
    · left; exact Nat.mul_le_mul_right e h
  rw [Nat.mul_comm] at hn
  unfold divNearestEven
  generalize n % e = m at *
  generalize hq : n / e = q at *
  have h2 := Nat.mod_lt q (show 0 < 2 by norm_num)
  generalize q % 2 = p at *
  have h1 : (q + 1) * e = q * e + e := by ring
  generalize w * e = a at *
  split_ifs
  · generalize q * e = b at *; rw [abs_le]; rcases abs_cases ((a : Int) - n) with ⟨h, _⟩ | ⟨h, _⟩ <;> rw [h] <;> omega
  · rw [h1]; generalize q * e = b at *; rw [abs_le]; rcases abs_cases ((a : Int) - n) with ⟨h, _⟩ | ⟨h, _⟩ <;> rw [h] <;> omega
  · have : (q + p) * e = q * e ∨ (q + p) * e = q * e + e := by
      obtain rfl | rfl : p = 0 ∨ p = 1 := by omega
      · left; simp
      · right; exact h1
    generalize (q + p) * e = c at *
    generalize q * e = b at *; rw [abs_le]; rcases abs_cases ((a : Int) - n) with ⟨h, _⟩ | ⟨h, _⟩ <;> rw [h] <;> omega

/-- Rounding gives the nearest magnitude of the format. -/
theorem roundMag_nearest {n d V : Nat} (hd : 0 < d) (hV : Rep nf V) :
    |((roundMag nf neg n d * d : Nat) : Int) - n| ≤ |((V * d : Nat) : Int) - n| := by
  rw [roundMag_eq]
  obtain ⟨k, hk⟩ : ∃ k, stepOf nf (n / d) = k := ⟨_, rfl⟩
  have hp := prec_pos nf
  rw [hk]
  have he : 0 < d * 2 ^ k := by positivity
  have e1 : divNearestEven n (d * 2 ^ k) * 2 ^ k * d = divNearestEven n (d * 2 ^ k) * (d * 2 ^ k) := by ring
  rw [e1]
  -- a multiple of the step lies between `V` and the quotient
  have hw : ∃ w, |((w * (d * 2 ^ k) : Nat) : Int) - n| ≤ |((V * d : Nat) : Int) - n| := by
    rcases Nat.lt_or_ge V (n / d) with hlt | hge
    · refine ⟨n / (d * 2 ^ k), ?_⟩
      have hle : V ≤ n / (d * 2 ^ k) * 2 ^ k := by
        obtain ⟨m, j, hm, rfl⟩ := hV
        rcases Nat.lt_or_ge j k with hjk | hjk
        · have hl := log2_of_lt_stepOf (nf := nf) (q := n / d) (j := j) (by omega)
          have hq : 2 ^ (nf.prec - 1 + k) ≤ n / d := by
            have := Nat.log2_self_le (n := n / d) (by omega)
            exact le_trans (Nat.pow_le_pow_right (by norm_num) (by omega)) this
          have hq2 : 2 ^ (nf.prec - 1) ≤ n / (d * 2 ^ k) := by
            rw [← Nat.div_div_eq_div_mul, Nat.le_div_iff_mul_le (by positivity), ← pow_add]; exact hq
          calc m * 2 ^ j ≤ 2 ^ nf.prec * 2 ^ j := Nat.mul_le_mul_right _ hm.le
            _ = 2 ^ (nf.prec + j) := by rw [pow_add]
            _ ≤ 2 ^ (nf.prec - 1 + k) := Nat.pow_le_pow_right (by norm_num) (by omega)
            _ = 2 ^ (nf.prec - 1) * 2 ^ k := by rw [pow_add]
            _ ≤ _ := Nat.mul_le_mul_right _ hq2
        · obtain ⟨c, hc⟩ : 2 ^ k ∣ m * 2 ^ j := Dvd.dvd.mul_left (pow_dvd_pow 2 hjk) m
          rw [hc, Nat.mul_comm]
          refine Nat.mul_le_mul_right _ ?_
          rw [← Nat.div_div_eq_div_mul, Nat.le_div_iff_mul_le (by positivity), Nat.mul_comm, ← hc]
          exact hlt.le
      have a1 : V * d ≤ n / (d * 2 ^ k) * (d * 2 ^ k) := by
        calc V * d ≤ n / (d * 2 ^ k) * 2 ^ k * d := Nat.mul_le_mul_right _ hle
          _ = _ := by ring
      have a2 := Nat.div_mul_le_self n (d * 2 ^ k)
      rw [abs_le]
      generalize n / (d * 2 ^ k) * (d * 2 ^ k) = a at *
      generalize V * d = b at *
      rcases abs_cases ((b : Int) - n) with ⟨h, _⟩ | ⟨h, _⟩ <;> rw [h] <;> omega
    · obtain ⟨c, hc⟩ := hV.dvd_of_le hge
      refine ⟨c, ?_⟩
      rw [hc, hk]
      rw [show c * (d * 2 ^ k) = 2 ^ k * c * d by ring]
  obtain ⟨w, hw⟩ := hw
  exact (divNearestEven_nearest he w).trans hw

/-! ### A value and its parts -/

theorem isNaN_of_finite {x : NumVal} (h : x.finite = true) : x.isNaN = false := by cases x <;> first | rfl | simp_all [finite]

theorem isInf_of_finite {x : NumVal} (h : x.finite = true) : x.isInf = false := by cases x <;> first | rfl | simp_all [finite]

/-- A value is finite, an infinity or a NaN. -/
theorem finite_iff (x : NumVal) : x.finite = true ↔ x.isNaN = false ∧ x.isInf = false := by
  cases x <;> simp [finite, isNaN, isInf]

/-- A finite value is its sign and its magnitude. -/
theorem fin_of_finite {x : NumVal} (h : x.finite = true) : x = .fin x.isNeg x.mag := by
  cases x <;> first | rfl | simp_all [finite]

theorem sval_natAbs (x : NumVal) : x.sval.natAbs = x.mag := by
  unfold sval; split <;> simp

theorem sval_of_not_neg {x : NumVal} (h : x.isNeg = false) : x.sval = x.mag := by simp [sval, h]
theorem sval_of_neg {x : NumVal} (h : x.isNeg = true) : x.sval = -(x.mag : Int) := by simp [sval, h]

/-- Rounding gives the rounded magnitude, or an infinity when that overflows. -/
theorem ofUnits_eq (nf : Arith) [Fact (nf.ieee = true)] (neg : Bool) (n d : Nat) : ofUnits nf neg n d =
    if roundMag nf neg n d < overflowMag nf then .fin neg (roundMag nf neg n d) else .inf neg := by
  rw [ofUnits, format_eq]
  simp only [ofMag, overflowed, rounding_eq]

/-- What `ofUnits` gives: never a NaN, the sign given, and the rounded magnitude when that does not overflow. -/
theorem ofUnits_spec (nf : Arith) [Fact (nf.ieee = true)] (neg : Bool) (n d : Nat) :
    (ofUnits nf neg n d).isNaN = false ∧
      ((ofUnits nf neg n d).finite = true ↔ roundMag nf neg n d < overflowMag nf) ∧
      ((ofUnits nf neg n d).finite = true → (ofUnits nf neg n d).mag = roundMag nf neg n d) ∧
      (ofUnits nf neg n d).isNeg = neg := by
  rw [ofUnits_eq]
  split_ifs with h <;> simp [isNaN, finite, isNeg, mag, h]

/-- A bound of the format on the exact value makes the rounded one finite and bounded. -/
theorem ofUnits_mag_le {n d V : Nat} (hd : 0 < d) (hV : Rep nf V) (hlt : V < overflowMag nf) (h : n ≤ V * d) :
    (ofUnits nf neg n d).mag ≤ V ∧ (ofUnits nf neg n d).finite = true ∧
      (ofUnits nf neg n d).mag = roundMag nf neg n d := by
  obtain ⟨-, h2, h3, -⟩ := ofUnits_spec nf neg n d
  have h4 := roundMag_le (neg := neg) hd hV h
  have hf := h2.2 (h4.trans_lt hlt)
  exact ⟨(h3 hf).trans_le h4, hf, h3 hf⟩

/-- A magnitude of the format is kept by rounding. -/
theorem ofUnits_rep {d V : Nat} (hd : 0 < d) (hV : Rep nf V) (hlt : V < overflowMag nf) :
    ofUnits nf neg (V * d) d = .fin neg V := by
  rw [ofUnits_eq, roundMag_of_rep hd hV, if_pos hlt]

/-- Zero is kept by rounding. -/
theorem ofUnits_zero {d : Nat} (hd : 0 < d) : ofUnits nf neg 0 d = .fin neg 0 := by
  have := ofUnits_rep (nf := nf) (neg := neg) hd Rep.zero (over_pos nf)
  rwa [Nat.zero_mul] at this

/-! ### The values of a format -/

/-- Rounding does not see a common factor of the two numbers it divides. -/
theorem roundMag_mul_right {n d c : Nat} (hc : 0 < c) : roundMag nf neg (n * c) (d * c) = roundMag nf neg n d := by
  rw [roundMag_eq, roundMag_eq, Nat.mul_div_mul_right _ _ hc, Nat.mul_right_comm d c]
  congr 1
  unfold divNearestEven
  rw [Nat.mul_div_mul_right _ _ hc, Nat.mul_mod_mul_right, ← Nat.mul_assoc]
  simp only [Nat.mul_lt_mul_right hc]

theorem convert_fin (neg : Bool) (m : Nat) : convert nf (.fin neg m) = ofUnits nf neg m 1 := by
  have := roundMag_mul_right (nf := nf) (neg := neg) (n := m) (d := 1) (unitMag_pos nf)
  rw [Nat.one_mul] at this
  rw [convert, rescale, ofUnits_eq, ofUnits_eq, this]

theorem convert_of_not_finite {x : NumVal} (h : x.finite = false) : convert nf x = x := by
  cases x <;> simp_all [finite, convert, rescale]

theorem inFmt_iff {nf : Arith} {x : NumVal} : inFmt nf x = true ↔ convert nf x = x := by simp [inFmt]

/-- The finite values of the format. -/
theorem inFmt_fin {m : Nat} : inFmt nf (.fin neg m) = true ↔ Rep nf m ∧ m < overflowMag nf := by
  rw [inFmt_iff, convert_fin]
  constructor
  · intro h
    rw [ofUnits_eq] at h
    split_ifs at h with hlt
    have he : roundMag nf neg m 1 = m := by injection h
    exact he ▸ ⟨roundMag_rep m Nat.one_pos, hlt⟩
  · rintro ⟨hr, ho⟩
    have := ofUnits_rep (neg := neg) Nat.one_pos hr ho
    rwa [Nat.mul_one] at this

theorem inFmt_of_not_finite {x : NumVal} (h : x.finite = false) : inFmt nf x = true :=
  inFmt_iff.2 (convert_of_not_finite h)

@[simp] theorem inFmt_nan : inFmt nf .nan = true := inFmt_of_not_finite rfl
@[simp] theorem inFmt_inf : inFmt nf (.inf neg) = true := inFmt_of_not_finite rfl
@[simp] theorem inFmt_fin_zero : inFmt nf (.fin neg 0) = true := inFmt_fin.2 ⟨Rep.zero, over_pos nf⟩

/-- What rounding to the format gives is a value of the format. -/
theorem inFmt_ofUnits (neg : Bool) (n : Nat) {d : Nat} (hd : 0 < d) : inFmt nf (ofUnits nf neg n d) = true := by
  rw [ofUnits_eq]
  split_ifs with h
  · exact inFmt_fin.2 ⟨roundMag_rep n hd, h⟩
  · exact inFmt_inf

@[simp] theorem inFmt_rescale (src : Arith) (x : NumVal) : inFmt nf (rescale nf src x) = true := by
  cases x <;> simp [rescale, inFmt_ofUnits _ _ (unit_pos _)]

@[simp] theorem inFmt_convert (x : NumVal) : inFmt nf (convert nf x) = true := inFmt_rescale nf x

@[simp] theorem toNearest_eq (nf : Arith) [Fact (nf.ieee = true)] : nf.toNearest = nf := by
  have hf : nf.format.saturating = nf.format := by rw [format_eq]; rfl
  rw [Arith.toNearest, hf, ← rounding_eq nf]

/-- The nearest rounding of `to_num` is such an arithmetic's own. -/
theorem ofF64_eq (nf : Arith) [Fact (nf.ieee = true)] (w : OperandWord) :
    ofF64 nf w = if (ofWord w).finite then rescale nf binary64 (ofWord w) else ofWord w := by
  rw [ofF64, toNearest_eq]

@[simp] theorem inFmt_ofF64 (w : OperandWord) : inFmt nf (ofF64 nf w) = true := by
  rw [ofF64_eq]
  split_ifs with h
  · exact inFmt_rescale _ _
  · exact inFmt_of_not_finite (by simpa using h)

theorem binary64_ieee : Fact (binary64.ieee = true) := ⟨by decide⟩

omit [Fact (nf.ieee = true)] in
/-- Every NUM's zero is returned as 0.0. -/
theorem toF64_zero (neg : Bool) (nf : Arith) : toF64 nf (.fin neg 0) = .fin neg 0 := by
  have := binary64_ieee
  rw [toF64, rescale, Nat.zero_mul, ofUnits_zero (unit_pos _)]

omit [Fact (nf.ieee = true)] in
/-- A bit pattern stands for a value of binary64. -/
theorem inFmt_ofWord (w : OperandWord) : inFmt binary64 (ofWord w) = true := by
  have := binary64_ieee
  have hf : w.toNat % 2 ^ 52 < 2 ^ 52 := Nat.mod_lt _ (by positivity)
  have he : w.toNat / 2 ^ 52 % 2048 < 2048 := Nat.mod_lt _ (by norm_num)
  have ho : overflowMag binary64 = 2 ^ 2098 := overflowMag_eq _
  unfold ofWord
  generalize w.toNat % 2 ^ 52 = f at *
  generalize w.toNat / 2 ^ 52 % 2048 = e at *
  split_ifs with h1 h2 h3
  · exact inFmt_inf
  · exact inFmt_nan
  · exact inFmt_fin.2 ⟨Rep.of_lt (hf.trans (Nat.pow_lt_pow_right (by norm_num) (by decide))),
      ho ▸ hf.trans (Nat.pow_lt_pow_right (by norm_num) (by norm_num))⟩
  · rw [Nat.shiftLeft_eq]
    have hs : 2 ^ 52 + f < 2 ^ 53 := by rw [pow_succ 2 52]; omega
    refine inFmt_fin.2 ⟨Rep.mul_pow hs, ?_⟩
    calc (2 ^ 52 + f) * 2 ^ (e - 1) < 2 ^ 53 * 2 ^ (e - 1) := Nat.mul_lt_mul_of_pos_right hs (by positivity)
      _ = 2 ^ (53 + (e - 1)) := (pow_add _ _ _).symm
      _ ≤ overflowMag binary64 := by rw [ho]; exact Nat.pow_le_pow_right (by norm_num) (by omega)

/-- Under the reference NUM an operand is the value its word stands for, and a response is the NUM value (30_encoding.md
R59, R63). -/
theorem toF64_ofF64 (w : OperandWord) : ofF64 binary64 w = ofWord w ∧ toF64 binary64 (ofWord w) = ofWord w := by
  have := binary64_ieee
  have h : rescale binary64 binary64 (ofWord w) = ofWord w := inFmt_iff.1 (inFmt_ofWord w)
  exact ⟨by rw [ofF64_eq, h, ite_self], h⟩

/-- The magnitude of a finite value of the format is one of the format's, below its overflow. -/
theorem mag_rep {x : NumVal} (h : inFmt nf x = true) (hf : x.finite = true) :
    Rep nf x.mag ∧ x.mag < overflowMag nf := by
  rw [fin_of_finite hf] at h
  exact inFmt_fin.1 h

/-- A finite value whose magnitude is one of the format's, below its overflow, is a value of the format. -/
theorem inFmt_of_rep {x : NumVal} (hf : x.finite = true) (hr : Rep nf x.mag) (ho : x.mag < overflowMag nf) :
    inFmt nf x = true := by
  rw [fin_of_finite hf]; exact inFmt_fin.2 ⟨hr, ho⟩

/-! ### The literals -/

theorem zero_spec : zero.finite = true ∧ zero.isNaN = false ∧ zero.mag = 0 ∧ zero.sval = 0 ∧ zero.isNeg = false := by
  decide

/-- An integer the format's precision holds is converted exactly (00_scope.md R13). -/
theorem ofNat_eq {n : Nat} (h : n < 2 ^ nf.prec) (ho : n < 2 ^ (nf.emax + 1)) :
    ofNat nf n = .fin false (n * unitMag nf) := by
  have hlt : n * unitMag nf < overflowMag nf := by
    rw [overflowMag_eq, unitMag_eq, show nf.format.unitBits + nf.emax + 1 = nf.emax + 1 + nf.format.unitBits by omega,
      pow_add]
    exact Nat.mul_lt_mul_of_pos_right ho (by positivity)
  have := ofUnits_rep (neg := false) Nat.one_pos (Rep.mul_unitMag h) hlt
  rwa [Nat.mul_one] at this

theorem ofNat_spec {n : Nat} (h : n < 2 ^ nf.prec) (ho : n < 2 ^ (nf.emax + 1)) :
    (ofNat nf n).finite = true ∧ (ofNat nf n).mag = n * unitMag nf ∧ (ofNat nf n).isNeg = false := by
  rw [ofNat_eq h ho]; exact ⟨rfl, rfl, rfl⟩

/-- 1.0 is exactly one. -/
theorem one_eq (nf : Arith) [Fact (nf.ieee = true)] : one nf = .fin false (unitMag nf) := by
  have := two_le_emax nf
  have := prec_pos nf
  rw [one, ofNat_eq (Nat.one_lt_two_pow (by omega)) (Nat.one_lt_two_pow (by omega)), Nat.one_mul]

theorem one_mag : (one nf).mag = unitMag nf := by rw [one_eq]; rfl
theorem one_spec : (one nf).finite = true ∧ (one nf).isNaN = false ∧ (one nf).isNeg = false := by
  rw [one_eq]; exact ⟨rfl, rfl, rfl⟩
theorem one_sval : (one nf).sval = unitMag nf := by rw [sval_of_not_neg one_spec.2.2, one_mag]

/-! ### Opposite and absolute value -/

theorem neg_spec {x : NumVal} (h : x.isNaN = false) :
    (NumVal.neg x).finite = x.finite ∧ (NumVal.neg x).isNaN = false ∧ (NumVal.neg x).mag = x.mag ∧
      (NumVal.neg x).isNeg = !x.isNeg ∧ (NumVal.neg x).sval = -x.sval := by
  cases x with
  | fin n m => cases n <;> simp [NumVal.neg, finite, isNaN, mag, isNeg, sval]
  | inf n => cases n <;> simp [NumVal.neg, finite, isNaN, mag, isNeg, sval]
  | nan => simp [isNaN] at h

theorem abs_spec {x : NumVal} (h : x.isNaN = false) :
    (abs x).finite = x.finite ∧ (abs x).isNaN = false ∧ (abs x).mag = x.mag ∧ (abs x).isNeg = false := by
  cases x <;> simp_all [abs, finite, isNaN, mag, isNeg]

/-! ### Bounds on the operators -/

theorem sum_finite_eq {nf : Arith} {x y : NumVal} (hx : x.finite = true) (hy : y.finite = true) :
    sum nf x y = ofUnits nf (sumNeg nf x y) (x.sval + y.sval).natAbs 1 := by
  simp [sum, isNaN_of_finite hx, isNaN_of_finite hy, isInf_of_finite hx, isInf_of_finite hy]

theorem add_finite_eq {x y : NumVal} (hx : x.finite = true) (hy : y.finite = true) :
    add nf x y = ofUnits nf (if x.sval + y.sval = 0 then x.isNeg && y.isNeg else decide (x.sval + y.sval < 0))
      (x.sval + y.sval).natAbs 1 := by
  have hr : ¬ nf.rounding = .down := by rw [rounding_eq]; decide
  rw [add, isOther_eq, if_neg (by decide), sum_finite_eq hx hy, sumNeg, if_neg hr]

theorem sub_eq_add_neg (nf : Arith) [Fact (nf.ieee = true)] (x y : NumVal) : sub nf x y = add nf x (NumVal.neg y) := by
  simp [sub, add]

/-- A sum is finite and of a magnitude at most `V` when the exact sum is; it has the sign of the exact sum. -/
theorem add_spec {x y : NumVal} (hx : x.finite = true) (hy : y.finite = true) {V : Nat} (hV : Rep nf V)
    (hlt : V < overflowMag nf) (h : (x.sval + y.sval).natAbs ≤ V) :
    (add nf x y).finite = true ∧ (add nf x y).mag ≤ V ∧ (0 ≤ x.sval + y.sval → 0 ≤ (add nf x y).sval) ∧
      (x.sval + y.sval ≤ 0 → (add nf x y).sval ≤ 0) := by
  rw [add_finite_eq hx hy]
  obtain ⟨b, hb⟩ : ∃ b, (if x.sval + y.sval = 0 then x.isNeg && y.isNeg else decide (x.sval + y.sval < 0)) = b := ⟨_, rfl⟩
  rw [hb]
  obtain ⟨hm, hf, hmr⟩ := ofUnits_mag_le (nf := nf) (neg := b) (n := (x.sval + y.sval).natAbs) Nat.one_pos hV hlt
    (by rw [Nat.mul_one]; exact h)
  obtain ⟨-, -, -, hn⟩ := ofUnits_spec nf b (x.sval + y.sval).natAbs 1
  have hz : x.sval + y.sval = 0 → (ofUnits nf b (x.sval + y.sval).natAbs 1).sval = 0 := by
    intro h0
    rw [h0, Int.natAbs_zero, ofUnits_zero Nat.one_pos]; cases b <;> rfl
  refine ⟨hf, hm, fun hs => ?_, fun hs => ?_⟩
  · rcases hs.eq_or_lt with h0 | hpos
    · exact (hz h0.symm).ge
    · rw [if_neg (by omega), decide_eq_false (by omega)] at hb
      rw [sval_of_not_neg (by rw [hn, ← hb])]; omega
  · rcases hs.eq_or_lt with h0 | hneg
    · exact (hz h0).le
    · rw [if_neg (by omega), decide_eq_true (by omega)] at hb
      rw [sval_of_neg (by rw [hn, ← hb])]; omega

theorem sub_spec {x y : NumVal} (hx : x.finite = true) (hy : y.finite = true) {V : Nat} (hV : Rep nf V)
    (hlt : V < overflowMag nf) (h : (x.sval - y.sval).natAbs ≤ V) :
    (sub nf x y).finite = true ∧ (sub nf x y).mag ≤ V ∧ (0 ≤ x.sval - y.sval → 0 ≤ (sub nf x y).sval) ∧
      (x.sval - y.sval ≤ 0 → (sub nf x y).sval ≤ 0) := by
  obtain ⟨h1, -, -, -, h5⟩ := neg_spec (isNaN_of_finite hy)
  rw [sub_eq_add_neg]
  have := add_spec hx (h1.trans hy) hV hlt (by rw [h5]; exact h)
  rw [h5] at this
  exact this

theorem mul_finite_eq {x y : NumVal} (hx : x.finite = true) (hy : y.finite = true) :
    mul nf x y = ofUnits nf (x.isNeg != y.isNeg) (x.mag * y.mag) (unitMag nf) := by
  simp [mul, product, isNaN_of_finite hx, isNaN_of_finite hy, isInf_of_finite hx, isInf_of_finite hy]

theorem mul_spec {x y : NumVal} (hx : x.finite = true) (hy : y.finite = true) {V : Nat} (hV : Rep nf V)
    (hlt : V < overflowMag nf) (h : x.mag * y.mag ≤ V * unitMag nf) :
    (mul nf x y).finite = true ∧ (mul nf x y).mag ≤ V ∧ (mul nf x y).isNeg = (x.isNeg != y.isNeg) := by
  rw [mul_finite_eq hx hy]
  obtain ⟨hm, hf, -⟩ := ofUnits_mag_le (nf := nf) (neg := x.isNeg != y.isNeg) (unitMag_pos nf) hV hlt h
  exact ⟨hf, hm, (ofUnits_spec nf _ _ _).2.2.2⟩

theorem isZero_of_mag {x : NumVal} (h0 : x.mag ≠ 0) : x.isZero = false := by cases x <;> simp_all [isZero, mag]

theorem isZero_iff {x : NumVal} (hx : x.finite = true) : x.isZero = true ↔ x.mag = 0 := by
  cases x <;> simp_all [isZero, mag, finite]

theorem div_finite_eq {x y : NumVal} (hx : x.finite = true) (hy : y.finite = true) (h0 : y.mag ≠ 0) :
    div nf x y = ofUnits nf (x.isNeg != y.isNeg) (x.mag * unitMag nf) y.mag := by
  simp [div, quotient, isNaN_of_finite hx, isNaN_of_finite hy, isInf_of_finite hx, isInf_of_finite hy, isZero_of_mag h0]

theorem div_spec {x y : NumVal} (hx : x.finite = true) (hy : y.finite = true) (h0 : y.mag ≠ 0) {V : Nat} (hV : Rep nf V)
    (hlt : V < overflowMag nf) (h : x.mag * unitMag nf ≤ V * y.mag) :
    (div nf x y).finite = true ∧ (div nf x y).mag ≤ V ∧ (div nf x y).isNeg = (x.isNeg != y.isNeg) := by
  rw [div_finite_eq hx hy h0]
  obtain ⟨hm, hf, -⟩ := ofUnits_mag_le (nf := nf) (neg := x.isNeg != y.isNeg) (Nat.pos_of_ne_zero h0) hV hlt h
  exact ⟨hf, hm, (ofUnits_spec nf _ _ _).2.2.2⟩

/-! ### The operators answer values of NUM -/

@[simp] theorem inFmt_zero : inFmt nf zero = true := inFmt_fin_zero
@[simp] theorem inFmt_ofNat (n : Nat) : inFmt nf (ofNat nf n) = true := inFmt_ofUnits _ _ Nat.one_pos
@[simp] theorem inFmt_ofInt (i : Int) : inFmt nf (ofInt nf i) = true := inFmt_ofUnits _ _ Nat.one_pos
@[simp] theorem inFmt_one : inFmt nf (one nf) = true := inFmt_ofNat 1

theorem inFmt_sum {x y : NumVal} : inFmt nf (sum nf x y) = true := by
  unfold sum
  split_ifs with h1 h2
  · exact inFmt_nan
  · exact inFmt_nan
  · cases x <;> simp_all [isInf]
  · cases y <;> simp_all [isInf]
  · exact inFmt_ofUnits _ _ Nat.one_pos

@[simp] theorem inFmt_add (x y : NumVal) : inFmt nf (add nf x y) = true := by
  rw [add, isOther_eq, if_neg (by decide)]; exact inFmt_sum

@[simp] theorem inFmt_sub (x y : NumVal) : inFmt nf (sub nf x y) = true := by
  rw [sub, isOther_eq, if_neg (by decide)]; exact inFmt_sum

@[simp] theorem inFmt_mul (x y : NumVal) : inFmt nf (mul nf x y) = true := by
  rw [mul, isOther_eq, if_neg (by decide), product]
  split_ifs
  · exact inFmt_nan
  · exact inFmt_nan
  · exact inFmt_inf
  · exact inFmt_ofUnits _ _ (unitMag_pos nf)

@[simp] theorem inFmt_div (x y : NumVal) : inFmt nf (div nf x y) = true := by
  rw [div, isOther_eq, if_neg (by decide), quotient]
  split_ifs with h1 h2 h3 h4 h5 h6 h7
  · exact inFmt_nan
  · exact inFmt_nan
  · exact inFmt_inf
  · exact inFmt_fin_zero
  · simp at h6
  · exact inFmt_nan
  · exact inFmt_inf
  · refine inFmt_ofUnits _ _ (Nat.pos_of_ne_zero fun h0 => h5 ?_)
    cases y <;> simp_all [isZero, mag, isNaN, isInf]

@[simp] theorem inFmt_sin (x : NumVal) : inFmt nf (sin nf x) = true := by
  unfold sin
  split_ifs
  · exact inFmt_convert _
  · exact inFmt_convert _
  · exact inFmt_ofUnits _ _ (by norm_num)
  · exact inFmt_ofUnits _ _ (by rw [Nat.one_shiftLeft]; positivity)

@[simp] theorem inFmt_pow (x y : NumVal) : inFmt nf (pow nf x y) = true := by
  unfold pow expFixed
  simp only
  split_ifs
  · exact inFmt_convert _
  · exact inFmt_ofUnits _ _ Nat.one_pos
  · exact inFmt_ofUnits _ _ (by norm_num)
  · exact inFmt_ofUnits _ _ (by rw [Nat.one_shiftLeft]; positivity)
  · exact inFmt_convert _

/-- Converting a value of the format leaves it. -/
theorem convert_of_inFmt {nf : Arith} {x : NumVal} (h : inFmt nf x = true) : convert nf x = x := inFmt_iff.1 h

/-! ### Comparisons -/

/-- A comparison of two finite values compares their numbers. -/
theorem lt_iff {x y : NumVal} (hx : x.finite = true) (hy : y.finite = true) : lt x y = true ↔ x.sval < y.sval := by
  cases x <;> cases y <;> simp_all [lt, finite]

theorem le_iff {x y : NumVal} (hx : x.finite = true) (hy : y.finite = true) : le x y = true ↔ x.sval ≤ y.sval := by
  cases x <;> cases y <;> simp_all [le, finite]

/-- A value between two finite ones is finite. -/
theorem finite_of_between {a x b : NumVal} (ha : a.finite = true) (hb : b.finite = true) (h1 : le a x = true)
    (h2 : le x b = true) : x.finite = true := by
  cases a <;> cases x <;> cases b <;> simp_all [le, finite]

theorem le_of_lt {x y : NumVal} (h : lt x y = true) : le x y = true := by
  cases x <;> cases y <;> simp_all [le, lt]
  omega

/-- Of two numbers one is at most the other. -/
theorem le_of_not_lt {x y : NumVal} (hx : x.isNaN = false) (hy : y.isNaN = false) (h : lt x y = false) :
    le y x = true := by
  cases x <;> cases y <;> simp_all [le, lt, isNaN]
  rename_i a b; revert h; cases a <;> cases b <;> decide

theorem lt_of_not_le {x y : NumVal} (hx : x.isNaN = false) (hy : y.isNaN = false) (h : le x y = false) :
    lt y x = true := by
  cases x <;> cases y <;> simp_all [le, lt, isNaN]

theorem not_nan_of_lt {x y : NumVal} (h : lt x y = true) : x.isNaN = false ∧ y.isNaN = false := by
  cases x <;> cases y <;> simp_all [lt, isNaN]

end Sys2Proof.NumVal
end

