-- ==== Sys2Proof/Laws/Unit.lean ====
section
/-! SUPPORT. Values in [0, 1]: the products, complements and ratios the envelope computes stay there, a clamp goes there, and one phase advance stays in [0, 1). -/

namespace Sys2Proof.Machine

open Sys2Proof Sys2Proof.Config NumVal

variable {nf : Arith} [Fact (nf.ieee = true)]

/-! ### [0, 1] -/

/-- What being in [0, 1] says of the parts of a value. -/
theorem inUnit_iff (x : NumVal) : inUnit nf x = true ↔ x.finite = true ∧ 0 ≤ x.sval ∧ x.sval ≤ unitMag nf := by
  simp only [inUnit, Bool.and_eq_true]
  constructor
  · rintro ⟨h1, h2⟩
    have hf := finite_of_between zero_spec.1 (one_spec (nf := nf)).1 h1 h2
    rw [le_iff zero_spec.1 hf, zero_spec.2.2.2.1] at h1
    rw [le_iff hf one_spec.1, one_sval] at h2
    exact ⟨hf, h1, h2⟩
  · rintro ⟨hf, h1, h2⟩
    rw [le_iff zero_spec.1 hf, zero_spec.2.2.2.1, le_iff hf one_spec.1, one_sval]
    exact ⟨h1, h2⟩

theorem inUnit_parts {x : NumVal} (h : inUnit nf x = true) :
    x.finite = true ∧ x.mag ≤ unitMag nf ∧ x.sval = x.mag ∧ (x.isNeg = true → x.mag = 0) := by
  obtain ⟨h1, h2, h3⟩ := (inUnit_iff x).1 h
  have hs : x.sval = x.mag := by
    have := sval_natAbs x
    omega
  refine ⟨h1, by omega, hs, fun hn => ?_⟩
  have := sval_of_neg hn
  omega

theorem inUnit_of {x : NumVal} (hf : x.finite = true) (hm : x.mag ≤ unitMag nf) (hn : x.isNeg = true → x.mag = 0) :
    inUnit nf x = true := by
  rw [inUnit_iff]
  refine ⟨hf, ?_⟩
  cases h : x.isNeg
  · rw [sval_of_not_neg h]; omega
  · have := hn h
    rw [sval_of_neg h]; omega

theorem inUnit_of_sval {x : NumVal} (hf : x.finite = true) (hm : x.mag ≤ unitMag nf) (hs : 0 ≤ x.sval) :
    inUnit nf x = true :=
  inUnit_of hf hm fun hn => by have := sval_of_neg hn; omega

theorem inUnit_zero : inUnit nf zero = true :=
  inUnit_of zero_spec.1 (by rw [zero_spec.2.2.1]; exact Nat.zero_le _) fun _ => zero_spec.2.2.1
theorem inUnit_one : inUnit nf (one nf) = true :=
  inUnit_of one_spec.1 one_mag.le fun h => by rw [one_spec.2.2] at h; exact absurd h (by decide)

theorem inUnit_mul {x y : NumVal} (hx : inUnit nf x = true) (hy : inUnit nf y = true) : inUnit nf (mul nf x y) = true := by
  obtain ⟨xf, xm, -, xn⟩ := inUnit_parts hx
  obtain ⟨yf, ym, -, yn⟩ := inUnit_parts hy
  obtain ⟨h1, h2, h3⟩ := mul_spec xf yf Rep.unitMag (unitMag_lt_overflow nf) (Nat.mul_le_mul xm ym)
  refine inUnit_of h1 h2 fun hn => ?_
  have hz : x.mag * y.mag = 0 := by
    rw [hn] at h3
    cases hxn : x.isNeg
    · cases hyn : y.isNeg
      · rw [hxn, hyn] at h3; exact absurd h3 (by decide)
      · rw [yn hyn, Nat.mul_zero]
    · rw [xn hxn, Nat.zero_mul]
  exact Nat.le_zero.1 (mul_spec xf yf Rep.zero (over_pos nf) (by simp [hz])).2.1

theorem inUnit_one_sub {x : NumVal} (hx : inUnit nf x = true) : inUnit nf (sub nf (one nf) x) = true := by
  obtain ⟨xf, xm, xs, -⟩ := inUnit_parts hx
  obtain ⟨h1, h2, h3, -⟩ := sub_spec (one_spec (nf := nf)).1 xf Rep.unitMag (unitMag_lt_overflow nf) (by rw [one_sval, xs]; omega)
  exact inUnit_of_sval h1 h2 (h3 (by rw [one_sval, xs]; omega))

/-- A natural number at most a finite one is finite, and no larger. -/
theorem ofNat_mono {c n : Nat} (h : c ≤ n) (hn : (ofNat nf n).finite = true) :
    (ofNat nf c).finite = true ∧ (ofNat nf c).mag ≤ (ofNat nf n).mag := by
  obtain ⟨-, n2, n3, -⟩ := ofUnits_spec nf false (n * unitMag nf) 1
  obtain ⟨-, c2, c3, -⟩ := ofUnits_spec nf false (c * unitMag nf) 1
  have hm : roundMag nf false (c * unitMag nf) 1 ≤ roundMag nf false (n * unitMag nf) 1 :=
    roundMag_mono Nat.one_pos (Nat.mul_le_mul_right _ h)
  have hc := c2.2 (hm.trans_lt (n2.1 hn))
  exact ⟨hc, by rw [ofNat, ofNat, n3 hn, c3 hc]; exact hm⟩

/-- A positive natural number is at least 1.0 when it is finite. -/
theorem unitMag_le_ofNat {n : Nat} (h0 : 0 < n) (hn : (ofNat nf n).finite = true) : unitMag nf ≤ (ofNat nf n).mag := by
  have := (ofNat_mono h0 hn).2
  rwa [show ofNat nf 1 = one nf from rfl, one_mag] at this

theorem ofNat_isNeg (n : Nat) : (ofNat nf n).isNeg = false := (ofUnits_spec nf false (n * unitMag nf) 1).2.2.2

/-- `counter / count` lies in [0, 1] for a counter at most the count, where NUM holds the counts. -/
theorem inUnit_stageRatio {c n : Nat} (hw : (ofNat nf cntMax).finite = true) (hc : c ≤ n) (h0 : 0 < n)
    (hn : n ≤ cntMax) : inUnit nf (stageRatio nf c n) = true := by
  have nfin := (ofNat_mono hn hw).1
  obtain ⟨cfin, hle⟩ := ofNat_mono hc nfin
  have hone := unitMag_le_ofNat h0 nfin
  have hpos := unitMag_pos nf
  obtain ⟨h1, h2, h3⟩ := div_spec cfin nfin (by omega) Rep.unitMag (unitMag_lt_overflow nf)
    (by rw [Nat.mul_comm]; exact Nat.mul_le_mul_left _ hle)
  exact inUnit_of h1 h2 fun hneg => by
    rw [stageRatio, h3, ofNat_isNeg, ofNat_isNeg] at hneg
    exact absurd hneg (by decide)

theorem inUnit_decayLevel {s : NumVal} {c n : Nat} (hw : (ofNat nf cntMax).finite = true) (hs : inUnit nf s = true)
    (hc : c ≤ n) (h0 : 0 < n) (hn : n ≤ cntMax) : inUnit nf (decayLevel nf s c n) = true :=
  inUnit_one_sub (inUnit_mul (inUnit_one_sub hs) (inUnit_stageRatio hw hc h0 hn))

theorem inUnit_releaseLevel {l : NumVal} {c n : Nat} (hw : (ofNat nf cntMax).finite = true) (hl : inUnit nf l = true)
    (hc : c ≤ n) (h0 : 0 < n) (hn : n ≤ cntMax) : inUnit nf (releaseLevel nf l c n) = true :=
  inUnit_mul hl (inUnit_one_sub (inUnit_stageRatio hw hc h0 hn))

/-- A clamp of a finite number goes to [0, 1]. -/
theorem inUnit_clampUnit {x : NumVal} (hx : x.finite = true) : inUnit nf (clampUnit nf x) = true := by
  have hn := isNaN_of_finite hx
  have hmax : NumVal.max zero x = if lt zero x then x else zero := by
    simp [NumVal.max, zero_spec.2.1, hn]
  have hmin : ∀ y : NumVal, y.isNaN = false → NumVal.min (one nf) y = if lt y (one nf) then y else one nf := by
    intro y hy; simp [NumVal.min, (one_spec (nf := nf)).2.1, hy]
  unfold clampUnit
  rw [hmax]
  split_ifs with h
  · rw [hmin x hn]
    split_ifs with h1
    · rw [inUnit_iff]
      rw [lt_iff zero_spec.1 hx, zero_spec.2.2.2.1] at h
      rw [lt_iff hx one_spec.1, one_sval] at h1
      exact ⟨hx, h.le, h1.le⟩
    · exact inUnit_one
  · rw [hmin zero zero_spec.2.1]
    split_ifs
    · exact inUnit_zero
    · exact inUnit_one

/-! ### [0, 1) and the phase -/

theorem phaseInRange_iff (p : NumVal) :
    phaseInRange nf p = true ↔ p.finite = true ∧ 0 ≤ p.sval ∧ p.sval < unitMag nf := by
  simp only [phaseInRange, Bool.and_eq_true]
  constructor
  · rintro ⟨h1, h2⟩
    have hf := finite_of_between zero_spec.1 (one_spec (nf := nf)).1 h1 (le_of_lt h2)
    rw [le_iff zero_spec.1 hf, zero_spec.2.2.2.1] at h1
    rw [lt_iff hf one_spec.1, one_sval] at h2
    exact ⟨hf, h1, h2⟩
  · rintro ⟨hf, h1, h2⟩
    rw [le_iff zero_spec.1 hf, zero_spec.2.2.2.1, lt_iff hf one_spec.1, one_sval]
    exact ⟨h1, h2⟩

theorem inUnit_of_phaseInRange {p : NumVal} (h : phaseInRange nf p = true) : inUnit nf p = true := by
  rw [phaseInRange_iff] at h
  rw [inUnit_iff]
  exact ⟨h.1, h.2.1, h.2.2.le⟩

omit [Fact (nf.ieee = true)] in
/-- A magnitude of the format below 2^e lies at least one step of 2^(e-prec) below it. -/
theorem Rep.le_pred {v e : Nat} (hv : Rep nf v) (he : nf.prec ≤ e) (h : v < 2 ^ e) :
    v + 2 ^ (e - nf.prec) ≤ 2 ^ e := by
  obtain ⟨m, k, hm, rfl⟩ := hv
  have he2 : 2 ^ e = 2 ^ nf.prec * 2 ^ (e - nf.prec) := by rw [← pow_add, Nat.add_sub_of_le he]
  generalize nf.prec = P at *
  rcases Nat.le_total (e - P) k with hk | hk
  · obtain ⟨j, rfl⟩ := Nat.exists_eq_add_of_le hk
    rw [he2, pow_add, ← mul_assoc, mul_right_comm] at h ⊢
    have := Nat.lt_of_mul_lt_mul_right h
    calc m * 2 ^ j * 2 ^ (e - P) + 2 ^ (e - P) = (m * 2 ^ j + 1) * 2 ^ (e - P) := by ring
      _ ≤ 2 ^ P * 2 ^ (e - P) := Nat.mul_le_mul_right _ this
  · have h1 : m * 2 ^ k ≤ m * 2 ^ (e - P) := Nat.mul_le_mul_left _ (Nat.pow_le_pow_right (by norm_num) hk)
    rw [he2]
    calc m * 2 ^ k + 2 ^ (e - P) ≤ m * 2 ^ (e - P) + 2 ^ (e - P) := by omega
      _ = (m + 1) * 2 ^ (e - P) := by ring
      _ ≤ 2 ^ P * 2 ^ (e - P) := Nat.mul_le_mul_right _ hm

/-- The step of NUM just below 1.0, in units. -/
def belowOne (nf : Arith) : Nat := 2 ^ (nf.format.unitBits - nf.prec)

theorem belowOne_pos (nf : Arith) : 0 < belowOne nf := by unfold belowOne; positivity

theorem prec_le_unitBits (nf : Arith) [Fact (nf.ieee = true)] : nf.prec ≤ nf.format.unitBits := by
  have := unitBits_add nf; have := two_le_emax nf; omega

theorem unitMag_eq_belowOne (nf : Arith) [Fact (nf.ieee = true)] : unitMag nf = 2 ^ nf.prec * belowOne nf := by
  have := prec_le_unitBits nf
  rw [unitMag_eq, belowOne, ← pow_add]; congr 1; omega

/-- A phase of NUM below 1.0 lies at least one step below it. -/
theorem phase_mag_le {p : NumVal} (h : phaseInRange nf p = true) (hp : inFmt nf p = true) :
    p.mag + belowOne nf ≤ unitMag nf := by
  obtain ⟨hf, -, hs, -⟩ := inUnit_parts (inUnit_of_phaseInRange h)
  obtain ⟨-, -, h3⟩ := (phaseInRange_iff p).1 h
  have hlt : p.mag < 2 ^ nf.format.unitBits := by rw [← unitMag_eq]; omega
  have := Rep.le_pred (mag_rep hp hf).1 (prec_le_unitBits nf) hlt
  rw [unitMag_eq]; exact this

/-- One advance by an increment in [0, 1) keeps the phase in [0, 1) (41_oscillator.md R91). -/
theorem phaseInRange_advance {p d : NumVal} (hp : phaseInRange nf p = true) (hd : phaseInRange nf d = true)
    (hpn : inFmt nf p = true) (hdn : inFmt nf d = true) : phaseInRange nf (advancePhase nf p d) = true := by
  obtain ⟨pf, -, ps, -⟩ := inUnit_parts (inUnit_of_phaseInRange hp)
  obtain ⟨df, -, ds, -⟩ := inUnit_parts (inUnit_of_phaseInRange hd)
  have hp' := phase_mag_le hp hpn
  have hd' := phase_mag_le hd hdn
  have hgpos := belowOne_pos nf
  have hU := unitMag_eq_belowOne nf
  have h2g : 2 ^ (nf.format.unitBits + 1 - nf.prec) = 2 * belowOne nf := by
    have := prec_le_unitBits nf
    rw [belowOne, show nf.format.unitBits + 1 - nf.prec = nf.format.unitBits - nf.prec + 1 by omega, pow_succ,
      Nat.mul_comm]
  have h2p : 2 ^ nf.prec = 2 * 2 ^ (nf.prec - 1) := by
    have := prec_pos nf
    rw [← pow_succ', show nf.prec - 1 + 1 = nf.prec by omega]
  obtain ⟨g, hg⟩ : ∃ g : Nat, belowOne nf = g := ⟨_, rfl⟩
  rw [hg] at hp' hd' hgpos hU h2g
  have hV : Rep nf (2 * unitMag nf - 2 * g) := by
    have : 2 * unitMag nf - 2 * g = (2 ^ nf.prec - 1) * 2 ^ (nf.format.unitBits + 1 - nf.prec) := by
      rw [h2g, hU, Nat.sub_mul]; ring_nf
    rw [this]; exact Rep.mul_pow (Nat.sub_lt (by positivity) Nat.one_pos)
  have hVlt : 2 * unitMag nf - 2 * g < overflowMag nf := lt_of_le_of_lt (Nat.sub_le _ _) (unitMag_lt_over nf)
  obtain ⟨h1, h2, h3, -⟩ := add_spec pf df hV hVlt (by rw [ps, ds]; omega)
  have h3' := h3 (by rw [ps, ds]; omega)
  have hsm := sval_natAbs (add nf p d)
  unfold advancePhase
  split_ifs with hw
  · rw [le_iff one_spec.1 h1, one_sval] at hw
    have hV' : Rep nf (unitMag nf - 2 * g) := by
      have : unitMag nf - 2 * g = (2 ^ (nf.prec - 1) - 1) * 2 ^ (nf.format.unitBits + 1 - nf.prec) := by
        rw [h2g, hU, h2p, Nat.sub_mul]; ring_nf
      rw [this]
      refine Rep.mul_pow ?_
      have : 0 < 2 ^ (nf.prec - 1) := by positivity
      omega
    obtain ⟨k1, k2, k3, -⟩ := sub_spec h1 (one_spec (nf := nf)).1 hV' (lt_of_le_of_lt (Nat.sub_le _ _) (unitMag_lt_overflow nf))
      (by rw [one_sval]; omega)
    have k3' := k3 (by rw [one_sval]; omega)
    have := sval_natAbs (sub nf (add nf p d) (one nf))
    rw [phaseInRange_iff]
    exact ⟨k1, k3', by omega⟩
  · rw [le_iff one_spec.1 h1, one_sval] at hw
    rw [phaseInRange_iff]
    exact ⟨h1, h3', by omega⟩

/-- A frequency in [0, fs) has an increment in [0, 1) (70_reset_and_hazards.md R159). -/
theorem phaseInRange_delta {f fs : NumVal} (hf : f.finite = true) (hfs : fs.finite = true)
    (hfn : inFmt nf f = true) (hfsn : inFmt nf fs = true) (h0 : 0 ≤ f.sval) (hlt : f.sval < fs.sval) :
    phaseInRange nf (div nf f fs) = true := by
  have hfm : f.sval = f.mag := by have := sval_natAbs f; omega
  have hsm : fs.sval = fs.mag := by have := sval_natAbs fs; omega
  have hneg : fs.isNeg = false := by
    by_contra hc
    rw [Bool.not_eq_false] at hc
    have := sval_of_neg hc
    omega
  have hgpos := belowOne_pos nf
  have hU := unitMag_eq_belowOne nf
  have hV : Rep nf (unitMag nf - belowOne nf) := by
    have : unitMag nf - belowOne nf = (2 ^ nf.prec - 1) * belowOne nf := by rw [hU, Nat.sub_mul, Nat.one_mul]
    rw [this]
    exact Rep.mul_pow (Nat.sub_lt (by positivity) Nat.one_pos)
  -- the gap between two magnitudes of the format
  have hgap : fs.mag ≤ 2 ^ nf.prec * (fs.mag - f.mag) := by
    have hfs0 : fs.mag ≠ 0 := by omega
    have hl1 := Nat.log2_self_le hfs0
    have hl2 := Nat.lt_log2_self (n := fs.mag)
    obtain ⟨e, he⟩ : ∃ e, Nat.log2 fs.mag = e := ⟨_, rfl⟩
    rw [he] at hl1 hl2
    have hfl : f.mag < fs.mag := by omega
    rcases Nat.lt_or_ge e nf.prec with hep | hep
    · have h1 : fs.mag < 2 ^ nf.prec := hl2.trans_le (Nat.pow_le_pow_right (by norm_num) hep)
      exact h1.le.trans (Nat.le_mul_of_pos_right _ (by omega))
    · rcases Nat.lt_or_ge f.mag (2 ^ e) with hfe | hfe
      · have h1 := Rep.le_pred (mag_rep hfn hf).1 hep hfe
        have h3 : 2 ^ e = 2 ^ nf.prec * 2 ^ (e - nf.prec) := by rw [← pow_add, Nat.add_sub_of_le hep]
        -- fs - f is at least fs - 2^e + 2^(e - prec)
        have h4 : fs.mag - 2 ^ e + 2 ^ (e - nf.prec) ≤ fs.mag - f.mag := by omega
        have h5 : fs.mag - 2 ^ e ≤ 2 ^ nf.prec * (fs.mag - 2 ^ e) := Nat.le_mul_of_pos_left _ (by positivity)
        calc fs.mag = fs.mag - 2 ^ e + 2 ^ e := by omega
          _ ≤ 2 ^ nf.prec * (fs.mag - 2 ^ e) + 2 ^ nf.prec * 2 ^ (e - nf.prec) := Nat.add_le_add h5 h3.le
          _ = 2 ^ nf.prec * (fs.mag - 2 ^ e + 2 ^ (e - nf.prec)) := by ring
          _ ≤ _ := Nat.mul_le_mul_left _ h4
      · have hlf : Nat.log2 f.mag = e := (Nat.log2_eq_iff (by have := Nat.two_pow_pos e; omega)).2 ⟨hfe, hfl.trans hl2⟩
        have hdvd : ∀ x : NumVal, Rep nf x.mag → Nat.log2 x.mag = e → 2 ^ (e + 1 - nf.prec) ∣ x.mag := fun x hr hl => by
          have := hr.dvd_of_le le_rfl
          rwa [stepOf_eq, hl] at this
        have hd1 := hdvd fs (mag_rep hfsn hfs).1 he
        have hd2 := hdvd f (mag_rep hfn hf).1 hlf
        have hd3 : 2 ^ (e + 1 - nf.prec) ≤ fs.mag - f.mag := Nat.le_of_dvd (by omega) (Nat.dvd_sub hd1 hd2)
        calc fs.mag ≤ 2 ^ (e + 1) := hl2.le
          _ = 2 ^ nf.prec * 2 ^ (e + 1 - nf.prec) := by
            rw [← pow_add, Nat.add_sub_of_le (by omega)]
          _ ≤ 2 ^ nf.prec * (fs.mag - f.mag) := Nat.mul_le_mul_left (2 ^ nf.prec) hd3
  obtain ⟨h1, h2, h3⟩ := div_spec hf hfs (by omega) hV (lt_of_le_of_lt (Nat.sub_le _ _) (unitMag_lt_overflow nf))
    (by
      have e1 : f.mag * unitMag nf = (f.mag * 2 ^ nf.prec) * belowOne nf := by rw [hU]; ring
      have e2 : (unitMag nf - belowOne nf) * fs.mag = ((2 ^ nf.prec - 1) * fs.mag) * belowOne nf := by
        rw [hU]
        conv_lhs => rw [show 2 ^ nf.prec * belowOne nf - belowOne nf = (2 ^ nf.prec - 1) * belowOne nf by
          rw [Nat.sub_mul, Nat.one_mul]]
        ring
      rw [e1, e2]
      refine Nat.mul_le_mul_right _ ?_
      rw [Nat.sub_mul, Nat.one_mul]
      rw [Nat.mul_sub] at hgap
      have := Nat.mul_le_mul_left (2 ^ nf.prec) (show f.mag ≤ fs.mag by omega)
      rw [Nat.mul_comm f.mag]
      omega)
  rw [phaseInRange_iff]
  refine ⟨h1, ?_⟩
  rw [hneg] at h3
  have hub := unitMag_pos nf
  cases hn : f.isNeg
  · rw [hn] at h3
    rw [sval_of_not_neg (by simpa using h3)]
    omega
  · have hz : f.mag = 0 := by have := sval_of_neg hn; omega
    have := (div_spec hf hfs (by omega) Rep.zero (over_pos nf) (by simp [hz])).2.1
    rw [sval, show (div nf f fs).mag = 0 by omega]
    split <;> simp <;> omega

end Sys2Proof.Machine
end

