-- ==== Sys2Proof/Laws/Table.lean ====
section
/-! SUPPORT. The samples of a generated table lie in [-1, 1], and a sample read from one is finite: bounds on the sine, the harmonic sums, the normalisation and the lookup. -/

namespace Sys2Proof.Machine

open Sys2Proof Sys2Proof.Config NumVal

variable {nf : Arith} [Fact (nf.ieee = true)]

/-- A finite value of magnitude at most `B` units. -/
def Within (B : Nat) (x : NumVal) : Prop := x.finite = true ∧ x.mag ≤ B

theorem Within.of_inUnit {x : NumVal} (h : inUnit nf x = true) : Within (unitMag nf) x := by
  obtain ⟨h1, h2, -⟩ := inUnit_parts h
  exact ⟨h1, h2⟩

theorem Within.zero (B : Nat) : Within B NumVal.zero := ⟨zero_spec.1, by rw [zero_spec.2.2.1]; exact Nat.zero_le _⟩

/-! ### Formats at least as wide as binary32 -/

theorem wide_iff {nf : Arith} : nf.wide = true ↔ nf.ieee = true ∧ 24 ≤ nf.prec ∧ 127 ≤ nf.emax := by simp [Arith.wide]

/-- Multiples of the unit below the overflow of such a format. -/
theorem mul_unitMag_lt (hw : nf.wide = true) {k : Nat} (h : k < 2 ^ 128) : k * unitMag nf < overflowMag nf := by
  obtain ⟨-, -, he⟩ := wide_iff.1 hw
  rw [overflowMag_eq, unitMag_eq]
  calc k * 2 ^ nf.format.unitBits < 2 ^ 128 * 2 ^ nf.format.unitBits := Nat.mul_lt_mul_of_pos_right h (by positivity)
    _ ≤ 2 ^ (nf.format.unitBits + nf.emax + 1) := by
      rw [← pow_add]; exact Nat.pow_le_pow_right (by norm_num) (by omega)

/-- Such a format holds the whole numbers below 2^24. -/
theorem Rep.small (hw : nf.wide = true) {k : Nat} (h : k < 2 ^ 24) : Rep nf (k * NumVal.unitMag nf) :=
  Rep.mul_unitMag (h.trans_le (Nat.pow_le_pow_right (by norm_num) (wide_iff.1 hw).2.1))

/-- Every format holds the powers of two its range holds. -/
theorem Rep.two_pow (nf : Arith) [Fact (nf.ieee = true)] (j : Nat) : Rep nf (2 ^ j * NumVal.unitMag nf) := by
  rw [unitMag_eq, ← pow_add]
  exact Rep.pow _

/-- The finest step of such a format is far below 1.0. -/
theorem unitBits_of_wide (hw : nf.wide = true) : 149 ≤ nf.format.unitBits := by
  have := wide_iff.1 hw; have := unitBits_add nf; omega

/-- A whole number below 2^24 is converted exactly. -/
theorem ofNat_small (hw : nf.wide = true) {n : Nat} (h : n < 2 ^ 24) :
    (ofNat nf n).finite = true ∧ (ofNat nf n).mag = n * unitMag nf ∧ (ofNat nf n).isNeg = false := by
  obtain ⟨-, h1, h2⟩ := wide_iff.1 hw
  exact ofNat_spec (h.trans_le (Nat.pow_le_pow_right (by norm_num) h1))
    (h.trans_le (Nat.pow_le_pow_right (by norm_num) (by omega)))

/-- The counts of the envelope are finite in such a format. -/
theorem ofNat_cntMax_finite (hw : nf.wide = true) : (ofNat nf cntMax).finite = true := by
  have hr : Rep nf (2 ^ 32 * unitMag nf) := Rep.two_pow nf 32
  exact (ofUnits_mag_le (neg := false) Nat.one_pos hr (mul_unitMag_lt hw (by norm_num))
    (by rw [Nat.mul_one]; exact Nat.mul_le_mul_right _ (by decide))).2.1

/-- The product of two bounded values, the bounds whole numbers. -/
theorem Within.mul (hw : nf.wide = true) {x y : NumVal} {a b c : Nat} (hx : Within (a * unitMag nf) x)
    (hy : Within (b * unitMag nf) y) (hab : a * b ≤ c) (hc : Rep nf (c * unitMag nf)) (hlt : c < 2 ^ 128) :
    Within (c * unitMag nf) (mul nf x y) := by
  have h : x.mag * y.mag ≤ c * unitMag nf * unitMag nf := by
    calc x.mag * y.mag ≤ (a * unitMag nf) * (b * unitMag nf) := Nat.mul_le_mul hx.2 hy.2
      _ = (a * b) * (unitMag nf * unitMag nf) := by ring
      _ ≤ c * (unitMag nf * unitMag nf) := Nat.mul_le_mul_right _ hab
      _ = c * unitMag nf * unitMag nf := by ring
  obtain ⟨h1, h2, -⟩ := mul_spec hx.1 hy.1 hc (mul_unitMag_lt hw hlt) h
  exact ⟨h1, h2⟩

/-- The quotient of a bounded value by one of at least 1. -/
theorem Within.div (hw : nf.wide = true) {x y : NumVal} {a : Nat} (hx : Within (a * unitMag nf) x)
    (hyf : y.finite = true) (hy : unitMag nf ≤ y.mag) (hc : Rep nf (a * unitMag nf)) (hlt : a < 2 ^ 128) :
    Within (a * unitMag nf) (div nf x y) := by
  have hpos := unitMag_pos nf
  have h : x.mag * unitMag nf ≤ a * unitMag nf * y.mag := Nat.mul_le_mul hx.2 hy
  obtain ⟨h1, h2, -⟩ := div_spec hx.1 hyf (by omega) hc (mul_unitMag_lt hw hlt) h
  exact ⟨h1, h2⟩

theorem natAbs_add_le {x y : NumVal} : (x.sval + y.sval).natAbs ≤ x.mag + y.mag := by
  have h1 := sval_natAbs x
  have h2 := sval_natAbs y
  omega

theorem Within.add (hw : nf.wide = true) {x y : NumVal} {a b c : Nat} (hx : Within (a * unitMag nf) x)
    (hy : Within (b * unitMag nf) y) (hab : a + b = c) (hc : Rep nf (c * unitMag nf)) (hlt : c < 2 ^ 128) :
    Within (c * unitMag nf) (add nf x y) := by
  have h : (x.sval + y.sval).natAbs ≤ c * unitMag nf := by
    refine natAbs_add_le.trans ?_
    rw [← hab, Nat.add_mul]
    exact Nat.add_le_add hx.2 hy.2
  obtain ⟨h1, h2, -⟩ := add_spec hx.1 hy.1 hc (mul_unitMag_lt hw hlt) h
  exact ⟨h1, h2⟩

theorem Within.neg {x : NumVal} {B : Nat} (hx : Within B x) : Within B (neg x) := by
  obtain ⟨h1, -, h3, -⟩ := neg_spec (isNaN_of_finite hx.1)
  exact ⟨h1.trans hx.1, h3.trans_le hx.2⟩

theorem Within.sub (hw : nf.wide = true) {x y : NumVal} {a b c : Nat} (hx : Within (a * unitMag nf) x)
    (hy : Within (b * unitMag nf) y) (hab : a + b = c) (hc : Rep nf (c * unitMag nf)) (hlt : c < 2 ^ 128) :
    Within (c * unitMag nf) (sub nf x y) := by
  rw [sub_eq_add_neg]
  exact Within.add hw hx hy.neg hab hc hlt

/-! ### The sine lies in [-1, 1] -/

theorem altSeries_le (b z fuel k t : Nat) : altSeries b z fuel k t ≤ t := by
  cases fuel with
  | zero => exact Nat.zero_le _
  | succ fuel =>
    rw [altSeries]
    split_ifs
    · exact Nat.zero_le _
    · exact Nat.sub_le _ _

theorem arccotSeries_le (c fuel k t : Nat) : arccotSeries c fuel k t ≤ t := by
  cases fuel with
  | zero => exact Nat.zero_le _
  | succ fuel =>
    rw [arccotSeries]
    split_ifs
    · exact Nat.zero_le _
    · exact (Nat.sub_le _ _).trans (Nat.div_le_self _ _)

/-- The inverse cotangent of 5, as computed, is at most its first term and at least that term less a twenty-fifth. -/
theorem arccotSeries_five (fuel t : Nat) :
    arccotSeries 5 (fuel + 1) 1 t ≤ t ∧ t ≤ arccotSeries 5 (fuel + 1) 1 t + t / 25 := by
  refine ⟨arccotSeries_le _ _ _ _, ?_⟩
  have := arccotSeries_le 5 fuel 3 (t / (5 * 5))
  rw [arccotSeries, Nat.div_one, show 1 + 2 = 3 from rfl]
  split_ifs <;> omega

/-- The computed pi lies between 0 and 4. -/
theorem piScaled_bounds (b : Nat) : 0 < piScaled b ∧ piScaled b < 2 ^ (b + 2) := by
  unfold piScaled
  split_ifs with h
  · rw [Nat.shiftRight_eq_div_pow, Nat.div_lt_iff_lt_mul (by positivity), ← pow_add,
      show b + 2 + (1400 - b) = 1402 by omega]
    have h1 : piLong < 1 <<< 1402 ∧ 1 <<< 1400 ≤ piLong := by decide +kernel
    rw [Nat.one_shiftLeft, Nat.one_shiftLeft] at h1
    exact ⟨Nat.div_pos ((Nat.pow_le_pow_right (by norm_num) (by omega)).trans h1.2) (by positivity), h1.1⟩
  · rw [Nat.shiftRight_eq_div_pow, Nat.div_lt_iff_lt_mul (by positivity), ← pow_add, Nat.one_shiftLeft]
    obtain ⟨h1, h2⟩ : arccotSeries 5 (b + 64) 1 (2 ^ (b + 64) / 5) ≤ 2 ^ (b + 64) / 5 ∧
        2 ^ (b + 64) / 5 ≤ arccotSeries 5 (b + 64) 1 (2 ^ (b + 64) / 5) + 2 ^ (b + 64) / 5 / 25 :=
      arccotSeries_five (b + 63) (2 ^ (b + 64) / 5)
    have h3 := arccotSeries_le 239 (b + 64) 1 (2 ^ (b + 64) / 239)
    have h4 : 2 ^ (b + 2 + 64) = 4 * 2 ^ (b + 64) := by rw [show b + 2 + 64 = 2 + (b + 64) by omega, pow_add]; norm_num
    have h5 : 2 ^ 64 * 2 ^ 10 ≤ 2 ^ (b + 64) := by
      rw [← pow_add]; exact Nat.pow_le_pow_right (by norm_num) (by omega)
    rw [h4]
    generalize 2 ^ (b + 64) = a at *
    exact ⟨Nat.div_pos (by omega) (by norm_num), by omega⟩

omit [Fact (nf.ieee = true)] in
theorem centreDistance_le (m : Nat) : centreDistance nf m ≤ 1 <<< sinBits nf := by
  have hb : angleBits nf + 1 - sinBits nf + sinBits nf = angleBits nf + 1 := by unfold angleBits; omega
  unfold centreDistance belowCentre quadrant
  obtain ⟨hpos, hlt⟩ := piScaled_bounds (angleBits nf)
  generalize piScaled (angleBits nf) = P at *
  generalize twiceAngle nf m = a
  rw [Nat.shiftRight_eq_div_pow, Nat.one_shiftLeft]
  refine Nat.div_le_of_le_mul ?_
  have h1 : 2 * P * ((2 * a + P) / (2 * P)) ≤ 2 * a + P := Nat.mul_div_le _ _
  have h2 : 2 * a + P < 2 * P * ((2 * a + P) / (2 * P) + 1) := Nat.lt_mul_div_succ _ (by omega)
  generalize (2 * a + P) / (2 * P) = q at *
  have e1 : 2 * P * q = 2 * (q * P) := by ring
  have e2 : 2 * P * (q + 1) = 2 * (q * P) + 2 * P := by ring
  rw [e1] at h1
  rw [e2] at h2
  generalize q * P = b at *
  rw [← pow_add, hb]
  rw [pow_succ] at hlt
  generalize 2 ^ (angleBits nf + 1) = c at *
  split_ifs <;> omega

omit [Fact (nf.ieee = true)] in
theorem sinFixed_le (m : Nat) : (sinFixed nf m).2 ≤ 1 <<< sinBits nf := by
  unfold sinFixed sinSmall cosSmall
  split
  · exact (altSeries_le _ _ _ _ _).trans (centreDistance_le m)
  · exact altSeries_le _ _ _ _ _
  · exact (altSeries_le _ _ _ _ _).trans (centreDistance_le m)
  · exact altSeries_le _ _ _ _ _

theorem Within.sin {x : NumVal} (hx : x.finite = true) : Within (1 * unitMag nf) (sin nf x) := by
  rw [Nat.one_mul]
  unfold NumVal.sin
  rw [hx, computesFunctions_eq]
  simp only [Bool.not_true, Bool.false_eq_true, if_false]
  split_ifs with h
  · have hm : x.mag ≤ unitMag nf := by
      simp only [sineIsArgument, Bool.and_eq_true, decide_eq_true_eq] at h
      exact h.2.le.trans (Nat.shiftRight_le _ _)
    obtain ⟨h1, h2, -⟩ := ofUnits_mag_le (nf := nf) (neg := x.isNeg) (n := 4 * x.mag - 1) (d := 4) (by norm_num)
      Rep.unitMag (unitMag_lt_overflow nf) (by omega)
    exact ⟨h2, h1⟩
  · have hs := sinFixed_le (nf := nf) x.mag
    obtain ⟨h1, h2, -⟩ := ofUnits_mag_le (nf := nf) (neg := x.isNeg != (sinFixed nf x.mag).1)
      (n := (sinFixed nf x.mag).2 * unitMag nf) (d := 1 <<< sinBits nf) (by rw [Nat.one_shiftLeft]; positivity)
      Rep.unitMag (unitMag_lt_overflow nf) (by rw [Nat.mul_comm (unitMag nf)]; exact Nat.mul_le_mul_right _ hs)
    exact ⟨h2, h1⟩

/-! ### The terms and sums of a table -/

theorem Within.ofNat (hw : nf.wide = true) {n : Nat} (h : n < 2 ^ 24) : Within (n * unitMag nf) (ofNat nf n) :=
  ⟨(ofNat_small hw h).1, (ofNat_small hw h).2.1.le⟩

/-- A number at most a power of two stays so when it is converted. -/
theorem Within.ofNat_pow (hw : nf.wide = true) {n j : Nat} (h : n ≤ 2 ^ j) (hj : j < 128) :
    Within (2 ^ j * unitMag nf) (NumVal.ofNat nf n) := by
  obtain ⟨h1, h2, -⟩ := ofUnits_mag_le (nf := nf) (neg := false) (n := n * unitMag nf) Nat.one_pos (Rep.two_pow nf j)
    (mul_unitMag_lt hw (Nat.pow_lt_pow_right (by norm_num) hj)) (by rw [Nat.mul_one]; exact Nat.mul_le_mul_right _ h)
  exact ⟨h2, h1⟩

/-- NUM's pi lies in [0, 4] (00_scope.md R13). -/
theorem pi_spec (hw : nf.wide = true) : Within (4 * unitMag nf) (NumVal.pi nf) ∧ (NumVal.pi nf).isNeg = false := by
  have hd : 0 < 1 <<< angleBits nf := by rw [Nat.one_shiftLeft]; positivity
  obtain ⟨h1, h2, -⟩ := ofUnits_mag_le (nf := nf) (neg := false) (n := piScaled (angleBits nf) * unitMag nf) hd
    (Rep.small hw (k := 4) (by norm_num)) (mul_unitMag_lt hw (by norm_num)) (by
      have := (piScaled_bounds (angleBits nf)).2
      rw [Nat.one_shiftLeft, Nat.mul_right_comm]
      refine Nat.mul_le_mul_right _ (this.le.trans_eq ?_)
      rw [pow_add, Nat.mul_comm]; norm_num)
  exact ⟨⟨h2, h1⟩, (ofUnits_spec nf false _ _).2.2.2⟩

theorem within_twoPi (hw : nf.wide = true) :
    Within (8 * unitMag nf) (NumVal.mul nf (NumVal.ofNat nf 2) (NumVal.pi nf)) :=
  Within.mul hw (a := 2) (b := 4) (Within.ofNat hw (by norm_num)) (pi_spec hw).1 (by norm_num)
    (Rep.small hw (by norm_num)) (by norm_num)

theorem within_twoPi_mul (hw : nf.wide = true) {k : Nat} (hk : k < 2 ^ 20) : Within (2 ^ 23 * unitMag nf)
    (NumVal.mul nf (NumVal.mul nf (NumVal.ofNat nf 2) (NumVal.pi nf)) (NumVal.ofNat nf k)) :=
  Within.mul hw (within_twoPi hw) (Within.ofNat hw (by omega)) (by omega) (Rep.two_pow nf _) (by norm_num)

/-- A phase argument is finite for a harmonic below 2^20 and a table length below 2^53. -/
theorem phaseArg_finite (hw : nf.wide = true) {k n len : Nat} (hk : k < 2 ^ 20) (hn : n < len) (hlen : len < 2 ^ 53) :
    (phaseArg nf k n len).finite = true := by
  have h2 : Within (2 ^ 76 * unitMag nf)
      (NumVal.mul nf (NumVal.mul nf (NumVal.mul nf (NumVal.ofNat nf 2) (NumVal.pi nf)) (NumVal.ofNat nf k)) (NumVal.ofNat nf n)) :=
    Within.mul hw (within_twoPi_mul hw hk) (Within.ofNat_pow hw (j := 53) (by omega) (by norm_num)) (by norm_num)
      (Rep.two_pow nf _) (by norm_num)
  exact (Within.div hw h2 (Within.ofNat_pow hw (j := 53) hlen.le (by norm_num)).1
    (unitMag_le_ofNat (by omega) (Within.ofNat_pow hw (j := 53) hlen.le (by norm_num)).1)
    (Rep.two_pow nf _) (by norm_num)).1

theorem within_sawTerm (hw : nf.wide = true) {n len j : Nat} (hj : j < 128) (hn : n < len) (hlen : len < 2 ^ 53) :
    Within (1 * unitMag nf) (sawTerm nf n len j) :=
  Within.div hw (Within.sin (phaseArg_finite hw (by omega) hn hlen)) (ofNat_small hw (by omega)).1
    (unitMag_le_ofNat (by omega) (ofNat_small hw (by omega)).1) (Rep.small hw (by norm_num)) (by norm_num)

theorem within_squareTerm (hw : nf.wide = true) {n len j : Nat} (hj : j < 128) (hn : n < len) (hlen : len < 2 ^ 53) :
    Within (1 * unitMag nf) (squareTerm nf n len j) :=
  Within.div hw (Within.sin (phaseArg_finite hw (by omega) hn hlen)) (ofNat_small hw (by omega)).1
    (unitMag_le_ofNat (by omega) (ofNat_small hw (by omega)).1) (Rep.small hw (by norm_num)) (by norm_num)

/-- The sign of a Triangle term is 1 or -1 (40_wavetable_rom.md R75). -/
theorem sign_spec (nf : Arith) [Fact (nf.ieee = true)] (m : Nat) :
    (NumVal.ofInt nf ((-1) ^ m)).finite = true ∧ (NumVal.ofInt nf ((-1) ^ m)).mag = unitMag nf := by
  have ha : ((-1 : Int) ^ m).natAbs = 1 := by rw [Int.natAbs_pow]; simp
  have := ofUnits_rep (nf := nf) (neg := decide ((-1 : Int) ^ m < 0)) Nat.one_pos Rep.unitMag (unitMag_lt_overflow nf)
  rw [Nat.mul_one] at this
  rw [NumVal.ofInt, ha, Nat.one_mul, this]
  exact ⟨rfl, rfl⟩

theorem within_sign (m : Nat) : Within (1 * unitMag nf) (NumVal.ofInt nf ((-1) ^ m)) := by
  obtain ⟨h1, h2⟩ := sign_spec nf m
  exact ⟨h1, by rw [h2, Nat.one_mul]⟩

theorem within_triangleTerm (hw : nf.wide = true) {n len m : Nat} (hm : m < 128) (hn : n < len) (hlen : len < 2 ^ 53) :
    Within (1 * unitMag nf) (triangleTerm nf n len m) := by
  have hk : (2 * m + 1) * (2 * m + 1) ≤ 255 * 255 := Nat.mul_le_mul (by omega) (by omega)
  refine Within.div hw (Within.mul hw (within_sign m) (Within.sin (phaseArg_finite hw (by omega) hn hlen)) (by norm_num)
    (Rep.small hw (by norm_num)) (by norm_num)) (ofNat_small hw (by omega)).1
    (unitMag_le_ofNat (Nat.mul_pos (by omega) (by omega)) (ofNat_small hw (by omega)).1) (Rep.small hw (by norm_num)) (by norm_num)

theorem within_sumTerms (hw : nf.wide = true) {term : Nat → NumVal} {count : Nat} (hc : count ≤ 128)
    (h : ∀ j < count, Within (1 * unitMag nf) (term j)) : Within (count * unitMag nf) (sumTerms nf term count) := by
  induction count with
  | zero => exact Within.zero _
  | succ count ih =>
    exact Within.add hw (ih (by omega) fun j hj => h j (by omega)) (h count (by omega)) rfl
      (Rep.small hw (by omega)) (by omega)

omit [Fact (nf.ieee = true)] in
theorem Within.mono {x : NumVal} {a b : Nat} (hx : Within (a * unitMag nf) x) (h : a ≤ b) : Within (b * unitMag nf) x :=
  ⟨hx.1, hx.2.trans (Nat.mul_le_mul_right _ h)⟩

/-- A raw sample of a table of at most 128 harmonics is finite. -/
theorem within_rawSample (hw : nf.wide = true) (f : Family) {len harmonics n : Nat} (hh : harmonics ≤ 128) (hn : n < len)
    (hlen : len < 2 ^ 53) : Within (128 * unitMag nf) (rawSample nf f len harmonics n) := by
  cases f with
  | sine => exact (Within.sin (phaseArg_finite hw (by omega) hn hlen)).mono (by norm_num)
  | saw => exact (within_sumTerms hw hh fun j hj => within_sawTerm hw (by omega) hn hlen).mono hh
  | square => exact (within_sumTerms hw hh fun j hj => within_squareTerm hw (by omega) hn hlen).mono hh
  | triangle => exact (within_sumTerms hw hh fun j hj => within_triangleTerm hw (by omega) hn hlen).mono hh

/-- The peak of finite samples is a number at least as large as each of them. -/
theorem peak_spec {raw : Nat → NumVal} {count : Nat} (h : ∀ j < count, (raw j).finite = true) :
    (peak raw count).finite = true ∧ (peak raw count).isNeg = false ∧
      ∀ j < count, (raw j).mag ≤ (peak raw count).mag := by
  induction count with
  | zero => exact ⟨zero_spec.1, zero_spec.2.2.2.2, fun j hj => absurd hj (Nat.not_lt_zero j)⟩
  | succ count ih =>
    obtain ⟨h1, h2, h3⟩ := ih fun j hj => h j (by omega)
    obtain ⟨a1, a2, a3, a4⟩ := abs_spec (isNaN_of_finite (h count (by omega)))
    have hmax : peak raw (count + 1) =
        if NumVal.lt (peak raw count) (NumVal.abs (raw count)) then NumVal.abs (raw count) else peak raw count := by
      simp [peak, NumVal.max, isNaN_of_finite h1, a2]
    have hlt : NumVal.lt (peak raw count) (NumVal.abs (raw count)) = true ↔ (peak raw count).mag < (raw count).mag := by
      rw [lt_iff h1 (a1.trans (h count (by omega))), sval_of_not_neg h2, sval_of_not_neg a4, a3]
      exact Int.ofNat_lt
    rw [hmax]
    split_ifs with hc
    · refine ⟨a1.trans (h count (by omega)), a4, fun j hj => ?_⟩
      have := hlt.1 hc
      rw [a3]
      rcases Nat.lt_succ_iff_lt_or_eq.1 hj with hj | rfl
      · exact (h3 j hj).trans this.le
      · exact le_rfl
    · refine ⟨h1, h2, fun j hj => ?_⟩
      rcases Nat.lt_succ_iff_lt_or_eq.1 hj with hj | rfl
      · exact h3 j hj
      · exact Nat.not_lt.1 fun hlt' => hc (hlt.2 hlt')

/-- A sample divided by the peak of its table lies in [-1, 1]. -/
theorem within_normalise (hw : nf.wide = true) {raw m : NumVal} (hr : raw.finite = true) (hm : m.finite = true)
    (hle : raw.mag ≤ m.mag) :
    Within (1 * unitMag nf) (normalise nf raw m) := by
  unfold normalise
  split_ifs with h
  · have hpos : m.mag ≠ 0 := by
      rw [lt_iff zero_spec.1 hm, zero_spec.2.2.2.1] at h
      have := sval_natAbs m
      omega
    obtain ⟨h1, h2, -⟩ := div_spec hr hm hpos Rep.unitMag (unitMag_lt_overflow nf)
      (by rw [Nat.mul_comm]; exact Nat.mul_le_mul_left _ hle)
    exact Within.mul hw (a := 1) (b := 1) ⟨h1, by rw [Nat.one_mul]; exact h2⟩
      ⟨one_spec.1, by rw [Nat.one_mul]; exact one_mag.le⟩ (by norm_num) (Rep.small hw (by norm_num)) (by norm_num)
  · exact Within.zero _

/-- Every sample of a table of at most 128 harmonics lies in [-1, 1] (40_wavetable_rom.md R81 item 1). -/
theorem within_waveSample (hw : nf.wide = true) (f : Family) {w : WaveBin} {n : Nat} (hh : w.harmonics ≤ 128) (hn : n < w.len)
    (hlen : w.len < 2 ^ 53) : Within (1 * unitMag nf) (waveSample nf f w n) := by
  obtain ⟨h1, -, h3⟩ := peak_spec (raw := rawSample nf f w.len w.harmonics) (count := w.len) fun j hj =>
    (within_rawSample hw f hh hj hlen).1
  exact within_normalise hw (within_rawSample hw f hh hn hlen).1 h1 (h3 n hn)

/-! ### The lookup -/

omit [Fact (nf.ieee = true)] in
theorem ofInt_natCast (i : Nat) : NumVal.ofInt nf (i : Int) = NumVal.ofNat nf i := by
  have h : ¬ (i : Int) < 0 := by omega
  simp [NumVal.ofInt, NumVal.ofNat, h]

/-- The whole part of a magnitude of the format is one of the format's numbers: its conversion is exact. -/
theorem ofNat_floor {p : Nat} (hp : Rep nf p) (ho : p < overflowMag nf) :
    NumVal.ofNat nf (p / unitMag nf) = .fin false (p / unitMag nf * unitMag nf) := by
  have hr : Rep nf (p / unitMag nf * unitMag nf) := by
    obtain ⟨m, k, hm, rfl⟩ := hp
    rw [unitMag_eq]
    rcases Nat.le_total nf.format.unitBits k with h | h
    · rw [Nat.div_mul_cancel (Dvd.dvd.mul_left (pow_dvd_pow 2 h) m)]
      exact Rep.mul_pow hm
    · refine Rep.mul_pow (lt_of_le_of_lt ?_ hm)
      refine Nat.div_le_of_le_mul ?_
      rw [Nat.mul_comm]
      exact Nat.mul_le_mul_right _ (Nat.pow_le_pow_right (by norm_num) h)
  have := ofUnits_rep (neg := false) Nat.one_pos hr ((Nat.div_mul_le_self _ _).trans_lt ho)
  rwa [Nat.mul_one] at this

/-- The fractional part of a position in a table lies in [0, 1]. -/
theorem lookup_fraction (hw : nf.wide = true) {p : NumVal} {len : Nat} (hp : inUnit nf p = true) (hlen : len < 2 ^ 53) :
    inUnit nf (NumVal.sub nf (NumVal.mul nf p (NumVal.ofNat nf len))
      (NumVal.ofInt nf (NumVal.floor nf (NumVal.mul nf p (NumVal.ofNat nf len))))) = true := by
  obtain ⟨pf, pm, ps, pn⟩ := inUnit_parts hp
  obtain ⟨lf, lm⟩ := Within.ofNat_pow hw (n := len) (j := 53) hlen.le (by norm_num)
  obtain ⟨q1, q2, q3⟩ := mul_spec pf lf (Rep.two_pow nf 53) (mul_unitMag_lt hw (by norm_num))
    (by rw [Nat.mul_comm]; exact Nat.mul_le_mul lm pm)
  have qn := inFmt_mul (nf := nf) p (NumVal.ofNat nf len)
  have hs : (NumVal.mul nf p (NumVal.ofNat nf len)).sval = (NumVal.mul nf p (NumVal.ofNat nf len)).mag := by
    cases hn : (NumVal.mul nf p (NumVal.ofNat nf len)).isNeg
    · exact sval_of_not_neg hn
    · have hpn : p.isNeg = true := by rw [hn, ofNat_isNeg] at q3; simpa using q3.symm
      have hz : (NumVal.mul nf p (NumVal.ofNat nf len)).mag ≤ 0 :=
        (mul_spec pf lf Rep.zero (over_pos nf) (by rw [pn hpn]; simp)).2.1
      rw [sval_of_neg hn]
      omega
  generalize NumVal.mul nf p (NumVal.ofNat nf len) = pos at *
  have hfl : NumVal.floor nf pos = ((pos.mag / unitMag nf : Nat) : Int) := by
    rw [NumVal.floor, if_pos q1, hs, Int.natCast_ediv]
  obtain ⟨hrep, hov⟩ := mag_rep qn q1
  have he := ofNat_floor hrep hov
  rw [hfl, ofInt_natCast, he]
  have hm1 := Nat.div_mul_le_self pos.mag (unitMag nf)
  have hm2 := Nat.lt_mul_div_succ pos.mag (unitMag_pos nf)
  have hm3 : unitMag nf * (pos.mag / unitMag nf + 1) = pos.mag / unitMag nf * unitMag nf + unitMag nf := by ring
  rw [hm3] at hm2
  have his : (NumVal.fin false (pos.mag / unitMag nf * unitMag nf)).sval =
      ((pos.mag / unitMag nf * unitMag nf : Nat) : Int) := sval_of_not_neg rfl
  obtain ⟨g1, g2, g3, -⟩ := sub_spec (y := .fin false (pos.mag / unitMag nf * unitMag nf)) q1 rfl Rep.unitMag
    (unitMag_lt_overflow nf) (by
    rw [hs, his]
    generalize unitMag nf = U at hm1 hm2 ⊢
    generalize pos.mag / U * U = b at hm1 hm2 ⊢
    omega)
  exact inUnit_of_sval g1 g2 (g3 (by
    rw [hs, his]
    generalize unitMag nf = U at hm1 hm2 ⊢
    generalize pos.mag / U * U = b at hm1 hm2 ⊢
    omega))

omit [Fact (nf.ieee = true)] in
/-- The index of a position that is not negative is the rule's (41_oscillator.md R87). -/
theorem tableIndex_of_nonneg {i : Int} (h : 0 ≤ i) (len : Nat) : tableIndex i len = i.toNat % len := by
  rw [tableIndex, if_pos h]

omit [Fact (nf.ieee = true)] in
/-- Every index is one of the table's. -/
theorem tableIndex_lt (i : Int) {len : Nat} (h : 0 < len) : tableIndex i len < len := Nat.mod_lt _ h

/-- A lookup in a table whose samples lie in [-1, 1] is finite. -/
theorem within_lookup (hw : nf.wide = true) {t : Nat → NumVal} {len : Nat} {p : NumVal}
    (ht : ∀ n < len, Within (1 * unitMag nf) (t n)) (h0 : 0 < len) (hlen : len < 2 ^ 53) (hp : inUnit nf p = true) :
    Within (3 * unitMag nf) (lookup nf t len p) := by
  have hfr := Within.of_inUnit (lookup_fraction hw hp hlen)
  rw [← Nat.one_mul (unitMag nf)] at hfr
  have hi := ht _ (tableIndex_lt (NumVal.floor nf (NumVal.mul nf p (NumVal.ofNat nf len))) h0)
  refine Within.add hw hi (b := 2) ?_ rfl (Rep.small hw (by norm_num)) (by norm_num)
  exact Within.mul hw hfr (Within.sub hw (ht _ (Nat.mod_lt _ h0)) hi rfl
    (Rep.small hw (by norm_num)) (by norm_num)) (by norm_num) (Rep.small hw (by norm_num)) (by norm_num)

/-- A sample of a bin at a phase in [0, 1) is finite. -/
theorem within_tableSample (hw : nf.wide = true) (f : Family) {w : WaveBin} {p : NumVal} (hh : w.harmonics ≤ 128)
    (hlen : w.len < 2 ^ 53) (hp : inUnit nf p = true) : Within (3 * unitMag nf) (tableSample nf f w p) := by
  unfold tableSample
  split_ifs with h
  · exact Within.zero _
  · exact within_lookup hw (fun n hn => within_waveSample hw f hh hn hlen) (Nat.pos_of_ne_zero h) hlen hp

/-! ### The generated tables -/

omit [Fact (nf.ieee = true)] in
theorem harmonicCount_le (fs F : NumVal) : harmonicCount nf fs F ≤ 128 := by
  unfold harmonicCount kmax
  refine (Nat.min_le_left _ _).trans ?_
  split_ifs <;> decide

omit [Fact (nf.ieee = true)] in
/-- The length of a finite quotient that does not round below 0 is the rule's (40_wavetable_rom.md R72). -/
theorem lengthOf_eq {q : NumVal} (hf : q.finite = true) (h : 0 ≤ NumVal.round nf q) :
    lengthOf nf q = (NumVal.round nf q).toNat := by
  rw [lengthOf, hf, decide_eq_true h]; rfl

omit [Fact (nf.ieee = true)] in
/-- A number that is not negative does not round below 0. -/
theorem round_nonneg {q : NumVal} (hf : q.finite = true) (h : q.isNeg = false) : 0 ≤ NumVal.round nf q := by
  rw [fin_of_finite hf, h, NumVal.round, if_neg (by decide)]; exact Int.natCast_nonneg _

/-- "`N_b >= 0` because `fs > 0` and `F > 0`" (40_wavetable_rom.md R72), for a centre frequency of at least 1 Hz. -/
theorem quotient_nonneg {fs F : NumVal} (hi : inFmt nf fs = true) (hf : fs.finite = true) (hn : fs.isNeg = false)
    (hF : F.finite = true) (hFn : F.isNeg = false) (hFm : unitMag nf ≤ F.mag) :
    (NumVal.div nf fs F).finite = true ∧ 0 ≤ NumVal.round nf (NumVal.div nf fs F) := by
  obtain ⟨hr, hlt⟩ := mag_rep hi hf
  have h0 : F.mag ≠ 0 := by have := unitMag_pos nf; omega
  obtain ⟨h1, -, h3⟩ := div_spec hf hF h0 hr hlt (Nat.mul_le_mul_left _ hFm)
  exact ⟨h1, round_nonneg h1 (by rw [h3, hn, hFn]; rfl)⟩

/-- A table at a rate of at most 2^52 Hz and a centre frequency of at least 1 Hz has fewer than 2^53 samples. -/
theorem tableLength_lt (hw : nf.wide = true) {fs F : NumVal} (hfs : Within (2 ^ 52 * unitMag nf) fs)
    (hn : fs.isNeg = false) (hF : F.finite = true) (hFn : F.isNeg = false) (hFm : unitMag nf ≤ F.mag) :
    tableLength nf fs F < 2 ^ 53 := by
  obtain ⟨hf, h⟩ := Within.div hw hfs hF hFm (Rep.two_pow nf 52) (by norm_num)
  have hpos := unitMag_pos nf
  have hr : (2 * (NumVal.div nf fs F).mag + unitMag nf) / (2 * unitMag nf) < 2 ^ 53 := by
    rw [Nat.div_lt_iff_lt_mul (by omega)]
    generalize (NumVal.div nf fs F).mag = a at *
    generalize unitMag nf = U at *
    omega
  have h0 : F.mag ≠ 0 := by omega
  have hs : (NumVal.div nf fs F).isNeg = false := by
    rw [div_finite_eq hfs.1 hF h0, (ofUnits_spec nf _ _ _).2.2.2, hn, hFn]; rfl
  rw [tableLength, lengthOf_eq hf (round_nonneg hf hs), fin_of_finite hf, hs, NumVal.round, if_neg (by decide),
    Int.toNat_natCast]
  exact hr

/-! ### Sample 0 (40_wavetable_rom.md R81) -/

theorem ofNat_zero : NumVal.ofNat nf 0 = NumVal.zero := by
  rw [NumVal.ofNat, Nat.zero_mul]; exact ofUnits_zero Nat.one_pos

/-- A positive whole number is a positive number or an infinity. -/
theorem ofNat_pos_parts (n : Nat) (hn : 0 < n) : (NumVal.ofNat nf n).isNaN = false ∧
    (NumVal.ofNat nf n).isNeg = false ∧ (NumVal.ofNat nf n).isZero = false := by
  obtain ⟨a, -, -, c⟩ := ofUnits_spec nf false (n * unitMag nf) 1
  refine ⟨a, c, ?_⟩
  cases hf : (NumVal.ofNat nf n).finite
  · cases hx : NumVal.ofNat nf n <;> simp_all [isZero, finite]
  · have := unitMag_le_ofNat hn hf
    have := unitMag_pos nf
    exact isZero_of_mag (by omega)

theorem zero_div_eq {y : NumVal} (h1 : y.isNaN = false) (h2 : y.isNeg = false) (h3 : y.isZero = false) :
    NumVal.div nf NumVal.zero y = NumVal.zero := by
  cases y with
  | nan => simp [isNaN] at h1
  | inf n =>
    have hn : n = false := h2
    rw [hn, NumVal.div, isOther_eq]; rfl
  | fin n m =>
    have hm : m ≠ 0 := by simpa [isZero] using h3
    have hn : n = false := h2
    rw [div_finite_eq (y := .fin n m) zero_spec.1 rfl hm, zero_spec.2.2.1, Nat.zero_mul]
    exact (ofUnits_zero (Nat.pos_of_ne_zero hm)).trans (by rw [hn]; rfl)

theorem mul_zero_eq {x : NumVal} (hx : x.finite = true) (hn : x.isNeg = false) :
    NumVal.mul nf x NumVal.zero = NumVal.zero := by
  rw [mul_finite_eq hx zero_spec.1, zero_spec.2.2.1, Nat.mul_zero, ofUnits_zero (unitMag_pos nf), hn]
  rfl

theorem twoPi_mul_not_neg (hw : nf.wide = true) {k : Nat} (hk : k < 2 ^ 20) :
    (NumVal.mul nf (NumVal.mul nf (NumVal.ofNat nf 2) (NumVal.pi nf)) (NumVal.ofNat nf k)).isNeg = false := by
  rw [mul_finite_eq (within_twoPi hw).1 (ofNat_small hw (by omega)).1, (ofUnits_spec nf _ _ _).2.2.2,
    mul_finite_eq (ofNat_small hw (by norm_num)).1 (pi_spec hw).1.1, (ofUnits_spec nf _ _ _).2.2.2,
    ofNat_isNeg, ofNat_isNeg, (pi_spec hw).2]
  rfl

theorem phaseArg_zero (hw : nf.wide = true) {k len : Nat} (hk : k < 2 ^ 20) (hlen : 0 < len) :
    phaseArg nf k 0 len = NumVal.zero := by
  unfold phaseArg
  rw [ofNat_zero, mul_zero_eq (within_twoPi_mul hw hk).1 (twoPi_mul_not_neg hw hk)]
  obtain ⟨a, b, c⟩ := ofNat_pos_parts (nf := nf) len hlen
  exact zero_div_eq a b c

theorem sin_zero : NumVal.sin nf NumVal.zero = NumVal.zero := by
  have hlt : (0 : Nat) < unitMag nf >>> (nf.prec / 2 + 1) := by
    have := unitBits_add nf
    have := two_le_emax nf
    have := prec_pos nf
    rw [unitMag_eq, Nat.shiftRight_eq_div_pow]
    exact Nat.div_pos (Nat.pow_le_pow_right (by norm_num) (by omega)) (by positivity)
  have h : sineIsArgument nf NumVal.zero.mag = true := by
    rw [zero_spec.2.2.1, sineIsArgument, isFloat_eq, decide_eq_true hlt]; rfl
  rw [NumVal.sin, computesFunctions_eq, zero_spec.1, h, zero_spec.2.2.1]
  exact ofUnits_zero (by norm_num)

omit [Fact (nf.ieee = true)] in
theorem sumTerms_zero {term : Nat → NumVal} (n : Nat)
    (h : ∀ j < n, NumVal.add nf NumVal.zero (term j) = NumVal.zero) : sumTerms nf term n = NumVal.zero := by
  induction n with
  | zero => rfl
  | succ n ih => rw [sumTerms, ih fun j hj => h j (by omega)]; exact h n (by omega)

/-- Adding a zero of either sign to +0.0 gives +0.0. -/
theorem zero_add_of_mag_zero {x : NumVal} (hf : x.finite = true) (h : x.mag = 0) :
    NumVal.add nf NumVal.zero x = NumVal.zero := by
  have hs : NumVal.zero.sval + x.sval = 0 := by
    have := sval_natAbs x; rw [zero_spec.2.2.2.1]; omega
  rw [add_finite_eq zero_spec.1 hf, hs, if_pos rfl, zero_spec.2.2.2.2, Int.natAbs_zero, ofUnits_zero Nat.one_pos]
  rfl

theorem zero_add_zero : NumVal.add nf NumVal.zero NumVal.zero = NumVal.zero :=
  zero_add_of_mag_zero zero_spec.1 zero_spec.2.2.1

/-- A Triangle term of a zero sine adds nothing. -/
theorem triangle_term_zero (hw : nf.wide = true) {m : Nat} (hm : m < 128) :
    NumVal.add nf NumVal.zero (NumVal.div nf (NumVal.mul nf (NumVal.ofInt nf ((-1) ^ m)) NumVal.zero)
      (NumVal.ofNat nf ((2 * m + 1) * (2 * m + 1)))) = NumVal.zero := by
  have hk : (2 * m + 1) * (2 * m + 1) ≤ 255 * 255 := Nat.mul_le_mul (by omega) (by omega)
  obtain ⟨n1, -⟩ := ofNat_small hw (n := (2 * m + 1) * (2 * m + 1)) (by omega)
  have n3 : (NumVal.ofNat nf ((2 * m + 1) * (2 * m + 1))).mag ≠ 0 := by
    have := unitMag_le_ofNat (Nat.mul_pos (by omega) (by omega)) n1
    have := unitMag_pos nf
    omega
  obtain ⟨p1, p2, -⟩ := mul_spec (sign_spec nf m).1 zero_spec.1 Rep.zero (over_pos nf)
    (by rw [zero_spec.2.2.1]; simp)
  obtain ⟨q1, q2, -⟩ := div_spec p1 n1 n3 Rep.zero (over_pos nf) (by rw [Nat.le_zero.1 p2]; simp)
  exact zero_add_of_mag_zero q1 (Nat.le_zero.1 q2)

theorem rawSample_zero (hw : nf.wide = true) (f : Family) {len h : Nat} (hl : 0 < len) (hh : h ≤ 128) :
    rawSample nf f len h 0 = NumVal.zero := by
  cases f with
  | sine => simp only [rawSample, phaseArg_zero hw (k := 1) (by norm_num) hl, sin_zero]
  | saw =>
    apply sumTerms_zero; intro j hj
    rw [sawTerm, phaseArg_zero hw (by omega) hl, sin_zero]
    obtain ⟨a, b, c⟩ := ofNat_pos_parts (nf := nf) (j + 1) (by omega)
    rw [zero_div_eq a b c, zero_add_zero]
  | square =>
    apply sumTerms_zero; intro j hj
    rw [squareTerm, phaseArg_zero hw (by omega) hl, sin_zero]
    obtain ⟨a, b, c⟩ := ofNat_pos_parts (nf := nf) (2 * j + 1) (by omega)
    rw [zero_div_eq a b c, zero_add_zero]
  | triangle =>
    apply sumTerms_zero; intro j hj
    rw [triangleTerm, phaseArg_zero hw (by omega) hl, sin_zero]
    exact triangle_term_zero hw (by omega)

end Sys2Proof.Machine
end

