-- ==== Sys2Proof/Laws/Voices.lean ====
section
/-! SUPPORT. What holds of the voices after a command: one lemma that carries a property of a voice over every command, and what the envelope step and the ticks keep. -/

namespace Sys2Proof.Machine

open Sys2Proof Sys2Proof.Config NumVal

variable {nf : Arith}

/-! ### A property of every voice over a command -/

/-- A value of NUM, where NUM is one of the arithmetics the statements about computed values speak of. -/
def State.InFmt (s : State) (x : NumVal) : Prop := s.params.num.ieee = true → NumVal.inFmt s.params.num x = true

theorem State.inFmt_opnd (s : State) (w : OperandWord) : s.InFmt (opndF64 s.params.num w) :=
  fun h => have := Fact.mk h; inFmt_ofF64 w

/-- If every voice has `P` before a command and each operation on a voice turns `P` into `Q`, every voice has `Q` after
it. -/
theorem effect_voices {i : Instr} {s t : State} (h : Effect i s t) {P Q : Voice → Prop} (hP : ∀ vc ∈ s.voices, P vc)
    (keep : ∀ vc, P vc → Q vc)
    (freq : ∀ vc f, P vc → f.finite = true → s.InFmt f → Q (vc.setFrequency s.params.num s.fs f))
    (note : ∀ vc m, P vc → Q (vc.setFrequency s.params.num s.fs (midiFrequency s.params.num m)))
    (amp : ∀ vc x, P vc → x.finite = true → s.InFmt x →
      Q { vc with oscAmp := clampUnit s.params.num x })
    (wave : ∀ vc f, P vc → Q { vc with oscWave := f })
    (attack : ∀ vc, P vc → Q vc.enterAttack) (start : ∀ vc, P vc → Q vc.enterAttack.filterZeroed)
    (release : ∀ vc, P vc → Q vc.enterRelease) (silence : ∀ vc, P vc → Q vc.envSilence)
    (env : ∀ vc a d u r, P vc → a.finite = true → d.finite = true → u.finite = true → r.finite = true →
      s.InFmt a → s.InFmt d → s.InFmt u →
      s.InFmt r → Q (vc.setEnvelope s.params.num s.fs a d u r))
    (filter : ∀ vc sel x, P vc → x.finite = true → s.InFmt x →
      Q (vc.setFilter s.params.num s.filterRom sel x))
    (rate : ∀ vc x, P vc → t = s.reconfigure x → x.finite = true → s.InFmt x → NumVal.le x NumVal.zero = false →
      NumVal.le x (NumVal.fsMin s.params.num) = false → Q (vc.rerate s.params.num x (generateFilterRom s.params.num x)))
    (tick : ∀ vc n, P vc → Voice.ticksOk s n vc = true → Q (Voice.ticks s n vc))
    (advance : ∀ vc, P vc → phaseInRange s.params.num vc.oscPhase = true → Q (vc.advance s.params.num))
    (phase : ∀ vc, P vc → Q { vc with oscPhase := NumVal.zero })
    (envStep : ∀ vc, P vc → Q (vc.envStep s.params.num))
    (process : ∀ vc c x, P vc → x.finite = true → s.InFmt x →
      Q (vc.filtered s.params.num c x))
    (zeroed : ∀ vc, P vc → Q vc.filterZeroed) : ∀ vc ∈ t.voices, Q vc := by
  have set : ∀ (v : Nat) (vc x : Voice), s.voices[v]? = some vc → (P vc → Q x) → ∀ y ∈ s.voices.set v x, Q y := by
    intro v vc x hv hx y hy
    rcases List.mem_or_eq_of_mem_set hy with hy | rfl
    · exact keep y (hP y hy)
    · exact hx (hP vc (List.mem_of_getElem? hv))
  cases h with
  | setNote m hv => exact set _ _ _ hv fun h => note _ m h
  | setFreq x hv hx => exact set _ _ _ hv fun h => freq _ _ h hx (State.inFmt_opnd s _)
  | setAmp x hv hx => exact set _ _ _ hv fun h => amp _ _ h hx (State.inFmt_opnd s _)
  | setWave sel hv => exact set _ _ _ hv fun h => wave _ _ h
  | startNote hv => exact set _ _ _ hv fun h => start _ h
  | stopNote hv => exact set _ _ _ hv fun h => release _ h
  | setEnv a d u r hv ha hd hu hr =>
    exact set _ _ _ hv fun h => env _ _ _ _ _ h ha hd hu hr (State.inFmt_opnd s _)
      (State.inFmt_opnd s _) (State.inFmt_opnd s _) (State.inFmt_opnd s _)
  | setFilter sel x hv hx => exact set _ _ _ hv fun h => filter _ _ _ h hx (State.inFmt_opnd s _)
  | rateRejected x hx => exact fun y hy => keep y (hP y hy)
  | rateAccepted x h0 hf hm =>
    intro y hy
    rw [State.reconfigure_voices] at hy
    obtain ⟨vc, hvc, rfl⟩ := List.mem_map.1 hy
    exact rate vc _ (hP vc hvc) rfl hf (State.inFmt_opnd s _) h0 hm
  | render n off hv hb hok => rw [State.rendered_voices]; exact set _ _ _ hv fun h => tick _ n h hok
  | oscNext hv hp => exact set _ _ _ hv fun h => advance _ h hp
  | oscResetPhase hv => exact set _ _ _ hv fun h => phase _ h
  | envAttack hv => exact set _ _ _ hv fun h => attack _ h
  | envRelease hv => exact set _ _ _ hv fun h => release _ h
  | envReset hv => exact set _ _ _ hv fun h => silence _ h
  | envNext hv => exact set _ _ _ hv fun h => envStep _ h
  | envActive hv => exact fun y hy => keep y (hP y hy)
  | fltProcess x hv hx => exact set _ _ _ hv fun h => process _ _ _ h hx (State.inFmt_opnd s _)
  | fltReset hv => exact set _ _ _ hv fun h => zeroed _ h
  | wtRead => exact fun y hy => keep y (hP y hy)
  | wtLen => exact fun y hy => keep y (hP y hy)
  | wtFreq => exact fun y hy => keep y (hP y hy)
  | fcRead => exact fun y hy => keep y (hP y hy)
  | fcCutoff => exact fun y hy => keep y (hP y hy)

/-- A voice read after one voice was replaced: the replaced one or the same. -/
theorem getElem?_set_cases {l : List Voice} {v w : Nat} {x vc vc' vx : Voice} (hx : l[w]? = some vx)
    (h : l[v]? = some vc) (h' : (l.set w x)[v]? = some vc') :
    (v = w ∧ vc' = x ∧ vx = vc) ∨ (v ≠ w ∧ vc' = vc) := by
  rw [List.getElem?_set] at h'
  by_cases hvw : w = v
  · subst hvw
    have := (List.getElem?_eq_some_iff.1 h).1
    rw [if_pos rfl, if_pos this] at h'
    rw [h] at hx
    exact .inl ⟨rfl, by cases h'; rfl, by cases hx; rfl⟩
  · rw [if_neg hvw, h] at h'
    exact .inr ⟨fun h => hvw h.symm, by cases h'; rfl⟩

/-- The ticks of a voice write only its phase, its stage registers and its filter memory. -/
theorem Voice.ticks_keep {s : State} (n : Nat) (vc : Voice) :
    (Voice.ticks s n vc).oscFreq = vc.oscFreq ∧ (Voice.ticks s n vc).oscDelta = vc.oscDelta ∧
    (Voice.ticks s n vc).oscAmp = vc.oscAmp ∧ (Voice.ticks s n vc).oscWave = vc.oscWave ∧
    (Voice.ticks s n vc).envAttackSec = vc.envAttackSec ∧ (Voice.ticks s n vc).envDecaySec = vc.envDecaySec ∧
    (Voice.ticks s n vc).envReleaseSec = vc.envReleaseSec ∧ (Voice.ticks s n vc).envA = vc.envA ∧
    (Voice.ticks s n vc).envD = vc.envD ∧ (Voice.ticks s n vc).envR = vc.envR ∧
    (Voice.ticks s n vc).envSustain = vc.envSustain ∧ (Voice.ticks s n vc).envRsl = vc.envRsl ∧
    (Voice.ticks s n vc).fltType = vc.fltType ∧ (Voice.ticks s n vc).fltCutoff = vc.fltCutoff ∧
    (Voice.ticks s n vc).fltBin = vc.fltBin := by
  induction n generalizing vc with
  | zero => simp [Voice.ticks]
  | succ n ih =>
    rw [Voice.ticks]
    split_ifs
    · simp
    · have := ih (vc.ticked s)
      simpa [Voice.ticked] using this

/-! ### The MIDI notes (44_voice.md R127) -/

/-- The inverse hyperbolic tangent's series at a square of at most 1/9 is at most 9/8 of its first term. -/
theorem atanhSeries_le {b z : Nat} (hz : z * 9 ≤ 2 ^ b) (fuel k t : Nat) :
    8 * k * atanhSeries b z fuel k t ≤ 9 * t := by
  induction fuel generalizing k t with
  | zero => simp [atanhSeries]
  | succ fuel ih =>
    rw [atanhSeries]
    split_ifs
    · simp
    · have h1 := ih (k + 2) ((t * z) >>> b)
      have h2 : 9 * ((t * z) >>> b) ≤ t := by
        rw [Nat.shiftRight_eq_div_pow]
        refine Nat.le_of_mul_le_mul_right (c := 2 ^ b) ?_ (by positivity)
        calc 9 * (t * z / 2 ^ b) * 2 ^ b = 9 * (t * z / 2 ^ b * 2 ^ b) := by ring
          _ ≤ 9 * (t * z) := Nat.mul_le_mul_left _ (Nat.div_mul_le_self _ _)
          _ = t * (z * 9) := by ring
          _ ≤ t * 2 ^ b := Nat.mul_le_mul_left _ hz
      have h3 := Nat.mul_div_le t k
      generalize atanhSeries b z fuel (k + 2) ((t * z) >>> b) = S at *
      have h4 : 8 * k * S ≤ 8 * (k + 2) * S := Nat.mul_le_mul_right _ (by omega)
      calc 8 * k * (t / k + S) = 8 * (k * (t / k)) + 8 * k * S := by ring
        _ ≤ 9 * t := by omega

/-- `ln 2` in fixed point lies above 0 and at most at 3/4. -/
theorem ln2Scaled_bounds {b : Nat} (h1 : 1 ≤ b) : 0 < ln2Scaled b ∧ 4 * ln2Scaled b ≤ 3 * 2 ^ b := by
  unfold ln2Scaled
  split_ifs with h
  · have h2 : ln2Long >>> 399 = 1 ∧ 4 * ln2Long ≤ 3 * 1 <<< 400 := by decide +kernel
    rw [Nat.shiftRight_eq_div_pow, Nat.one_shiftLeft, Nat.div_eq_iff (by positivity)] at h2
    obtain ⟨⟨h3, -⟩, h4⟩ := h2
    rw [Nat.shiftRight_eq_div_pow]
    constructor
    · refine Nat.div_pos ((Nat.pow_le_pow_right (by norm_num) (show 400 - b ≤ 399 by omega)).trans ?_) (by positivity)
      omega
    · have h5 := Nat.div_mul_le_self ln2Long (2 ^ (400 - b))
      have h6 : 2 ^ 400 = 2 ^ b * 2 ^ (400 - b) := by rw [← pow_add, Nat.add_sub_of_le h]
      refine Nat.le_of_mul_le_mul_right (c := 2 ^ (400 - b)) ?_ (by positivity)
      rw [Nat.mul_assoc, Nat.mul_assoc, ← h6]
      exact (Nat.mul_le_mul_left 4 h5).trans h4
  · have hB : 2 ^ (b + 64) = 2 ^ b * 2 ^ 64 := pow_add _ _ _
    rw [Nat.one_shiftLeft, Nat.shiftRight_eq_div_pow]
    have hs := atanhSeries_le (b := b + 64) (z := 2 ^ (b + 64) / 9) (Nat.div_mul_le_self _ _) (b + 64) 1
      (2 ^ (b + 64) / 3)
    have hlow : 2 ^ (b + 64) / 3 ≤ atanhSeries (b + 64) (2 ^ (b + 64) / 9) (b + 64) 1 (2 ^ (b + 64) / 3) := by
      have h0 : 2 ^ (b + 64) / 3 ≠ 0 := (Nat.div_pos ((show 3 ≤ 2 ^ 64 by norm_num).trans
        (Nat.pow_le_pow_right (by norm_num) (by omega))) (by norm_num)).ne'
      rw [show b + 64 = (b + 63) + 1 from rfl, atanhSeries, if_neg h0, Nat.div_one]
      exact Nat.le_add_right _ _
    have h3 := Nat.div_mul_le_self (2 ^ (b + 64)) 3
    have h4 : 2 ^ (b + 64) < 3 * (2 ^ (b + 64) / 3) + 3 := by omega
    have h7 : 4 * 2 ^ 64 ≤ 2 ^ (b + 64) := by
      rw [hB]; exact Nat.mul_le_mul_right _ ((show 4 = 2 ^ 2 by norm_num) ▸ Nat.pow_le_pow_right (by norm_num) (by omega))
    generalize atanhSeries (b + 64) (2 ^ (b + 64) / 9) (b + 64) 1 (2 ^ (b + 64) / 3) = S at *
    constructor
    · exact Nat.div_pos (by omega) (by positivity)
    · refine Nat.le_of_mul_le_mul_right (c := 2 ^ 64) ?_ (by positivity)
      have h5 := Nat.div_mul_le_self (2 * S) (2 ^ 64)
      rw [Nat.mul_assoc, Nat.mul_assoc 3, ← hB]
      omega

theorem expSeries_le {b x : Nat} (hx : 4 * x ≤ 3 * 2 ^ b) (fuel k t : Nat) : expSeries b x fuel k t ≤ 4 * t := by
  induction fuel generalizing k t with
  | zero => exact Nat.zero_le _
  | succ fuel ih =>
    rw [expSeries]
    split_ifs
    · exact Nat.zero_le _
    · have h1 := ih (k + 1) ((t * x) >>> b / (k + 1))
      have h2 : (t * x) >>> b / (k + 1) ≤ (t * x) >>> b := Nat.div_le_self _ _
      have h3 : 4 * ((t * x) >>> b) ≤ 3 * t := by
        rw [Nat.shiftRight_eq_div_pow]
        have h4 := Nat.div_mul_le_self (t * x) (2 ^ b)
        have h5 : t * (4 * x) ≤ t * (3 * 2 ^ b) := Nat.mul_le_mul_left _ hx
        refine Nat.le_of_mul_le_mul_right (c := 2 ^ b) ?_ (by positivity)
        calc 4 * (t * x / 2 ^ b) * 2 ^ b = 4 * (t * x / 2 ^ b * 2 ^ b) := by ring
          _ ≤ 4 * (t * x) := Nat.mul_le_mul_left _ h4
          _ = t * (4 * x) := by ring
          _ ≤ t * (3 * 2 ^ b) := h5
          _ = 3 * t * 2 ^ b := by ring
      omega

section ieee
variable [Fact (nf.ieee = true)]

theorem pow_finite_eq {x y : NumVal} (hx : x.finite = true) (hy : y.finite = true) (h : 0 < x.sval) :
    NumVal.pow nf x y = expFixed nf (y.sval * lnMag nf x.mag / unitMag nf) := by
  simp [NumVal.pow, hx, hy, h]

/-- An exponential of at most 69 doublings is finite and not negative. -/
theorem expFixed_spec (hw : nf.wide = true) {u : Int} (h : u ≤ 69 * ln2Scaled (powBits nf)) :
    Within (2 ^ 72 * unitMag nf) (expFixed nf u) ∧ (expFixed nf u).isNeg = false := by
  obtain ⟨hl0, hl⟩ := ln2Scaled_bounds (b := powBits nf) (by unfold powBits; omega)
  have hl0' : (0 : Int) < ln2Scaled (powBits nf) := by exact_mod_cast hl0
  have hi : u / ln2Scaled (powBits nf) ≤ 69 := Int.ediv_le_of_le_mul hl0' h
  have hr : 69 ≤ powRange nf := by
    have := (wide_iff.1 hw).2
    rw [powRange, rangeBits, valueBits, format_eq]
    dsimp only
    omega
  have hrep := Rep.two_pow nf 72
  have hlt := mul_unitMag_lt hw (k := 2 ^ 72) (by norm_num)
  have hpos := unitMag_pos nf
  unfold expFixed
  dsimp only
  rw [if_neg (by omega)]
  split_ifs with hlow
  · obtain ⟨h1, h2, -⟩ := ofUnits_mag_le (nf := nf) (neg := false) (n := 1) (d := 4) (by norm_num) hrep hlt (by omega)
    exact ⟨⟨h2, h1⟩, (ofUnits_spec nf false _ _).2.2.2⟩
  have hx : 4 * (u % ln2Scaled (powBits nf)).toNat ≤ 3 * 2 ^ powBits nf := by
    have h1 := Int.emod_lt_of_pos u hl0'
    have h2 := Int.emod_nonneg u hl0'.ne'
    have h3 : (u % ln2Scaled (powBits nf)).toNat ≤ ln2Scaled (powBits nf) := by omega
    exact (Nat.mul_le_mul_left 4 h3).trans hl
  have hs := expSeries_le hx (powBits nf) 0 (1 <<< powBits nf)
  generalize expSeries (powBits nf) (u % ln2Scaled (powBits nf)).toNat (powBits nf) 0 (1 <<< powBits nf) = S at hs ⊢
  generalize he : (u / ln2Scaled (powBits nf) + powRange nf).toNat = e
  have hle : e ≤ 69 + powRange nf := by omega
  simp only [Nat.shiftLeft_eq, Nat.one_mul] at hs ⊢
  obtain ⟨h1, h2, -⟩ := ofUnits_mag_le (nf := nf) (neg := false) (n := S * unitMag nf * 2 ^ e)
    (d := 2 ^ (powBits nf + powRange nf)) (by positivity) hrep hlt (by
      calc S * unitMag nf * 2 ^ e ≤ 4 * 2 ^ powBits nf * unitMag nf * 2 ^ (69 + powRange nf) :=
            Nat.mul_le_mul (Nat.mul_le_mul_right _ hs) (Nat.pow_le_pow_right (by norm_num) hle)
        _ = 2 ^ 71 * unitMag nf * 2 ^ (powBits nf + powRange nf) := by rw [pow_add, pow_add]; ring
        _ ≤ 2 ^ 72 * unitMag nf * 2 ^ (powBits nf + powRange nf) :=
          Nat.mul_le_mul_right _ (Nat.mul_le_mul_right _ (by norm_num)))
  exact ⟨⟨h2, h1⟩, (ofUnits_spec nf false _ _).2.2.2⟩

theorem lnMag_two : lnMag nf (2 * unitMag nf) = ln2Scaled (powBits nf) := by
  have hm : 2 * unitMag nf = 2 ^ (nf.format.unitBits + 1) := by rw [unitMag_eq, pow_succ']
  have hz : ∀ b z fuel k, atanhSeries b z fuel k 0 = 0 := by intro b z fuel k; cases fuel <;> simp [atanhSeries]
  rw [lnMag, leading_eq, hm, Nat.log2_two_pow, Nat.one_shiftLeft, lnRatio, Nat.sub_self, Nat.zero_shiftLeft, Nat.zero_div]
  simp [hz]

/-- A whole number below 2^24 in size is converted exactly, with its sign. -/
theorem ofInt_small (hw : nf.wide = true) {i : Int} (h : i.natAbs < 2 ^ 24) :
    (NumVal.ofInt nf i).finite = true ∧ (NumVal.ofInt nf i).mag = i.natAbs * unitMag nf := by
  have := ofUnits_rep (nf := nf) (neg := decide (i < 0)) Nat.one_pos (Rep.small hw h)
    (mul_unitMag_lt hw (h.trans (by norm_num)))
  rw [Nat.mul_one] at this
  rw [NumVal.ofInt, this]
  exact ⟨rfl, rfl⟩

/-- Every note's frequency is finite and not negative. -/
theorem midiFrequency_finite (hw : nf.wide = true) (m : Nat) :
    (midiFrequency nf m).finite = true ∧ NumVal.le NumVal.zero (midiFrequency nf m) = true := by
  have hm : Nat.min m midiMaxNote ≤ 127 := Nat.min_le_right _ _
  unfold midiFrequency NumVal.midiRefHz
  rw [show midiRefNote = 69 from rfl]
  generalize Nat.min m midiMaxNote = n at *
  obtain ⟨i1, i2⟩ := ofInt_small hw (i := (n : Int) - (69 : Nat)) (by omega)
  obtain ⟨t1, t2, t3⟩ := ofNat_small hw (n := 2) (by norm_num)
  obtain ⟨w1, w2, -⟩ := ofNat_small hw (n := 12) (by norm_num)
  have hy : Within (69 * unitMag nf) (NumVal.div nf (NumVal.ofInt nf ((n : Int) - (69 : Nat))) (NumVal.ofNat nf 12)) :=
    Within.div hw ⟨i1, by rw [i2]; exact Nat.mul_le_mul_right _ (by omega)⟩ w1
      (unitMag_le_ofNat (by norm_num) w1) (Rep.small hw (by norm_num)) (by norm_num)
  generalize NumVal.div nf (NumVal.ofInt nf ((n : Int) - (69 : Nat))) (NumVal.ofNat nf 12) = y at *
  have hpos := unitMag_pos nf
  have hp : NumVal.pow nf (NumVal.ofNat nf 2) y = expFixed nf (y.sval * ln2Scaled (powBits nf) / unitMag nf) := by
    have h2 : 0 < (NumVal.ofNat nf 2).sval := by rw [sval_of_not_neg t3, t2]; omega
    rw [pow_finite_eq t1 hy.1 h2, t2, lnMag_two]
  obtain ⟨e1, e2⟩ := expFixed_spec hw (u := y.sval * ln2Scaled (powBits nf) / unitMag nf) (by
    have h1 : y.sval ≤ 69 * unitMag nf := by have := sval_natAbs y; have := hy.2; omega
    have h2 : (0 : Int) < unitMag nf := by exact_mod_cast hpos
    refine Int.ediv_le_of_le_mul h2 ?_
    calc y.sval * ln2Scaled (powBits nf) ≤ 69 * unitMag nf * ln2Scaled (powBits nf) :=
          Int.mul_le_mul_of_nonneg_right h1 (Int.natCast_nonneg _)
      _ = 69 * ln2Scaled (powBits nf) * unitMag nf := by ring)
  rw [hp]
  generalize expFixed nf (y.sval * ln2Scaled (powBits nf) / unitMag nf) = w at *
  obtain ⟨r1, -, r3⟩ := ofNat_small hw (n := 440) (by norm_num)
  have hr := Within.mul hw (c := 2 ^ 81) (Within.ofNat hw (n := 440) (by norm_num)) e1 (by norm_num)
    (Rep.two_pow nf 81) (by norm_num)
  refine ⟨hr.1, ?_⟩
  have hn : (NumVal.mul nf (NumVal.ofNat nf 440) w).isNeg = false := by
    rw [mul_finite_eq r1 e1.1, (ofUnits_spec nf _ _ _).2.2.2, r3, e2]; rfl
  rw [le_iff zero_spec.1 hr.1, zero_spec.2.2.2.1, sval_of_not_neg hn]
  exact Int.natCast_nonneg _

@[simp] theorem inFmt_midiFrequency (m : Nat) : NumVal.inFmt nf (midiFrequency nf m) = true := by
  unfold midiFrequency; exact inFmt_mul _ _

end ieee

theorem conv_bounds (fs x : NumVal) : 1 ≤ conv nf fs x ∧ conv nf fs x ≤ cntMax := by
  simp only [conv, cntMax, minSamples, Nat.min_def, Nat.max_def]
  split_ifs <;> omega

/-! ### The envelope step -/

theorem Voice.enterRelease_cases (vc : Voice) : (vc.envStage = .idle ∧ vc.enterRelease = vc) ∨
    (vc.envStage ≠ .idle ∧
      vc.enterRelease = { vc with envRsl := vc.envLevel, envStage := .release, envCounter := 0 }) := by
  by_cases h : vc.envStage = .idle
  · exact .inl ⟨h, by simp [Voice.enterRelease, h]⟩
  · exact .inr ⟨h, by simp [Voice.enterRelease, h]⟩

/-- The envelope step keeps every level in [0, 1]. -/
theorem Voice.envStep_levels [Fact (nf.ieee = true)] {vc : Voice} (hf : (NumVal.ofNat nf cntMax).finite = true) (hc : vc.CountsBounded)
    (h : vc.LevelsInUnit nf) : (vc.envStep nf).LevelsInUnit nf := by
  obtain ⟨c0, ⟨a1, a2⟩, ⟨d1, d2⟩, ⟨r1, r2⟩⟩ := hc
  obtain ⟨l1, l2, l3, l4⟩ := h
  cases hs : vc.envStage with
  | idle => simp only [Voice.envStep, hs, Voice.idleStep]; exact ⟨l1, l2, inUnit_zero, l4⟩
  | attack =>
    simp only [Voice.envStep, hs, Voice.attackStep]
    split_ifs with hh
    · exact ⟨l1, l2, inUnit_one, l4⟩
    · exact ⟨l1, l2, inUnit_stageRatio hf (by omega) (by omega) (by omega), l4⟩
  | decay =>
    simp only [Voice.envStep, hs, Voice.decayStep]
    split_ifs with hh
    · exact ⟨l1, l2, l2, l4⟩
    · exact ⟨l1, l2, inUnit_decayLevel hf l2 (by omega) (by omega) d2, l4⟩
  | sustain => simp only [Voice.envStep, hs, Voice.sustainStep]; exact ⟨l1, l2, l2, l4⟩
  | release =>
    simp only [Voice.envStep, hs, Voice.releaseStep]
    split_ifs with hh
    · exact ⟨l1, l2, inUnit_zero, l4⟩
    · simp at hh
      exact ⟨l1, l2, inUnit_releaseLevel hf l4 (by omega) (by omega) r2, l4⟩

/-- The envelope step keeps the counter and the counts in their bounds. -/
theorem Voice.envStep_counts {vc : Voice} (hc : vc.CountsBounded) : (vc.envStep nf).CountsBounded := by
  obtain ⟨c0, ⟨a1, a2⟩, ⟨d1, d2⟩, ⟨r1, r2⟩⟩ := hc
  cases hs : vc.envStage with
  | idle => simp only [Voice.envStep, hs, Voice.idleStep]; exact ⟨c0, ⟨a1, a2⟩, ⟨d1, d2⟩, ⟨r1, r2⟩⟩
  | attack =>
    simp only [Voice.envStep, hs, Voice.attackStep]
    split_ifs with hh
    · exact ⟨Nat.zero_le _, ⟨a1, a2⟩, ⟨d1, d2⟩, ⟨r1, r2⟩⟩
    · exact ⟨by dsimp only; omega, ⟨a1, a2⟩, ⟨d1, d2⟩, ⟨r1, r2⟩⟩
  | decay =>
    simp only [Voice.envStep, hs, Voice.decayStep]
    split_ifs with hh
    · exact ⟨Nat.zero_le _, ⟨a1, a2⟩, ⟨d1, d2⟩, ⟨r1, r2⟩⟩
    · exact ⟨by dsimp only; omega, ⟨a1, a2⟩, ⟨d1, d2⟩, ⟨r1, r2⟩⟩
  | sustain => simp only [Voice.envStep, hs, Voice.sustainStep]; exact ⟨c0, ⟨a1, a2⟩, ⟨d1, d2⟩, ⟨r1, r2⟩⟩
  | release =>
    simp only [Voice.envStep, hs, Voice.releaseStep]
    split_ifs with hh
    · exact ⟨Nat.zero_le _, ⟨a1, a2⟩, ⟨d1, d2⟩, ⟨r1, r2⟩⟩
    · simp at hh
      exact ⟨by dsimp only; omega, ⟨a1, a2⟩, ⟨d1, d2⟩, ⟨r1, r2⟩⟩

/-- The envelope step leaves an Idle voice silent. -/
theorem Voice.envStep_silent {vc : Voice} (h : vc.IdleSilent) : (vc.envStep nf).IdleSilent := by
  intro hi
  cases hs : vc.envStage with
  | idle => simp only [Voice.envStep, hs, Voice.idleStep]; exact ⟨trivial, (h hs).2⟩
  | attack =>
    simp only [Voice.envStep, hs, Voice.attackStep] at hi
    split_ifs at hi
  | decay =>
    simp only [Voice.envStep, hs, Voice.decayStep] at hi
    split_ifs at hi
  | sustain => simp [Voice.envStep, hs, Voice.sustainStep] at hi
  | release =>
    simp only [Voice.envStep, hs, Voice.releaseStep] at hi ⊢
    split_ifs at hi ⊢ with hh
    all_goals exact ⟨rfl, rfl⟩

theorem Voice.LevelsInUnit.of_eq {vc vc' : Voice} (h : vc.LevelsInUnit nf) (h1 : vc'.oscAmp = vc.oscAmp)
    (h2 : vc'.envSustain = vc.envSustain) (h3 : vc'.envLevel = vc.envLevel) (h4 : vc'.envRsl = vc.envRsl) :
    vc'.LevelsInUnit nf := by
  unfold Voice.LevelsInUnit at *; rw [h1, h2, h3, h4]; exact h

theorem Voice.CountsBounded.of_eq {vc vc' : Voice} (h : vc.CountsBounded)
    (h0 : vc'.envCounter = vc.envCounter ∨ vc'.envCounter = 0) (h1 : vc'.envA = vc.envA) (h2 : vc'.envD = vc.envD)
    (h3 : vc'.envR = vc.envR) : vc'.CountsBounded := by
  unfold Voice.CountsBounded at *
  rw [h1, h2, h3]
  refine ⟨?_, h.2⟩
  rcases h0 with h0 | h0 <;> rw [h0]
  · exact h.1
  · exact Nat.zero_le _

theorem Voice.IdleSilent.of_eq {vc vc' : Voice} (h : vc.IdleSilent) (h1 : vc'.envStage = vc.envStage)
    (h2 : vc'.envLevel = vc.envLevel) (h3 : vc'.envCounter = vc.envCounter) : vc'.IdleSilent := by
  unfold Voice.IdleSilent at *; rw [h1, h2, h3]; exact h

/-- A tick keeps the levels and the counts. -/
theorem Voice.ticked_levels {s : State} [Fact (s.params.num.ieee = true)] {vc : Voice}
    (hf : (NumVal.ofNat s.params.num cntMax).finite = true)
    (hc : vc.CountsBounded) (hl : vc.LevelsInUnit s.params.num) :
    (vc.ticked s).LevelsInUnit s.params.num ∧ (vc.ticked s).CountsBounded := by
  have hc' : (vc.advance s.params.num).CountsBounded := hc.of_eq (.inl (by simp)) (by simp) (by simp) (by simp)
  have hl' : (vc.advance s.params.num).LevelsInUnit s.params.num := hl.of_eq (by simp) (by simp) (by simp) (by simp)
  unfold Voice.ticked
  exact ⟨(Voice.envStep_levels hf hc' hl').of_eq (by simp) (by simp) (by simp) (by simp),
    (Voice.envStep_counts (nf := s.params.num) hc').of_eq (.inl (by simp)) (by simp) (by simp) (by simp)⟩

/-! ### Registers hold values of NUM (00_scope.md R13) -/

section inNum
variable [Fact (nf.ieee = true)]

omit [Fact (nf.ieee = true)] in
theorem Voice.inNum_iff {vc : Voice} : vc.InNum nf ↔
    (inFmt nf vc.oscFreq = true ∧ inFmt nf vc.oscPhase = true ∧ inFmt nf vc.oscDelta = true ∧
      inFmt nf vc.oscAmp = true) ∧
    (inFmt nf vc.envLevel = true ∧ inFmt nf vc.envAttackSec = true ∧ inFmt nf vc.envDecaySec = true ∧
      inFmt nf vc.envReleaseSec = true ∧ inFmt nf vc.envSustain = true ∧ inFmt nf vc.envRsl = true) ∧
    (inFmt nf vc.fltCutoff = true ∧ inFmt nf vc.fltX1 = true ∧ inFmt nf vc.fltY1 = true ∧ inFmt nf vc.fltX2 = true ∧
      inFmt nf vc.fltY2 = true) := by
  simp [Voice.InNum, Voice.numRegisters, and_assoc]

@[simp] theorem inFmt_stageRatio (c n : Nat) : inFmt nf (stageRatio nf c n) = true := inFmt_div _ _
@[simp] theorem inFmt_decayLevel (x : NumVal) (c n : Nat) : inFmt nf (decayLevel nf x c n) = true := inFmt_sub _ _
@[simp] theorem inFmt_releaseLevel (x : NumVal) (c n : Nat) : inFmt nf (releaseLevel nf x c n) = true := inFmt_mul _ _

@[simp] theorem inFmt_opndF64 (w : OperandWord) : inFmt nf (opndF64 nf w) = true := inFmt_ofF64 _

theorem inFmt_clampUnit {x : NumVal} (hn : x.isNaN = false) (h : inFmt nf x = true) :
    inFmt nf (clampUnit nf x) = true := by
  have hmax : NumVal.max zero x = if lt zero x then x else zero := by simp [NumVal.max, zero_spec.2.1, hn]
  have hmin : ∀ y : NumVal, y.isNaN = false → NumVal.min (one nf) y = if lt y (one nf) then y else one nf := by
    intro y hy; simp [NumVal.min, (one_spec (nf := nf)).2.1, hy]
  unfold clampUnit
  rw [hmax]
  split_ifs
  · rw [hmin x hn]; split_ifs <;> simp [h]
  · rw [hmin zero zero_spec.2.1]; split_ifs <;> simp

@[simp] theorem inFmt_advancePhase (p d : NumVal) : inFmt nf (advancePhase nf p d) = true := by
  unfold advancePhase; split_ifs <;> simp

theorem Voice.setFrequency_inNum {vc : Voice} (h : vc.InNum nf) {fs f : NumVal} (hf : inFmt nf f = true) :
    (vc.setFrequency nf fs f).InNum nf := by
  rw [Voice.inNum_iff] at h ⊢
  obtain ⟨⟨a1, a2, a3, a4⟩, ⟨b1, b2, b3, b4, b5, b6⟩, c1, c2, c3, c4, c5⟩ := h
  simp [Voice.setFrequency, *]

theorem Voice.advance_inNum {vc : Voice} (h : vc.InNum nf) : (vc.advance nf).InNum nf := by
  rw [Voice.inNum_iff] at h ⊢
  obtain ⟨⟨a1, a2, a3, a4⟩, ⟨b1, b2, b3, b4, b5, b6⟩, c1, c2, c3, c4, c5⟩ := h
  simp [Voice.advance, *]

theorem Voice.envStep_inNum {vc : Voice} (h : vc.InNum nf) : (vc.envStep nf).InNum nf := by
  rw [Voice.inNum_iff] at h ⊢
  obtain ⟨⟨a1, a2, a3, a4⟩, ⟨b1, b2, b3, b4, b5, b6⟩, c1, c2, c3, c4, c5⟩ := h
  cases hs : vc.envStage with
  | idle => simp [Voice.envStep, Voice.idleStep, *]
  | attack => simp only [Voice.envStep, hs, Voice.attackStep]; split_ifs <;> simp [*]
  | decay => simp only [Voice.envStep, hs, Voice.decayStep]; split_ifs <;> simp [*]
  | sustain => simp [Voice.envStep, Voice.sustainStep, *]
  | release => simp only [Voice.envStep, hs, Voice.releaseStep]; split_ifs <;> simp [*]

theorem Voice.filtered_inNum {vc : Voice} (h : vc.InNum nf) (c : FilterBin) {x : NumVal} (hx : inFmt nf x = true) :
    (vc.filtered nf c x).InNum nf := by
  rw [Voice.inNum_iff] at h ⊢
  obtain ⟨⟨a1, a2, a3, a4⟩, ⟨b1, b2, b3, b4, b5, b6⟩, c1, c2, c3, c4, c5⟩ := h
  cases hf : vc.fltType <;>
    simp [Voice.filtered, lowpassOut, highpassOut, bandpassHigh, bandpassLow, *]

end inNum

theorem Voice.ticked_inNum {s : State} [Fact (s.params.num.ieee = true)] {vc : Voice} (h : vc.InNum s.params.num) :
    (vc.ticked s).InNum s.params.num :=
  Voice.filtered_inNum (Voice.envStep_inNum (Voice.advance_inNum h)) _ (inFmt_mul _ _)

/-- Every entry of a generated coefficient ROM is a value of NUM. -/
theorem generateFilterRom_inNum [Fact (nf.ieee = true)] (fs : NumVal) :
    ∀ b ∈ (generateFilterRom nf fs).toList, ∀ x ∈ b.entries, inFmt nf x = true := by
  intro b hb
  obtain ⟨i, -, rfl⟩ : ∃ i, i < 50 ∧ b = generateFilterBin nf fs i := by
    rw [generateFilterRom, Vector.mem_toList_iff, Vector.mem_ofFn] at hb
    obtain ⟨i, rfl⟩ := hb
    exact ⟨i.val, i.isLt, rfl⟩
  simp [FilterBin.entries, generateFilterBin, filterBinOf, filterCutoff, alphaLp, alphaHp]

theorem effect_voices_inNum {i : Instr} {s t : State} [hi : Fact (s.params.num.ieee = true)] (h : Effect i s t)
    (hv : ∀ vc ∈ s.voices, vc.InNum s.params.num) :
    ∀ vc ∈ t.voices, vc.InNum s.params.num := by
  refine effect_voices h hv (fun _ h => h) ?_ ?_ ?_ ?_ ?_ ?_ ?_ ?_ ?_ ?_ ?_ ?_ ?_ ?_ ?_ ?_ ?_
  · intro vc f h _ hf; exact Voice.setFrequency_inNum h (hf hi.out)
  · intro vc m h; exact Voice.setFrequency_inNum h (inFmt_midiFrequency m)
  · intro vc x h hf hx; rw [Voice.inNum_iff] at h ⊢
    obtain ⟨⟨a1, a2, a3, a4⟩, ⟨b1, b2, b3, b4, b5, b6⟩, c1, c2, c3, c4, c5⟩ := h
    simp [inFmt_clampUnit (isNaN_of_finite hf) (hx hi.out), *]
  · intro vc f h; exact h
  · intro vc h; rw [Voice.inNum_iff] at h ⊢
    obtain ⟨⟨a1, a2, a3, a4⟩, ⟨b1, b2, b3, b4, b5, b6⟩, c1, c2, c3, c4, c5⟩ := h; simp [Voice.enterAttack, *]
  · intro vc h; rw [Voice.inNum_iff] at h ⊢
    obtain ⟨⟨a1, a2, a3, a4⟩, ⟨b1, b2, b3, b4, b5, b6⟩, c1, c2, c3, c4, c5⟩ := h
    simp [Voice.enterAttack, Voice.filterZeroed, *]
  · intro vc h; rw [Voice.inNum_iff] at h ⊢
    obtain ⟨⟨a1, a2, a3, a4⟩, ⟨b1, b2, b3, b4, b5, b6⟩, c1, c2, c3, c4, c5⟩ := h
    rcases vc.enterRelease_cases with ⟨-, e⟩ | ⟨-, e⟩ <;> rw [e] <;> simp [*]
  · intro vc h; rw [Voice.inNum_iff] at h ⊢
    obtain ⟨⟨a1, a2, a3, a4⟩, ⟨b1, b2, b3, b4, b5, b6⟩, c1, c2, c3, c4, c5⟩ := h; simp [Voice.envSilence, *]
  · intro vc a d u r h _ _ hu' _ ha hd hu hr; rw [Voice.inNum_iff] at h ⊢
    obtain ⟨⟨a1, a2, a3, a4⟩, ⟨b1, b2, b3, b4, b5, b6⟩, c1, c2, c3, c4, c5⟩ := h
    have ha := ha hi.out; have hd := hd hi.out; have hr := hr hi.out
    simp [Voice.setEnvelope, Voice.reconvert, inFmt_clampUnit (isNaN_of_finite hu') (hu hi.out), *]
  · intro vc sel x h _ hx; rw [Voice.inNum_iff] at h ⊢
    obtain ⟨⟨a1, a2, a3, a4⟩, ⟨b1, b2, b3, b4, b5, b6⟩, c1, c2, c3, c4, c5⟩ := h; have hx := hx hi.out; simp [Voice.setFilter, *]
  · intro vc x h _ _ _ _ _; rw [Voice.inNum_iff] at h ⊢
    obtain ⟨⟨a1, a2, a3, a4⟩, ⟨b1, b2, b3, b4, b5, b6⟩, c1, c2, c3, c4, c5⟩ := h; simp [Voice.rerate, Voice.reconvert, *]
  · intro vc n h hok
    exact Voice.ticks_induction (P := fun vc => vc.InNum s.params.num) (fun vc h _ _ => Voice.ticked_inNum h) n h hok
  · intro vc h _; exact Voice.advance_inNum h
  · intro vc h; rw [Voice.inNum_iff] at h ⊢
    obtain ⟨⟨a1, a2, a3, a4⟩, ⟨b1, b2, b3, b4, b5, b6⟩, c1, c2, c3, c4, c5⟩ := h; simp [*]
  · intro vc h; exact Voice.envStep_inNum h
  · intro vc c x h _ hx; exact Voice.filtered_inNum h c (hx hi.out)
  · intro vc h; rw [Voice.inNum_iff] at h ⊢
    obtain ⟨⟨a1, a2, a3, a4⟩, ⟨b1, b2, b3, b4, b5, b6⟩, c1, c2, c3, c4, c5⟩ := h; simp [Voice.filterZeroed, *]

/-- A completed command leaves values of NUM in every register of kind `num`. -/
theorem effect_inNum {i : Instr} {s t : State} [Fact (s.params.num.ieee = true)] (h : Effect i s t) (hs : s.InNum) : t.InNum := by
  have hp := (effect_keeps h).1
  obtain ⟨hfs, hv, hrom⟩ := hs
  have hf : t.fs = s.fs ∨ inFmt s.params.num t.fs = true := by cases h <;> simp
  have hr : t.filterRom = s.filterRom ∨ ∃ x, t.filterRom = generateFilterRom s.params.num x := by cases h <;> simp
  rw [State.InNum, hp]
  refine ⟨hf.elim (fun e => e ▸ hfs) id, effect_voices_inNum h hv, ?_⟩
  rcases hr with e | ⟨x, e⟩ <;> rw [e]
  · exact hrom
  · exact generateFilterRom_inNum x

/-- A completed command lists no element outside the buffer. -/
theorem effect_inside {i : Instr} {s t : State} (h : Effect i s t) (hs : s.BufferInside) : t.BufferInside := by
  by_cases hr : ∃ v n off, i = .render v n off
  · obtain ⟨v, n, off, rfl⟩ := hr
    cases h with
    | render _ _ hv hb hok => exact State.rendered_inside hs hb
  · have ho : t.out = s.out := by cases h <;> first | simp | exact absurd ⟨_, _, _, rfl⟩ hr
    unfold State.BufferInside
    rw [ho, (effect_keeps h).1]
    exact hs

end Sys2Proof.Machine
end

