-- ==== Sys2Proof/Laws/Good.lean ====
section
/-! SUPPORT. What the good standing of Safety.lean gives: bounds on the bank frequencies and the rate, and ticks that execute normally. -/

namespace Sys2Proof.Machine

open Sys2Proof Sys2Proof.Config Sys2Proof.NumVal

variable {nf : Arith} [Fact (nf.ieee = true)]

theorem State.resetWith_romsMatch (params : Params) (numVoices : Nat) (out : List Memory) :
    (State.resetWith params numVoices out).RomsMatch := by simp [State.RomsMatch]

/-- The bound on the rate, 2^52 Hz. -/
theorem rateBound_spec (hw : nf.wide = true) : (rateBound nf).finite = true ∧
    (rateBound nf).mag = 2 ^ 52 * unitMag nf ∧ (rateBound nf).isNeg = false := by
  have := ofUnits_rep (nf := nf) (neg := false) Nat.one_pos (Rep.two_pow nf 52) (mul_unitMag_lt hw (by norm_num))
  rw [Nat.mul_one] at this
  rw [rateBound, NumVal.ofNat, this]
  exact ⟨rfl, rfl, rfl⟩

/-- F_LO is exactly 20.0 (00_scope.md R7). -/
theorem fLo_spec (hw : nf.wide = true) :
    (NumVal.fLo nf).finite = true ∧ (NumVal.fLo nf).mag = 20 * unitMag nf ∧ (NumVal.fLo nf).isNeg = false :=
  ofNat_small hw (by norm_num)

/-- The unit is a multiple of the powers of two the bounds below are stated with. -/
theorem unitMag_split (hw : nf.wide = true) {k : Nat} (hk : k ≤ 24) :
    unitMag nf = 2 ^ k * 2 ^ (nf.format.unitBits - k) := by
  have := wide_iff.1 hw
  have := unitBits_add nf
  rw [unitMag_eq, ← pow_add]; congr 1; omega

omit [Fact (nf.ieee = true)] in
/-- A power of two of at most 2^100 lies below the overflow. -/
theorem pow_lt_overflow (hw : nf.wide = true) {b : Nat} (h : b ≤ nf.format.unitBits + 100) : 2 ^ b < overflowMag nf := by
  rw [overflowMag_eq]
  exact Nat.pow_lt_pow_right (by norm_num) (by have := wide_iff.1 hw; omega)

/-- A literal between two magnitudes of the format stays between them when it is rounded. -/
theorem ofRat_bounds {n d a b : Nat} (hd : 0 < d) (ha : Rep nf a) (hb : Rep nf b) (hlt : b < overflowMag nf)
    (hlo : a * d ≤ n * unitMag nf) (hhi : n * unitMag nf ≤ b * d) :
    (NumVal.ofRat nf n d).finite = true ∧ (NumVal.ofRat nf n d).isNeg = false ∧
      a ≤ (NumVal.ofRat nf n d).mag ∧ (NumVal.ofRat nf n d).mag ≤ b := by
  obtain ⟨h1, h2, h3⟩ := ofUnits_mag_le (nf := nf) (neg := false) hd hb hlt hhi
  refine ⟨h2, (ofUnits_spec nf false _ _).2.2.2, ?_, h1⟩
  rw [NumVal.ofRat, h3]
  exact le_roundMag hd ha hlo

/-- FS_MIN lies between 64 and 256 Hz. -/
theorem fsMin_spec (hw : nf.wide = true) : (NumVal.fsMin nf).finite = true ∧ (NumVal.fsMin nf).isNeg = false ∧
    64 * unitMag nf ≤ (NumVal.fsMin nf).mag ∧ (NumVal.fsMin nf).mag ≤ 256 * unitMag nf := by
  obtain ⟨e, he⟩ : ∃ e, 2 ^ (nf.format.unitBits - 3) = e := ⟨_, rfl⟩
  have hu3 : unitMag nf = 8 * e := he ▸ unitMag_split hw (k := 3) (by norm_num)
  have hp := unitMag_pos nf
  have hlt := pow_lt_overflow hw (b := nf.format.unitBits - 2) (by omega)
  have h2 : 2 ^ (nf.format.unitBits - 2) = 2 * e := by
    have := wide_iff.1 hw; have := unitBits_add nf
    rw [← he, ← pow_succ', show nf.format.unitBits - 3 + 1 = nf.format.unitBits - 2 by omega]
  obtain ⟨r1, r2, r3, r4⟩ := ofRat_bounds (nf := nf) (n := 2375) (d := 10000) (by norm_num) (he ▸ Rep.pow _)
    (h2 ▸ Rep.pow _) (h2 ▸ hlt) (by rw [hu3]; omega) (by rw [hu3]; omega)
  obtain ⟨f1, f2, f3⟩ := fLo_spec hw
  have h0 : (NumVal.ofRat nf 2375 10000).mag ≠ 0 := by omega
  obtain ⟨g1, g2, g3⟩ := div_spec f1 r1 h0 (V := 256 * unitMag nf) (Rep.small hw (by norm_num))
    (mul_unitMag_lt hw (by norm_num)) (by
      rw [f2, Nat.mul_right_comm, Nat.mul_assoc 256, Nat.mul_comm (unitMag nf), ← Nat.mul_assoc]
      exact Nat.mul_le_mul_right _ (by omega))
  refine ⟨g1, by rw [NumVal.fsMin, g3, f3, r2]; rfl, ?_, g2⟩
  have hq := div_finite_eq (nf := nf) f1 r1 h0
  have hm := (ofUnits_spec nf ((NumVal.fLo nf).isNeg != (NumVal.ofRat nf 2375 10000).isNeg)
    ((NumVal.fLo nf).mag * unitMag nf) (NumVal.ofRat nf 2375 10000).mag).2.2.1 (hq ▸ g1)
  rw [NumVal.fsMin, hq, hm]
  refine le_roundMag (Nat.pos_of_ne_zero h0) (Rep.small hw (by norm_num)) ?_
  rw [f2, Nat.mul_right_comm]
  exact Nat.mul_le_mul_right _ (by omega)

/-- Every bank frequency is finite, positive and at least 1.0. -/
theorem bank_entry (hw : nf.wide = true) {bank : Vector NumVal numBankBins} (h : bankLegal nf bank = true)
    (b : Fin numBankBins) :
    (bank.get b).finite = true ∧ (bank.get b).isNeg = false ∧ unitMag nf ≤ (bank.get b).mag := by
  simp only [bankLegal, Bool.and_eq_true, decide_eq_true_eq, beq_iff_eq] at h
  obtain ⟨⟨⟨hp, -⟩, h0⟩, h58⟩ := h
  obtain ⟨l1, l2, l3⟩ := fLo_spec hw
  obtain ⟨l4, -, -⟩ := ofNat_small hw (n := 20000) (by norm_num)
  rw [List.pairwise_iff_getElem] at hp
  have hl : bank.toList.length = 59 := by simp
  have key : ∀ i j : Fin numBankBins, i < j → NumVal.lt (bank.get i) (bank.get j) = true := by
    intro i j hij
    have := hp i.val j.val (by rw [hl]; exact i.isLt) (by rw [hl]; exact j.isLt) hij
    simpa [Vector.get_eq_getElem] using this
  have lo : b ≠ 0 → NumVal.lt (NumVal.fLo nf) (bank.get b) = true := fun hb => h0 ▸ key 0 b (Fin.pos_of_ne_zero hb)
  have hi : b ≠ 58 → NumVal.lt (bank.get b) (NumVal.ofNat nf 20000) = true :=
    fun hb => h58 ▸ key b 58 (lt_of_le_of_ne (Fin.le_last b) hb)
  rcases eq_or_ne b 0 with rfl | hb
  · rw [h0, l2]; exact ⟨l1, l3, Nat.le_mul_of_pos_left _ (by norm_num)⟩
  have hf : (bank.get b).finite = true := by
    rcases eq_or_ne b 58 with rfl | hb'
    · rw [h58]; exact l4
    · exact finite_of_between l1 l4 (le_of_lt (lo hb)) (le_of_lt (hi hb'))
  have := lo hb
  rw [lt_iff l1 hf, sval_of_not_neg l3, l2] at this
  have hn : (bank.get b).isNeg = false := by
    by_contra hc
    rw [Bool.not_eq_false] at hc
    have := sval_of_neg hc
    omega
  have := sval_of_not_neg hn
  exact ⟨hf, hn, by omega⟩

/-- A legal rate is a positive number. -/
theorem rateLegal_pos (hw : nf.wide = true) {fs : NumVal} (h : rateLegal nf fs = true) :
    fs.finite = true ∧ fs.isNeg = false ∧ 64 * unitMag nf ≤ fs.mag := by
  obtain ⟨m0, m1, m2, -⟩ := fsMin_spec hw
  simp only [rateLegal, Bool.and_eq_true] at h
  obtain ⟨hf, hl⟩ := h
  rw [lt_iff m0 hf, sval_of_not_neg m1] at hl
  have hn : fs.isNeg = false := by
    by_contra hc
    rw [Bool.not_eq_false] at hc
    have := sval_of_neg hc
    omega
  exact ⟨hf, hn, by have := sval_of_not_neg hn; omega⟩

theorem rate_within (hw : nf.wide = true) {fs : NumVal} (h1 : rateLegal nf fs = true)
    (h2 : NumVal.le fs (rateBound nf) = true) : Within (2 ^ 52 * unitMag nf) fs := by
  obtain ⟨l1, l2, l3⟩ := rateBound_spec hw
  obtain ⟨hf, hn, -⟩ := rateLegal_pos hw h1
  rw [le_iff hf l1, sval_of_not_neg l3, l2, sval_of_not_neg hn] at h2
  exact ⟨hf, by exact_mod_cast h2⟩

/-- The filter input of a voice in range is finite. -/
theorem tickInput_finite {s : State} [Fact (s.params.num.ieee = true)] {vc : Voice} (hw : s.params.num.wide = true)
    (hb : bankLegal s.params.num s.params.bankFreq = true) (hr : rateLegal s.params.num s.fs = true)
    (hm : NumVal.le s.fs (rateBound s.params.num) = true) (hrom : s.RomsMatch) (hl : vc.LevelsInUnit s.params.num)
    (hc : vc.CountsBounded)
    (hp : phaseInRange s.params.num vc.oscPhase = true) : (vc.tickInput s).finite = true := by
  have hbin : vc.bankBin s = generateWaveBin s.params.num s.fs
      (s.params.bankFreq.get (nearestBankBin s.params.num s.params.bankFreq vc.oscFreq)) := by
    unfold Voice.bankBin; rw [hrom.1]; simp [generateWaveRom, Vector.get_eq_getElem]
  obtain ⟨b1, b2, b3⟩ := bank_entry hw hb (nearestBankBin s.params.num s.params.bankFreq vc.oscFreq)
  have ht : Within (3 * unitMag s.params.num) (tableSample s.params.num vc.oscWave (vc.bankBin s) vc.oscPhase) := by
    apply within_tableSample hw
    · rw [hbin]; exact harmonicCount_le _ _
    · rw [hbin]; exact tableLength_lt hw (rate_within hw hr hm) (rateLegal_pos hw hr).2.1 b1 b2 b3
    · exact inUnit_of_phaseInRange hp
  have h1 : Within (3 * unitMag s.params.num) (vc.oscOut s) :=
    Within.mul hw (b := 1) ht (by rw [Nat.one_mul]; exact Within.of_inUnit hl.1) (by norm_num)
      (Rep.small hw (by norm_num)) (by norm_num)
  have h2 : Within (1 * unitMag s.params.num) (vc.envStep s.params.num).envLevel := by
    rw [Nat.one_mul]
    exact Within.of_inUnit (Voice.envStep_levels (ofNat_cntMax_finite hw) hc hl).2.2.1
  exact (Within.mul hw (c := 3) h1 h2 (by norm_num) (Rep.small hw (by norm_num)) (by norm_num)).1

theorem delta_in_range {vc : Voice} {fs : NumVal} {rom : FilterRom} (hfs : fs.finite = true)
    (hn : inFmt nf fs = true) (h : vc.RateMatch nf fs rom) (hi : vc.InNum nf) (hf : vc.oscFreq.finite = true)
    (h0 : NumVal.le NumVal.zero vc.oscFreq = true) (h1 : NumVal.lt vc.oscFreq fs = true) : vc.DeltaInRange nf := by
  unfold Voice.DeltaInRange
  rw [h.1]
  rw [le_iff zero_spec.1 hf, zero_spec.2.2.2.1] at h0
  rw [lt_iff hf hfs] at h1
  exact phaseInRange_delta hf hfs (Voice.inNum_iff.1 hi).1.1 hn h0 h1

/-- Every tick of a voice in range executes normally. -/
theorem ticksOk_of_range {s : State} [Fact (s.params.num.ieee = true)] (hw : s.params.num.wide = true)
    (hb : bankLegal s.params.num s.params.bankFreq = true) (hr : rateLegal s.params.num s.fs = true)
    (hm : NumVal.le s.fs (rateBound s.params.num) = true) (hrom : s.RomsMatch) (n : Nat) {vc : Voice} (hi : vc.InNum s.params.num)
    (hl : vc.LevelsInUnit s.params.num)
    (hc : vc.CountsBounded) (hp : phaseInRange s.params.num vc.oscPhase = true) (hd : vc.DeltaInRange s.params.num) :
    Voice.ticksOk s n vc = true := by
  induction n generalizing vc with
  | zero => rfl
  | succ n ih =>
    obtain ⟨h1, h2⟩ := Voice.ticked_levels (s := s) (ofNat_cntMax_finite hw) hc hl
    have hnum := Voice.inNum_iff.1 hi
    have hn := ih (Voice.ticked_inNum hi) h1 h2
      (by have := phaseInRange_advance hp hd hnum.1.2.1 hnum.1.2.2.1; simpa [Voice.ticked] using this)
      (by simpa [Voice.DeltaInRange, Voice.ticked] using hd)
    simp [Voice.ticksOk, hp, tickInput_finite hw hb hr hm hrom hl hc hp, hn]

/-! ### The cutoff of bin 0 (43_filter.md R110) -/

theorem mul_comm_finite {x y : NumVal} (hx : x.finite = true) (hy : y.finite = true) : mul nf x y = mul nf y x := by
  rw [mul_finite_eq hx hy, mul_finite_eq hy hx, Nat.mul_comm]; cases x.isNeg <;> cases y.isNeg <;> rfl

/-- A product of two positive values: the second at most 1.0 and at least 0.5. -/
theorem mul_half {x y : NumVal} {e : Nat} (hx : x.finite = true) (hxn : inFmt nf x = true) (hn : x.isNeg = false)
    (hlo : 2 ^ (e + 1) ≤ x.mag) (hy : y.finite = true) (hyn : y.isNeg = false) (h1 : unitMag nf ≤ 2 * y.mag)
    (h2 : y.mag ≤ unitMag nf) :
    (mul nf x y).finite = true ∧ (mul nf x y).isNeg = false ∧ 2 ^ e ≤ (mul nf x y).mag := by
  obtain ⟨hr, hlt⟩ := mag_rep hxn hx
  obtain ⟨hf, -, hs⟩ := mul_spec hx hy hr hlt (Nat.mul_le_mul_left _ h2)
  refine ⟨hf, by rw [hs, hn, hyn]; rfl, ?_⟩
  rw [mul_finite_eq hx hy] at hf ⊢
  rw [(ofUnits_spec nf _ _ _).2.2.1 hf]
  refine le_roundMag (unitMag_pos nf) (Rep.pow e) ?_
  calc 2 ^ e * unitMag nf ≤ 2 ^ e * (2 * y.mag) := Nat.mul_le_mul_left _ h1
    _ = 2 ^ (e + 1) * y.mag := by rw [pow_succ]; ring
    _ ≤ x.mag * y.mag := Nat.mul_le_mul_right _ hlo

/-- A quotient of two positive values, the divisor at least 1.0 and at most 32.0. -/
theorem div_small {x y : NumVal} {e : Nat} (hx : x.finite = true) (hxn : inFmt nf x = true) (hn : x.isNeg = false)
    (hlo : 2 ^ (e + 5) ≤ x.mag) (hy : y.finite = true) (hyn : y.isNeg = false) (h1 : unitMag nf ≤ y.mag)
    (h2 : y.mag ≤ 32 * unitMag nf) :
    (div nf x y).finite = true ∧ (div nf x y).isNeg = false ∧ 2 ^ e ≤ (div nf x y).mag := by
  obtain ⟨hr, hlt⟩ := mag_rep hxn hx
  have h0 : y.mag ≠ 0 := by have := unitMag_pos nf; omega
  obtain ⟨hf, -, hs⟩ := div_spec hx hy h0 hr hlt (Nat.mul_le_mul_left _ h1)
  refine ⟨hf, by rw [hs, hn, hyn]; rfl, ?_⟩
  rw [div_finite_eq hx hy h0] at hf ⊢
  rw [(ofUnits_spec nf _ _ _).2.2.1 hf]
  refine le_roundMag (Nat.pos_of_ne_zero h0) (Rep.pow e) ?_
  calc 2 ^ e * y.mag ≤ 2 ^ e * (32 * unitMag nf) := Nat.mul_le_mul_left _ h2
    _ = 2 ^ (e + 5) * unitMag nf := by rw [pow_add]; ring
    _ ≤ x.mag * unitMag nf := Nat.mul_le_mul_right _ hlo

/-- A literal between 0.5 and 1.0. -/
theorem ofRat_half (hw : nf.wide = true) {n d : Nat} (hd : 0 < d) (h1 : d ≤ 2 * n) (h2 : n ≤ d) :
    (NumVal.ofRat nf n d).finite = true ∧ (NumVal.ofRat nf n d).isNeg = false ∧
      unitMag nf ≤ 2 * (NumVal.ofRat nf n d).mag ∧ (NumVal.ofRat nf n d).mag ≤ unitMag nf := by
  have hu : unitMag nf = 2 * 2 ^ (nf.format.unitBits - 1) := unitMag_split hw (k := 1) (by norm_num)
  obtain ⟨a, b, c, d⟩ := ofRat_bounds (nf := nf) (n := n) (a := 2 ^ (nf.format.unitBits - 1)) hd (Rep.pow _)
    Rep.unitMag (unitMag_lt_overflow nf)
    (by rw [hu, ← Nat.mul_assoc, Nat.mul_comm, Nat.mul_comm n]; exact Nat.mul_le_mul_right _ h1)
    (by rw [Nat.mul_comm]; exact Nat.mul_le_mul_left _ h2)
  exact ⟨a, b, hu ▸ Nat.mul_le_mul_left 2 c, d⟩

/-- At a legal rate the base of the cutoff power is finite and positive. -/
theorem cutoff_base (hw : nf.wide = true) {fs : NumVal} (hi : inFmt nf fs = true) (h : rateLegal nf fs = true) :
    (div nf (filterTop nf fs) (fLo nf)).finite = true ∧ 0 < (div nf (filterTop nf fs) (fLo nf)).sval := by
  obtain ⟨c1, c2, c3, c4⟩ := ofRat_half hw (n := 95) (d := 100) (by norm_num) (by norm_num) (by norm_num)
  obtain ⟨d1, d2, d3, d4⟩ := ofRat_half hw (n := 1) (d := 2) (by norm_num) (by norm_num) (by norm_num)
  obtain ⟨l1, l2, l3⟩ := fLo_spec hw
  obtain ⟨hf, hn, hm⟩ := rateLegal_pos hw h
  have hpos := unitMag_pos nf
  obtain ⟨u, hu⟩ : ∃ u, nf.format.unitBits = u + 10 := by
    have := wide_iff.1 hw; have := unitBits_add nf
    exact ⟨nf.format.unitBits - 10, by omega⟩
  have hm' : 2 ^ (u + 16) ≤ fs.mag := by
    have : 2 ^ (u + 16) = 64 * unitMag nf := by rw [unitMag_eq, hu, show u + 16 = 6 + (u + 10) by omega, pow_add]; norm_num
    omega
  obtain ⟨t1, t2, t3⟩ := ofNat_small hw (n := 2) (by norm_num)
  obtain ⟨a1, a2, a3⟩ := div_small (e := u + 11) hf hi hn hm' t1 t3 (by omega) (by omega)
  obtain ⟨b1, b2, b3⟩ := mul_half (e := u + 10) a1 (inFmt_div _ _) a2 a3 c1 c2 c3 c4
  rw [mul_comm_finite a1 c1] at b1 b2 b3
  obtain ⟨e1, e2, e3⟩ := mul_half (e := u + 9) b1 (inFmt_mul _ _) b2 b3 d1 d2 d3 d4
  obtain ⟨f1, f2, f3⟩ := div_small (e := u + 4) e1 (inFmt_mul _ _) e2 e3 l1 l3 (by omega) (by omega)
  refine ⟨by rw [filterTop]; exact f1, ?_⟩
  rw [filterTop, sval_of_not_neg f2]
  have := Nat.two_pow_pos (u + 4)
  omega

/-- `e^0` is 1.0. -/
theorem expFixed_zero : expFixed nf 0 = NumVal.one nf := by
  have hs : ∀ b, 1 ≤ b → expSeries b 0 b 0 (1 <<< b) = 1 <<< b := by
    intro b hb
    obtain ⟨c, rfl⟩ : ∃ c, b = c + 1 := ⟨b - 1, by omega⟩
    have hz : ∀ fuel k, expSeries (c + 1) 0 fuel k 0 = 0 := by intro fuel k; cases fuel <;> simp [expSeries]
    have h0 : (1 <<< (c + 1) : Nat) ≠ 0 := by rw [Nat.one_shiftLeft]; positivity
    rw [expSeries, if_neg h0, Nat.mul_zero, Nat.zero_shiftRight, Nat.zero_div, hz, Nat.add_zero]
  unfold expFixed
  dsimp only
  rw [Int.zero_ediv, Int.zero_emod, if_neg (by omega), if_neg (by omega), Int.toNat_zero,
    hs _ (by unfold powBits; omega), Int.zero_add, Int.toNat_natCast, one_eq]
  have : (1 <<< powBits nf * unitMag nf) <<< powRange nf = unitMag nf * 1 <<< (powBits nf + powRange nf) := by
    simp only [Nat.shiftLeft_eq, Nat.one_mul, pow_add]; ring
  rw [this]
  exact ofUnits_rep (by rw [Nat.one_shiftLeft]; positivity) Rep.unitMag (unitMag_lt_overflow nf)

theorem mul_one_eq {x : NumVal} (hf : x.finite = true) (hi : inFmt nf x = true) : mul nf x (NumVal.one nf) = x := by
  obtain ⟨hr, ho⟩ := mag_rep hi hf
  rw [mul_finite_eq hf one_spec.1, one_mag, ofUnits_rep (unitMag_pos nf) hr ho, one_spec.2.2, Bool.bne_false,
    ← fin_of_finite hf]

/-- At a legal rate the first cutoff is 20.0 (43_filter.md R110). -/
theorem filterCutoff_zero (hw : nf.wide = true) {fs : NumVal} (hi : inFmt nf fs = true) (h : rateLegal nf fs = true) :
    filterCutoff nf fs 0 = NumVal.ofNat nf 20 := by
  obtain ⟨a, b, c⟩ := ofNat_pos_parts (nf := nf) 49 (by norm_num)
  have z : NumVal.div nf (NumVal.ofNat nf 0) (NumVal.ofNat nf 49) = NumVal.zero := by
    rw [ofNat_zero]; exact zero_div_eq a b c
  obtain ⟨h1, h2⟩ := cutoff_base hw hi h
  rw [filterCutoff, z, pow_finite_eq h1 zero_spec.1 h2, zero_spec.2.2.2.1, Int.zero_mul, Int.zero_ediv, expFixed_zero,
    mul_one_eq (fLo_spec hw).1 (inFmt_ofNat _)]
  rfl

end Sys2Proof.Machine
end

