-- ==== Sys2Proof/Laws/Opcodes.lean ====
section
/-! SUPPORT. The opcode map by rows (Decode.lean) and by columns (Safety.lean) say the same; a step on a stream that has no decoding. -/

namespace Sys2Proof.Machine

open Sys2Proof

/-- A row agrees with the columns. -/
def rowAgrees (r : OpRow) : Bool :=
  decide (r.op ∈ listedOpcodes ∧ (r.sel = true ↔ r.op ∈ selOpcodes) ∧ (r.bin = true ↔ r.op ∈ binOpcodes) ∧
    (r.cix = true ↔ r.op ∈ cixOpcodes) ∧ (r.voice = true ↔ r.op ∉ globalOpcodes) ∧
    r.operands.length = wordCount r.op ∧
    ∀ j : Fin 4, r.operands[j.val]? = some OperandKind.u32 ↔ (r.op, j.val) ∈ u32Positions)

theorem opTable_agrees : ∀ r ∈ opTable, rowAgrees r = true := by decide

theorem listed_found : ∀ o ∈ listedOpcodes, (findRow o).isSome = true := by decide

theorem findRow_agrees {o : Nat} {r : OpRow} (h : findRow o = some r) : r.op = o ∧ rowAgrees r = true := by
  have := List.find?_some h
  exact ⟨by simpa using this, opTable_agrees r (List.mem_of_find?_eq_some h)⟩

theorem findRow_unlisted {o : Nat} (h : o ∉ listedOpcodes) : findRow o = none := by
  cases hr : findRow o with
  | none => rfl
  | some r =>
    obtain ⟨h1, h2⟩ := findRow_agrees hr
    simp only [rowAgrees, decide_eq_true_eq] at h2
    exact absurd (h1 ▸ h2.1) h

theorem operandCount_eq (o : Nat) : operandCount o = wordCount o := by
  unfold operandCount
  by_cases h : o ∈ listedOpcodes
  · obtain ⟨r, hr⟩ := Option.isSome_iff_exists.1 (listed_found o h)
    obtain ⟨h1, h2⟩ := findRow_agrees hr
    simp only [rowAgrees, decide_eq_true_eq] at h2
    rw [hr]; subst h1; exact h2.2.2.2.2.2.1
  · rw [findRow_unlisted h]
    simp [listedOpcodes] at h
    simp [wordCount, h]

theorem wordCount_le (o : Nat) : wordCount o ≤ 4 := by
  unfold wordCount; split_ifs <;> omega

theorem badOperand_iff (ks : List OperandKind) (ops : List Nat) (h : ks.length = ops.length) :
    badOperandAmong ks ops = true ↔
      ∃ (j w : Nat), ops[j]? = some w ∧ ks[j]? = some OperandKind.u32 ∧ 2 ^ 32 ≤ w := by
  induction ks generalizing ops with
  | nil => cases ops <;> simp_all [badOperandAmong]
  | cons k ks ih =>
    cases ops with
    | nil => simp at h
    | cons w ws =>
      have := ih ws (by simpa using h)
      constructor
      · intro hb
        cases k with
        | u32 =>
          simp only [badOperandAmong, Bool.or_eq_true] at hb
          rcases hb with hb | hb
          · exact ⟨0, w, rfl, rfl, by simpa [u32Fits] using hb⟩
          · obtain ⟨j, x, a, b, c⟩ := this.1 hb
            exact ⟨j + 1, x, by simpa using a, by simpa using b, c⟩
        | f64 =>
          simp only [badOperandAmong] at hb
          obtain ⟨j, x, a, b, c⟩ := this.1 hb
          exact ⟨j + 1, x, by simpa using a, by simpa using b, c⟩
      · rintro ⟨j, x, a, b, c⟩
        cases j with
        | zero =>
          simp at a b; subst a b
          have : u32Fits w = false := by simp [u32Fits]; omega
          simp [badOperandAmong, this]
        | succ j =>
          have := this.2 ⟨j, x, by simpa using a, by simpa using b, c⟩
          cases k <;> simp [badOperandAmong, this]

/-- Item 5 of R65 by rows and by columns. -/
theorem operandTooLarge_iff {r : OpRow} {cw : Nat} {ops : List Nat} (h : findRow (cw % 2 ^ 8) = some r)
    (hl : ops.length = wordCount (cw % 2 ^ 8)) : badOperandAmong r.operands ops = true ↔ OperandTooLarge cw ops := by
  obtain ⟨h1, h2⟩ := findRow_agrees h
  simp only [rowAgrees, decide_eq_true_eq] at h2
  obtain ⟨_, _, _, _, _, h3, h4⟩ := h2
  rw [badOperand_iff _ _ (by rw [hl, ← h1]; exact h3), OperandTooLarge, ← h1]
  have small : ∀ j w, ops[j]? = some w → j < 4 := by
    intro j w a
    have := (List.getElem?_eq_some_iff.1 a).1
    have := wordCount_le (cw % 2 ^ 8); omega
  constructor
  · rintro ⟨j, w, a, b, c⟩; exact ⟨j, w, a, (h4 ⟨j, small j w a⟩).1 b, c⟩
  · rintro ⟨j, w, a, b, c⟩; exact ⟨j, w, a, (h4 ⟨j, small j w a⟩).2 b, c⟩

/-- Items 2 and 3 of R65 by rows and by columns. -/
theorem fieldSet_iff {r : OpRow} {cw : Nat} (hcw : cw < 2 ^ 32) (h : findRow (cw % 2 ^ 8) = some r) :
    (fieldRsv cw ≠ 0 ∨ unusedFieldSet r cw = true) ↔ FieldSet cw := by
  obtain ⟨h1, h2⟩ := findRow_agrees h
  simp only [rowAgrees, decide_eq_true_eq] at h2
  obtain ⟨_, hs, hb, hc, hv, _⟩ := h2
  have e : fieldRsv cw = cw / 2 ^ 24 := by
    unfold fieldRsv; exact Nat.mod_eq_of_lt (by omega)
  rw [h1] at hs hb hc hv
  simp only [unusedFieldSet, FieldSet, fieldSel, fieldBin, fieldCix, fieldVoice, e, ← hs, ← hb, ← hc, Bool.or_eq_true,
    Bool.and_eq_true, Bool.not_eq_true', bne_iff_ne, ne_eq, Bool.not_eq_true, or_assoc]
  have : (r.voice = false) ↔ cw % 2 ^ 8 ∈ globalOpcodes := by
    have := not_congr hv; simpa using this
  rw [this]

/-- Item 4 of R65 by rows and by columns. -/
theorem voiceMissing_iff {n : Nat} {r : OpRow} {cw : Nat} (h : findRow (cw % 2 ^ 8) = some r) :
    (r.voice && decide (n ≤ fieldVoice cw)) = true ↔ VoiceMissing n cw := by
  obtain ⟨h1, h2⟩ := findRow_agrees h
  simp only [rowAgrees, decide_eq_true_eq] at h2
  obtain ⟨_, _, _, _, hv, _⟩ := h2
  rw [h1] at hv
  simp only [VoiceMissing, fieldVoice, ← hv, Bool.and_eq_true]
  exact and_congr_right fun _ => decide_eq_true_iff

/-- A step on a stream that has no decoding. -/
theorem step_undecoded {s : State} {e : DecodeError} (ho : s.outcome = none) (hs : s.stream ≠ [])
    (h : decode s.voices.length s.stream = .error e) : step s = refuse e.reason e.cw s := by
  have hf : fetch s = .error e := by unfold fetch; rw [h]
  unfold step
  rw [hf, if_neg (by simp [ho]), if_neg (by simpa using hs)]

/-- A run that has met a refusal or a fault takes no further step. -/
theorem step_ended {s : State} (h : s.outcome ≠ none) : step s = .refused .runEnded := by
  unfold step; rw [if_pos]; simpa [Option.isSome_iff_ne_none] using h

end Sys2Proof.Machine
end

