-- ==== Sys2Proof/Laws/PerInstr.lean ====
section
/-! SUPPORT. Statements made per command: the length of a command's encoding is the one its opcode fixes (30_encoding.md R57, R60), so a stream's commands can be told apart. -/

namespace Sys2Proof.Laws

open Sys2Proof Sys2Proof.Machine

/-- A command's encoding is its command word and as many operand words as its opcode's row of R64 has. -/
def EncodeLength.Statement (i : Instr) : Prop :=
  (encode i).length = 4 + 8 * wordCount i.parts.op ∧ i.parts.op ∈ listedOpcodes

theorem EncodeLength.of_parts (i : Instr) (h : i.parts.operands.length = wordCount i.parts.op)
    (hl : i.parts.op ∈ listedOpcodes) : EncodeLength.Statement i := by
  refine ⟨?_, hl⟩
  rw [encode, List.length_append, leBytes_length, flatMap_leBytes_length, h]

theorem EncodeLength.setNote (v m : Nat) :
    EncodeLength.Statement (.setNote v m) := EncodeLength.of_parts _ rfl (by simp [Instr.parts, listedOpcodes])
theorem EncodeLength.setFreq (v : Nat) (x : OperandWord) :
    EncodeLength.Statement (.setFreq v x) := EncodeLength.of_parts _ rfl (by simp [Instr.parts, listedOpcodes])
theorem EncodeLength.setAmp (v : Nat) (x : OperandWord) :
    EncodeLength.Statement (.setAmp v x) := EncodeLength.of_parts _ rfl (by simp [Instr.parts, listedOpcodes])
theorem EncodeLength.setWave (v sel : Nat) :
    EncodeLength.Statement (.setWave v sel) := EncodeLength.of_parts _ rfl (by simp [Instr.parts, listedOpcodes])
theorem EncodeLength.startNote (v : Nat) :
    EncodeLength.Statement (.startNote v) := EncodeLength.of_parts _ rfl (by simp [Instr.parts, listedOpcodes])
theorem EncodeLength.stopNote (v : Nat) :
    EncodeLength.Statement (.stopNote v) := EncodeLength.of_parts _ rfl (by simp [Instr.parts, listedOpcodes])
theorem EncodeLength.setEnv (v : Nat) (a d u r : OperandWord) :
    EncodeLength.Statement (.setEnv v a d u r) := EncodeLength.of_parts _ rfl (by simp [Instr.parts, listedOpcodes])
theorem EncodeLength.setFilter (v sel : Nat) (x : OperandWord) :
    EncodeLength.Statement (.setFilter v sel x) := EncodeLength.of_parts _ rfl (by simp [Instr.parts, listedOpcodes])
theorem EncodeLength.setSampleRate (x : OperandWord) :
    EncodeLength.Statement (.setSampleRate x) := EncodeLength.of_parts _ rfl (by simp [Instr.parts, listedOpcodes])
theorem EncodeLength.render (v n off : Nat) :
    EncodeLength.Statement (.render v n off) := EncodeLength.of_parts _ rfl (by simp [Instr.parts, listedOpcodes])
theorem EncodeLength.oscNext (v : Nat) :
    EncodeLength.Statement (.oscNext v) := EncodeLength.of_parts _ rfl (by simp [Instr.parts, listedOpcodes])
theorem EncodeLength.oscResetPhase (v : Nat) :
    EncodeLength.Statement (.oscResetPhase v) := EncodeLength.of_parts _ rfl (by simp [Instr.parts, listedOpcodes])
theorem EncodeLength.envAttack (v : Nat) :
    EncodeLength.Statement (.envAttack v) := EncodeLength.of_parts _ rfl (by simp [Instr.parts, listedOpcodes])
theorem EncodeLength.envRelease (v : Nat) :
    EncodeLength.Statement (.envRelease v) := EncodeLength.of_parts _ rfl (by simp [Instr.parts, listedOpcodes])
theorem EncodeLength.envReset (v : Nat) :
    EncodeLength.Statement (.envReset v) := EncodeLength.of_parts _ rfl (by simp [Instr.parts, listedOpcodes])
theorem EncodeLength.envNext (v : Nat) :
    EncodeLength.Statement (.envNext v) := EncodeLength.of_parts _ rfl (by simp [Instr.parts, listedOpcodes])
theorem EncodeLength.envActive (v : Nat) :
    EncodeLength.Statement (.envActive v) := EncodeLength.of_parts _ rfl (by simp [Instr.parts, listedOpcodes])
theorem EncodeLength.fltProcess (v : Nat) (x : OperandWord) :
    EncodeLength.Statement (.fltProcess v x) := EncodeLength.of_parts _ rfl (by simp [Instr.parts, listedOpcodes])
theorem EncodeLength.fltReset (v : Nat) :
    EncodeLength.Statement (.fltReset v) := EncodeLength.of_parts _ rfl (by simp [Instr.parts, listedOpcodes])
theorem EncodeLength.wtRead (sel bin n : Nat) :
    EncodeLength.Statement (.wtRead sel bin n) := EncodeLength.of_parts _ rfl (by simp [Instr.parts, listedOpcodes])
theorem EncodeLength.wtLen (bin : Nat) :
    EncodeLength.Statement (.wtLen bin) := EncodeLength.of_parts _ rfl (by simp [Instr.parts, listedOpcodes])
theorem EncodeLength.wtFreq (bin : Nat) :
    EncodeLength.Statement (.wtFreq bin) := EncodeLength.of_parts _ rfl (by simp [Instr.parts, listedOpcodes])
theorem EncodeLength.fcRead (sel bin cix : Nat) :
    EncodeLength.Statement (.fcRead sel bin cix) := EncodeLength.of_parts _ rfl (by simp [Instr.parts, listedOpcodes])
theorem EncodeLength.fcCutoff (bin : Nat) :
    EncodeLength.Statement (.fcCutoff bin) := EncodeLength.of_parts _ rfl (by simp [Instr.parts, listedOpcodes])

end Sys2Proof.Laws
end

