-- ==== Sys2Proof/Machine/Assembly.lean ====
section
/-! DEFINITION. The assembly syntax of 30_encoding.md R68: a command as text. An F64 operand is written in its raw form `f64:0x<16 hex digits>`. -/

namespace Sys2Proof.Machine

open Sys2Proof

/-- A command's mnemonic (30_encoding.md R64). -/
def mnemonic : Instr → String
  | .setNote _ _ => "SET_NOTE"
  | .setFreq _ _ => "SET_FREQ"
  | .setAmp _ _ => "SET_AMP"
  | .setWave _ _ => "SET_WAVE"
  | .startNote _ => "START_NOTE"
  | .stopNote _ => "STOP_NOTE"
  | .setEnv _ _ _ _ _ => "SET_ENV"
  | .setFilter _ _ _ => "SET_FILTER"
  | .setSampleRate _ => "SET_SAMPLE_RATE"
  | .render _ _ _ => "RENDER"
  | .oscNext _ => "OSC_NEXT"
  | .oscResetPhase _ => "OSC_RESET_PHASE"
  | .envAttack _ => "ENV_ATTACK"
  | .envRelease _ => "ENV_RELEASE"
  | .envReset _ => "ENV_RESET"
  | .envNext _ => "ENV_NEXT"
  | .envActive _ => "ENV_ACTIVE"
  | .fltProcess _ _ => "FLT_PROCESS"
  | .fltReset _ => "FLT_RESET"
  | .wtRead _ _ _ => "WT_READ"
  | .wtLen _ => "WT_LEN"
  | .wtFreq _ => "WT_FREQ"
  | .fcRead _ _ _ => "FC_READ"
  | .fcCutoff _ => "FC_CUTOFF"

/-- A hexadecimal digit. -/
def hexDigit (n : Nat) : Char := (Nat.digitChar n).toUpper

/-- The `count` low hexadecimal digits of `n`, the most significant first. -/
def hexDigits : Nat → Nat → List Char
  | 0, _ => []
  | count + 1, n => hexDigits count (n / 16) ++ [hexDigit (n % 16)]

/-- An F64 operand as text. -/
def asmF64 (w : OperandWord) : String := "f64:0x" ++ String.ofList (hexDigits 16 w.toNat)

/-- A waveform selector as text: by name for 0 .. 3. -/
def asmWave : Nat → String
  | 0 => "sine"
  | 1 => "saw"
  | 2 => "square"
  | 3 => "triangle"
  | n => "sel=" ++ toString n

/-- A filter-type selector as text: by name for 0 .. 2. -/
def asmFilter : Nat → String
  | 0 => "lowpass"
  | 1 => "highpass"
  | 2 => "bandpass"
  | n => "sel=" ++ toString n

/-- A voice operand as text. -/
def asmVoice (v : Nat) : String := "v" ++ toString v

/-- A command's operands as text, in the order of R68. -/
def asmOperands : Instr → List String
  | .setNote v m => [asmVoice v, toString m]
  | .setFreq v f => [asmVoice v, asmF64 f]
  | .setAmp v a => [asmVoice v, asmF64 a]
  | .setWave v s => [asmVoice v, asmWave s]
  | .startNote v => [asmVoice v]
  | .stopNote v => [asmVoice v]
  | .setEnv v a d s r => [asmVoice v, asmF64 a, asmF64 d, asmF64 s, asmF64 r]
  | .setFilter v s c => [asmVoice v, asmFilter s, asmF64 c]
  | .setSampleRate h => [asmF64 h]
  | .render v n off => [asmVoice v, toString n, toString off]
  | .oscNext v => [asmVoice v]
  | .oscResetPhase v => [asmVoice v]
  | .envAttack v => [asmVoice v]
  | .envRelease v => [asmVoice v]
  | .envReset v => [asmVoice v]
  | .envNext v => [asmVoice v]
  | .envActive v => [asmVoice v]
  | .fltProcess v x => [asmVoice v, asmF64 x]
  | .fltReset v => [asmVoice v]
  | .wtRead s b n => ["sel=" ++ toString s, "bin=" ++ toString b, toString n]
  | .wtLen b => ["bin=" ++ toString b]
  | .wtFreq b => ["bin=" ++ toString b]
  | .fcRead s b c => ["sel=" ++ toString s, "bin=" ++ toString b, "c=" ++ toString c]
  | .fcCutoff b => ["bin=" ++ toString b]

/-- A command as text: `MNEMONIC operand, operand, ...` (R68). -/
def asm (i : Instr) : String := mnemonic i ++ " " ++ String.intercalate ", " (asmOperands i)

end Sys2Proof.Machine
end

