-- ==== Sys2Proof/Tests/Slice0.lean ====
section
/-! SUPPORT. Tests: ill-formed commands, the decoding of every command from a word written out by hand, one or two small tests per command with values of 95_test_vectors.md, and a witness for the hypotheses of every statement. -/

namespace Sys2Proof.Tests

set_option Elab.async false

open Sys2Proof Sys2Proof.Config Sys2Proof.Machine

/-! ### WellFormed refuses each ill-formed field (30_encoding.md R58, R59) -/

theorem test_wf_voice : (Instr.startNote 16).wellFormed = false ∧ (Instr.startNote 15).wellFormed = true := by decide
theorem test_wf_sel : (Instr.setWave 0 16).wellFormed = false ∧ (Instr.setWave 0 15).wellFormed = true := by decide
theorem test_wf_bin : (Instr.wtLen 64).wellFormed = false ∧ (Instr.wtLen 63).wellFormed = true := by decide
theorem test_wf_cix : (Instr.fcRead 0 0 4).wellFormed = false ∧ (Instr.fcRead 0 0 3).wellFormed = true := by decide
theorem test_wf_u32 : (Instr.setNote 0 4294967296).wellFormed = false ∧
    (Instr.setNote 0 4294967295).wellFormed = true := by decide
theorem test_wf_render : (Instr.render 0 4294967296 0).wellFormed = false ∧
    (Instr.render 0 0 4294967296).wellFormed = false ∧ (Instr.wtRead 0 0 4294967296).wellFormed = false := by decide

/-! ### Decoding: a word of every command, its fields placed by R58 (OP 7..0, SEL 11..8, BIN 17..12, CIX 19..18, VOICE
23..20), its operand words after it -/

theorem test_decode_setNote : decodeTableWord 96 0x000000000000004500300001 = some (.setNote 3 69) := by decide
theorem test_decode_setFreq :
    decodeTableWord 96 0x407B80000000000000F00002 = some (.setFreq 15 0x407B800000000000#64) := by decide
theorem test_decode_setAmp :
    decodeTableWord 96 0xBFC999999999999A00000003 = some (.setAmp 0 0xBFC999999999999A#64) := by decide
theorem test_decode_setWave : decodeTableWord 32 0x00100104 = some (.setWave 1 1) ∧
    decodeTableWord 32 0x00000904 = some (.setWave 0 9) := by decide
theorem test_decode_startNote : decodeTableWord 32 0x00700005 = some (.startNote 7) := by decide
theorem test_decode_stopNote : decodeTableWord 32 0x00200006 = some (.stopNote 2) := by decide
theorem test_decode_setEnv :
    decodeTableWord 288 0x3F70624DD2F1A9FC3FE00000000000003F60624DD2F1A9FC3F689374BC6A7EFA00000007 =
      some (.setEnv 0 0x3F689374BC6A7EFA#64 0x3F60624DD2F1A9FC#64 0x3FE0000000000000#64 0x3F70624DD2F1A9FC#64) := by
  decide
theorem test_decode_setFilter :
    decodeTableWord 96 0x408F40000000000000000108 = some (.setFilter 0 1 0x408F400000000000#64) := by decide
theorem test_decode_setSampleRate :
    decodeTableWord 96 0x408F40000000000000000009 = some (.setSampleRate 0x408F400000000000#64) := by decide
theorem test_decode_render :
    decodeTableWord 160 0x000000000000000A00000000000000060040000A = some (.render 4 6 10) := by decide
theorem test_decode_oscNext : decodeTableWord 32 0x00100010 = some (.oscNext 1) := by decide
theorem test_decode_oscResetPhase : decodeTableWord 32 0x00200011 = some (.oscResetPhase 2) := by decide
theorem test_decode_envAttack : decodeTableWord 32 0x00300020 = some (.envAttack 3) := by decide
theorem test_decode_envRelease : decodeTableWord 32 0x00400021 = some (.envRelease 4) := by decide
theorem test_decode_envReset : decodeTableWord 32 0x00500022 = some (.envReset 5) := by decide
theorem test_decode_envNext : decodeTableWord 32 0x00600023 = some (.envNext 6) := by decide
theorem test_decode_envActive : decodeTableWord 32 0x00700024 = some (.envActive 7) := by decide
theorem test_decode_fltProcess :
    decodeTableWord 96 0x3FF000000000000000800030 = some (.fltProcess 8 0x3FF0000000000000#64) := by decide
theorem test_decode_fltReset : decodeTableWord 32 0x00900031 = some (.fltReset 9) := by decide
theorem test_decode_wtRead : decodeTableWord 96 0x000000000000000500000140 = some (.wtRead 1 0 5) := by decide
theorem test_decode_wtLen : decodeTableWord 32 0x0003A041 = some (.wtLen 58) := by decide
theorem test_decode_wtFreq : decodeTableWord 32 0x0003F042 = some (.wtFreq 63) := by decide
theorem test_decode_fcRead : decodeTableWord 32 0x000B1250 = some (.fcRead 2 49 2) ∧
    decodeTableWord 32 0x00040150 = some (.fcRead 1 0 1) := by decide
theorem test_decode_fcCutoff : decodeTableWord 32 0x00032051 = some (.fcCutoff 50) := by decide

/-- A sub-list of the refusals of 95_test_vectors.md L2.1, with NUM_VOICES = 8: why a command word and operands have no
decoding. -/
def reasonOf (bs : List Byte) : Option RefuseReason :=
  match decode 8 bs with
  | .ok _ => none
  | .error e => some e.reason

theorem test_refuse_op : reasonOf (leBytes 4 0x00000000) = some .illegalOp ∧
    reasonOf (leBytes 4 0x0000000B) = some .illegalOp := by decide
theorem test_refuse_field : reasonOf (leBytes 4 0x01000002 ++ leBytes 8 0) = some .badField ∧
    reasonOf (leBytes 4 0x00000102 ++ leBytes 8 0) = some .badField ∧
    reasonOf (leBytes 4 0x00100009 ++ leBytes 8 0) = some .badField := by decide
theorem test_refuse_voice : reasonOf (leBytes 4 0x00800002 ++ leBytes 8 0) = some .badVoice ∧
    reasonOf (leBytes 4 0x00800102 ++ leBytes 8 0) = some .badField ∧
    reasonOf (leBytes 4 0x01800002 ++ leBytes 8 0) = some .badField := by decide
theorem test_refuse_operand : reasonOf (leBytes 4 0x00000001 ++ leBytes 8 0x0000000100000045) = some .badOperand := by
  decide
theorem test_refuse_truncated : reasonOf (leBytes 4 0x00000007 ++ leBytes 8 0 ++ leBytes 8 0) = some .truncated ∧
    reasonOf [0x05#8, 0x00#8] = some .truncated := by decide

/-! ### The literals of the rules (00_scope.md R7, R21, 42_envelope.md R102)

The expected words are the binary64 values nearest to the decimals of the spec. -/

/-- Two's complement numbers of 32 bits, 16 of them after the point. -/
def q16 (wraps : Bool) : Arith := { binary64 with format := .fixed 32 16 wraps }
/-- IEEE 754 binary128. -/
def binary128 : Arith := { binary64 with format := .float 113 16383 }

/-- FS_MIN = 84.21052631578948 (95_test_vectors.md L2.6); 1e-6. -/
theorem test_literals : NumVal.fsMin binary64 = (NumVal.ofWord 0x40550D79435E50D8#64) ∧
    NumVal.relFloor binary64 = (NumVal.ofWord 0x3EB0C6F7A0B5ED8D#64) := by
  decide +kernel
/-- pi, 0.9 and 10000.0 in binary64. -/
theorem test_literals_wave : NumVal.pi binary64 = (NumVal.ofWord 0x400921FB54442D18#64) ∧
    NumVal.harmFrac binary64 = (NumVal.ofWord 0x3FECCCCCCCCCCCCD#64) ∧
    NumVal.kSplit binary64 = (NumVal.ofWord 0x40C3880000000000#64) := by decide +kernel
/-- BANK_FREQ[26] = 442.44325821408984 (95_test_vectors.md L1.1). -/
theorem test_bank : defaultParams.bankFreq[26]? = some (NumVal.ofWord 0x407BA71795ECD330#64) := by decide +kernel
/-- 1/3 + 1/3, 1/10 * 3 and 1/0 in binary64; 1/3 in binary32. -/
theorem test_arithmetic :
    NumVal.add binary64 (NumVal.div binary64 (NumVal.one binary64) (NumVal.ofNat binary64 3))
      (NumVal.div binary64 (NumVal.one binary64) (NumVal.ofNat binary64 3)) =
      (NumVal.ofWord 0x3FE5555555555555#64) ∧
    NumVal.mul binary64 (NumVal.ofWord 0x3FB999999999999A#64) (NumVal.ofNat binary64 3) = (NumVal.ofWord 0x3FD3333333333334#64) ∧
    NumVal.div binary64 (NumVal.one binary64) NumVal.zero = (NumVal.ofWord 0x7FF0000000000000#64) ∧
    NumVal.toF64 binary32 (NumVal.div binary32 (NumVal.one binary32) (NumVal.ofNat binary32 3)) =
      (NumVal.ofWord 0x3FD5555560000000#64) := by decide +kernel
/-- 1/3 in binary32 rounded down and up; in Q16.16, 1/3, and 30000 + 30000 saturated and wrapped around. -/
theorem test_arithmetics :
    NumVal.toF64 binary32 (NumVal.div { binary32 with rounding := .down } (NumVal.one binary32) (NumVal.ofNat binary32 3)) =
      NumVal.ofWord 0x3FD5555540000000#64 ∧
    NumVal.toF64 binary32 (NumVal.div { binary32 with rounding := .up } (NumVal.one binary32) (NumVal.ofNat binary32 3)) =
      NumVal.ofWord 0x3FD5555560000000#64 ∧
    NumVal.div (q16 false) (NumVal.one (q16 false)) (NumVal.ofNat (q16 false) 3) = .fin false 21845 ∧
    NumVal.add (q16 false) (NumVal.ofNat (q16 false) 30000) (NumVal.ofNat (q16 false) 30000) = .fin false (2 ^ 31 - 1) ∧
    NumVal.add (q16 true) (NumVal.ofNat (q16 true) 30000) (NumVal.ofNat (q16 true) 30000) = .fin true (5536 * 2 ^ 16) := by
  decide +kernel
/-- 40000.0 and -40000.0 as F64 operands of Q16.16 go to the nearest end, where NUM itself wraps around (30_encoding.md R59:
"otherwise rounds to nearest"); 1.5 is exact. -/
theorem test_to_num : opndF64 (q16 true) 0x40E3880000000000#64 = .fin false (2 ^ 31 - 1) ∧
    opndF64 (q16 true) 0xC0E3880000000000#64 = .fin true (2 ^ 31) ∧
    opndF64 (q16 true) 0x3FF8000000000000#64 = .fin false (3 * 2 ^ 15) := by decide +kernel
/-- binary128: 1/3 is 0x3FFD5555555555555555555555555555, and sin 1 = 0.84147... is 0x3FFEAED548F090CEE0418DD3D2138A1E. -/
theorem test_binary128 :
    NumVal.div binary128 (NumVal.one binary128) (NumVal.ofNat binary128 3) =
      .fin false (0x15555555555555555555555555555 <<< 16380) ∧
    NumVal.sin binary128 (NumVal.one binary128) = .fin false (0x1AED548F090CEE0418DD3D2138A1E <<< 16381) := by
  decide +kernel
/-- Halves go away from zero (00_scope.md R14; 95_test_vectors.md L2.4). -/
theorem test_round : NumVal.round binary64 (NumVal.ofWord 0x4004000000000000#64) = 3 ∧
    NumVal.round binary64 (NumVal.ofWord 0xBFF8000000000000#64) = -2 ∧
    NumVal.floor binary64 (NumVal.ofWord 0xBFF8000000000000#64) = -2 := by decide +kernel

/-! ### One command on a small state -/

/-- Reset, then SET_SAMPLE_RATE 1000.0. -/
def at1000 : State := State.reset.reconfigure (NumVal.ofWord 0x408F400000000000#64)

/-- A state with voice 0 replaced. -/
def withVoice0 (s : State) (vc : Voice) : State := s.setVoice 0 vc

/-- Voice 0 at 20 Hz under 1000 Hz, in Attack with counts 3, 2 and 4. -/
def at20 : State := withVoice0 at1000
  { Voice.reset binary64 with
    oscFreq := (NumVal.ofWord 0x4034000000000000#64), oscDelta := (NumVal.ofWord 0x3F947AE147AE147B#64)
    envStage := .attack, envA := 3, envD := 2, envR := 4, envSustain := (NumVal.ofWord 0x3FE0000000000000#64), fltBin := 0 }

/-- Voice 0 after a command that completes. -/
def voiceAfter : Result → Option Voice
  | .next t => t.voices[0]?
  | _ => none

/-- The last response of a command that completes. -/
def answer : Result → Option Response
  | .next t => t.responses.getLast?
  | _ => none

/-- The fault code a command stops with. -/
def codeOf : Result → Option FaultCode
  | .fault (.phaseRange _) => some .phaseRange
  | .fault (.romIndex _) => some .romIndex
  | .fault (.bufferRange _) => some .bufferRange
  | .fault (.nonfinite _) => some .nonfinite
  | .fault (.sampleRateRange _) => some .sampleRateRange
  | _ => none

theorem faults_of_code {r : Result} {c : FaultCode} (h : codeOf r = some c) : ∃ f, r = .fault f := by
  cases r with
  | fault f => exact ⟨f, rfl⟩
  | next t => cases h
  | refused r => cases h

/-- An F64 response. -/
def f64 (w : BitVec 64) : Option Response := some (.f64 (NumVal.ofWord w))

/-- L2.6: 69 gives 440.0, 60 gives 261.6255653005986. -/
theorem test_setNote : (voiceAfter (exec (.setNote 0 69) State.reset)).map (·.oscFreq) = some (NumVal.ofWord 0x407B800000000000#64) ∧
    (voiceAfter (exec (.setNote 0 60) State.reset)).map (·.oscFreq) = some (NumVal.ofWord 0x40705A0250C2B956#64) := by
  decide +kernel
/-- L2.6: 200 is clamped to 127, 12543.853951415975. -/
theorem test_setNote_clamp :
    (voiceAfter (exec (.setNote 0 200) State.reset)).map (·.oscFreq) = some (NumVal.ofWord 0x40C87FED4E47ADFE#64) := by
  decide +kernel
/-- L1.5: 440 Hz at 44100 Hz gives the increment 0x3F846EFDCB4A6B82. -/
theorem test_setFreq :
    (voiceAfter (exec (.setFreq 0 0x407B800000000000#64) State.reset)).map (·.oscDelta) =
      some (NumVal.ofWord 0x3F846EFDCB4A6B82#64) := by decide +kernel
theorem test_setFreq_nan : codeOf (exec (.setFreq 0 0x7FF8000000000000#64) State.reset) = some .nonfinite := by
  decide +kernel
/-- L2.6: 1.5 and -0.2 are clamped. -/
theorem test_setAmp :
    (voiceAfter (exec (.setAmp 0 0x3FF8000000000000#64) State.reset)).map (·.oscAmp) = some (NumVal.ofWord 0x3FF0000000000000#64) ∧
    (voiceAfter (exec (.setAmp 0 0xBFC999999999999A#64) State.reset)).map (·.oscAmp) = some (NumVal.ofWord 0x0000000000000000#64) := by
  decide +kernel
theorem test_setWave : (voiceAfter (exec (.setWave 0 3) State.reset)).map (·.oscWave) = some .triangle ∧
    (voiceAfter (exec (.setWave 0 9) State.reset)).map (·.oscWave) = some .sine := by decide +kernel
theorem test_startNote : (voiceAfter (exec (.startNote 0)
      (withVoice0 State.reset { Voice.reset binary64 with envStage := .release, envCounter := 7, fltY1 := (NumVal.ofWord 1#64) }))).map
    (fun vc => (vc.envStage, vc.envCounter, vc.fltY1)) = some (.attack, 0, NumVal.zero) := by decide +kernel
theorem test_stopNote : (voiceAfter (exec (.stopNote 0) State.reset)).map (·.envStage) = some .idle ∧
    (voiceAfter (exec (.stopNote 0) at20)).map (·.envStage) = some .release := by decide +kernel
/-- L2.6: 0.01, 0.10 and 0.20 s at 44100 Hz are 441, 4410 and 8820 samples. -/
theorem test_setEnv : (voiceAfter (exec (.setEnv 0 0x3F847AE147AE147B#64 0x3FB999999999999A#64 0x3FE999999999999A#64
      0x3FC999999999999A#64) State.reset)).map (fun vc => (vc.envA, vc.envD, vc.envR, vc.envSustain)) =
    some (441, 4410, 8820, NumVal.ofWord 0x3FE999999999999A#64) := by decide +kernel
/-- L2.5: 1000.0 Hz selects bin 31 at 44100 Hz; type selector 7 leaves the type. -/
theorem test_setFilter :
    (voiceAfter (exec (.setFilter 0 1 0x408F400000000000#64) State.reset)).map (fun vc => (vc.fltType, vc.fltBin.val)) =
      some (.highpass, 31) ∧
    (voiceAfter (exec (.setFilter 0 7 0x4034000000000000#64) State.reset)).map (fun vc => (vc.fltType, vc.fltBin.val)) =
      some (.lowpass, 0) := by decide +kernel
/-- L2.6: 84.0 is at or below FS_MIN, +infinity and NaN are not numbers, 0.0 is rejected with no report. -/
theorem test_setSampleRate_faults :
    codeOf (exec (.setSampleRate 0x4055000000000000#64) State.reset) = some .sampleRateRange ∧
    codeOf (exec (.setSampleRate 0x7FF0000000000000#64) State.reset) = some .nonfinite ∧
    codeOf (exec (.setSampleRate 0x7FF8000000000000#64) State.reset) = some .nonfinite ∧
    (voiceAfter (exec (.setSampleRate 0x0000000000000000#64) State.reset)).isSome = true := by decide +kernel
/-- L2.5: at 1000 Hz a kept cutoff of 20000.0 selects bin 49, and WT_LEN[0] is 50 (L2.6). -/
theorem test_setSampleRate :
    (voiceAfter (exec (.setSampleRate 0x408F400000000000#64) State.reset)).map (·.fltBin.val) = some 49 ∧
    answer (exec (.wtLen 0) at1000) = some (.u32 50) := by decide +kernel
/-- L2.6: RENDER v0, 10, 10 with BUF_LEN 16 faults; RENDER v0, 0, 16 is done. -/
theorem test_render_range : codeOf (exec (.render 0 10 10) State.reset) = some .bufferRange ∧
    (voiceAfter (exec (.render 0 0 16) State.reset)).isSome = true := by decide +kernel
/-- Two samples at 20 Hz: level 1/3 then 2/3, phase 0.04; the first sample is 0.0, as its table starts at 0.0. -/
theorem test_render : (voiceAfter (exec (.render 0 2 0) at20)).map
    (fun vc => (vc.envLevel, vc.oscPhase)) = some (NumVal.ofWord 0x3FE5555555555555#64, NumVal.ofWord 0x3FA47AE147AE147B#64) := by
  decide +kernel
/-- L2.3: the second call at 20 Hz gives 0.12558103905862678. -/
theorem test_oscNext : answer (execAll [.oscNext 0, .oscNext 0] at20) = f64 0x3FC0130A1BE0937A#64 := by
  decide +kernel
/-- L2.3: 1500 Hz leaves phase 1.0 after two calls, and a lookup at 1.0 faults. -/
theorem test_oscNext_fault : codeOf (exec (.oscNext 0)
    (withVoice0 State.reset { Voice.reset binary64 with oscPhase := (NumVal.ofWord 0x3FF0000000000000#64) })) = some .phaseRange := by
  decide +kernel
theorem test_oscResetPhase : (voiceAfter (execAll [.oscNext 0, .oscResetPhase 0] at20)).map (·.oscPhase) =
    some NumVal.zero := by decide +kernel
theorem test_envAttack : (voiceAfter (exec (.envAttack 0)
    (withVoice0 State.reset { Voice.reset binary64 with
      envStage := .release, envCounter := 2, envLevel := (NumVal.ofWord 0x3FD8000000000000#64) }))).map
    (fun vc => (vc.envStage, vc.envCounter, vc.envLevel)) = some (.attack, 0, NumVal.zero) := by decide +kernel
/-- L2.4: after one attack step with A = 3 the captured level is 1/3. -/
theorem test_envRelease : (voiceAfter (execAll [.envNext 0, .envRelease 0] at20)).map
    (fun vc => (vc.envStage, vc.envCounter, vc.envRsl)) = some (.release, 0, NumVal.ofWord 0x3FD5555555555555#64) := by
  decide +kernel
theorem test_envReset : (voiceAfter (execAll [.envNext 0, .envReset 0] at20)).map
    (fun vc => (vc.envStage, vc.envCounter, vc.envLevel)) = some (.idle, 0, NumVal.zero) := by decide +kernel
/-- L1.3: with A = 3, D = 2, S = 0.5 the fourth step gives 0.75. -/
theorem test_envNext : answer (execAll (List.replicate 4 (.envNext 0)) at20) = f64 0x3FE8000000000000#64 := by
  decide +kernel
/-- L2.4: a release from 1/3 with R = 4 steps to 0.25. -/
theorem test_envNext_release : answer (execAll [.envNext 0, .envRelease 0, .envNext 0] at20) =
    f64 0x3FD0000000000000#64 := by decide +kernel
theorem test_envActive : answer (exec (.envActive 0) State.reset) = some (.u32 0) ∧
    answer (exec (.envActive 0) at20) = some (.u32 1) := by decide +kernel
/-- L2.5: lowpass, 1000 Hz, bin 0: 0.11163521170465973. -/
theorem test_fltProcess : answer (exec (.fltProcess 0 0x3FF0000000000000#64) at20) = f64 0x3FBC94200F5A8240#64 := by
  decide +kernel
/-- L2.5: the bandpass vector's second output is 0.19834558242463107. -/
theorem test_fltProcess_bandpass : answer (execAll [.setFilter 0 2 0x4034000000000000#64,
    .fltProcess 0 0x3FF0000000000000#64, .fltProcess 0 0x3FF0000000000000#64] at20) = f64 0x3FC9636356E8F144#64 := by
  decide +kernel
theorem test_fltReset : (voiceAfter (execAll [.fltProcess 0 0x3FF0000000000000#64, .fltReset 0] at20)).map
    (fun vc => (vc.fltX1, vc.fltY1)) = some (NumVal.zero, NumVal.zero) := by decide +kernel
/-- L2.2: WT_READ sel=0, bin=0, 1 at 1000 Hz is 0.12558103905862678; index 50 faults. -/
theorem test_wtRead : answer (exec (.wtRead 0 0 1) at1000) = f64 0x3FC0130A1BE0937A#64 ∧
    codeOf (exec (.wtRead 0 0 50) at1000) = some .romIndex := by decide +kernel
/-- L2.2: at 44100 Hz bin 58 has two samples and no harmonic: Sine sample 1 is 1.0, Saw sample 1 is 0.0. -/
theorem test_wtRead_short : answer (exec (.wtRead 0 58 1) State.reset) = f64 0x3FF0000000000000#64 ∧
    answer (exec (.wtRead 1 58 1) State.reset) = f64 0x0000000000000000#64 ∧
    codeOf (exec (.wtRead 4 0 0) State.reset) = some .romIndex := by decide +kernel
theorem test_wtLen : answer (exec (.wtLen 0) State.reset) = some (.u32 2205) ∧
    codeOf (exec (.wtLen 59) State.reset) = some .romIndex := by decide +kernel
theorem test_wtFreq : answer (exec (.wtFreq 58) State.reset) = f64 0x40D3880000000000#64 ∧
    codeOf (exec (.wtFreq 59) State.reset) = some .romIndex := by decide +kernel
/-- L2.5: FC_READ sel=1, bin=49, c=0 is 0.40124280779484195; highpass has one coefficient. -/
theorem test_fcRead : answer (exec (.fcRead 1 49 0) State.reset) = f64 0x3FD9ADF6504EFAD7#64 ∧
    codeOf (exec (.fcRead 1 0 1) State.reset) = some .romIndex := by decide +kernel
/-- L2.5: FC_CUTOFF bin=49 is 10473.75. -/
theorem test_fcCutoff : answer (exec (.fcCutoff 49) State.reset) = f64 0x40C474E000000000#64 ∧
    codeOf (exec (.fcCutoff 50) State.reset) = some .romIndex := by decide +kernel

/-! ### Witnesses: for each statement, a state and operands that meet its hypotheses -/

/-- One voice at 440 Hz under 44100 Hz, in Attack, before an OSC_NEXT of it. -/
def toneVoice : Voice :=
  { Voice.reset binary64 with
      oscFreq := (NumVal.ofWord 0x407B800000000000#64), oscDelta := (NumVal.ofWord 0x3F846EFDCB4A6B82#64), envStage := .attack }

/-- The reset state of one voice and one channel, with that voice and a stream that holds one OSC_NEXT. -/
def tone : State :=
  { State.resetWith defaultParams 1 [[]] with voices := [toneVoice], stream := encode (.oscNext 0) }

/-- `tone` with its voice replaced. -/
def toneWith (vc : Voice) : State := { tone with voices := [vc] }

theorem tone_voice : tone.voices[0]? = some toneVoice := rfl
theorem toneWith_voice (vc : Voice) : (toneWith vc).voices[0]? = some vc := rfl

theorem tone_num : tone.params.num = binary64 := rfl
theorem tone_ieee : tone.params.num.ieee = true := by decide +kernel
theorem tone_wide : tone.params.num.wide = true := by decide +kernel

theorem tone_fs : tone.fs = NumVal.fsReset binary64 := by simp only [tone, State.resetWith_fs, defaultParams]
theorem tone_roms : tone.RomsMatch := by
  have h := State.resetWith_romsMatch defaultParams 1 [[]]
  simp only [State.RomsMatch, tone] at h ⊢
  exact h
theorem tone_filterRom : tone.filterRom = generateFilterRom binary64 (NumVal.fsReset binary64) := by
  rw [tone_roms.2, tone_fs, tone_num]

theorem tone_good : tone.Good where
  wide := tone_wide
  rateInNum := by decide +kernel
  inside := by unfold State.BufferInside; decide +kernel
  bank := by decide +kernel
  rate := by decide +kernel
  modest := by rw [tone_fs, tone_num]; decide +kernel
  roms := tone_roms
  buffer := by unfold State.BufferCanonical; decide +kernel
  voices := by
    intro vc hvc
    obtain rfl : vc = toneVoice := by simpa [tone] using hvc
    have hr : toneVoice.oscDelta = NumVal.div binary64 toneVoice.oscFreq (NumVal.fsReset binary64) ∧
        toneVoice.envA = conv binary64 (NumVal.fsReset binary64) toneVoice.envAttackSec ∧
        toneVoice.envD = conv binary64 (NumVal.fsReset binary64) toneVoice.envDecaySec ∧
        toneVoice.envR = conv binary64 (NumVal.fsReset binary64) toneVoice.envReleaseSec ∧
        toneVoice.fltBin = nearestFilterBin binary64 (generateFilterRom binary64 (NumVal.fsReset binary64)) toneVoice.fltCutoff :=
      ⟨by decide +kernel, by decide +kernel, by decide +kernel, by decide +kernel, by decide +kernel⟩
    rw [tone_num, tone_fs, tone_filterRom]
    refine ⟨hr, ?_, ?_, ?_, ?_, ?_, by decide +kernel, by decide +kernel, ?_⟩
    · unfold Voice.InNum; decide +kernel
    · unfold Voice.LevelsInUnit; decide +kernel
    · unfold Voice.CountsBounded; decide +kernel
    · unfold Voice.IdleSilent; decide +kernel
    · unfold Voice.ParamsFinite; decide +kernel
    · decide +kernel

theorem tone_phase : phaseInRange binary64 toneVoice.oscPhase = true := by decide +kernel

theorem tone_decode : decode tone.voices.length tone.stream = .ok (.oscNext 0, []) := by decide +kernel

/-- A step of `tone` completes. -/
theorem tone_step : ∃ t, step tone = .next t := by
  rw [step_decoded (s := tone) rfl tone_decode]
  have h := exec_effect (s := { tone with stream := [] }) (.oscNext (v := 0) (vc := toneVoice) rfl tone_phase)
  rw [h]
  exact ⟨_, rfl⟩

theorem witness_DecodeReadsBackEveryEncoding :
    (Instr.render 15 4294967295 4294967295).wellFormed = true ∧ (Instr.fcRead 15 63 3).wellFormed = true ∧
    (∀ v, (Instr.render 15 4294967295 4294967295).voice? = some v → v < 16) := by
  refine ⟨by decide, by decide, ?_⟩
  intro v hv; cases hv; decide

theorem witness_EveryDecodedStreamIsAnEncoding :
    decode 8 [0x05#8, 0x00#8, 0x70#8, 0x00#8, 0xFF#8] = .ok (.startNote 7, [0xFF#8]) := by decide +kernel

/-- Each check at a boundary: opcode 0x52, RSV 1, VOICE 8 of 8, a U32 operand of 2^32, all passed, and one byte short. -/
theorem witness_FirstFailedCheckNamesTheReason :
    (0x52 % 2 ^ 8 ∉ listedOpcodes ∧ ([] : List Nat).length = wordCount (0x52 % 2 ^ 8)) ∧
    (0x01000002 % 2 ^ 8 ∈ listedOpcodes ∧ FieldSet 0x01000002 ∧ [0].length = wordCount (0x01000002 % 2 ^ 8)) ∧
    (¬ FieldSet 0x00800005 ∧ VoiceMissing State.reset.voices.length 0x00800005 ∧
      ([] : List Nat).length = wordCount (0x00800005 % 2 ^ 8)) ∧
    (¬ FieldSet 0x0070000A ∧ ¬ VoiceMissing State.reset.voices.length 0x0070000A ∧
      OperandTooLarge 0x0070000A [0, 4294967296] ∧ [0, 4294967296].length = wordCount (0x0070000A % 2 ^ 8)) ∧
    (¬ OperandTooLarge 0x0070000A [4294967295, 4294967295] ∧ (0x0070000A : Nat) < 2 ^ 32) ∧
    (leBytes 7 0).length < 8 * wordCount (0x00000001 % 2 ^ 8) := by
  have h8 : State.reset.voices.length = 8 := rfl
  rw [h8]
  refine ⟨by decide, by unfold FieldSet; decide, by unfold FieldSet VoiceMissing; decide, ?_, ?_, by decide⟩
  · exact ⟨by unfold FieldSet; decide, by unfold VoiceMissing; decide, ⟨1, 4294967296, rfl, by decide, by decide⟩,
      by decide⟩
  · refine ⟨?_, by decide⟩
    rintro ⟨j, w, hj, -, hw⟩
    have : w ∈ [4294967295, 4294967295] := List.mem_of_getElem? hj
    simp at this; omega

/-- A stream of one byte, of three bytes, and of eleven of the twelve bytes of a SET_NOTE. -/
theorem witness_StreamEndingInsideACommandIsTruncated :
    ([] : List Byte).length + 1 < 4 + 8 * wordCount (0x05#8).toNat ∧
    [0#8, 0#8].length + 1 < 4 + 8 * wordCount (0x05#8).toNat ∧
    (leBytes 10 0).length + 1 < 4 + 8 * wordCount (0x01#8).toNat ∧ State.reset.outcome = none := by decide +kernel

theorem witness_StepExecutesTheDecodedCommand :
    (tone.outcome = none ∧ decode tone.voices.length tone.stream = .ok (.oscNext 0, []) ∧
      ∃ t, exec (.oscNext 0) { tone with stream := [] } = .next t) ∧
    (∃ f, exec (.wtLen 59) State.reset = .fault f) ∧ (∃ r, exec (.envNext 8) State.reset = .refused r) ∧
    (State.reset.outcome = none ∧ State.reset.stream = []) :=
  ⟨⟨rfl, tone_decode, _, exec_effect (s := { tone with stream := [] })
      (.oscNext (v := 0) (vc := toneVoice) rfl tone_phase)⟩, ⟨_, rfl⟩, ⟨_, rfl⟩, rfl, rfl⟩

theorem witness_ProgramCommandsRunInOrder : tone.outcome = none ∧
    (∀ i ∈ [Instr.startNote 0, .envNext 0], i.wellFormed = true ∧ ∀ v, i.voice? = some v → v < tone.voices.length) ∧
    ∃ t, execAll [.startNote 0, .envNext 0] tone = .next t := by
  refine ⟨rfl, ?_, _, rfl⟩
  intro i hi
  simp only [List.mem_cons, List.not_mem_nil, or_false] at hi
  rcases hi with rfl | rfl <;> exact ⟨by decide, fun v hv => by cases hv; decide⟩

/-- A PHASE_RANGE fault of OSC_NEXT and of a RENDER, a BUFFER_RANGE fault, refusals of a whole and of a cut command word,
and a run that has ended. -/
theorem witness_StopsArePreciseRecordedAndFinal :
    (∃ f, step (toneWith { toneVoice with oscPhase := NumVal.one binary64 }) = .fault f) ∧
    (∃ f, step { toneWith { toneVoice with oscPhase := NumVal.one binary64 } with stream := encode (.render 0 1 0) } = .fault f) ∧
    (∃ f, step { tone with stream := encode (.render 0 1 16) } = .fault f) ∧
    (∃ r, step { tone with stream := leBytes 4 0x0B } = .refused r) ∧
    (∃ r, step { tone with stream := leBytes 3 0x05 } = .refused r) ∧
    ({ tone with outcome := some (.refused .illegalOp 0 none) } : State).outcome ≠ none := by
  refine ⟨?_, ?_, ?_, ⟨_, rfl⟩, ⟨_, rfl⟩, by simp⟩
  · exact faults_of_code (c := .phaseRange) (by decide +kernel)
  · exact faults_of_code (c := .phaseRange) (by decide +kernel)
  · exact faults_of_code (c := .bufferRange) (by decide +kernel)

theorem witness_ResetStateHasTheStatedValues :
    defaultParams.num = binary64 ∧ (Voice.reset binary64) ∈ (State.resetWith defaultParams 1 [[]]).voices ∧
    binary32.wide = true := by decide +kernel

theorem witness_ResetStateMeetsEveryInvariant :
    defaultParams.num = binary64 ∧ binary64.wide = true ∧ bankLegal binary64 defaultParams.bankFreq = true ∧
    nearestFilterBin binary64 (generateFilterRom binary64 (NumVal.ofNat binary64 44100)) (NumVal.ofNat binary64 20000) =
      49 ∧
    (∀ m ∈ [([(15, NumVal.one binary64)] : Memory)], Memory.wf m = true) ∧
    ∀ m ∈ [([(15, NumVal.one binary64)] : Memory)], ∀ p ∈ m, p.1 < defaultParams.bufLen := by decide +kernel

theorem witness_RomsAlwaysMatchTheRate : (∃ t, step tone = .next t) ∧ tone.RomsMatch ∧
    (∃ t, exec (.startNote 0) tone = .next t) ∧
    (∃ t, exec (.setSampleRate 0x8000000000000000#64) tone = .next t) ∧
    ∃ t, exec (.setSampleRate 0x408F400000000000#64) tone = .next t :=
  ⟨tone_step, tone_good.roms, ⟨_, rfl⟩, ⟨_, exec_effect (.rateRejected _ (by decide +kernel))⟩,
    ⟨_, exec_effect (.rateAccepted _ (by decide +kernel) (by decide +kernel) (by decide +kernel))⟩⟩

/-- The invariants' hypotheses hold of `tone`, and a step of it completes. -/
theorem witness_RateDerivedRegistersAlwaysMatch : (∃ t, step tone = .next t) ∧ tone.RatesMatch :=
  ⟨tone_step, fun vc h => (tone_good.voices vc h).rates⟩
theorem witness_LevelsStayBetweenZeroAndOne : (∃ t, step tone = .next t) ∧ tone.params.num.ieee = true ∧
    (NumVal.ofNat tone.params.num cntMax).finite = true ∧ (∀ vc ∈ tone.voices, vc.CountsBounded) ∧
    ∀ vc ∈ tone.voices, vc.LevelsInUnit tone.params.num :=
  have := Fact.mk tone_ieee
  ⟨tone_step, rfl, ofNat_cntMax_finite tone_good.wide, fun vc h => (tone_good.voices vc h).counts,
    fun vc h => (tone_good.voices vc h).levels⟩
theorem witness_CountersStayBoundedAndIdleStaysSilent : (∃ t, step tone = .next t) ∧
    ∀ vc ∈ tone.voices, vc.CountsBounded ∧ vc.IdleSilent :=
  ⟨tone_step, fun vc h => ⟨(tone_good.voices vc h).counts, (tone_good.voices vc h).silent⟩⟩
theorem witness_PhaseStaysBelowOneUnderTheDuty : (∃ t, step tone = .next t) ∧ tone.params.num.ieee = true ∧
    (∀ vc ∈ tone.voices, vc.InNum tone.params.num) ∧ (∀ vc ∈ tone.voices, vc.DeltaInRange tone.params.num) ∧
    ∀ vc ∈ tone.voices, phaseInRange tone.params.num vc.oscPhase = true := by
  refine ⟨tone_step, rfl, fun vc h => (tone_good.voices vc h).inNum, ?_, fun vc h => (tone_good.voices vc h).phase⟩
  intro vc h
  obtain rfl : vc = toneVoice := by simpa [tone] using h
  unfold Voice.DeltaInRange; decide +kernel
/-- Besides `tone`, whose channel lists nothing: the last element of a channel may be listed, the one after it not. -/
theorem witness_BufferStaysCanonical : (∃ t, step tone = .next t) ∧ tone.BufferCanonical ∧ tone.BufferInside ∧
    ({ tone with out := [[(15, NumVal.one binary64)]] } : State).BufferInside ∧
    ¬ ({ tone with out := [[(16, NumVal.one binary64)]] } : State).BufferInside :=
  ⟨tone_step, tone_good.buffer, tone_good.inside, by unfold State.BufferInside; decide +kernel,
    by unfold State.BufferInside; decide +kernel⟩
theorem witness_RateAndParametersStayLegal : (∃ t, step tone = .next t) ∧ rateLegal tone.params.num tone.fs = true ∧
    tone.params.num.ieee = true ∧ tone.params.num.wide = true ∧ (∀ vc ∈ tone.voices, vc.ParamsFinite) ∧ tone.InNum :=
  have := Fact.mk tone_ieee
  ⟨tone_step, tone_good.rate, rfl, tone_good.wide, fun vc h => (tone_good.voices vc h).finite, tone_good.rateInNum,
    fun vc h => (tone_good.voices vc h).inNum, by rw [tone_roms.2]; exact generateFilterRom_inNum _⟩

theorem witness_RegistersWrittenOnlyByTheirCommands : ∃ t vc', exec (.startNote 0) tone = .next t ∧
    tone.voices[0]? = some toneVoice ∧ t.voices[0]? = some vc' := ⟨_, _, rfl, rfl, rfl⟩
theorem witness_OnlyRenderWritesTheBuffer : ∃ t, exec (.startNote 0) tone = .next t ∧
    ∀ v n off, Instr.startNote 0 ≠ .render v n off := ⟨_, rfl, by simp⟩
theorem witness_CommandTouchesOnlyItsOwnVoice : (∃ t, exec (.startNote 0) State.reset = .next t) ∧
    (Instr.startNote 0).voice? = some 0 ∧ (1 : Nat) ≠ 0 ∧ (∀ hz, Instr.startNote 0 ≠ .setSampleRate hz) ∧
    (∃ t, exec (.wtFreq 58) State.reset = .next t) ∧ (Instr.wtFreq 58).voice? = none ∧
    (∃ (code : FaultCode) (u : State), exec (.wtLen 59) State.reset = .fault (code.fault u)) ∧
    ∃ (reason : RefuseReason) (u : State), exec (.envNext 8) State.reset = .refused (reason.refusal u) :=
  ⟨⟨_, rfl⟩, rfl, by decide, by simp,
    ⟨_, exec_effect (.wtFreq (f := (NumVal.ofWord 0x40D3880000000000#64)) (by decide +kernel))⟩, rfl, ⟨.romIndex, _, rfl⟩,
    .badVoice, _, rfl⟩

/-- ENV_RESET on an active voice, and the last release step. -/
theorem witness_ActiveFallsOnlyByReleaseOrReset :
    (∃ t vc', exec (.envReset 0) tone = .next t ∧ t.voices[0]? = some vc' ∧ toneVoice.active = true ∧
      vc'.active = false) ∧
    ∃ t vc', exec (.envNext 0) (toneWith { toneVoice with envStage := .release }) = .next t ∧
      t.voices[0]? = some vc' ∧ ({ toneVoice with envStage := .release } : Voice).active = true ∧ vc'.active = false :=
  ⟨⟨_, _, rfl, rfl, rfl, rfl⟩, _, _, rfl, rfl, rfl, rfl⟩
theorem witness_ResponsesComeOnlyFromResponseCommands : (∃ t, exec (.envActive 0) tone = .next t) ∧
    ∃ f, exec (.wtLen 59) tone = .fault f := ⟨⟨_, rfl⟩, _, rfl⟩

/-- Every transition of 42_envelope.md R95 but RENDER's occurs. -/
theorem witness_EnvelopeMakesOnlyTheListedTransitions :
    (voiceAfter (exec (.envAttack 0) (toneWith (Voice.reset binary64)))).map (·.envStage) = some .attack ∧
    (voiceAfter (exec (.startNote 0) (toneWith (Voice.reset binary64)))).map (·.envStage) = some .attack ∧
    (voiceAfter (exec (.envNext 0) tone)).map (·.envStage) = some .decay ∧
    (voiceAfter (exec (.envNext 0) (toneWith { toneVoice with envStage := .decay }))).map (·.envStage) = some .sustain ∧
    (voiceAfter (exec (.envRelease 0) (toneWith { toneVoice with envStage := .sustain }))).map (·.envStage) =
      some .release ∧
    (voiceAfter (exec (.stopNote 0) tone)).map (·.envStage) = some .release ∧
    (voiceAfter (exec (.envNext 0) (toneWith { toneVoice with envStage := .release, envR := 9 }))).map (·.envStage) =
      some .idle ∧
    (voiceAfter (exec (.envReset 0) tone)).map (·.envStage) = some .idle := by decide +kernel

theorem witness_FaultCodesComeOnlyFromTheirCommands :
    codeOf (exec (.oscNext 0) (toneWith { toneVoice with oscPhase := NumVal.one binary64 })) = some .phaseRange ∧
    codeOf (exec (.fcCutoff 50) tone) = some .romIndex ∧ codeOf (exec (.render 0 1 16) tone) = some .bufferRange ∧
    codeOf (exec (.setAmp 0 0x7FF0000000000000#64) tone) = some .nonfinite ∧
    codeOf (exec (.render 0 1 0) (toneWith { toneVoice with oscAmp := (NumVal.ofWord 0x7FF0000000000000#64) })) = some .nonfinite ∧
    codeOf (exec (.setSampleRate 0x40550D79435E50D8#64) tone) = some .sampleRateRange := by decide +kernel
theorem witness_ExecRefusesOnlyAMissingVoice : (Instr.envNext 1).voice? = some 1 ∧ tone.voices.length ≤ 1 := by decide

/-! The result statements: voice 0 of `tone` and operands for each clause. -/

theorem witness_SetNoteTunesTheVoice : tone.voices[0]? = some toneVoice := rfl
theorem witness_SetFreqSetsFrequencyAndIncrement : tone.voices[0]? = some toneVoice ∧
    (opndF64 binary64 0x7FEFFFFFFFFFFFFF#64).finite = true ∧ (opndF64 binary64 0x7FF0000000000000#64).finite = false := by
  decide +kernel
theorem witness_SetAmpClampsTheAmplitude : tone.voices[0]? = some toneVoice ∧
    (opndF64 binary64 0xFFEFFFFFFFFFFFFF#64).finite = true ∧ (opndF64 binary64 0xFFF0000000000000#64).finite = false := by
  decide +kernel
theorem witness_SetWaveSelectsOrIgnores : tone.voices[0]? = some toneVoice ∧
    (3, Family.triangle) ∈ [(0, Family.sine), (1, .saw), (2, .square), (3, .triangle)] ∧ 4 ≤ 4 := by decide +kernel
theorem witness_StartNoteEntersAttackAndClearsTheFilter : tone.voices[0]? = some toneVoice := rfl
theorem witness_StopNoteEntersReleaseUnlessIdle : (toneWith (Voice.reset binary64)).voices[0]? = some (Voice.reset binary64) ∧
    (Voice.reset binary64).envStage = .idle ∧ tone.voices[0]? = some toneVoice ∧ toneVoice.envStage ≠ .idle := by
  decide +kernel
theorem witness_SetEnvLoadsTheEnvelope : tone.voices[0]? = some toneVoice ∧
    (opndF64 binary64 0x0000000000000000#64).finite = true ∧ (opndF64 binary64 0x7FF8000000000000#64).finite = false := by
  decide +kernel
theorem witness_SetFilterLoadsTypeCutoffAndBin : tone.voices[0]? = some toneVoice ∧
    (2, Topology.bandpass) ∈ [(0, Topology.lowpass), (1, .highpass), (2, .bandpass)] ∧
    (3 ≤ 3 ∧ Topology.lowpass = toneVoice.fltType) ∧
    (opndF64 binary64 0x408F400000000000#64).finite = true ∧ (opndF64 binary64 0x7FF8000000000000#64).finite = false := by
  decide +kernel
/-- 0.0 is rejected; NaN and +infinity fault; FS_MIN itself faults; the next value above FS_MIN is accepted. -/
theorem witness_SetSampleRateReconfiguresEverything :
    NumVal.le (opndF64 binary64 0x0000000000000000#64) NumVal.zero = true ∧
    (NumVal.le (opndF64 binary64 0x7FF8000000000000#64) NumVal.zero = false ∧ (opndF64 binary64 0x7FF8000000000000#64).finite = false) ∧
    (NumVal.le (opndF64 binary64 0x7FF0000000000000#64) NumVal.zero = false ∧ (opndF64 binary64 0x7FF0000000000000#64).finite = false) ∧
    (NumVal.le (opndF64 binary64 0x40550D79435E50D8#64) NumVal.zero = false ∧ (opndF64 binary64 0x40550D79435E50D8#64).finite = true ∧
      NumVal.le (opndF64 binary64 0x40550D79435E50D8#64) (NumVal.fsMin binary64) = true) ∧
    ((opndF64 binary64 0x40550D79435E50D9#64).finite = true ∧ NumVal.lt NumVal.zero (opndF64 binary64 0x40550D79435E50D9#64) = true ∧
      NumVal.le (opndF64 binary64 0x40550D79435E50D9#64) (NumVal.fsMin binary64) = false) := by decide +kernel
/-- BUF_LEN is 16: 16 + 1 is out of range, 14 + 2 is not; at phase 1.0 the first sample of a RENDER faults. -/
theorem witness_RenderAccumulatesTheVoicesTicks : tone.voices[0]? = some toneVoice ∧ tone.params.bufLen < 16 + 1 ∧
    (14 + 2 ≤ tone.params.bufLen ∧ Voice.ticksOk tone 2 toneVoice = true ∧ tone.BufferCanonical ∧ 0 < tone.out.length ∧
      (Voice.tickOuts tone 2 toneVoice).length = 2) ∧
    ∃ t, 0 < 2 ∧ Voice.ticksOk (toneWith { toneVoice with oscPhase := NumVal.one binary64 }) 0
        { toneVoice with oscPhase := NumVal.one binary64 } = true ∧
      phaseInRange binary64 (NumVal.one binary64) = false ∧
      exec (.render 0 0 14) (toneWith { toneVoice with oscPhase := NumVal.one binary64 }) = .next t := by
  refine ⟨rfl, by decide, ⟨by decide, by decide +kernel, by unfold State.BufferCanonical; decide +kernel, by decide,
    by decide +kernel⟩, _, by decide, rfl, by decide +kernel, rfl⟩
/-- Phase 0.0 and the largest value below 1.0 are in range; 1.0 and the value below -0.0 are not. -/
theorem witness_OscNextReturnsTheSampleAndAdvances : tone.voices[0]? = some toneVoice ∧
    phaseInRange binary64 toneVoice.oscPhase = true ∧ phaseInRange binary64 (NumVal.ofWord 0x3FEFFFFFFFFFFFFF#64) = true ∧
    phaseInRange binary64 (NumVal.ofWord 0x3FF0000000000000#64) = false ∧
    phaseInRange binary64 (NumVal.ofWord 0x8000000000000001#64) = false ∧
    (nearestBankBin binary64 tone.params.bankFreq toneVoice.oscFreq).val = 26 ∧
    0 ≤ NumVal.floor binary64 (NumVal.mul binary64 toneVoice.oscPhase
      (NumVal.ofNat binary64 (tone.waveRom.get 26).len)) := by decide +kernel
theorem witness_OscResetPhaseZeroesThePhase : tone.voices[0]? = some toneVoice := rfl
theorem witness_EnvAttackEntersAttack : tone.voices[0]? = some toneVoice := rfl
theorem witness_EnvReleaseEntersReleaseUnlessIdle : (toneWith (Voice.reset binary64)).voices[0]? = some (Voice.reset binary64) ∧
    (Voice.reset binary64).envStage = .idle ∧ tone.voices[0]? = some toneVoice ∧ toneVoice.envStage ≠ .idle := by
  decide +kernel
theorem witness_EnvResetSilencesAtOnce : tone.voices[0]? = some toneVoice := rfl
/-- Every stage, with the counter one below the count and two below it; a release at the floor and one above it. -/
theorem witness_EnvNextTakesOneStageStep : tone.voices[0]? = some toneVoice ∧ (Voice.reset binary64).envStage = .idle ∧
    (toneVoice.envStage = .attack ∧ toneVoice.envA ≤ toneVoice.envCounter + 1) ∧
    (0 + 1 < ({ toneVoice with envA := 2 } : Voice).envA) ∧
    (({ toneVoice with envStage := .decay } : Voice).envStage = .decay ∧ toneVoice.envD ≤ toneVoice.envCounter + 1) ∧
    ({ toneVoice with envStage := .sustain } : Voice).envStage = .sustain ∧
    NumVal.le NumVal.zero (NumVal.relFloor binary64) = true ∧ NumVal.le (NumVal.one binary64) (NumVal.relFloor binary64) = false := by
  decide +kernel
theorem witness_EnvActiveReportsTheStage : tone.voices[0]? = some toneVoice ∧ toneVoice.envStage ≠ .idle ∧
    (toneWith (Voice.reset binary64)).voices[0]? = some (Voice.reset binary64) ∧ (Voice.reset binary64).envStage = .idle := by
  decide +kernel
theorem witness_FltProcessFiltersOneSample : tone.voices[0]? = some toneVoice ∧ toneVoice.fltType = .lowpass ∧
    (toneWith { toneVoice with fltType := .highpass }).voices[0]? = some { toneVoice with fltType := .highpass } ∧
    (toneWith { toneVoice with fltType := .bandpass }).voices[0]? = some { toneVoice with fltType := .bandpass } ∧
    (opndF64 binary64 0x7FEFFFFFFFFFFFFF#64).finite = true ∧ (opndF64 binary64 0x7FF0000000000000#64).finite = false := by
  decide +kernel
theorem witness_FltResetZeroesTheMemory : tone.voices[0]? = some toneVoice := rfl
/-- Bin 58 has two samples and no harmonic: its Sine has a peak above 0, its Saw has none. The index after its last
sample, family 4 and bin 59 do not exist. -/
theorem witness_WtReadReturnsASample : tone.RomsMatch ∧ tone.params.num.wide = true ∧ (58 : Fin 59).val = 58 ∧
    1 < (tone.waveRom.get 58).len ∧
    (3, Family.triangle) ∈ [(0, Family.sine), (1, .saw), (2, .square), (3, .triangle)] ∧
    (∀ f b, (f, b) ∈ [(Family.sine, true), (.saw, false)] →
      NumVal.lt NumVal.zero ((List.range (tone.waveRom.get 58).len).foldl (fun best j => NumVal.max best (NumVal.abs
        (rawSample binary64 f (tone.waveRom.get 58).len (tone.waveRom.get 58).harmonics j))) NumVal.zero) = b) ∧
    3 < 4 ∧ 58 < 59 ∧ (tone.waveRom.get 58).len ≤ 2 := by
  refine ⟨tone_good.roms, tone_good.wide, rfl, by decide +kernel, by decide, ?_, by decide +kernel⟩
  intro f b h
  simp only [List.mem_cons, Prod.mk.injEq, List.not_mem_nil, or_false] at h
  rcases h with ⟨rfl, rfl⟩ | ⟨rfl, rfl⟩ <;> decide +kernel
theorem witness_WtLenReturnsTheLength : tone.params.num = binary64 ∧ (58 : Fin 59).val = 58 ∧ 58 < 59 ∧
    (tone.waveRom.get 58).len < 2 ^ 32 ∧ tone.RomsMatch ∧
    (NumVal.div binary64 tone.fs (tone.params.bankFreq.get 58)).finite = true ∧
    0 ≤ NumVal.round binary64 (NumVal.div binary64 tone.fs (tone.params.bankFreq.get 58)) ∧
    binary64.wide = true ∧ NumVal.inFmt binary64 tone.fs = true ∧ rateLegal binary64 tone.fs = true ∧
    bankLegal binary64 tone.params.bankFreq = true :=
  ⟨rfl, rfl, by decide, by decide +kernel, tone_good.roms, by decide +kernel, by decide +kernel, by decide,
    tone_good.rateInNum, tone_good.rate, tone_good.bank⟩
theorem witness_WtFreqReturnsTheCentreFrequency : (58 : Fin 59).val = 58 ∧ 58 < 59 := by decide
theorem witness_FcReadReturnsACoefficient (e : FilterBin) : tone.RomsMatch ∧ (49 : Fin 50).val = 49 ∧
    ((2, 2), e.bpALp) ∈ [((0, 0), e.lpB), ((0, 1), e.lpA), ((1, 0), e.hpAlpha), ((2, 0), e.bpAHp), ((2, 1), e.bpBLp),
      ((2, 2), e.bpALp)] ∧
    2 < 3 ∧ 49 < 50 ∧ (1, 1) ∉ [(0, 0), (0, 1), (1, 0), (2, 0), (2, 1), (2, 2)] :=
  ⟨tone_good.roms, by simp⟩
theorem witness_FcCutoffReturnsTheCutoff : tone.RomsMatch ∧ rateLegal tone.params.num tone.fs = true ∧
    tone.params.num.wide = true ∧ NumVal.inFmt tone.params.num tone.fs = true ∧ (49 : Fin 50).val = 49 ∧ 49 < 50 :=
  ⟨tone_good.roms, tone_good.rate, tone_good.wide, tone_good.rateInNum, by decide⟩

/-! The whole-machine statements. -/

theorem tone_ticks : ∀ n ≤ 2, Voice.ticksOk tone n toneVoice = true := by decide +kernel

theorem witness_RenderSplitsIntoTwoRenders : ∃ t u, exec (.render 0 1 14) tone = .next t ∧
    exec (.render 0 1 (14 + 1)) t = .next u := by
  have h := exec_render_ok (n := 1) (off := 14) tone_voice (by decide) (tone_ticks 1 (by decide))
  refine ⟨_, _, h, exec_render_ok (State.rendered_voice tone_voice) (by simp; decide) ?_⟩
  rw [Voice.ticksOk_congr (State.rendered_sameRoms tone 0 toneVoice 1 14)]
  decide +kernel

theorem witness_TickIsTheThreeBlockCommands : tone.voices[0]? = some toneVoice ∧ toneVoice.envStage ≠ .idle ∧
    15 + 1 ≤ tone.params.bufLen ∧ ∃ s1 s2 s3, exec (.oscNext 0) tone = .next s1 ∧ exec (.envNext 0) s1 = .next s2 ∧
    opndF64 binary64 0 = NumVal.mul binary64 (toneVoice.oscOut tone) (toneVoice.envStep binary64).envLevel ∧
    exec (.fltProcess 0 0) s2 = .next s3 :=
  ⟨rfl, by decide, by decide, _, _, _, exec_effect (.oscNext tone_voice tone_phase),
    exec_effect (.envNext (v := 0) rfl), by decide +kernel,
    exec_effect (.fltProcess (v := 0) _ rfl (by decide +kernel))⟩

theorem witness_OtherVoicesDoNotInterfere : ∃ t, (Instr.startNote 0).voice? = some 0 ∧
    tone.voices[0]? = ({ tone with voices := [toneVoice, (Voice.reset binary64)], out := [] } : State).voices[0]? ∧
    exec (.startNote 0) tone = .next t := ⟨_, rfl, rfl, rfl⟩

/-- Good standing and the duties of a RENDER to the end of the buffer, of 440 Hz, of the top note, and of a new rate. -/
theorem witness_DutyKeepingCommandsNeverStop : tone.Good ∧ tone.DutyMet (.render 0 2 14) ∧
    tone.DutyMet (.setFreq 0 0x407B800000000000#64) ∧ tone.DutyMet (.setNote 0 127) ∧
    tone.DutyMet (.setSampleRate 0x408F400000000000#64) ∧ tone.DutyMet (.wtRead 3 58 1) ∧
    tone.DutyMet (.fcRead 2 49 2) ∧ tone.DutyMet (.oscNext 0) := by
  refine ⟨tone_good, by unfold State.DutyMet; decide, ⟨by decide, by decide +kernel, by decide +kernel, ?_⟩,
    ⟨by decide, ?_⟩, .inr ⟨by decide +kernel, by decide +kernel, by decide +kernel, by decide +kernel⟩,
    ⟨by decide, tone.waveRom.get 58, rfl, by decide +kernel⟩, ⟨by decide, .inr (.inr ⟨rfl, by decide⟩)⟩,
    by unfold State.DutyMet; decide⟩
  · decide +kernel
  · decide +kernel

/-- 95_test_vectors.md L1.1: the tie of 22.0 between 20.0 and 24.0. -/
theorem witness_NearestIsClosestAndLowest :
    [NumVal.ofNat binary64 20, NumVal.ofNat binary64 24] ≠ [] ∧ (NumVal.ofNat binary64 22).finite = true ∧
    (∀ y ∈ [NumVal.ofNat binary64 20, NumVal.ofNat binary64 24], y.finite = true ∧
      (NumVal.sub binary64 y (NumVal.ofNat binary64 22)).isNaN = false) ∧ binary64.ieee = true ∧
    nearest binary64 [NumVal.ofNat binary64 20, NumVal.ofNat binary64 24] (NumVal.ofNat binary64 22) = 0 := by
  decide +kernel
theorem witness_AttackDecaySustainLevels : tone.voices[0]? = some toneVoice ∧ 1 ≤ toneVoice.envA ∧
    1 ≤ toneVoice.envD := by decide +kernel
theorem witness_ReleaseReachesIdleWithinItsCount : tone.voices[0]? = some toneVoice ∧ toneVoice.envStage ≠ .idle ∧
    1 ≤ toneVoice.envR := by decide +kernel
theorem witness_GeneratedTablesStartAtZero : binary64.wide = true ∧ binary32.wide = true ∧
    0 < (generateWaveBin binary64 (NumVal.fsReset binary64) (NumVal.ofNat binary64 20000)).len := by decide +kernel
/-- In binary32: the finite 1.0 and 1e-6, and a `z` of binary32. -/
theorem witness_OperatorsRoundToNearest : (NumVal.one binary32).finite = true ∧ (NumVal.relFloor binary32).finite = true ∧
    (NumVal.inFmt binary32 (NumVal.relFloor binary32) = true ∧
      NumVal.inFmt binary32 (NumVal.relFloor binary64) = false) ∧
    (NumVal.add binary32 (NumVal.one binary32) (NumVal.relFloor binary32)).finite = true ∧
    (NumVal.mul binary32 (NumVal.one binary32) (NumVal.relFloor binary32)).finite = true ∧
    (NumVal.div binary32 (NumVal.one binary32) (NumVal.relFloor binary32)).finite = true ∧
    (NumVal.relFloor binary32).isZero = false ∧ binary32.ieee = true := by decide +kernel

/-- A sustain level that is a NaN, reached by the second sample of a RENDER: one attack step, then one decay step. -/
def nanSustain : Voice := { toneVoice with envSustain := NumVal.nan }

theorem witness_RenderNonfiniteChangesNothing :
    (toneWith nanSustain).voices[0]? = some nanSustain ∧ 14 + 2 ≤ (toneWith nanSustain).params.bufLen ∧ 1 < 2 ∧
    Voice.ticksOk (toneWith nanSustain) 1 nanSustain = true ∧
    (Voice.ticks (toneWith nanSustain) 1 nanSustain).envStage ≠ .idle ∧
    phaseInRange binary64 (Voice.ticks (toneWith nanSustain) 1 nanSustain).oscPhase = true ∧
    ((Voice.ticks (toneWith nanSustain) 1 nanSustain).tickInput (toneWith nanSustain)).finite = false :=
  ⟨rfl, by decide, by decide, by decide +kernel, by decide +kernel, by decide +kernel, by decide +kernel⟩

theorem witness_GeneratedTablesFollowTheHarmonicSums : (∃ arg : Nat → NumVal, ∀ k, arg k =
    NumVal.div binary64 (NumVal.mul binary64 (NumVal.mul binary64 (NumVal.mul binary64 (NumVal.ofNat binary64 2)
      (NumVal.pi binary64)) (NumVal.ofNat binary64 k)) (NumVal.ofNat binary64 1)) (NumVal.ofNat binary64 50)) ∧
    (NumVal.div binary64 tone.fs (NumVal.fLo binary64)).finite = true ∧
    0 ≤ NumVal.round binary64 (NumVal.div binary64 tone.fs (NumVal.fLo binary64)) :=
  ⟨⟨_, fun _ => rfl⟩, by decide +kernel, by decide +kernel⟩

end Sys2Proof.Tests
end

section
/-! PROOFS of 00_scope.md, the scope's family: `nearest` (R15). The scan keeps one invariant: its best entry so far is the lowest of the closest entries before its index. -/

namespace Sys2Proof.NumVal

open Sys2Proof Sys2Proof.Config

/-! ### Comparisons and distances that are numbers -/

protected theorem le_refl {x : NumVal} (h : x.isNaN = false) : le x x = true := by
  cases x with
  | fin a m => simp [le]
  | inf a => cases a <;> rfl
  | nan => simp [isNaN] at h

/-- The order chains by the exact numbers of three finite values; with an infinity among them the hypotheses decide it. -/
protected theorem lt_of_lt_of_le {x y z : NumVal} (h1 : lt x y = true) (h2 : le y z = true) : lt x z = true := by
  cases x <;> cases y <;> cases z <;> simp_all [lt, le]
  omega

/-- The rounded difference of two finite values is a number or an infinity. -/
theorem isNaN_sub_of_finite {nf : Arith} (h : nf.ieee = true) {x y : NumVal} (hx : x.finite = true)
    (hy : y.finite = true) : (sub nf y x).isNaN = false := by
  have := Fact.mk h
  have hneg : (neg x).finite = true := (neg_spec (isNaN_of_finite hx)).1.trans hx
  rw [sub_eq_add_neg, add_finite_eq hy hneg]
  exact (ofUnits_spec nf _ _ _).1

end Sys2Proof.NumVal

namespace Sys2Proof.Machine

open Sys2Proof Sys2Proof.Config NumVal

/-- The distance R15 compares: `abs(y - x)` in NUM. -/
def distance (nf : Arith) (x y : NumVal) : NumVal := NumVal.abs (NumVal.sub nf y x)

/-- `z` is the entry `best` of `l`, no entry before index `k` is closer to `x`, and every entry before `best` is strictly
farther: what the scan of `nearest` knows before it looks at entry `k`. -/
structure ClosestBefore (nf : Arith) (x : NumVal) (l : List NumVal) (k best : Nat) (z : NumVal) : Prop where
  entry   : l[best]? = some z
  closest : ∀ i < k, ∀ y, l[i]? = some y → NumVal.le (distance nf x z) (distance nf x y) = true
  lowest  : ∀ i < best, ∀ y, l[i]? = some y → NumVal.lt (distance nf x z) (distance nf x y) = true

variable {nf : Arith} {x y z : NumVal} {l : List NumVal} {k best : Nat}

theorem nearestFrom_cons (x y : NumVal) (ys : List NumVal) (i best : Nat) (bd : NumVal) :
    nearestFrom nf x (y :: ys) i best bd =
      if NumVal.lt (distance nf x y) bd then nearestFrom nf x ys (i + 1) i (distance nf x y)
      else nearestFrom nf x ys (i + 1) best bd := rfl

theorem isNaN_distance (h : (NumVal.sub nf y x).isNaN = false) : (distance nf x y).isNaN = false :=
  (abs_spec h).2.1

/-- Before entry 1 the scan's best is entry 0. -/
theorem ClosestBefore.head (hy : (distance nf x y).isNaN = false) (ys : List NumVal) :
    ClosestBefore nf x (y :: ys) 1 0 y where
  entry := rfl
  closest i hi w hw := by
    obtain rfl : i = 0 := by omega
    obtain rfl : y = w := by simpa using hw
    exact NumVal.le_refl hy
  lowest i hi := absurd hi (Nat.not_lt_zero i)

/-- A strictly closer entry becomes the best. -/
theorem ClosestBefore.replace (h : ClosestBefore nf x l k best z) (hk : l[k]? = some y)
    (hlt : NumVal.lt (distance nf x y) (distance nf x z) = true) : ClosestBefore nf x l (k + 1) k y := by
  have lowest : ∀ i < k, ∀ w, l[i]? = some w → NumVal.lt (distance nf x y) (distance nf x w) = true :=
    fun i hi w hw => NumVal.lt_of_lt_of_le hlt (h.closest i hi w hw)
  refine ⟨hk, fun i hi w hw => ?_, lowest⟩
  obtain hi | rfl := Nat.lt_succ_iff_lt_or_eq.1 hi
  · exact NumVal.le_of_lt (lowest i hi w hw)
  · obtain rfl : y = w := by simpa [hk] using hw
    exact NumVal.le_refl (not_nan_of_lt hlt).1

/-- An entry that is not strictly closer leaves the best, so a tie keeps the lower index. -/
theorem ClosestBefore.keep (h : ClosestBefore nf x l k best z) (hk : l[k]? = some y)
    (hle : NumVal.le (distance nf x z) (distance nf x y) = true) : ClosestBefore nf x l (k + 1) best z := by
  refine ⟨h.entry, fun i hi w hw => ?_, h.lowest⟩
  obtain hi | rfl := Nat.lt_succ_iff_lt_or_eq.1 hi
  · exact h.closest i hi w hw
  · obtain rfl : y = w := by simpa [hk] using hw
    exact hle

/-- The scan carries its invariant over the rest `ys` of the list, from entry `k` to the end. -/
theorem ClosestBefore.scan (hd : ∀ y ∈ l, (distance nf x y).isNaN = false) {ys : List NumVal}
    (hys : l.drop k = ys) (h : ClosestBefore nf x l k best z) :
    ∃ w, ClosestBefore nf x l l.length (nearestFrom nf x ys k best (distance nf x z)) w := by
  induction ys generalizing k best z with
  | nil => exact ⟨z, h.entry, fun i hi => h.closest i (hi.trans_le (List.drop_eq_nil_iff.1 hys)), h.lowest⟩
  | cons y ys ih =>
    have hk : l[k]? = some y := by rw [← List.head?_drop, hys]; rfl
    have hrest : l.drop (k + 1) = ys := by rw [← List.tail_drop, hys]; rfl
    rw [nearestFrom_cons]
    split_ifs with hlt
    · exact ih hrest (h.replace hk hlt)
    · have hle := le_of_not_lt (hd y (List.mem_of_getElem? hk)) (hd z (List.mem_of_getElem? h.entry))
        (Bool.eq_false_iff.2 hlt)
      exact ih hrest (h.keep hk hle)

/-- R15's scan of a whole list of numbers' distances ends at the lowest of the closest entries. -/
theorem nearest_closestBefore (hl : l ≠ []) (hd : ∀ y ∈ l, (distance nf x y).isNaN = false) :
    ∃ z, ClosestBefore nf x l l.length (nearest nf l x) z := by
  obtain ⟨y, ys, rfl⟩ := List.exists_cons_of_ne_nil hl
  exact (ClosestBefore.head (hd y List.mem_cons_self) ys).scan hd rfl

end Sys2Proof.Machine

namespace Sys2Proof.Proofs

open Sys2Proof Sys2Proof.Machine

/-- Settles O54, by the invariant of the scan at the end of the list. -/
theorem nearestIsClosestAndLowest : Obligations.NearestIsClosestAndLowest := by
  refine ⟨fun nf l x hl hd => ?_, fun _ _ _ h hx hy => NumVal.isNaN_sub_of_finite h hx hy⟩
  obtain ⟨z, hz⟩ := nearest_closestBefore hl fun y hy => isNaN_distance (hd y hy)
  refine ⟨z, hz.entry, fun i y hi => ⟨?_, fun hlow => hz.lowest i hlow y hi⟩⟩
  exact hz.closest i (List.getElem?_eq_some_iff.1 hi).1 y hi

end Sys2Proof.Proofs
end

section
/-! PROOFS of 10_state.md, the state's family: both ROMs match the rate at every command boundary (R22). Of all commands only an accepted SET_SAMPLE_RATE writes the rate or a ROM, and it writes the three together. -/

namespace Sys2Proof.Machine

open Sys2Proof Sys2Proof.Config

variable {i : Instr} {s t : State}

/-- SET_SAMPLE_RATE rejects its rate with no effect or reconfigures the machine for it (R135). -/
theorem effect_setSampleRate {hz : OperandWord} (h : Effect (.setSampleRate hz) s t) :
    t = s ∨ t = s.reconfigure (opndF64 s.params.num hz) := by
  cases h with
  | rateRejected => exact .inl rfl
  | rateAccepted => exact .inr rfl

/-- Every other command leaves the parameters, the rate and both ROMs. -/
theorem effect_sameRate (h : Effect i s t) (hi : ∀ hz, i ≠ .setSampleRate hz) : s.SameRoms t ∧ t.fs = s.fs := by
  cases h with
  | rateRejected x | rateAccepted x => exact absurd rfl (hi x)
  | _ => simp [State.SameRoms]

theorem State.reconfigure_romsMatch (s : State) (h : NumVal) : (s.reconfigure h).RomsMatch := ⟨rfl, rfl⟩

/-- ROMs that match stay matched where the rate, the parameters and the ROMs stay. -/
theorem State.RomsMatch.congr (hm : s.RomsMatch) (hr : s.SameRoms t) (hf : t.fs = s.fs) : t.RomsMatch := by
  obtain ⟨hp, hw, hfr⟩ := hr
  rw [State.RomsMatch, hp, hw, hfr, hf]
  exact hm

theorem effect_romsMatch (h : Effect i s t) (hm : s.RomsMatch) : t.RomsMatch := by
  by_cases hi : ∃ hz, i = .setSampleRate hz
  · obtain ⟨hz, rfl⟩ := hi
    obtain rfl | rfl := effect_setSampleRate h
    · exact hm
    · exact s.reconfigure_romsMatch _
  · obtain ⟨hr, hf⟩ := effect_sameRate h fun hz e => hi ⟨hz, e⟩
    exact hm.congr hr hf

end Sys2Proof.Machine

namespace Sys2Proof.Proofs

open Sys2Proof Sys2Proof.Machine

/-- Settles O11, by what a completed command can do to the rate and the ROMs: taking the command from the stream and
moving the command index on touch neither. -/
theorem romsAlwaysMatchTheRate : Obligations.RomsAlwaysMatchTheRate := by
  refine ⟨fun s t h hm => ?_, fun i s t h hi => ?_, fun hz s t h => ?_, State.resetWith_romsMatch⟩
  · obtain ⟨-, i, rest, u, -, he, rfl⟩ := step_next h
    have hu : u.RomsMatch := effect_romsMatch he (hm.congr ⟨rfl, rfl, rfl⟩ rfl)
    exact hu.congr ⟨rfl, rfl, rfl⟩ rfl
  · exact (effect_sameRate (exec_next h) hi).1.2
  · obtain rfl | rfl := effect_setSampleRate (exec_next h)
    · exact .inl ⟨rfl, rfl⟩
    · exact .inr (s.reconfigure_romsMatch _)

end Sys2Proof.Proofs
end

section
/-! PROOFS of 30_encoding.md, the encoding's family: the checks of R65. The decoder makes them on the rows of the opcode map; read by columns, as the statement reads them, they are the same checks in the same order. -/

namespace Sys2Proof.Machine

open Sys2Proof

variable {s : State} {n cw : Nat} {ops : List Nat} {bs rest : List Byte}

/-! ### The checks of R65 by columns -/

theorem fieldOp_eq (cw : Nat) : fieldOp cw = cw % 2 ^ 8 := rfl

/-- R64 gives a command to every listed opcode with as many operand words as the opcode fixes. The cases are the opcodes
by the possible lists of operand words: `hlen` rules out the lists of another length. -/
theorem assemble_of_listed (ho : cw % 2 ^ 8 ∈ listedOpcodes) (hlen : ops.length = wordCount (cw % 2 ^ 8)) :
    ∃ i, assemble cw ops = some i := by
  unfold assemble
  rw [fieldOp_eq]
  generalize cw % 2 ^ 8 = op at ho hlen ⊢
  rw [listedOpcodes] at ho
  fin_cases ho <;> rcases ops with _ | ⟨_, _ | ⟨_, _ | ⟨_, _ | ⟨_, _ | _⟩⟩⟩⟩ <;> simp [wordCount] at hlen ⊢

open Classical in
/-- The first check of R65 that fails. -/
theorem legality_by_columns (hcw : cw < 2 ^ 32) (hlen : ops.length = wordCount (cw % 2 ^ 8)) :
    legality n (findRow (fieldOp cw)) cw ops =
      if cw % 2 ^ 8 ∉ listedOpcodes then some .illegalOp
      else if FieldSet cw then some .badField
      else if VoiceMissing n cw then some .badVoice
      else if OperandTooLarge cw ops then some .badOperand
      else none := by
  rw [fieldOp_eq]
  by_cases ho : cw % 2 ^ 8 ∈ listedOpcodes
  · obtain ⟨r, hr⟩ := Option.isSome_iff_exists.1 (listed_found _ ho)
    rw [if_neg (not_not.2 ho), hr]
    simp only [legality, ← fieldSet_iff hcw hr, ← voiceMissing_iff hr, ← operandTooLarge_iff hr hlen, ite_or]
  · rw [if_pos ho, findRow_unlisted ho, legality]

/-! ### A step on a command that fails a check, and on one that passes them all -/

/-- A whole command that fails a check is refused with its reason; only the record changes. -/
theorem step_of_legality_some {reason : RefuseReason} (ho : s.outcome = none) (hcw : cw < 2 ^ 32)
    (hops : ∀ w ∈ ops, w < 2 ^ 64) (hlen : ops.length = wordCount (cw % 2 ^ 8))
    (hs : s.stream = leBytes 4 cw ++ ops.flatMap (leBytes 8) ++ rest)
    (h : legality s.voices.length (findRow (fieldOp cw)) cw ops = some reason) :
    step s = refuse reason (some (BitVec.ofNat 32 cw)) s := by
  have hd := decode_words s.voices.length rest hcw hops (hlen.trans (operandCount_eq _).symm)
  rw [← hs, decodeWords, h] at hd
  exact step_undecoded ho (by rw [hs]; exact nofun) hd

/-- A whole command that passes every check decodes, and the bytes after it are left. -/
theorem decode_of_legality_none (hcw : cw < 2 ^ 32) (hops : ∀ w ∈ ops, w < 2 ^ 64)
    (hlen : ops.length = wordCount (cw % 2 ^ 8)) (ho : cw % 2 ^ 8 ∈ listedOpcodes)
    (h : legality n (findRow (fieldOp cw)) cw ops = none) :
    ∃ i, decode n (leBytes 4 cw ++ ops.flatMap (leBytes 8) ++ rest) = .ok (i, rest) := by
  obtain ⟨i, hi⟩ := assemble_of_listed ho hlen
  have hd := decode_words n rest hcw hops (hlen.trans (operandCount_eq _).symm)
  rw [decodeWords, h, hi] at hd
  exact ⟨i, hd⟩

/-- A command the stream ends inside of, its command word complete, is refused TRUNCATED. -/
theorem step_truncated (ho : s.outcome = none) (hcw : cw < 2 ^ 32)
    (hs : s.stream = leBytes 4 cw ++ bs) (hb : bs.length < 8 * wordCount (cw % 2 ^ 8)) :
    step s = refuse .truncated (some (BitVec.ofNat 32 cw)) s := by
  have hw : leNat (s.stream.take 4) = cw := by
    rw [hs, List.take_left' (leBytes_length 4 cw), leNat_leBytes_of_lt hcw]
  have hlen : s.stream.length = 4 + bs.length := by rw [hs, List.length_append, leBytes_length]
  have hshort : s.stream.length < 4 + 8 * operandCount (fieldOp (leNat (s.stream.take 4))) := by
    rw [hw, hlen, operandCount_eq]
    exact Nat.add_lt_add_left hb 4
  have hd := decode_truncated s.voices.length (by omega) hshort
  rw [hw] at hd
  exact step_undecoded ho (by rw [hs]; exact nofun) hd

end Sys2Proof.Machine

namespace Sys2Proof.Proofs

open Sys2Proof Sys2Proof.Machine

/-- Settles O4: each premise of a clause decides one check of `legality_by_columns`. -/
theorem firstFailedCheckNamesTheReason : Obligations.FirstFailedCheckNamesTheReason := by
  refine ⟨fun s cw ops rest ho hcw hops hlen hs => ?_, fun s cw bs ho hcw hs hb => step_truncated ho hcw hs hb⟩
  have hleg := legality_by_columns (n := s.voices.length) hcw hlen
  have refused reason := step_of_legality_some (reason := reason) ho hcw hops hlen hs
  refine ⟨fun hl => ?_, fun hl hf => ?_, fun hl hf hv => ?_, fun hl hf hv hp => ?_, fun hl hf hv hp => ?_⟩
  · exact refused .illegalOp (by rw [hleg, if_pos hl])
  · exact refused .badField (by rw [hleg, if_neg (not_not.2 hl), if_pos hf])
  · exact refused .badVoice (by rw [hleg, if_neg (not_not.2 hl), if_neg hf, if_pos hv])
  · exact refused .badOperand (by rw [hleg, if_neg (not_not.2 hl), if_neg hf, if_neg hv, if_pos hp])
  · rw [hs]
    exact decode_of_legality_none hcw hops hlen hl
      (by rw [hleg, if_neg (not_not.2 hl), if_neg hf, if_neg hv, if_neg hp])

end Sys2Proof.Proofs
end

section
/-! PROOFS of 40_wavetable_rom.md, the wavetable ROM's family: WT_FREQ (R84). The bank has an entry for bins 0 to 58 and none above. -/

namespace Sys2Proof.Machine

open Sys2Proof Sys2Proof.Config

/-- R58's layout of WT_FREQ: the opcode and BIN, every other field zero. -/
theorem wtFreq_word (bin : Nat) : (Instr.wtFreq bin).parts.word = 0x42 + bin * 2 ^ 12 := by
  simp only [Parts.word, Instr.parts, Nat.zero_mul, Nat.add_zero]

theorem encode_wtFreq (bin : Nat) : encode (.wtFreq bin) = leBytes 4 (0x42 + bin * 2 ^ 12) := by
  rw [encode, wtFreq_word]
  exact List.append_nil _

theorem exec_wtFreq_of_bin (s : State) (b : Fin numBankBins) :
    exec (.wtFreq b) s = .next (s.respond (.f64 (NumVal.toF64 s.params.num (s.params.bankFreq.get b)))) :=
  exec_effect (.wtFreq (Vector.getElem?_eq_getElem b.isLt))

theorem exec_wtFreq_of_no_bin (s : State) {bin : Nat} (h : numBankBins ≤ bin) :
    exec (.wtFreq bin) s = raise .romIndex (.wtFreq bin) none s :=
  exec_of_stop (.wtFreq bin (Vector.getElem?_eq_none h))

end Sys2Proof.Machine

namespace Sys2Proof.Proofs

open Sys2Proof Sys2Proof.Machine

/-- Settles O47: a bin of the bank answers with its entry, and any other bin raises ROM_INDEX with its command word on record. -/
theorem wtFreqReturnsTheCentreFrequency : Obligations.WtFreqReturnsTheCentreFrequency := by
  refine ⟨encode_wtFreq, fun bin s => ⟨?_, fun h => ?_⟩⟩
  · rintro b rfl
    exact exec_wtFreq_of_bin s b
  · rw [exec_wtFreq_of_no_bin s h, raise, Instr.commandWord, wtFreq_word]
    rfl

end Sys2Proof.Proofs
end

section
/-! PROOFS of 41_oscillator.md, the oscillator's family: OSC_NEXT (R93) and OSC_RESET_PHASE (R94). What OSC_NEXT computes is the model's `oscOut` and `advance`; the rest is what the bin, the index and the wrap of R86 to R90 are. -/

namespace Sys2Proof.Machine

open Sys2Proof Sys2Proof.Config

variable {v : Nat} {s : State} {vc : Voice}

/-- R58's layout of a command that has only a voice: the opcode and VOICE, every other field zero. -/
theorem Parts.word_of_voice (op v : Nat) : ({ op := op, voice := v } : Parts).word = op + v * 2 ^ 20 := by
  simp only [Parts.word, Nat.zero_mul, Nat.add_zero]

/-- The stream of such a command is its command word: it has no operand words. -/
theorem encode_of_voice {i : Instr} {op v : Nat} (h : i.parts = { op := op, voice := v }) :
    encode i = leBytes 4 (op + v * 2 ^ 20) := by
  rw [encode, h, Parts.word_of_voice]
  exact List.append_nil _

/-- What an outcome record holds of such a command (60_exceptions.md R142, R143). -/
theorem commandWord_of_voice {i : Instr} {op v : Nat} (h : i.parts = { op := op, voice := v }) :
    i.commandWord = BitVec.ofNat 32 (op + v * 2 ^ 20) := by
  rw [Instr.commandWord, h, Parts.word_of_voice]

/-- R91's precondition, as its two comparisons. -/
theorem phaseInRange_eq_true_iff (nf : Arith) (p : NumVal) :
    phaseInRange nf p = true ↔ NumVal.le NumVal.zero p = true ∧ NumVal.lt p (NumVal.one nf) = true := by
  rw [phaseInRange, Bool.and_eq_true]

/-- The bin a voice selects is the bank's nearest to its frequency (R86). -/
theorem Voice.bankBin_eq {b : Fin numBankBins}
    (hb : b.val = nearest s.params.num s.params.bankFreq.toList vc.oscFreq) : vc.bankBin s = s.waveRom.get b :=
  congrArg s.waveRom.get (Fin.ext hb.symm)

theorem exec_oscNext_of_phaseInRange (hv : s.voices[v]? = some vc) (hp : phaseInRange s.params.num vc.oscPhase = true) :
    exec (.oscNext v) s = .next ((s.setVoice v (vc.advance s.params.num)).respond
      (.f64 (NumVal.toF64 s.params.num (vc.oscOut s)))) :=
  exec_effect (.oscNext hv hp)

theorem exec_oscNext_of_not_phaseInRange (hv : s.voices[v]? = some vc)
    (hp : phaseInRange s.params.num vc.oscPhase = false) :
    exec (.oscNext v) s = raise .phaseRange (.oscNext v) (some { voice := v, sample := 0, phase := vc.oscPhase }) s :=
  exec_of_stop (.oscNext hv hp)

theorem exec_oscResetPhase_of_voice (hv : s.voices[v]? = some vc) :
    exec (.oscResetPhase v) s = .next (s.setVoice v { vc with oscPhase := NumVal.zero }) :=
  exec_effect (.oscResetPhase hv)

end Sys2Proof.Machine

namespace Sys2Proof.Proofs

open Sys2Proof Sys2Proof.Machine

/-- Settles O36: the index `i0` is the model's `tableIndex`, which is R87's for a whole part that is not negative and one
of the table's for any; with it the sample and the phase are those of `oscOut` and `advance`, unfolded. A phase
outside [0, 1) stops the command with its command word on record. -/
theorem oscNextReturnsTheSampleAndAdvances : Obligations.OscNextReturnsTheSampleAndAdvances := by
  refine ⟨fun v => encode_of_voice rfl, ?_⟩
  rintro v s vc nf rfl hv
  rw [← phaseInRange_eq_true_iff]
  refine ⟨?_, fun hp => ?_⟩
  · rintro hp b w pos fr hb rfl rfl rfl
    rw [← Voice.bankBin_eq hb]
    refine ⟨_, fun h => tableIndex_of_nonneg h _, tableIndex_lt _, ?_⟩
    rintro sample next rfl rfl
    exact exec_oscNext_of_phaseInRange hv hp
  · rw [exec_oscNext_of_not_phaseInRange hv (Bool.eq_false_iff.2 hp), raise, commandWord_of_voice (i := .oscNext v) rfl]
    rfl

/-- Settles O37: writing the phase is the command's whole effect, from every stage and phase. -/
theorem oscResetPhaseZeroesThePhase : Obligations.OscResetPhaseZeroesThePhase :=
  ⟨fun _ => encode_of_voice rfl, fun _ _ _ hv => exec_oscResetPhase_of_voice hv⟩

end Sys2Proof.Proofs
end

section
/-! PROOFS of 42_envelope.md, the envelope's family: ENV_ATTACK (R98), ENV_NEXT (R99 to R104), ENV_RELEASE (R105), ENV_RESET (R106) and ENV_ACTIVE (R107). A stage's step has two branches, its transition and its count; ENV_NEXT takes the step of the voice's stage. -/

namespace Sys2Proof.Machine

open Sys2Proof Sys2Proof.Config

variable {v : Nat} {s : State} {vc : Voice} {nf : Arith}

/-- Writing back a voice that stands in the state changes nothing. -/
theorem State.setVoice_self (hv : s.voices[v]? = some vc) : s.setVoice v vc = s := by
  obtain ⟨hlt, rfl⟩ := List.getElem?_eq_some_iff.1 hv
  rw [State.setVoice, List.set_getElem_self]

/-! ### The two branches of a stage's step (R99, R100, R102) -/

theorem Voice.attackStep_of_end (h : vc.envA ≤ vc.envCounter + 1) :
    vc.attackStep nf = { vc with envStage := .decay, envCounter := 0, envLevel := NumVal.one nf } :=
  if_pos h

theorem Voice.attackStep_of_lt (h : vc.envCounter + 1 < vc.envA) :
    vc.attackStep nf =
      { vc with envCounter := vc.envCounter + 1, envLevel := stageRatio nf (vc.envCounter + 1) vc.envA } :=
  if_neg h.not_ge

theorem Voice.decayStep_of_end (h : vc.envD ≤ vc.envCounter + 1) :
    vc.decayStep nf = { vc with envStage := .sustain, envCounter := 0, envLevel := vc.envSustain } :=
  if_pos h

theorem Voice.decayStep_of_lt (h : vc.envCounter + 1 < vc.envD) :
    vc.decayStep nf =
      { vc with envCounter := vc.envCounter + 1
                envLevel := decayLevel nf vc.envSustain (vc.envCounter + 1) vc.envD } :=
  if_neg h.not_ge

/-- A release ends at its count or when the level just computed is at the floor, whichever is first. -/
theorem Voice.releaseStep_of_end (h : vc.envR ≤ vc.envCounter + 1 ∨
      NumVal.le (releaseLevel nf vc.envRsl (vc.envCounter + 1) vc.envR) (NumVal.relFloor nf) = true) :
    vc.releaseStep nf = { vc with envStage := .idle, envCounter := 0, envLevel := NumVal.zero } :=
  if_pos (by rwa [Bool.or_eq_true, decide_eq_true_eq])

theorem Voice.releaseStep_of_lt (h : vc.envCounter + 1 < vc.envR)
    (hl : NumVal.le (releaseLevel nf vc.envRsl (vc.envCounter + 1) vc.envR) (NumVal.relFloor nf) = false) :
    vc.releaseStep nf =
      { vc with envCounter := vc.envCounter + 1
                envLevel := releaseLevel nf vc.envRsl (vc.envCounter + 1) vc.envR } :=
  if_neg (by rw [hl, Bool.or_false, decide_eq_true_eq]; exact h.not_ge)

/-! ### The step of a stage (R104) -/

theorem Voice.envStep_of_idle (h : vc.envStage = .idle) : vc.envStep nf = vc.idleStep := by
  rw [Voice.envStep, h]

theorem Voice.envStep_of_attack (h : vc.envStage = .attack) : vc.envStep nf = vc.attackStep nf := by
  rw [Voice.envStep, h]

theorem Voice.envStep_of_decay (h : vc.envStage = .decay) : vc.envStep nf = vc.decayStep nf := by
  rw [Voice.envStep, h]

theorem Voice.envStep_of_sustain (h : vc.envStage = .sustain) : vc.envStep nf = vc.sustainStep := by
  rw [Voice.envStep, h]

theorem Voice.envStep_of_release (h : vc.envStage = .release) : vc.envStep nf = vc.releaseStep nf := by
  rw [Voice.envStep, h]

/-! ### The ACTIVE output (R107) -/

theorem Voice.active_eq_decide (vc : Voice) : vc.active = decide (vc.envStage ≠ .idle) :=
  Bool.eq_iff_iff.2 (bne_iff_ne.trans decide_eq_true_iff.symm)

theorem State.activeOutputs_of_voice (hv : s.voices[v]? = some vc) : s.activeOutputs[v]? = some vc.active := by
  rw [State.activeOutputs, List.getElem?_map, hv, Option.map_some]

theorem exec_envActive_of_voice (hv : s.voices[v]? = some vc) :
    exec (.envActive v) s = .next (s.respond (.u32 (flagValue (decide (vc.envStage ≠ .idle))))) := by
  rw [← Voice.active_eq_decide]
  exact exec_effect (.envActive hv)

end Sys2Proof.Machine

namespace Sys2Proof.Proofs

open Sys2Proof Sys2Proof.Machine

/-- Settles O38: entering Attack is the command's whole effect. -/
theorem envAttackEntersAttack : Obligations.EnvAttackEntersAttack :=
  ⟨fun _ => encode_of_voice rfl, fun _ _ _ hv => exec_effect (.envAttack hv)⟩

/-- Settles O39, by the two cases of entering Release: in Idle the voice is written back as it was. -/
theorem envReleaseEntersReleaseUnlessIdle : Obligations.EnvReleaseEntersReleaseUnlessIdle := by
  refine ⟨fun _ => encode_of_voice rfl, fun v s vc hv => ?_⟩
  rw [exec_effect (.envRelease hv)]
  obtain ⟨hi, he⟩ | ⟨hi, he⟩ := vc.enterRelease_cases
  · rw [he, State.setVoice_self hv]
    exact ⟨fun _ => rfl, fun h => absurd hi h⟩
  · rw [he]
    exact ⟨fun h => absurd h hi, fun _ => rfl⟩

/-- Settles O40: the hard silence is the command's whole effect, from every stage. -/
theorem envResetSilencesAtOnce : Obligations.EnvResetSilencesAtOnce :=
  ⟨fun _ => encode_of_voice rfl, fun _ _ _ hv => exec_effect (.envReset hv)⟩

/-- Settles O41: the voice after the command is the model's `envStep`, whose value is given stage by stage. -/
theorem envNextTakesOneStageStep : Obligations.EnvNextTakesOneStageStep := by
  refine ⟨fun _ => encode_of_voice rfl, ?_⟩
  rintro v s vc nf rfl hv
  refine ⟨vc.envStep s.params.num, exec_effect (.envNext hv), fun hs => ?idle, fun hs h => ?attackEnd,
    fun hs h => ?attack, fun hs h => ?decayEnd, fun hs h => ?decay, fun hs => ?sustain, ?release⟩
  case idle => exact Voice.envStep_of_idle hs
  case attackEnd => exact (Voice.envStep_of_attack hs).trans (Voice.attackStep_of_end h)
  case attack => exact (Voice.envStep_of_attack hs).trans (Voice.attackStep_of_lt h)
  case decayEnd => exact (Voice.envStep_of_decay hs).trans (Voice.decayStep_of_end h)
  case decay => exact (Voice.envStep_of_decay hs).trans (Voice.decayStep_of_lt h)
  case sustain => exact Voice.envStep_of_sustain hs
  case release =>
    rintro level hs rfl
    rw [Voice.envStep_of_release hs]
    exact ⟨Voice.releaseStep_of_end, Voice.releaseStep_of_lt⟩

/-- Settles O42: the response is the flag of the ACTIVE output, which is whether the stage is not Idle. -/
theorem envActiveReportsTheStage : Obligations.EnvActiveReportsTheStage := by
  refine ⟨fun _ => encode_of_voice rfl, fun v s vc hv => ?_⟩
  rw [exec_envActive_of_voice hv, State.activeOutputs_of_voice hv, Voice.active_eq_decide]
  refine ⟨fun hs => ?_, fun hs => ?_, rfl⟩
  · rw [decide_eq_true hs]
    rfl
  · rw [decide_eq_false (not_not.2 hs)]
    rfl

end Sys2Proof.Proofs
end

section
/-! PROOFS of 43_filter.md, the filter's family: FLT_PROCESS (R117 to R120), FLT_RESET (R121) and FC_READ (R111 to R114, R123). A topology's equation gives the output and the memory; a coefficient exists for six pairs of topology and index, and a ROM that matches the rate holds the generated ones. -/

namespace Sys2Proof.Machine

open Sys2Proof Sys2Proof.Config

variable {v : Nat} {s : State} {vc : Voice} {nf : Arith}

/-! ### The equation of a topology (R117 to R119) -/

theorem Voice.filterOut_of_lowpass (h : vc.fltType = .lowpass) (b : FilterBin) (x : NumVal) :
    vc.filterOut nf b x = lowpassOut nf b vc x := by
  rw [Voice.filterOut, h]

theorem Voice.filterOut_of_highpass (h : vc.fltType = .highpass) (b : FilterBin) (x : NumVal) :
    vc.filterOut nf b x = highpassOut nf b vc x := by
  rw [Voice.filterOut, h]

theorem Voice.filterOut_of_bandpass (h : vc.fltType = .bandpass) (b : FilterBin) (x : NumVal) :
    vc.filterOut nf b x = bandpassLow nf b vc (bandpassHigh nf b vc x) := by
  rw [Voice.filterOut, h]

theorem Voice.filtered_of_lowpass (h : vc.fltType = .lowpass) (b : FilterBin) (x : NumVal) :
    vc.filtered nf b x = { vc with fltX1 := x, fltY1 := lowpassOut nf b vc x } := by
  rw [Voice.filtered, h]

theorem Voice.filtered_of_highpass (h : vc.fltType = .highpass) (b : FilterBin) (x : NumVal) :
    vc.filtered nf b x = { vc with fltX1 := x, fltY1 := highpassOut nf b vc x } := by
  rw [Voice.filtered, h]

theorem Voice.filtered_of_bandpass (h : vc.fltType = .bandpass) (b : FilterBin) (x : NumVal) :
    vc.filtered nf b x =
      { vc with fltX1 := x, fltY1 := bandpassHigh nf b vc x, fltX2 := bandpassHigh nf b vc x
                fltY2 := bandpassLow nf b vc (bandpassHigh nf b vc x) } := by
  rw [Voice.filtered, h]

/-! ### FLT_PROCESS (R120) -/

/-- R58's layout of FLT_PROCESS: the operand word is no part of the command word. -/
theorem fltProcess_word (v : Nat) (x : OperandWord) : (Instr.fltProcess v x).parts.word = 0x30 + v * 2 ^ 20 :=
  Parts.word_of_voice 0x30 v

theorem encode_fltProcess (v : Nat) (x : OperandWord) :
    encode (.fltProcess v x) = leBytes 4 (0x30 + v * 2 ^ 20) ++ leBytes 8 x.toNat := by
  rw [encode, fltProcess_word]
  exact congrArg _ (List.append_nil _)

theorem exec_fltProcess_of_not_finite {x : OperandWord} (hv : s.voices[v]? = some vc)
    (hx : (opndF64 s.params.num x).finite = false) :
    exec (.fltProcess v x) s = raise .nonfinite (.fltProcess v x) none s := by
  refine exec_of_stop (.nonfinite (.inr (.inr (.inr (.inr (.inl ⟨v, x, rfl, hx⟩))))) fun u hu => ⟨vc, ?_⟩)
  rwa [← Option.some.inj hu]

/-! ### FC_READ (R123) -/

/-- R58's layout of FC_READ: the opcode, SEL, BIN and CIX, with VOICE zero. -/
theorem fcRead_word (sel bin cix : Nat) :
    (Instr.fcRead sel bin cix).parts.word = 0x50 + sel * 2 ^ 8 + bin * 2 ^ 12 + cix * 2 ^ 18 := by
  simp only [Parts.word, Instr.parts, Nat.zero_mul, Nat.add_zero]

theorem encode_fcRead (sel bin cix : Nat) :
    encode (.fcRead sel bin cix) = leBytes 4 (0x50 + sel * 2 ^ 8 + bin * 2 ^ 12 + cix * 2 ^ 18) := by
  rw [encode, fcRead_word]
  exact List.append_nil _

/-- The pairs of topology and index that have a coefficient: two of lowpass, one of highpass, three of bandpass (R123). -/
def coeffIndices : List (Nat × Nat) := [(0, 0), (0, 1), (1, 0), (2, 0), (2, 1), (2, 2)]

/-- The six coefficients of a bin, by topology and index (20_memory.md R41). -/
theorem FilterBin.coeff_of_mem {e : FilterBin} {sel cix : Nat} {c : NumVal}
    (h : ((sel, cix), c) ∈ [((0, 0), e.lpB), ((0, 1), e.lpA), ((1, 0), e.hpAlpha),
      ((2, 0), e.bpAHp), ((2, 1), e.bpBLp), ((2, 2), e.bpALp)]) : e.coeff sel cix = some c := by
  simp only [List.mem_cons, Prod.mk.injEq, List.not_mem_nil, or_false] at h
  rcases h with ⟨⟨rfl, rfl⟩, rfl⟩ | ⟨⟨rfl, rfl⟩, rfl⟩ | ⟨⟨rfl, rfl⟩, rfl⟩ | ⟨⟨rfl, rfl⟩, rfl⟩ | ⟨⟨rfl, rfl⟩, rfl⟩ |
    ⟨⟨rfl, rfl⟩, rfl⟩ <;> rfl

theorem FilterBin.coeff_of_not_mem (e : FilterBin) {sel cix : Nat} (h : (sel, cix) ∉ coeffIndices) :
    e.coeff sel cix = none := by
  unfold FilterBin.coeff
  split
  case h_7 => rfl
  all_goals exact absurd (by decide) h

/-- No topology above 2 has a coefficient. -/
theorem coeffIndex_not_mem_of_two_lt {sel : Nat} (h : 2 < sel) (cix : Nat) : (sel, cix) ∉ coeffIndices := by
  simp only [coeffIndices, List.mem_cons, Prod.mk.injEq, List.not_mem_nil, or_false]
  omega

theorem exec_fcRead_of_coeff {b : Fin numFilterBins} {sel cix : Nat} {c : NumVal}
    (hc : (s.filterRom.get b).coeff sel cix = some c) :
    exec (.fcRead sel b cix) s = .next (s.respond (.f64 (NumVal.toF64 s.params.num c))) :=
  exec_effect (.fcRead (Vector.getElem?_eq_getElem b.isLt) hc)

/-- FC_READ's one check (R123): a topology, bin or index that does not exist raises ROM_INDEX. -/
theorem exec_fcRead_of_missing (s : State) {sel bin cix : Nat}
    (h : 2 < sel ∨ numFilterBins ≤ bin ∨ (sel, cix) ∉ coeffIndices) :
    exec (.fcRead sel bin cix) s = raise .romIndex (.fcRead sel bin cix) none s := by
  refine exec_of_stop (.fcRead sel bin cix fun e he => ?_)
  obtain hsel | hbin | hcix := h
  · exact e.coeff_of_not_mem (coeffIndex_not_mem_of_two_lt hsel cix)
  · exact absurd (Vector.getElem?_eq_none hbin ▸ he) nofun
  · exact e.coeff_of_not_mem hcix

/-- A bin of a ROM that matches the rate is the one R115 generates. -/
theorem State.RomsMatch.filterRom_get (hm : s.RomsMatch) (b : Fin numFilterBins) :
    s.filterRom.get b = generateFilterBin s.params.num s.fs b := by
  rw [hm.2]
  exact Vector.getElem_ofFn b.isLt

end Sys2Proof.Machine

namespace Sys2Proof.Proofs

open Sys2Proof Sys2Proof.Machine

/-- Settles O43: a finite input takes the equation of the voice's topology, for the output and for the memory; a
non-finite one stops the command with its command word on record. -/
theorem fltProcessFiltersOneSample : Obligations.FltProcessFiltersOneSample := by
  refine ⟨encode_fltProcess, ?_⟩
  rintro v w s vc x y yh yl c nf rfl hv rfl rfl
  refine ⟨?_, ?_, ?_, fun hx => ?_⟩
  · rintro hx ht rfl
    rw [exec_effect (.fltProcess w hv hx), Voice.filterOut_of_lowpass ht, Voice.filtered_of_lowpass ht]
    rfl
  · rintro hx ht rfl
    rw [exec_effect (.fltProcess w hv hx), Voice.filterOut_of_highpass ht, Voice.filtered_of_highpass ht]
    rfl
  · rintro hx ht rfl rfl
    rw [exec_effect (.fltProcess w hv hx), Voice.filterOut_of_bandpass ht, Voice.filtered_of_bandpass ht]
    rfl
  · rw [exec_fltProcess_of_not_finite hv hx, raise, Instr.commandWord, fltProcess_word]
    rfl

/-- Settles O44: zeroing the four memories is the command's whole effect. -/
theorem fltResetZeroesTheMemory : Obligations.FltResetZeroesTheMemory :=
  ⟨fun _ => encode_of_voice rfl, fun _ _ _ hv => exec_effect (.fltReset hv)⟩

/-- Settles O48: a coefficient of the six answers with its value, anything else raises ROM_INDEX with its command word on
record, and the six values of a generated bin are R112's to R114's by definition. -/
theorem fcReadReturnsACoefficient : Obligations.FcReadReturnsACoefficient := by
  refine ⟨encode_fcRead, ?_⟩
  rintro sel bin cix s nf rfl
  refine ⟨?_, fun h => ?_, ?_⟩
  · rintro b e c rfl rfl hc
    exact exec_fcRead_of_coeff (FilterBin.coeff_of_mem hc)
  · rw [exec_fcRead_of_missing s h, raise, Instr.commandWord, fcRead_word]
    rfl
  · rintro b e rc dt lp hp hm rfl rfl rfl rfl rfl
    rw [hm.filterRom_get b]
    exact ⟨rfl, rfl, rfl, rfl, rfl, rfl⟩

end Sys2Proof.Proofs
end

section
/-! PROOFS of 44_voice.md, the voice's family: the parameter commands (R127 to R130, R133, R134), START_NOTE and STOP_NOTE (R131, R132), SET_SAMPLE_RATE (R135), RENDER (R136) and ACTIVE (R137). Each command's effect is the model's operation on the voice, written out; a voice in Attack, Decay or Sustain stays in one of the three under any number of steps. -/

namespace Sys2Proof.Machine

open Sys2Proof Sys2Proof.Config

variable {i : Instr} {s t : State} {v : Nat} {vc vc' : Voice} {nf : Arith}

/-! ### The words of a voice's command (R58, R60) -/

/-- R58's layout of a command that has a voice and a selector: the operand words are no part of the command word. -/
theorem Parts.word_of_sel (op v sel : Nat) (ops : List Nat) :
    ({ op := op, voice := v, sel := sel, operands := ops } : Parts).word = op + sel * 2 ^ 8 + v * 2 ^ 20 := by
  simp only [Parts.word, Nat.zero_mul, Nat.add_zero]

theorem encode_of_sel {op sel : Nat} {ops : List Nat}
    (h : i.parts = { op := op, voice := v, sel := sel, operands := ops }) :
    encode i = leBytes 4 (op + sel * 2 ^ 8 + v * 2 ^ 20) ++ ops.flatMap (leBytes 8) := by
  rw [encode, h, Parts.word_of_sel]

theorem commandWord_of_sel {op sel : Nat} {ops : List Nat}
    (h : i.parts = { op := op, voice := v, sel := sel, operands := ops }) :
    i.commandWord = BitVec.ofNat 32 (op + sel * 2 ^ 8 + v * 2 ^ 20) := by
  rw [Instr.commandWord, h, Parts.word_of_sel]

theorem encode_of_operands {op : Nat} {ops : List Nat} (h : i.parts = { op := op, voice := v, operands := ops }) :
    encode i = leBytes 4 (op + v * 2 ^ 20) ++ ops.flatMap (leBytes 8) := by
  rw [encode_of_sel h, Nat.zero_mul, Nat.add_zero]

theorem commandWord_of_operands {op : Nat} {ops : List Nat}
    (h : i.parts = { op := op, voice := v, operands := ops }) :
    i.commandWord = BitVec.ofNat 32 (op + v * 2 ^ 20) := by
  rw [commandWord_of_sel h, Nat.zero_mul, Nat.add_zero]

theorem encode_of_operand {op w : Nat} (h : i.parts = { op := op, voice := v, operands := [w] }) :
    encode i = leBytes 4 (op + v * 2 ^ 20) ++ leBytes 8 w := by
  rw [encode_of_operands h, List.flatMap_singleton]

/-! ### Stopping with a command word on record (60_exceptions.md R143) -/

theorem raise_of_commandWord {cw : CommandWord} (h : i.commandWord = cw) (code : FaultCode) (p : Option PhaseInfo)
    (s : State) : raise code i p s = .fault (code.fault (s.record (.faulted code s.cmdIndex cw p))) := by
  rw [raise, h]

/-- A per-voice command whose voice stands in the state is not refused for it (30_encoding.md R62). -/
theorem voice_exists (hi : i.voice? = some v) (hv : s.voices[v]? = some vc) :
    ∀ w, i.voice? = some w → ∃ vc, s.voices[w]? = some vc := by
  intro w hw
  rw [hi] at hw
  exact ⟨vc, Option.some.inj hw ▸ hv⟩

/-! ### Selectors (30_encoding.md R66) -/

theorem familyOfSel_of_mem {sel : Nat} {f : Family}
    (h : (sel, f) ∈ [(0, Family.sine), (1, .saw), (2, .square), (3, .triangle)]) : familyOfSel sel = some f := by
  simp only [List.mem_cons, Prod.mk.injEq, List.not_mem_nil, or_false] at h
  rcases h with ⟨rfl, rfl⟩ | ⟨rfl, rfl⟩ | ⟨rfl, rfl⟩ | ⟨rfl, rfl⟩ <;> rfl

theorem familyOfSel_of_four_le {sel : Nat} (h : 4 ≤ sel) : familyOfSel sel = none := by
  obtain ⟨k, rfl⟩ := Nat.exists_eq_add_of_le' h
  rfl

theorem topologyOfSel_of_mem {sel : Nat} {f : Topology}
    (h : (sel, f) ∈ [(0, Topology.lowpass), (1, .highpass), (2, .bandpass)]) : topologyOfSel sel = some f := by
  simp only [List.mem_cons, Prod.mk.injEq, List.not_mem_nil, or_false] at h
  rcases h with ⟨rfl, rfl⟩ | ⟨rfl, rfl⟩ | ⟨rfl, rfl⟩ <;> rfl

theorem topologyOfSel_of_three_le {sel : Nat} (h : 3 ≤ sel) : topologyOfSel sel = none := by
  obtain ⟨k, rfl⟩ := Nat.exists_eq_add_of_le' h
  rfl

/-- The type SET_FILTER leaves: the selector's, or the voice's own for a selector that names none (R134). -/
theorem topologyOfSel_getD {sel : Nat} {f keep : Topology}
    (h : (sel, f) ∈ [(0, Topology.lowpass), (1, .highpass), (2, .bandpass)] ∨ (3 ≤ sel ∧ f = keep)) :
    (topologyOfSel sel).getD keep = f := by
  obtain hm | ⟨hs, rfl⟩ := h
  · rw [topologyOfSel_of_mem hm, Option.getD_some]
  · rw [topologyOfSel_of_three_le hs, Option.getD_none]

/-! ### Attack, Decay and Sustain (R137) -/

/-- A voice in Attack, Decay or Sustain. -/
def Voice.Held (vc : Voice) : Prop := vc.envStage ≠ .idle ∧ vc.envStage ≠ .release

/-- No transition of the envelope step leads out of the three: Release and Idle take a command (42_envelope.md R95). -/
theorem Voice.envStep_held (h : vc.Held) : (vc.envStep nf).Held := by
  obtain ⟨hidle, hrelease⟩ := h
  cases hs : vc.envStage with
  | idle => exact absurd hs hidle
  | attack =>
    rw [Voice.envStep_of_attack hs]
    obtain hend | hlt := le_or_gt vc.envA (vc.envCounter + 1)
    · rw [Voice.attackStep_of_end hend]
      exact ⟨nofun, nofun⟩
    · rw [Voice.attackStep_of_lt hlt]
      exact ⟨hidle, hrelease⟩
  | decay =>
    rw [Voice.envStep_of_decay hs]
    obtain hend | hlt := le_or_gt vc.envD (vc.envCounter + 1)
    · rw [Voice.decayStep_of_end hend]
      exact ⟨nofun, nofun⟩
    · rw [Voice.decayStep_of_lt hlt]
      exact ⟨hidle, hrelease⟩
  | sustain =>
    rw [Voice.envStep_of_sustain hs]
    exact ⟨hidle, hrelease⟩
  | release => exact absurd hs hrelease

theorem Voice.ticked_held (h : vc.Held) : (vc.ticked s).Held := by
  rw [Voice.Held, Voice.ticked_envStage]
  exact Voice.envStep_held (vc := vc.advance s.params.num) h

theorem Voice.ticks_held (h : vc.Held) {n : Nat} (hok : Voice.ticksOk s n vc = true) : (Voice.ticks s n vc).Held :=
  Voice.ticks_induction (P := Voice.Held) (fun _ h _ _ => Voice.ticked_held h) n h hok

/-- The stages are Idle, the three and Release. -/
theorem Voice.release_of_not_held (ha : vc.envStage ≠ .idle) (h : ¬ vc.Held) : vc.envStage = .release :=
  not_not.1 fun hr => h ⟨ha, hr⟩

/-- An active voice that reads Idle once one voice was replaced is the replaced one. -/
theorem replaced_of_idle {l : List Voice} {w : Nat} {vx x : Voice} (hx : l[w]? = some vx) (hv : l[v]? = some vc)
    (hv' : (l.set w x)[v]? = some vc') (ha : vc.envStage ≠ .idle) (hi : vc'.envStage = .idle) :
    w = v ∧ vx = vc ∧ x.envStage = .idle := by
  obtain ⟨rfl, rfl, rfl⟩ | ⟨-, rfl⟩ := getElem?_set_cases hx hv hv'
  · exact ⟨rfl, rfl, hi⟩
  · exact absurd hi ha

/-- The commands that can take a voice from an active stage to Idle, and the stage it then leaves. -/
theorem effect_idle (h : Effect i s t) (hv : s.voices[v]? = some vc) (hv' : t.voices[v]? = some vc')
    (ha : vc.envStage ≠ .idle) (hi : vc'.envStage = .idle) :
    i = .envReset v ∨ (vc.envStage = .release ∧ (i = .envNext v ∨ ∃ n off, i = .render v n off)) := by
  cases h with
  | envReset hw =>
    obtain ⟨rfl, -, -⟩ := replaced_of_idle hw hv hv' ha hi
    exact .inl rfl
  | envNext hw =>
    obtain ⟨rfl, rfl, hx⟩ := replaced_of_idle hw hv hv' ha hi
    exact .inr ⟨Voice.release_of_not_held ha fun hh => (Voice.envStep_held hh).1 hx, .inl rfl⟩
  | render n off hw _ hok =>
    rw [State.rendered_voices] at hv'
    obtain ⟨rfl, rfl, hx⟩ := replaced_of_idle hw hv hv' ha hi
    exact .inr ⟨Voice.release_of_not_held ha fun hh => (Voice.ticks_held hh hok).1 hx, .inr ⟨n, off, rfl⟩⟩
  | startNote hw | envAttack hw =>
    obtain ⟨-, -, hx⟩ := replaced_of_idle hw hv hv' ha hi
    exact absurd hx nofun
  | @stopNote _ w vx hw | @envRelease _ w vx hw =>
    obtain ⟨-, rfl, hx⟩ := replaced_of_idle hw hv hv' ha hi
    obtain ⟨hs, -⟩ | ⟨-, he⟩ := vx.enterRelease_cases
    · exact absurd hs ha
    · exact absurd (he ▸ hx) nofun
  | rateAccepted x =>
    rw [State.reconfigure_voices, List.getElem?_map, hv] at hv'
    obtain rfl := Option.some.inj hv'
    exact absurd hi ha
  | rateRejected | envActive | wtRead | wtLen | wtFreq | fcRead | fcCutoff =>
    obtain rfl := Option.some.inj (hv.symm.trans hv')
    exact absurd hi ha
  | setNote _ hw | setFreq _ hw | setAmp _ hw | setWave _ hw | setEnv _ _ _ _ hw | setFilter _ _ hw | oscNext hw
  | oscResetPhase hw | fltReset hw =>
    obtain ⟨-, rfl, hx⟩ := replaced_of_idle hw hv hv' ha hi
    exact absurd hx ha
  | fltProcess x hw =>
    obtain ⟨-, rfl, hx⟩ := replaced_of_idle hw hv hv' ha hi
    exact absurd ((Voice.filtered_envStage _ _ _).symm.trans hx) ha

/-! ### What a render leaves (R136, 20_memory.md R42) -/

/-- A render writes its voice and the output buffer, and nothing else. -/
theorem State.rendered_eq (s : State) (v : Nat) (vc : Voice) (n e : Nat) :
    s.rendered v vc n e =
      { s with voices := s.voices.set v (Voice.ticks s n vc), out := (s.rendered v vc n e).out } := by
  refine (State.mk.injEq ..).mpr ?_
  simp only [State.accumulateList_fields, true_and, and_true]
  rfl

theorem State.memRead_rendered_same (hwf : ∀ m ∈ s.out, Memory.wf m = true) (v : Nat) {n e ch j : Nat} {y : NumVal}
    (hch : ch < s.out.length) (hj : (Voice.tickOuts s n vc)[j]? = some y) :
    (s.rendered v vc n e).memRead ch (e + j) = mixed s.params (s.memRead ch (e + j)) y :=
  State.memRead_accumulateList_same s e _ hch hj hwf

theorem State.memRead_rendered_other (s : State) (v : Nat) (vc : Voice) {n e ch k : Nat}
    (h : k < e ∨ e + (Voice.tickOuts s n vc).length ≤ k) : (s.rendered v vc n e).memRead ch k = s.memRead ch k :=
  State.memRead_accumulateList_other s e _ ch k h

/-! ### SET_SAMPLE_RATE (R135) -/

/-- A positive rate is none of those the command rejects. -/
theorem le_zero_eq_false_of_lt {x : NumVal} (hf : x.finite = true) (h : NumVal.lt NumVal.zero x = true) :
    NumVal.le x NumVal.zero = false := by
  rw [NumVal.lt_iff rfl hf] at h
  rw [Bool.eq_false_iff, Ne, NumVal.le_iff hf rfl]
  exact not_le.2 h

end Sys2Proof.Machine

namespace Sys2Proof.Proofs

open Sys2Proof Sys2Proof.Machine

/-- Settles O21: of all effects only the hard silence, and the envelope steps of a voice in Release, end in Idle. -/
theorem activeFallsOnlyByReleaseOrReset : Obligations.ActiveFallsOnlyByReleaseOrReset := by
  intro i s t v vc vc' h hv hv' ha hi
  rw [Voice.active_eq_decide] at ha hi
  exact effect_idle (exec_next h) hv hv' (of_decide_eq_true ha) (not_not.1 (of_decide_eq_false hi))

/-- Settles O35: a render that completes is `State.rendered`, whose elements are those of its samples accumulated one after
another; a phase outside [0, 1) at sample `k` stops it in the state a render of `k` samples leaves. -/
theorem renderAccumulatesTheVoicesTicks : Obligations.RenderAccumulatesTheVoicesTicks := by
  refine ⟨fun v n off => ?encoding, ?_⟩
  case encoding =>
    rw [encode_of_operands (i := .render v n off) rfl, List.flatMap_cons, List.flatMap_singleton, List.append_assoc]
  rintro v n off s vc nf rfl hv
  have hcw : (Instr.render v n off).commandWord = BitVec.ofNat 32 (0x0A + v * 2 ^ 20) := commandWord_of_operands rfl
  refine ⟨fun hb => ?pastTheBuffer, fun hb hok => ?completes, fun k t hb hk hok hst hp ht => ?phaseRange⟩
  case pastTheBuffer =>
    exact (exec_of_stop (.bufferRange n off hv hb)).trans (raise_of_commandWord hcw _ _ _)
  case completes =>
    exact ⟨s.rendered v vc n off, exec_render_ok hv hb hok, s.rendered_eq v vc n off, State.rendered_out_length ..,
      fun hwf _ _ _ hch hj => State.memRead_rendered_same hwf v hch hj,
      fun _ _ h => s.memRead_rendered_other v vc h⟩
  case phaseRange =>
    have hk' : off + k ≤ s.params.bufLen := by omega
    obtain rfl : s.rendered v vc k off = t := Host.Outcome.next.inj ((exec_render_ok hv hk' hok).symm.trans ht)
    rw [exec_of_stop (.renderPhase n off k hv hb hk hok hst hp), ← State.rendered_cmdIndex s v vc k off]
    exact raise_of_commandWord hcw _ _ _

/-- Settles O26: the model's frequency of a MIDI note is the formula of R127. -/
theorem setNoteTunesTheVoice : Obligations.SetNoteTunesTheVoice := by
  refine ⟨fun _ _ => encode_of_operand rfl, ?_⟩
  rintro v m s vc nf rfl hv
  exact exec_effect (.setNote m hv)

/-- Settles O27: whether the operand is finite decides between the effect and the fault. -/
theorem setFreqSetsFrequencyAndIncrement : Obligations.SetFreqSetsFrequencyAndIncrement := by
  refine ⟨fun _ _ => encode_of_operand rfl, ?_⟩
  rintro v hz s vc nf rfl hv
  exact ⟨fun hx => exec_effect (.setFreq hz hv hx),
    fun hx => (exec_of_stop (.nonfinite (.inl ⟨v, hz, rfl, hx⟩) (voice_exists rfl hv))).trans
      (raise_of_commandWord (commandWord_of_operands rfl) _ _ _)⟩

/-- Settles O28: whether the operand is finite decides between the effect and the fault. -/
theorem setAmpClampsTheAmplitude : Obligations.SetAmpClampsTheAmplitude := by
  refine ⟨fun _ _ => encode_of_operand rfl, ?_⟩
  rintro v a s vc nf rfl hv
  exact ⟨fun hx => exec_effect (.setAmp a hv hx),
    fun hx => (exec_of_stop (.nonfinite (.inr (.inl ⟨v, a, rfl, hx⟩)) (voice_exists rfl hv))).trans
      (raise_of_commandWord (commandWord_of_operands rfl) _ _ _)⟩

/-- Settles O29: a selector that names no family writes the voice's own family back. -/
theorem setWaveSelectsOrIgnores : Obligations.SetWaveSelectsOrIgnores := by
  refine ⟨fun v sel => ?encoding, fun v sel s vc hv => ⟨fun f hf => ?selects, fun hs => ?ignores⟩⟩
  case encoding => rw [encode_of_sel (i := .setWave v sel) rfl, List.flatMap_nil, List.append_nil]
  case selects => rw [exec_effect (.setWave sel hv), familyOfSel_of_mem hf]; rfl
  case ignores =>
    rw [exec_effect (.setWave sel hv), familyOfSel_of_four_le hs]
    exact congrArg _ (State.setVoice_self hv)

/-- Settles O30: entering Attack and zeroing the filter memory are the command's whole effect. -/
theorem startNoteEntersAttackAndClearsTheFilter : Obligations.StartNoteEntersAttackAndClearsTheFilter :=
  ⟨fun _ => encode_of_voice rfl, fun _ _ _ hv => exec_effect (.startNote hv)⟩

/-- Settles O31: the two commands have one effect, whose two cases ENV_RELEASE's statement gives. -/
theorem stopNoteEntersReleaseUnlessIdle : Obligations.StopNoteEntersReleaseUnlessIdle := by
  refine ⟨fun _ => encode_of_voice rfl, fun v s vc hv => ?_⟩
  have hsame : exec (.stopNote v) s = exec (.envRelease v) s :=
    (exec_effect (.stopNote hv)).trans (exec_effect (.envRelease hv)).symm
  obtain ⟨-, hrelease⟩ := envReleaseEntersReleaseUnlessIdle
  obtain ⟨hidle, hactive⟩ := hrelease v s vc hv
  exact ⟨fun h => hsame.trans (hidle h), fun h => hsame.trans (hactive h), hsame⟩

/-- Settles O32: four finite operands load the envelope, its counts converted; one that is not finite stops the command. -/
theorem setEnvLoadsTheEnvelope : Obligations.SetEnvLoadsTheEnvelope := by
  refine ⟨fun v a d u r => ?encoding, ?_⟩
  case encoding =>
    simp only [encode_of_operands (i := .setEnv v a d u r) rfl, List.flatMap_cons, List.flatMap_nil, List.append_nil,
      List.append_assoc]
  rintro v a d u r s vc nf rfl hv
  refine ⟨?loads, fun hx => ?stops⟩
  case loads =>
    rintro ⟨ha, hd, hu, hr⟩
    exact exec_effect (.setEnv a d u r hv ha hd hu hr)
  case stops =>
    exact (exec_of_stop (.nonfinite (.inr (.inr (.inl ⟨v, a, d, u, r, rfl, hx⟩))) (voice_exists rfl hv))).trans
      (raise_of_commandWord (commandWord_of_operands rfl) _ _ _)

/-- Settles O33: the bin is the model's `nearestFilterBin`, and the type is the selector's or the one the voice had. -/
theorem setFilterLoadsTypeCutoffAndBin : Obligations.SetFilterLoadsTypeCutoffAndBin := by
  refine ⟨fun v sel c => ?encoding, ?_⟩
  case encoding => rw [encode_of_sel (i := .setFilter v sel c) rfl, List.flatMap_singleton]
  rintro v sel c s vc nf rfl hv
  refine ⟨fun f hf hx => ⟨nearestFilterBin s.params.num s.filterRom (opndF64 s.params.num c), rfl, ?loads⟩,
    fun hx => ?stops⟩
  case loads =>
    rw [exec_effect (.setFilter sel c hv hx), Voice.setFilter, topologyOfSel_getD hf]
    rfl
  case stops =>
    exact (exec_of_stop (.nonfinite (.inr (.inr (.inr (.inl ⟨v, sel, c, rfl, hx⟩)))) (voice_exists rfl hv))).trans
      (raise_of_commandWord (commandWord_of_sel rfl) _ _ _)

/-- Settles O34: the checks of R135 in their order, and the reconfiguration written out register by register. -/
theorem setSampleRateReconfiguresEverything : Obligations.SetSampleRateReconfiguresEverything := by
  refine ⟨fun hz => encode_of_operand (v := 0) rfl, ?_⟩
  rintro hz s nf rfl
  have hcw : (Instr.setSampleRate hz).commandWord = 0x00000009#32 := commandWord_of_operands (v := 0) rfl
  refine ⟨fun h0 => ?rejected, fun h0 hx => ?nonfinite, fun h0 hx hm => ?tooLow, fun hx hpos hm => ?accepted⟩
  case rejected => exact exec_effect (.rateRejected hz h0)
  case nonfinite =>
    exact (exec_of_stop (.nonfinite (.inr (.inr (.inr (.inr (.inr ⟨hz, rfl, h0, hx⟩))))) nofun)).trans
      (raise_of_commandWord hcw _ _ _)
  case tooLow => exact (exec_of_stop (.sampleRateRange hz h0 hx hm)).trans (raise_of_commandWord hcw _ _ _)
  case accepted => exact exec_effect (.rateAccepted hz (le_zero_eq_false_of_lt hx hpos) hx hm)

end Sys2Proof.Proofs
end

section
/-! PROOFS of 70_reset_and_hazards.md, the reset's family: the state reset puts the core in (R154). Every voice is `Voice.reset`, which is Idle; the numbers reset writes are whole and below 2^24. -/

namespace Sys2Proof.Machine

open Sys2Proof Sys2Proof.Config

/-- A NUM of the reference's kind, at least as wide as binary32, has each whole number below 2^24 exactly (00_scope.md R13). -/
theorem ofNat_eq_of_wide {nf : Arith} (hw : nf.wide = true) {n : Nat} (h : n < 2 ^ 24) :
    NumVal.ofNat nf n = .fin false (n * NumVal.unitMag nf) := by
  obtain ⟨hieee, hprec, hemax⟩ := wide_iff.1 hw
  have := Fact.mk hieee
  exact NumVal.ofNat_eq (h.trans_le (Nat.pow_le_pow_right (by norm_num) hprec))
    (h.trans_le (Nat.pow_le_pow_right (by norm_num) (by omega)))

@[simp] theorem Voice.active_reset (nf : Arith) : (Voice.reset nf).active = false := rfl

/-- After reset the ACTIVE output of every voice is false (42_envelope.md R107). -/
@[simp] theorem State.resetWith_activeOutputs (params : Params) (numVoices : Nat) (out : List Memory) :
    (State.resetWith params numVoices out).activeOutputs = List.replicate numVoices false := by
  rw [State.activeOutputs, State.resetWith_voices, List.map_replicate, Voice.active_reset]

end Sys2Proof.Machine

namespace Sys2Proof.Proofs

open Sys2Proof Sys2Proof.Machine

/-- Settles O9: `State.resetWith` read field by field, its voices all `Voice.reset`. -/
theorem resetStateHasTheStatedValues : Obligations.ResetStateHasTheStatedValues := by
  rintro params numVoices out nf rfl
  refine ⟨State.resetWith_params .., State.resetWith_fs .., State.resetWith_waveRom .., State.resetWith_filterRom ..,
    List.length_replicate, fun vc hvc => ?registers, State.resetWith_out .., State.resetWith_outcome ..,
    State.resetWith_activeOutputs .., fun hw => ?literals⟩
  case registers =>
    rw [State.resetWith_voices] at hvc
    exact List.eq_of_mem_replicate hvc
  case literals =>
    refine ⟨?_, ofNat_eq_of_wide hw (by norm_num), ofNat_eq_of_wide hw (by norm_num)⟩
    rw [ofNat_eq_of_wide hw (by norm_num), Nat.one_mul]

end Sys2Proof.Proofs
end

section
/-! PROOFS of 30_encoding.md and 20_memory.md, the streams: decoding and encoding are inverse to each other (R57 to R67), a stream that ends inside a command is refused (60_exceptions.md R144), and a step runs the stream's first command (20_memory.md R50). -/

namespace Sys2Proof

variable {n cw : Nat} {i : Instr} {ops : List Nat} {bs rest : List Byte}

/-! ### Decoding and encoding are inverse to each other -/

/-- The words of a well-formed command whose voice exists pass every check and assemble to the command. -/
theorem decode_encode (rest : List Byte) (hwf : i.wellFormed = true) (hv : ∀ v, i.voice? = some v → v < n) :
    decode n (encode i ++ rest) = .ok (i, rest) := by
  obtain ⟨hop, hsel, hbin, hcix, hvoice⟩ := parts_fit hwf
  obtain ⟨hword, fop, fsel, fbin, fcix, fvoice, frsv⟩ := Parts.fields hop hsel hbin hcix hvoice
  have hlen : i.parts.operands.length = operandCount (fieldOp i.parts.word) := by rw [fop, operandCount_parts]
  rw [encode, decode_words n rest hword (operands_fit hwf) hlen, decodeWords, fop,
    legality_parts hwf hv fsel fbin fcix fvoice frsv, assemble_parts i fop fsel fbin fcix fvoice]

/-- Words decode only when they pass every check, and then to the command they assemble to. -/
theorem decodeWords_ok (h : decodeWords n cw ops = .ok i) :
    legality n (findRow (fieldOp cw)) cw ops = none ∧ assemble cw ops = some i := by
  rw [decodeWords] at h
  cases hl : legality n (findRow (fieldOp cw)) cw ops with
  | some reason => rw [hl] at h; cases h
  | none =>
    rw [hl] at h
    cases ha : assemble cw ops with
    | none => rw [ha] at h; cases h
    | some j => rw [ha] at h; cases h; exact ⟨rfl, rfl⟩

/-- What decodes is a command's encoding: the word that passed the checks is the word of its fields (R65, R67). -/
theorem encode_of_decode (h : decode n bs = .ok (i, rest)) :
    bs = encode i ++ rest ∧ i.wellFormed = true ∧ ∀ v, i.voice? = some v → v < n := by
  obtain ⟨cw, ops, hcw, hops, -, rfl, hdw⟩ := decode_ok h
  obtain ⟨hleg, hasm⟩ := decodeWords_ok hdw
  obtain ⟨r, hr, hrsv, hunused, hvoice, hoperands⟩ := legality_none hleg
  obtain ⟨hparts, hwf, hv⟩ := assemble_some hasm hops hr hunused hvoice hoperands
  refine ⟨?_, hwf, hv⟩
  rw [encode, hparts, Parts.word, ← word_of_fields hcw hrsv]

/-- The command word of a well-formed command holds its word whole. -/
theorem commandWord_toNat (hwf : i.wellFormed = true) : i.commandWord.toNat = i.parts.word := by
  obtain ⟨hop, hsel, hbin, hcix, hvoice⟩ := parts_fit hwf
  obtain ⟨hword, -⟩ := Parts.fields hop hsel hbin hcix hvoice
  rw [Instr.commandWord, BitVec.toNat_ofNat, Nat.mod_eq_of_lt hword]

/-- The first four bytes of a stream that decodes are the command word (60_exceptions.md R142, R143). -/
theorem commandWord_of_decode (h : decode n bs = .ok (i, rest)) : i.commandWord.toNat = leNat (bs.take 4) := by
  obtain ⟨rfl, hwf, -⟩ := encode_of_decode h
  obtain ⟨hop, hsel, hbin, hcix, hvoice⟩ := parts_fit hwf
  obtain ⟨hword, -⟩ := Parts.fields hop hsel hbin hcix hvoice
  rw [commandWord_toNat hwf, encode, List.append_assoc, List.take_left' (leBytes_length ..),
    leNat_leBytes_of_lt hword]

/-! ### The command word of a stream that has no decoding -/

/-- The number of four bytes fits a command word. -/
theorem toNat_commandWord_take (h : 4 ≤ bs.length) :
    (BitVec.ofNat 32 (leNat (bs.take 4)) : CommandWord).toNat = leNat (bs.take 4) := by
  have hlt := leNat_lt (bs.take 4)
  rw [List.length_take, Nat.min_eq_left h] at hlt
  rw [BitVec.toNat_ofNat]
  exact Nat.mod_eq_of_lt hlt

theorem decode_of_short (h : bs.length < 4) : decode n bs = .error { reason := .truncated, cw := none } := by
  rw [decode, if_pos h]

/-- Words that do not decode name their command word. -/
theorem decodeWords_error {e : DecodeError} (h : decodeWords n cw ops = .error e) :
    e.cw = some (BitVec.ofNat 32 cw) := by
  rw [decodeWords] at h
  split at h
  · cases h; rfl
  · split at h <;> cases h
    rfl

/-- A stream that does not decode names its command word where its four bytes are there. -/
theorem decode_error_cw {e : DecodeError} (h : decode n bs = .error e) (h4 : 4 ≤ bs.length) :
    e.cw = some (BitVec.ofNat 32 (leNat (bs.take 4))) := by
  rw [decode, if_neg h4.not_gt] at h
  dsimp only at h
  split at h
  · cases h; rfl
  · split at h <;> cases h
    exact decodeWords_error ‹_›

/-- The command word a refusal records: the stream's first four bytes, or none where they are not there (log entry 15). -/
theorem decode_error_spec {e : DecodeError} (h : decode n bs = .error e) :
    (e.cw = none ↔ bs.length < 4) ∧ ∀ w, e.cw = some w → w.toNat = leNat (bs.take 4) := by
  obtain h4 | h4 := lt_or_ge bs.length 4
  · obtain rfl := Except.error.inj ((decode_of_short h4).symm.trans h)
    exact ⟨⟨fun _ => h4, fun _ => rfl⟩, nofun⟩
  · rw [decode_error_cw h h4]
    refine ⟨⟨nofun, fun hlt => absurd h4 hlt.not_ge⟩, fun w hw => ?_⟩
    rw [← Option.some.inj hw, toNat_commandWord_take h4]

/-- The first byte of a stream is the opcode (R58, R60). -/
theorem fieldOp_take (b : Byte) (bs : List Byte) : fieldOp (leNat ((b :: bs).take 4)) = b.toNat := by
  rw [List.take_succ_cons, leNat, fieldOp, Nat.add_mul_mod_self_left, Nat.mod_eq_of_lt b.isLt]

end Sys2Proof

namespace Sys2Proof.Machine

open Sys2Proof

variable {i : Instr} {s t : State} {rest : List Byte}

/-- A stream that is not empty and shorter than its first command does not decode (60_exceptions.md R144). -/
theorem decode_of_truncated (n : Nat) {b : Byte} {bs : List Byte} (h : bs.length + 1 < 4 + 8 * wordCount b.toNat) :
    ∃ e, decode n (b :: bs) = .error e ∧ e.reason = .truncated := by
  obtain h4 | h4 := lt_or_ge (b :: bs).length 4
  · exact ⟨_, decode_of_short h4, rfl⟩
  · exact ⟨_, decode_truncated n h4 (by rwa [fieldOp_take, operandCount_eq]), rfl⟩

theorem step_of_empty (ho : s.outcome = none) (hs : s.stream = []) : step s = .refused .streamEnd := by
  rw [step, ho, hs]
  rfl

/-- A step of a run that has not ended, on a stream that starts with command `i`. -/
theorem step_encode (ho : s.outcome = none) (hwf : i.wellFormed = true)
    (hv : ∀ v, i.voice? = some v → v < s.voices.length) (hs : s.stream = encode i ++ rest) :
    step s = finish (exec i { s with stream := rest }) :=
  step_decoded ho (by rw [hs, decode_encode rest hwf hv])

/-! ### A program run step by step (20_memory.md R50) -/

theorem execAll_cons {is : List Instr} (h : execAll (i :: is) s = .next t) :
    ∃ u, exec i s = .next u ∧ execAll is u = .next t := by
  rw [execAll] at h
  cases he : exec i s with
  | next u => rw [he] at h; exact ⟨u, rfl, h⟩
  | fault f => rw [he] at h; cases h
  | refused r => rw [he] at h; cases h

/-- The steps over a program's bytes are its commands executed, whatever the command index `k` before them. -/
theorem runFor_serialise (program : List Instr) (rest : List Byte) {s t : State} (k : Nat) (ho : s.outcome = none)
    (hp : ∀ i ∈ program, i.wellFormed = true ∧ ∀ v, i.voice? = some v → v < s.voices.length)
    (h : execAll program s = .next t) :
    runFor program.length (s.withStream (serialise program ++ rest) k) =
      .next (t.withStream rest (k + program.length)) := by
  induction program generalizing s k with
  | nil => cases h; rfl
  | cons i is ih =>
    obtain ⟨u, hu, ht⟩ := execAll_cons h
    obtain ⟨-, hlen, hout, -⟩ := effect_keeps (exec_next hu)
    obtain ⟨hwf, hv⟩ := hp i (List.mem_cons_self ..)
    have hstep : step (s.withStream (serialise (i :: is) ++ rest) k) =
        .next (u.withStream (serialise is ++ rest) (k + 1)) := by
      rw [step_encode (s := s.withStream (serialise (i :: is) ++ rest) k) ho hwf hv (List.append_assoc ..)]
      exact congrArg finish (exec_withStream hu (serialise is ++ rest) k)
    have hrest := ih (k + 1) (hout.trans ho) (fun j hj => hlen ▸ hp j (List.mem_cons_of_mem _ hj)) ht
    rw [List.length_cons, runFor, hstep, ← Nat.succ_eq_add_one, ← Nat.succ_add_eq_add_succ]
    exact hrest

end Sys2Proof.Machine

namespace Sys2Proof.Proofs

open Sys2Proof Sys2Proof.Machine

/-- Settles O2: the encoder's words pass the decoder's checks and assemble to the command. -/
theorem decodeReadsBackEveryEncoding : Obligations.DecodeReadsBackEveryEncoding :=
  fun _ _ rest hwf hv => decode_encode rest hwf hv

/-- Settles O3: a word that passes the checks is the word of its fields, which are the command's. -/
theorem everyDecodedStreamIsAnEncoding : Obligations.EveryDecodedStreamIsAnEncoding :=
  fun _ _ _ _ h => encode_of_decode h

/-- Settles O5: the decoder's error is TRUNCATED, and its command word is there when the stream has four bytes. -/
theorem streamEndingInsideACommandIsTruncated : Obligations.StreamEndingInsideACommandIsTruncated := by
  intro s b bs ho hs hlen
  obtain ⟨e, he, hreason⟩ := decode_of_truncated s.voices.length hlen
  obtain ⟨hnone, hsome⟩ := decode_error_spec he
  rw [← hs] at he hsome
  refine ⟨e.cw, hnone, hsome, ?_⟩
  rw [step_undecoded ho (hs ▸ nofun) he, hreason]
  rfl

/-- Settles O7, by induction over the program: each step decodes the next command's encoding and executes it. -/
theorem programCommandsRunInOrder : Obligations.ProgramCommandsRunInOrder :=
  fun program rest s _ ho hp h => runFor_serialise program rest s.cmdIndex ho hp h

/-- Settles O1: the decoder evaluated on the six streams. -/
theorem sampleCommandWordsDecode : Obligations.SampleCommandWordsDecode := by
  unfold Obligations.SampleCommandWordsDecode
  decide

/-- Settles O6: a step is the decoded command's outcome, finished. -/
theorem stepExecutesTheDecodedCommand : Obligations.StepExecutesTheDecodedCommand := by
  refine ⟨fun s i rest ho hd => ?_, fun s ho hs => ?_⟩
  · have hstep := step_decoded ho hd
    exact ⟨fun t ht => by rw [hstep, ht]; rfl, fun f hf => by rw [hstep, hf]; rfl, fun r hr => by rw [hstep, hr]; rfl⟩
  · exact step_of_empty ho hs

end Sys2Proof.Proofs
end

section
/-! PROOFS of 10_state.md, 20_memory.md and 60_exceptions.md, what a command writes: its own voice, by one operation (`Instr.onVoice`), its responses (`Instr.returned`), and everything else by SET_SAMPLE_RATE or RENDER only (10_state.md section 7, R151). -/

namespace Sys2Proof

open Sys2Proof.Machine

/-- What a command makes of its voice: the voice as it was, for the commands that write none. -/
def Instr.onVoice (i : Instr) (s : State) (vc : Voice) : Voice :=
  match i with
  | .setNote _ m => vc.setFrequency s.params.num s.fs (midiFrequency s.params.num m)
  | .setFreq _ x => vc.setFrequency s.params.num s.fs (opndF64 s.params.num x)
  | .setAmp _ x => { vc with oscAmp := clampUnit s.params.num (opndF64 s.params.num x) }
  | .setWave _ sel => { vc with oscWave := (familyOfSel sel).getD vc.oscWave }
  | .startNote _ => vc.enterAttack.filterZeroed
  | .stopNote _ | .envRelease _ => vc.enterRelease
  | .setEnv _ a d u r =>
    vc.setEnvelope s.params.num s.fs (opndF64 s.params.num a) (opndF64 s.params.num d) (opndF64 s.params.num u)
      (opndF64 s.params.num r)
  | .setFilter _ sel x => vc.setFilter s.params.num s.filterRom sel (opndF64 s.params.num x)
  | .render _ n _ => Voice.ticks s n vc
  | .oscNext _ => vc.advance s.params.num
  | .oscResetPhase _ => { vc with oscPhase := NumVal.zero }
  | .envAttack _ => vc.enterAttack
  | .envReset _ => vc.envSilence
  | .envNext _ => vc.envStep s.params.num
  | .fltProcess _ x => vc.filtered s.params.num (vc.filterBin s) (opndF64 s.params.num x)
  | .fltReset _ => vc.filterZeroed
  | .setSampleRate _ | .envActive _ | .wtRead _ _ _ | .wtLen _ | .wtFreq _ | .fcRead _ _ _ | .fcCutoff _ => vc

/-- What a per-voice command returns (30_encoding.md R63). -/
def Instr.returned (i : Instr) (s : State) (vc : Voice) : List Response :=
  match i with
  | .oscNext _ => [.f64 (NumVal.toF64 s.params.num (vc.oscOut s))]
  | .envNext _ => [.f64 (NumVal.toF64 s.params.num (vc.envStep s.params.num).envLevel)]
  | .envActive _ => [.u32 (flagValue vc.active)]
  | .fltProcess _ x =>
    [.f64 (NumVal.toF64 s.params.num (vc.filterOut s.params.num (vc.filterBin s) (opndF64 s.params.num x)))]
  | _ => []

end Sys2Proof

namespace Sys2Proof.Machine

open Sys2Proof Sys2Proof.Config

variable {i : Instr} {s t : State} {v w : Nat} {vc vc' : Voice} {nf : Arith}

/-! ### The voices after a command -/

/-- A per-voice command replaces its voice by what it makes of it, and appends what it returns. -/
theorem effect_onVoice (h : Effect i s t) (hi : i.voice? = some v) :
    ∃ vc, s.voices[v]? = some vc ∧ t.voices = s.voices.set v (i.onVoice s vc) ∧
      t.responses = s.responses ++ i.returned s vc := by
  cases h with
  | setNote _ hv | setFreq _ hv | setAmp _ hv | setWave _ hv | startNote hv | stopNote hv | setEnv _ _ _ _ hv
  | setFilter _ _ hv | oscResetPhase hv | envAttack hv | envRelease hv | envReset hv | fltReset hv =>
    cases hi
    exact ⟨_, hv, rfl, (List.append_nil _).symm⟩
  | oscNext hv | envNext hv | fltProcess _ hv =>
    cases hi
    exact ⟨_, hv, rfl, rfl⟩
  | envActive hv =>
    cases hi
    exact ⟨_, hv, (congrArg State.voices (State.setVoice_self hv)).symm, rfl⟩
  | render n off hv =>
    cases hi
    exact ⟨_, hv, State.rendered_voices .., (State.rendered_responses ..).trans (List.append_nil _).symm⟩
  | rateRejected | rateAccepted | wtRead | wtLen | wtFreq | fcRead | fcCutoff => cases hi

/-- A ROM read leaves the voices. -/
theorem effect_global (h : Effect i s t) (hi : i.voice? = none) (hr : ∀ hz, i ≠ .setSampleRate hz) :
    t.voices = s.voices := by
  cases h with
  | rateRejected x | rateAccepted x => exact absurd rfl (hr x)
  | wtRead | wtLen | wtFreq | fcRead | fcCutoff => rfl
  | _ => cases hi

/-- A voice after a command: as it was, derived again under a new rate, or what its command makes of it. -/
theorem effect_voice_cases (h : Effect i s t) (hv : s.voices[v]? = some vc) (hv' : t.voices[v]? = some vc') :
    vc' = vc ∨ (∃ x, i = .setSampleRate x ∧ t = s.reconfigure (opndF64 s.params.num x) ∧
      vc' = vc.rerate s.params.num t.fs t.filterRom) ∨ (i.voice? = some v ∧ vc' = i.onVoice s vc) := by
  by_cases hr : ∃ x, i = .setSampleRate x
  · obtain ⟨x, rfl⟩ := hr
    obtain rfl | rfl := effect_setSampleRate h
    · exact .inl (Option.some.inj (hv'.symm.trans hv))
    · rw [State.reconfigure_voices, List.getElem?_map, hv] at hv'
      exact .inr (.inl ⟨x, rfl, rfl, (Option.some.inj hv').symm⟩)
  · cases hi : i.voice? with
    | none =>
      rw [effect_global h hi fun x e => hr ⟨x, e⟩] at hv'
      exact .inl (Option.some.inj (hv'.symm.trans hv))
    | some w =>
      obtain ⟨vx, hx, hvoices, -⟩ := effect_onVoice h hi
      rw [hvoices] at hv'
      obtain ⟨rfl, rfl, rfl⟩ | ⟨-, rfl⟩ := getElem?_set_cases hx hv hv'
      · exact .inr (.inr ⟨rfl, rfl⟩)
      · exact .inl rfl

/-- No command but RENDER writes the output buffer. -/
theorem effect_out (h : Effect i s t) (hi : ∀ v n off, i ≠ .render v n off) : t.out = s.out := by
  cases h with
  | @render _ v _ n off => exact absurd rfl (hi v n off)
  | _ => rfl

/-! ### The transitions of the envelope (42_envelope.md R95) -/

/-- A step that changes the stage clears the counter, and is the end of Attack, of Decay or of Release. -/
theorem Voice.envStep_transition (h : (vc.envStep nf).envStage ≠ vc.envStage) :
    (vc.envStep nf).envCounter = 0 ∧
    ((vc.envStage = .attack ∧ (vc.envStep nf).envStage = .decay ∧ vc.envA ≤ vc.envCounter + 1) ∨
     (vc.envStage = .decay ∧ (vc.envStep nf).envStage = .sustain ∧ vc.envD ≤ vc.envCounter + 1) ∨
     (vc.envStage = .release ∧ (vc.envStep nf).envStage = .idle ∧
       (vc.envR ≤ vc.envCounter + 1 ∨
        NumVal.le (releaseLevel nf vc.envRsl (vc.envCounter + 1) vc.envR) (NumVal.relFloor nf) = true))) := by
  cases hs : vc.envStage with
  | idle => exact absurd (Voice.envStep_of_idle hs ▸ rfl) h
  | sustain => exact absurd (Voice.envStep_of_sustain hs ▸ rfl) h
  | attack =>
    rw [Voice.envStep_of_attack hs] at h ⊢
    obtain hend | hlt := le_or_gt vc.envA (vc.envCounter + 1)
    · rw [Voice.attackStep_of_end hend]
      exact ⟨rfl, .inl ⟨rfl, rfl, hend⟩⟩
    · exact absurd (Voice.attackStep_of_lt hlt ▸ rfl) h
  | decay =>
    rw [Voice.envStep_of_decay hs] at h ⊢
    obtain hend | hlt := le_or_gt vc.envD (vc.envCounter + 1)
    · rw [Voice.decayStep_of_end hend]
      exact ⟨rfl, .inr (.inl ⟨rfl, rfl, hend⟩)⟩
    · exact absurd (Voice.decayStep_of_lt hlt ▸ rfl) h
  | release =>
    rw [Voice.envStep_of_release hs] at h ⊢
    by_cases hend : vc.envR ≤ vc.envCounter + 1 ∨
        NumVal.le (releaseLevel nf vc.envRsl (vc.envCounter + 1) vc.envR) (NumVal.relFloor nf) = true
    · rw [Voice.releaseStep_of_end hend]
      exact ⟨rfl, .inr (.inr ⟨rfl, rfl, hend⟩)⟩
    · obtain ⟨hR, hl⟩ := not_or.1 hend
      exact absurd (Voice.releaseStep_of_lt (not_le.1 hR) (Bool.eq_false_iff.2 hl) ▸ rfl) h

/-- Entering Release changes the stage of a voice in Attack, Decay or Sustain, and clears the counter (R105). -/
theorem Voice.enterRelease_transition (h : vc.enterRelease.envStage ≠ vc.envStage) :
    vc.enterRelease.envCounter = 0 ∧ vc.enterRelease.envStage = .release ∧
      (vc.envStage = .attack ∨ vc.envStage = .decay ∨ vc.envStage = .sustain) := by
  obtain ⟨-, he⟩ | ⟨hidle, he⟩ := vc.enterRelease_cases
  · exact absurd (congrArg Voice.envStage he) h
  · rw [he] at h ⊢
    refine ⟨rfl, rfl, ?_⟩
    cases hs : vc.envStage with
    | idle => exact absurd hs hidle
    | release => exact absurd hs.symm h
    | attack => exact .inl rfl
    | decay => exact .inr (.inl rfl)
    | sustain => exact .inr (.inr rfl)

end Sys2Proof.Machine

namespace Sys2Proof.Proofs

open Sys2Proof Sys2Proof.Config Sys2Proof.Machine

/-- Settles O18, by the three cases of a voice after a command: the operation of each command leaves the registers its
row of the table does not list it for. -/
theorem registersWrittenOnlyByTheirCommands : Obligations.RegistersWrittenOnlyByTheirCommands := by
  intro i s t v vc vc' h hv hv'
  refine ⟨fun hi => ?rate, ?voice⟩
  case rate =>
    obtain ⟨⟨-, hwave, hfilter⟩, hfs⟩ := effect_sameRate (exec_next h) hi
    exact ⟨hfs, hwave, hfilter⟩
  case voice =>
    obtain rfl | ⟨x, rfl, -, rfl⟩ | ⟨hi, rfl⟩ := effect_voice_cases (exec_next h) hv hv'
    · simp
    · simp
    · cases i <;> cases hi <;> simp [Instr.onVoice, Voice.ticks_keep]

/-- Settles O19: a completed command other than RENDER leaves the channels as they are. -/
theorem onlyRenderWritesTheBuffer : Obligations.OnlyRenderWritesTheBuffer := by
  intro i s t h hi
  have hout := effect_out (exec_next h) hi
  exact ⟨hout, fun ch e => by rw [State.memRead, State.memRead, hout]⟩

/-- Settles O20: a per-voice command writes its own voice by `List.set`, and every command's effect and stop are the same
under another stream. -/
theorem commandTouchesOnlyItsOwnVoice : Obligations.CommandTouchesOnlyItsOwnVoice := by
  refine ⟨fun i s t h => ?frame, fun i s bs => ⟨fun t h => ?next, fun code u h => ?fault, fun reason u h => ?refused⟩⟩
  case frame =>
    have he := exec_next h
    obtain ⟨-, -, hout, -, hstream, hindex⟩ := effect_keeps he
    refine ⟨fun v w hi hw => ?_, effect_global he, fun hr => ?_, hstream, hindex, hout⟩
    · obtain ⟨vc, -, hvoices, -⟩ := effect_onVoice he hi
      rw [hvoices, List.getElem?_set_ne hw.symm]
    · obtain ⟨⟨-, hwave, hfilter⟩, hfs⟩ := effect_sameRate he hr
      exact ⟨hfs, hwave, hfilter⟩
  case next =>
    obtain ⟨-, -, -, -, -, hindex⟩ := effect_keeps (exec_next h)
    refine (exec_withStream h bs s.cmdIndex).trans ?_
    rw [← hindex]
    rfl
  case fault =>
    have hs := exec_stop (i := i) (s := s) fun t ht => by rw [h] at ht; cases ht
    exact (exec_stop_withStream hs bs).1 code u h
  case refused =>
    have hs := exec_stop (i := i) (s := s) fun t ht => by rw [h] at ht; cases ht
    exact (exec_stop_withStream hs bs).2 reason u h

/-- Settles O23: of the operations on a voice only those of the table's causes change the stage. -/
theorem envelopeMakesOnlyTheListedTransitions : Obligations.EnvelopeMakesOnlyTheListedTransitions := by
  rintro i s t v vc vc' nf rfl h hrender hv hv' hne
  obtain rfl | ⟨x, rfl, -, rfl⟩ | ⟨hi, rfl⟩ := effect_voice_cases (exec_next h) hv hv'
  · exact absurd rfl hne
  · exact absurd rfl hne
  cases i with
  | envAttack => cases hi; exact ⟨rfl, .inl ⟨rfl, .inl rfl⟩⟩
  | startNote => cases hi; exact ⟨rfl, .inl ⟨rfl, .inr rfl⟩⟩
  | envReset => cases hi; exact ⟨rfl, .inr (.inr (.inr (.inr (.inr ⟨rfl, rfl⟩))))⟩
  | envRelease =>
    cases hi
    obtain ⟨hc, hr, hstage⟩ := Voice.enterRelease_transition hne
    exact ⟨hc, .inr (.inr (.inr (.inl ⟨hstage, hr, .inl rfl⟩)))⟩
  | stopNote =>
    cases hi
    obtain ⟨hc, hr, hstage⟩ := Voice.enterRelease_transition hne
    exact ⟨hc, .inr (.inr (.inr (.inl ⟨hstage, hr, .inr rfl⟩)))⟩
  | envNext =>
    cases hi
    obtain ⟨hc, ⟨hs, hs', hend⟩ | ⟨hs, hs', hend⟩ | ⟨hs, hs', hend⟩⟩ := Voice.envStep_transition hne
    · exact ⟨hc, .inr (.inl ⟨hs, hs', rfl, hend⟩)⟩
    · exact ⟨hc, .inr (.inr (.inl ⟨hs, hs', rfl, hend⟩))⟩
    · exact ⟨hc, .inr (.inr (.inr (.inr (.inl ⟨hs, hs', rfl, hend⟩))))⟩
  | render w n off => cases hi; exact absurd rfl (hrender n off)
  | fltProcess => exact absurd (Voice.filtered_envStage ..) hne
  | _ => exact absurd rfl hne

end Sys2Proof.Proofs
end

section
/-! PROOFS of 60_exceptions.md, the stops: a fault and a refusal change the record only, but for the samples before a PHASE_RANGE of RENDER (R145), and each code and reason has its causes (R142, R143). -/

namespace Sys2Proof.Machine

open Sys2Proof Sys2Proof.Config

variable {i : Instr} {s t : State} {f : Fault} {r : Refusal}

/-! ### What a fault and a refusal carry -/

@[simp] theorem faulted_fault (code : FaultCode) (u : State) : (code.fault u).faulted = u := by
  cases code <;> rfl

/-- The stop behind a fault of `exec`. -/
theorem stop_of_fault (h : exec i s = .fault f) : ∃ x, Stop i s x ∧ x = .fault f :=
  ⟨exec i s, exec_stop fun t ht => (by rw [h] at ht; cases ht), h⟩

/-- The stop behind a refusal of `exec`. -/
theorem stop_of_refused (h : exec i s = .refused r) : ∃ x, Stop i s x ∧ x = .refused r :=
  ⟨exec i s, exec_stop fun t ht => (by rw [h] at ht; cases ht), h⟩

/-- A fault leaves the state but for its record, unless it is PHASE_RANGE of RENDER, which keeps the samples before. -/
theorem exec_fault_cases (h : exec i s = .fault f) :
    (∃ code, code ≠ .phaseRange ∧ raise code i none s = .fault f) ∨
    (∃ v vc, i = .oscNext v ∧ s.voices[v]? = some vc ∧ phaseInRange s.params.num vc.oscPhase = false ∧
      raise .phaseRange i (some { voice := v, sample := 0, phase := vc.oscPhase }) s = .fault f) ∨
    ∃ v n off k vc, i = .render v n off ∧ k < n ∧ s.voices[v]? = some vc ∧ off + n ≤ s.params.bufLen ∧
      Voice.ticksOk s k vc = true ∧ (Voice.ticks s k vc).envStage ≠ .idle ∧
      phaseInRange s.params.num (Voice.ticks s k vc).oscPhase = false ∧
      raise .phaseRange i (some { voice := v, sample := k, phase := (Voice.ticks s k vc).oscPhase })
        (s.rendered v vc k off) = .fault f := by
  obtain ⟨x, hs, hx⟩ := stop_of_fault h
  cases hs with
  | badVoice => cases hx
  | nonfinite | renderNonfinite => exact .inl ⟨.nonfinite, nofun, hx⟩
  | sampleRateRange => exact .inl ⟨.sampleRateRange, nofun, hx⟩
  | bufferRange => exact .inl ⟨.bufferRange, nofun, hx⟩
  | wtRead | wtLen | wtFreq | fcRead | fcCutoff => exact .inl ⟨.romIndex, nofun, hx⟩
  | oscNext hv hp => exact .inr (.inl ⟨_, _, rfl, hv, hp, hx⟩)
  | renderPhase n off k hv hb hk hok hst hp => exact .inr (.inr ⟨_, n, off, k, _, rfl, hk, hv, hb, hok, hst, hp, hx⟩)

/-- The one refusal of a command's meaning (log entry 13). -/
theorem exec_refused_iff : exec i s = .refused r ↔
    ∃ v, i.voice? = some v ∧ s.voices.length ≤ v ∧
      r = .badVoice (s.record (.refused .badVoice s.cmdIndex (some i.commandWord))) := by
  refine ⟨fun h => ?_, ?_⟩
  · obtain ⟨x, hs, hx⟩ := stop_of_refused h
    cases hs with
    | badVoice v hi hv => exact ⟨v, hi, List.getElem?_eq_none_iff.1 hv, (Host.Outcome.refused.inj hx).symm⟩
    | _ => cases hx
  · rintro ⟨v, hi, hv, rfl⟩
    exact exec_of_stop (.badVoice v hi (List.getElem?_eq_none hv))

/-! ### A step that is refused -/

theorem finish_refused {x : Result} (h : finish x = .refused r) : x = .refused r := by
  cases x with
  | refused => exact h
  | next | fault => cases h

/-- A step is refused because the run has ended, because the stream is empty, or because the stream does not decode: a
command that decodes has its voice. -/
theorem step_refused (h : step s = .refused r) : (r = .runEnded ∧ s.outcome ≠ none) ∨
    (r = .streamEnd ∧ s.outcome = none ∧ s.stream = []) ∨
    ∃ e, decode s.voices.length s.stream = .error e ∧ refuse e.reason e.cw s = .refused r := by
  by_cases ho : s.outcome = none
  · by_cases hs : s.stream = []
    · exact .inr (.inl ⟨(Host.Outcome.refused.inj ((step_of_empty ho hs).symm.trans h)).symm, ho, hs⟩)
    · cases hd : decode s.voices.length s.stream with
      | error e => exact .inr (.inr ⟨e, rfl, (step_undecoded ho hs hd).symm.trans h⟩)
      | ok p =>
        obtain ⟨i, rest⟩ := p
        obtain ⟨v, hi, hv, -⟩ := exec_refused_iff.1 (finish_refused ((step_decoded ho hd).symm.trans h))
        obtain ⟨-, -, hvoice⟩ := encode_of_decode hd
        exact absurd (hvoice v hi) hv.not_gt
  · exact .inl ⟨(Host.Outcome.refused.inj ((step_ended ho).symm.trans h)).symm, ho⟩

end Sys2Proof.Machine

namespace Sys2Proof.Proofs

open Sys2Proof Sys2Proof.Config Sys2Proof.Machine

/-- Settles O8: the three forms of a fault, the record of each read off `raise`, and the three causes of a refusal. -/
theorem stopsArePreciseRecordedAndFinal : Obligations.StopsArePreciseRecordedAndFinal := by
  refine ⟨fun s f h => ?fault, fun s r h => ?refusal, fun s hs => step_ended hs⟩
  case fault =>
    obtain ⟨-, i, rest, hd, hf⟩ := step_fault h
    have hcw := commandWord_of_decode hd
    obtain ⟨code, hcode, hr⟩ | ⟨v, vc, rfl, hv, hp, hr⟩ | ⟨v, n, off, k, vc, rfl, hk, hv, hb, hok, hst, hp, hr⟩ :=
      exec_fault_cases hf
    · obtain rfl := Host.Outcome.fault.inj hr
      refine ⟨i, rest, code, none, hd, ?_⟩
      rw [faulted_fault]
      exact ⟨rfl, rfl, hcw, ⟨nofun, fun hc => absurd hc hcode⟩,
        .inl ⟨fun _ _ _ _ => hcode, fun hc => absurd hc hcode, rfl⟩, step_ended nofun⟩
    · obtain rfl := Host.Outcome.fault.inj hr
      refine ⟨_, rest, .phaseRange, some { voice := v, sample := 0, phase := vc.oscPhase }, hd, ?_⟩
      rw [faulted_fault]
      exact ⟨rfl, rfl, hcw, ⟨fun _ => rfl, fun _ => rfl⟩, .inl ⟨nofun, fun _ => ⟨v, vc, rfl, hv, hp, rfl⟩, rfl⟩,
        step_ended nofun⟩
    · obtain rfl := Host.Outcome.fault.inj hr
      refine ⟨_, rest, .phaseRange,
        some { voice := v, sample := k, phase := (Voice.ticks { s with stream := rest } k vc).oscPhase }, hd, ?_⟩
      rw [faulted_fault, State.record_outcome, State.rendered_cmdIndex]
      have hk' : off + k ≤ s.params.bufLen := by dsimp only at hb; omega
      exact ⟨rfl, rfl, hcw, ⟨fun _ => rfl, fun _ => rfl⟩,
        .inr ⟨v, n, off, k, _, _, rfl, hk, exec_render_ok hv hk' hok, State.rendered_voice hv, hst, rfl, rfl, hp, rfl⟩,
        step_ended nofun⟩
  case refusal =>
    obtain hended | hempty | ⟨e, he, hr⟩ := step_refused h
    · exact .inl hended
    · exact .inr (.inl hempty)
    · obtain ⟨hnone, hsome⟩ := decode_error_spec he
      exact .inr (.inr ⟨e.reason, e.cw, (Host.Outcome.refused.inj hr).symm, hnone, hsome, step_ended nofun⟩)

/-- Settles O22: the effects by what they append; a fault's state is the one before it or a render's, which returns
nothing; and binary64 keeps its own values. -/
theorem responsesComeOnlyFromResponseCommands : Obligations.ResponsesComeOnlyFromResponseCommands := by
  refine ⟨fun i s t h => ?completes, fun i s f h => ?faults, fun w => ?reference⟩
  case completes =>
    cases exec_next h with
    | oscNext | envNext | fltProcess | wtRead | wtFreq | fcRead | fcCutoff => exact .inl ⟨by simp, _, rfl⟩
    | envActive | wtLen => exact .inr (.inl ⟨by simp, _, rfl⟩)
    | _ => exact .inr (.inr (by simp))
  case faults =>
    obtain ⟨code, -, hr⟩ | ⟨v, vc, -, -, -, hr⟩ | ⟨v, n, off, k, vc, -, -, -, -, -, -, -, hr⟩ := exec_fault_cases h <;>
      obtain rfl := Host.Outcome.fault.inj hr <;> simp
  case reference =>
    obtain ⟨hin, hout⟩ := NumVal.toF64_ofF64 w
    rw [opndF64, hin, hout]

/-- Settles O24: each stop raises one code, and its conditions are the ones the table lists for the code. -/
theorem faultCodesComeOnlyFromTheirCommands : Obligations.FaultCodesComeOnlyFromTheirCommands := by
  refine fun i s => ⟨fun u h => ?phaseRange, fun u h => ?romIndex, fun u h => ?bufferRange, fun u h => ?nonfinite,
    fun u h => ?sampleRateRange⟩ <;> obtain ⟨x, hs, hx⟩ := stop_of_fault h
  case phaseRange =>
    cases hs with
    | oscNext => exact .inl ⟨_, rfl⟩
    | renderPhase => exact .inr ⟨_, _, _, rfl⟩
    | _ => cases hx
  case romIndex =>
    cases hs with
    | wtRead => exact .inl ⟨_, _, _, rfl⟩
    | wtLen => exact .inr (.inl ⟨_, rfl⟩)
    | wtFreq => exact .inr (.inr (.inl ⟨_, rfl⟩))
    | fcRead => exact .inr (.inr (.inr (.inl ⟨_, _, _, rfl⟩)))
    | fcCutoff => exact .inr (.inr (.inr (.inr ⟨_, rfl⟩)))
    | _ => cases hx
  case bufferRange =>
    cases hs with
    | bufferRange n off hv hb => exact ⟨_, n, off, rfl, hb⟩
    | _ => cases hx
  case nonfinite =>
    cases hs with
    | nonfinite hi =>
      obtain ⟨v, x, rfl, -⟩ | ⟨v, x, rfl, -⟩ | ⟨v, a, d, u, r, rfl, -⟩ | ⟨v, sel, x, rfl, -⟩ | ⟨v, x, rfl, -⟩ |
        ⟨x, rfl, -, -⟩ := hi
      · exact .inl ⟨v, x, rfl⟩
      · exact .inr (.inl ⟨v, x, rfl⟩)
      · exact .inr (.inr (.inl ⟨v, a, d, u, r, rfl⟩))
      · exact .inr (.inr (.inr (.inl ⟨v, sel, x, rfl⟩)))
      · exact .inr (.inr (.inr (.inr (.inl ⟨v, x, rfl⟩))))
      · exact .inr (.inr (.inr (.inr (.inr (.inl ⟨x, rfl⟩)))))
    | renderNonfinite n off k hv hb hk hok hst hp hf =>
      refine .inr (.inr (.inr (.inr (.inr (.inr ⟨_, n, off, k, _, _, rfl, hk, exec_render_ok hv (by omega) hok,
        State.rendered_voice hv, ?_⟩)))))
      rwa [Voice.tickInput_congr (State.rendered_sameRoms ..)]
    | _ => cases hx
  case sampleRateRange =>
    cases hs with
    | sampleRateRange x h0 hf hm => exact ⟨x, rfl, h0, hm⟩
    | _ => cases hx

/-- Settles O25: BAD_VOICE is the one stop of `exec` that is a refusal. -/
theorem execRefusesOnlyAMissingVoice : Obligations.ExecRefusesOnlyAMissingVoice :=
  fun _ _ _ => exec_refused_iff

/-- Settles O59: the stop at a filter input that is not finite raises from the state before the command. -/
theorem renderNonfiniteChangesNothing : Obligations.RenderNonfiniteChangesNothing :=
  fun _ n off k _ _ hv hb hk hok hst hp hf =>
    (exec_of_stop (.renderNonfinite n off k hv hb hk hok hst hp hf)).trans
      (raise_of_commandWord (commandWord_of_operands rfl) _ _ _)

end Sys2Proof.Proofs
end

section
/-! PROOFS of 44_voice.md: a RENDER splits (R136), a tick is the three block commands (R126), and a per-voice command does the same beside other voices (R139). -/

namespace Sys2Proof

open Sys2Proof.Machine

/-- The samples a command adds to every channel (44_voice.md R136). -/
def Instr.samples (i : Instr) (s : State) (vc : Voice) : List NumVal :=
  match i with
  | .render _ n _ => Voice.tickOuts s n vc
  | _ => []

/-- The element a command adds its first sample to. -/
def Instr.firstElement (i : Instr) : Nat :=
  match i with
  | .render _ _ off => off
  | _ => 0

end Sys2Proof

namespace Sys2Proof.Machine

open Sys2Proof Sys2Proof.Config

variable {i : Instr} {s s' t : State} {v : Nat} {vc : Voice} {nf : Arith}

/-- A command on voice `v` writes what it makes of it, and appends what it returns. -/
theorem effect_ownVoice (h : Effect i s t) (hi : i.voice? = some v) (hv : s.voices[v]? = some vc) :
    t.voices = s.voices.set v (i.onVoice s vc) ∧ t.voices[v]? = some (i.onVoice s vc) ∧
      t.responses = s.responses ++ i.returned s vc := by
  obtain ⟨vx, hx, hvoices, hresp⟩ := effect_onVoice h hi
  obtain rfl := Option.some.inj (hx.symm.trans hv)
  exact ⟨hvoices, by rw [hvoices, List.getElem?_set_self (List.getElem?_eq_some_iff.1 hv).1], hresp⟩

theorem State.SameRoms.trans {s'' : State} (h : s.SameRoms s') (h' : s'.SameRoms s'') : s.SameRoms s'' := by
  obtain ⟨hp, hw, hf⟩ := h
  obtain ⟨hp', hw', hf'⟩ := h'
  exact ⟨hp'.trans hp, hw'.trans hw, hf'.trans hf⟩

/-! ### Ticks one after another -/

theorem Voice.ticks_idle (hi : vc.envStage = .idle) (n : Nat) : Voice.ticks s n vc = vc := by
  cases n with
  | zero => rfl
  | succ n => exact if_pos hi

theorem Voice.ticksOk_succ (hi : vc.envStage ≠ .idle) (n : Nat) : Voice.ticksOk s (n + 1) vc = true ↔
    phaseInRange s.params.num vc.oscPhase = true ∧ (vc.tickInput s).finite = true ∧
      Voice.ticksOk s n (vc.ticked s) = true := by
  simp [Voice.ticksOk, hi, and_assoc]

theorem Voice.ticksOk_add {a b : Nat} (ha : Voice.ticksOk s a vc = true)
    (hb : Voice.ticksOk s b (Voice.ticks s a vc) = true) : Voice.ticksOk s (a + b) vc = true := by
  induction a generalizing vc with
  | zero => rwa [Nat.zero_add]
  | succ a ih =>
    rw [Nat.succ_add]
    by_cases hi : vc.envStage = .idle
    · simp [Voice.ticksOk, hi]
    · rw [Voice.ticks, if_neg hi] at hb
      obtain ⟨hp, hf, ha⟩ := (Voice.ticksOk_succ hi a).1 ha
      exact (Voice.ticksOk_succ hi _).2 ⟨hp, hf, ih ha hb⟩

/-- Rendering `a` samples and then `b` more leaves the state of rendering `a + b`. -/
theorem State.rendered_add (hv : s.voices[v]? = some vc) (a b e : Nat) :
    (s.rendered v vc a e).rendered v (Voice.ticks s a vc) b (e + a) = s.rendered v vc (a + b) e := by
  induction a generalizing s vc e with
  | zero => rw [State.rendered_zero hv, Nat.zero_add]; rfl
  | succ a ih =>
    by_cases hi : vc.envStage = .idle
    · simp only [State.rendered_idle hv hi, Voice.ticks_idle hi]
    · have h := ih (State.renderSample_voice hv e) (e + 1)
      rw [State.rendered_succ hi, State.rendered_succ hi, Voice.ticks_congr (State.renderSample_sameRoms ..)] at h
      rw [Voice.ticks, if_neg hi, Nat.succ_add, ← h, Nat.add_assoc e 1 a, Nat.add_comm 1 a]

/-! ### One tick -/

/-- The filter reads none of the registers that the phase advance and the envelope step write. -/
theorem Voice.filterOut_envStep_advance (bin : FilterBin) (x : NumVal) :
    ((vc.advance nf).envStep nf).filterOut nf bin x = vc.filterOut nf bin x := by
  simp [Voice.filterOut, lowpassOut, highpassOut, bandpassLow, bandpassHigh]

theorem Voice.filterBin_envStep_advance : ((vc.advance nf).envStep nf).filterBin s = vc.filterBin s := by
  simp only [Voice.filterBin, Voice.envStep_fltBin, Voice.advance_fltBin]

theorem Voice.envLevel_envStep_advance : ((vc.advance nf).envStep nf).envLevel = (vc.envStep nf).envLevel := by
  rw [Voice.advance_envStep]
  rfl

/-! ### A command beside other voices -/

/-- A per-voice command completes from every state that agrees on the parameters, the rate, the ROMs and its voice. -/
theorem effect_transfer (h : Effect i s t) (hi : i.voice? = some v) (hs : s.SameRoms s')
    (hv : s'.voices[v]? = s.voices[v]?) : ∃ t', Effect i s' t' := by
  have ok := Voice.ticksOk_congr hs
  obtain ⟨hp, -, -⟩ := hs
  cases h with
  | setNote m hvc => cases hi; exact ⟨_, .setNote m (hv.trans hvc)⟩
  | setFreq x hvc hx => cases hi; exact ⟨_, .setFreq x (hv.trans hvc) (hp ▸ hx)⟩
  | setAmp x hvc hx => cases hi; exact ⟨_, .setAmp x (hv.trans hvc) (hp ▸ hx)⟩
  | setWave sel hvc => cases hi; exact ⟨_, .setWave sel (hv.trans hvc)⟩
  | startNote hvc => cases hi; exact ⟨_, .startNote (hv.trans hvc)⟩
  | stopNote hvc => cases hi; exact ⟨_, .stopNote (hv.trans hvc)⟩
  | setEnv a d u r hvc ha hd hu hr =>
    cases hi; exact ⟨_, .setEnv a d u r (hv.trans hvc) (hp ▸ ha) (hp ▸ hd) (hp ▸ hu) (hp ▸ hr)⟩
  | setFilter sel x hvc hx => cases hi; exact ⟨_, .setFilter sel x (hv.trans hvc) (hp ▸ hx)⟩
  | render n off hvc hb hok => cases hi; exact ⟨_, .render n off (hv.trans hvc) (hp ▸ hb) ((ok n _).trans hok)⟩
  | oscNext hvc hph => cases hi; exact ⟨_, .oscNext (hv.trans hvc) (hp ▸ hph)⟩
  | oscResetPhase hvc => cases hi; exact ⟨_, .oscResetPhase (hv.trans hvc)⟩
  | envAttack hvc => cases hi; exact ⟨_, .envAttack (hv.trans hvc)⟩
  | envRelease hvc => cases hi; exact ⟨_, .envRelease (hv.trans hvc)⟩
  | envReset hvc => cases hi; exact ⟨_, .envReset (hv.trans hvc)⟩
  | envNext hvc => cases hi; exact ⟨_, .envNext (hv.trans hvc)⟩
  | envActive hvc => cases hi; exact ⟨_, .envActive (hv.trans hvc)⟩
  | fltProcess x hvc hx => cases hi; exact ⟨_, .fltProcess x (hv.trans hvc) (hp ▸ hx)⟩
  | fltReset hvc => cases hi; exact ⟨_, .fltReset (hv.trans hvc)⟩
  | rateRejected | rateAccepted | wtRead | wtLen | wtFreq | fcRead | fcCutoff => cases hi

theorem Voice.oscOut_congr (hs : s.SameRoms s') (vc : Voice) : vc.oscOut s' = vc.oscOut s := by
  obtain ⟨hp, hw, -⟩ := hs
  simp only [Voice.oscOut, Voice.bankBin, hp, hw]

theorem Instr.onVoice_congr (hs : s.SameRoms s') (hfs : s'.fs = s.fs) : i.onVoice s' vc = i.onVoice s vc := by
  have ticks := Voice.ticks_congr hs
  obtain ⟨hp, -, hf⟩ := hs
  cases i <;> simp only [Instr.onVoice, Voice.filterBin, hp, hf, hfs, ticks]

theorem Instr.returned_congr (hs : s.SameRoms s') : i.returned s' vc = i.returned s vc := by
  have osc := Voice.oscOut_congr hs
  obtain ⟨hp, -, hf⟩ := hs
  cases i <;> simp only [Instr.returned, Voice.filterBin, hp, hf, osc]

theorem Instr.samples_congr (hs : s.SameRoms s') : i.samples s' vc = i.samples s vc := by
  cases i <;> simp only [Instr.samples, Voice.tickOuts_congr hs]

/-- What a per-voice command does to every channel: it adds its samples, and leaves the elements around them. -/
theorem effect_samples (h : Effect i s t) (hi : i.voice? = some v) (hv : s.voices[v]? = some vc)
    (hwf : s.BufferCanonical) {ch : Nat} (hch : ch < s.out.length) :
    (∀ j y, (i.samples s vc)[j]? = some y →
      t.memRead ch (i.firstElement + j) = mixed s.params (s.memRead ch (i.firstElement + j)) y) ∧
    ∀ k, k < i.firstElement ∨ i.firstElement + (i.samples s vc).length ≤ k → t.memRead ch k = s.memRead ch k := by
  by_cases hr : ∃ w n off, i = .render w n off
  · obtain ⟨w, n, off, rfl⟩ := hr
    cases hi
    cases h with
    | render _ _ hv' =>
      obtain rfl := Option.some.inj (hv'.symm.trans hv)
      exact ⟨fun j y hj => State.memRead_rendered_same hwf v hch hj, fun k hk => State.memRead_rendered_other s v _ hk⟩
  · have hout := effect_out h fun w n off e => hr ⟨w, n, off, e⟩
    have hnil : i.samples s vc = [] := by
      cases i with
      | render w n off => exact absurd ⟨w, n, off, rfl⟩ hr
      | _ => rfl
    refine ⟨fun j y hj => ?_, fun k _ => by simp only [State.memRead, hout]⟩
    rw [hnil] at hj
    cases hj

end Sys2Proof.Machine

namespace Sys2Proof.Proofs

open Sys2Proof Sys2Proof.Config Sys2Proof.Machine

/-- Settles O50: the ticks and the rendered states of the two commands compose. -/
theorem renderSplitsIntoTwoRenders : Obligations.RenderSplitsIntoTwoRenders := by
  intro v a b off s t u ha hb
  cases exec_next ha with
  | @render _ _ vc _ _ hv hra hoka =>
    cases exec_next hb with
    | render _ _ hv' hrb hokb =>
      obtain rfl := Option.some.inj (hv'.symm.trans (State.rendered_voice hv))
      rw [Voice.ticksOk_congr (State.rendered_sameRoms ..)] at hokb
      rw [State.rendered_params] at hrb
      rw [State.rendered_add hv, exec_render_ok hv (by omega) (Voice.ticksOk_add hoka hokb)]

/-- Settles O51: OSC_NEXT and ENV_NEXT write disjoint registers, so the third command filters what the tick filters. -/
theorem tickIsTheThreeBlockCommands : Obligations.TickIsTheThreeBlockCommands := by
  rintro v off s s1 s2 vc nf rfl hv hi hb h1 h2
  have he1 := exec_next h1
  have he2 := exec_next h2
  obtain ⟨hs1, hfs1⟩ := effect_sameRate he1 nofun
  obtain ⟨hs2, hfs2⟩ := effect_sameRate he2 nofun
  have hs : s.SameRoms s2 := hs1.trans hs2
  obtain ⟨hvoices1, hv1, hresp1⟩ := effect_ownVoice he1 rfl hv
  obtain ⟨hvoices2, hv2, hresp2⟩ := effect_ownVoice he2 rfl hv1
  rw [Instr.onVoice_congr hs1 hfs1] at hvoices2 hv2
  rw [Instr.returned_congr hs1] at hresp2
  refine ⟨vc.oscOut s, _, hresp1, hresp2, fun x s3 hx h3 => ?_⟩
  have he3 := exec_next h3
  obtain ⟨hvoices3, -, hresp3⟩ := effect_ownVoice he3 rfl hv2
  rw [Instr.onVoice_congr hs (hfs2.trans hfs1), hvoices2, hvoices1, List.set_set, List.set_set] at hvoices3
  rw [Instr.returned_congr hs] at hresp3
  have hinput : opndF64 s.params.num x = vc.tickInput s :=
    hx.trans (congrArg (NumVal.mul s.params.num (vc.oscOut s)) Voice.envLevel_envStep_advance)
  have hticked : (Instr.fltProcess v x).onVoice s ((vc.advance s.params.num).envStep s.params.num) = vc.ticked s := by
    simp only [Instr.onVoice, hinput, Voice.filterBin_envStep_advance, Voice.ticked]
  have hout : (Instr.fltProcess v x).returned s ((vc.advance s.params.num).envStep s.params.num) =
      [.f64 (NumVal.toF64 s.params.num (vc.tickOut s))] := by
    simp only [Instr.returned, hinput, Voice.filterBin_envStep_advance, Voice.filterOut_envStep_advance, Voice.tickOut]
  have hphase : phaseInRange s.params.num vc.oscPhase = true := by
    cases he1 with
    | oscNext hv' hp => exact Option.some.inj (hv'.symm.trans hv) ▸ hp
  have hfinite : (vc.tickInput s).finite = true := by
    cases he3 with
    | fltProcess _ _ hfin => rwa [hs.1, hinput] at hfin
  refine ⟨vc.tickOut s, _, hresp3.trans (congrArg _ hout),
    exec_render_ok hv hb ((Voice.ticksOk_succ hi 0).2 ⟨hphase, hfinite, rfl⟩), ?_, ?_,
    fun hwf ch hch => State.memRead_rendered_same hwf v (j := 0) hch ?_⟩
  · rw [State.rendered_voices, hvoices3, Voice.ticks, if_neg hi]
    exact congrArg _ hticked.symm
  · rw [State.rendered_voices]
    exact State.rendered_eq ..
  · rw [Voice.tickOuts, if_neg hi]
    rfl

/-- Settles O52: the command completes from the second state, and its operation, responses and samples read only what the
two states share. -/
theorem otherVoicesDoNotInterfere : Obligations.OtherVoicesDoNotInterfere := by
  intro i v s1 s2 t1 hi hp hfs hw hf hv h
  have he1 := exec_next h
  have hs : s1.SameRoms s2 := ⟨hp.symm, hw.symm, hf.symm⟩
  obtain ⟨t2, he2⟩ := effect_transfer he1 hi hs hv.symm
  obtain ⟨vc, hv1, -⟩ := effect_onVoice he1 hi
  have hv2 := hv.symm.trans hv1
  obtain ⟨-, ht1, hresp1⟩ := effect_ownVoice he1 hi hv1
  obtain ⟨-, ht2, hresp2⟩ := effect_ownVoice he2 hi hv2
  refine ⟨t2, i.returned s1 vc, i.firstElement, i.samples s1 vc, exec_effect he2, ?voice, hresp1, ?returned, ?samples⟩
  case voice => rw [ht1, ht2, Instr.onVoice_congr hs hfs.symm]
  case returned => rw [hresp2, Instr.returned_congr hs]
  case samples =>
    rintro s t (h | h) hwf ch hch <;> cases h
    · exact effect_samples he1 hi hv1 hwf hch
    · rw [← Instr.samples_congr hs]
      exact effect_samples he2 hi hv2 hwf hch

end Sys2Proof.Proofs
end

section
/-! PROOFS of 10_state.md sections 2 to 5 and 7, 20_memory.md section 1, 41_oscillator.md and 42_envelope.md: the invariants every step keeps, each first for one completed command. -/

namespace Sys2Proof.Machine

open Sys2Proof Sys2Proof.Config NumVal

variable {i : Instr} {s t : State} {v : Nat} {vc : Voice} {nf : Arith}

/-- A property of a voice that every tick keeps, under no condition, holds after the ticks. -/
theorem Voice.ticks_of_ticked {P : Voice → Prop} (step : ∀ vc, P vc → P (vc.ticked s)) (n : Nat) (h : P vc) :
    P (Voice.ticks s n vc) := by
  induction n generalizing vc with
  | zero => exact h
  | succ n ih =>
    rw [Voice.ticks]
    split_ifs
    · exact h
    · exact ih (step vc h)

/-- A completed command keeps the rate and the ROMs, and every voice but the one it makes something of; or it is a
SET_SAMPLE_RATE that accepts its rate and derives everything again (44_voice.md R135). -/
theorem effect_rate_cases (h : Effect i s t) :
    (s.SameRoms t ∧ t.fs = s.fs ∧ ∀ x ∈ t.voices, x ∈ s.voices ∨ ∃ vc ∈ s.voices, x = i.onVoice s vc) ∨
    ∃ hz, i = .setSampleRate hz ∧ t = s.reconfigure (opndF64 s.params.num hz) ∧
      le (opndF64 s.params.num hz) zero = false ∧ (opndF64 s.params.num hz).finite = true ∧
      le (opndF64 s.params.num hz) (fsMin s.params.num) = false := by
  by_cases hr : ∃ hz, i = .setSampleRate hz
  · obtain ⟨hz, rfl⟩ := hr
    cases h with
    | rateRejected => exact .inl ⟨⟨rfl, rfl, rfl⟩, rfl, fun _ => .inl⟩
    | rateAccepted _ h0 hf hm => exact .inr ⟨hz, rfl, rfl, h0, hf, hm⟩
  · have hr' : ∀ hz, i ≠ .setSampleRate hz := fun hz e => hr ⟨hz, e⟩
    obtain ⟨hroms, hfs⟩ := effect_sameRate h hr'
    refine .inl ⟨hroms, hfs, ?_⟩
    cases hi : i.voice? with
    | none => exact fun x hx => .inl (effect_global h hi hr' ▸ hx)
    | some v =>
      obtain ⟨vc, hv, hvoices, -⟩ := effect_onVoice h hi
      rw [hvoices]
      exact fun x hx => (List.mem_or_eq_of_mem_set hx).imp_right fun e => ⟨vc, List.mem_of_getElem? hv, e⟩

/-! ### The registers derived from the rate (R25, R30, R35) -/

/-- A command that writes a frequency, a time or a cutoff writes what is derived from it too. -/
theorem Instr.onVoice_rateMatch (h : vc.RateMatch s.params.num s.fs s.filterRom) :
    (i.onVoice s vc).RateMatch s.params.num s.fs s.filterRom := by
  obtain ⟨hdelta, ha, hd, hr, hbin⟩ := h
  cases i with
  | setNote | setFreq => exact ⟨rfl, ha, hd, hr, hbin⟩
  | setEnv => exact ⟨hdelta, rfl, rfl, rfl, hbin⟩
  | setFilter => exact ⟨hdelta, ha, hd, hr, rfl⟩
  | _ => simp [Instr.onVoice, Voice.RateMatch, Voice.ticks_keep, *]

theorem State.reconfigure_ratesMatch (s : State) (fs : NumVal) : (s.reconfigure fs).RatesMatch := by
  intro vc hvc
  obtain ⟨vc, -, rfl⟩ := List.mem_map.1 hvc
  exact ⟨rfl, rfl, rfl, rfl, rfl⟩

theorem effect_ratesMatch (h : Effect i s t) (hs : s.RatesMatch) : t.RatesMatch := by
  obtain ⟨⟨hp, -, hrom⟩, hfs, hvoices⟩ | ⟨hz, -, rfl, -⟩ := effect_rate_cases h
  · intro x hx
    rw [hp, hrom, hfs]
    obtain hx | ⟨vc, hvc, rfl⟩ := hvoices x hx
    · exact hs x hx
    · exact Instr.onVoice_rateMatch (hs vc hvc)
  · exact s.reconfigure_ratesMatch _

/-! ### Levels (R26, R32) -/

theorem Voice.ticks_levels [Fact (s.params.num.ieee = true)] (hf : (ofNat s.params.num cntMax).finite = true) (n : Nat)
    (hc : vc.CountsBounded) (hl : vc.LevelsInUnit s.params.num) : (Voice.ticks s n vc).LevelsInUnit s.params.num :=
  (Voice.ticks_of_ticked (P := fun vc => vc.LevelsInUnit s.params.num ∧ vc.CountsBounded)
    (fun _ ⟨hl, hc⟩ => Voice.ticked_levels hf hc hl) n ⟨hl, hc⟩).1

theorem Voice.enterRelease_levels (h : vc.LevelsInUnit nf) : vc.enterRelease.LevelsInUnit nf := by
  obtain ⟨-, he⟩ | ⟨-, he⟩ := vc.enterRelease_cases <;> rw [he]
  · exact h
  · obtain ⟨hamp, hsustain, hlevel, -⟩ := h
    exact ⟨hamp, hsustain, hlevel, hlevel⟩

theorem effect_levels [Fact (s.params.num.ieee = true)] (h : Effect i s t)
    (hf : (ofNat s.params.num cntMax).finite = true) (hc : ∀ vc ∈ s.voices, vc.CountsBounded)
    (hl : ∀ vc ∈ s.voices, vc.LevelsInUnit s.params.num) : ∀ vc ∈ t.voices, vc.LevelsInUnit s.params.num := by
  have silenced : ∀ vc : Voice, vc.CountsBounded ∧ vc.LevelsInUnit s.params.num → vc.enterAttack.LevelsInUnit s.params.num :=
    fun vc ⟨_, hamp, hsustain, _, hrsl⟩ => ⟨hamp, hsustain, inUnit_zero, hrsl⟩
  exact effect_voices (P := fun vc => vc.CountsBounded ∧ vc.LevelsInUnit s.params.num) h
    (fun vc hvc => ⟨hc vc hvc, hl vc hvc⟩)
    (keep := fun _ ⟨_, hl⟩ => hl) (freq := fun _ _ ⟨_, hl⟩ _ _ => hl) (note := fun _ _ ⟨_, hl⟩ => hl)
    (amp := fun _ _ ⟨_, _, hrest⟩ hx _ => ⟨inUnit_clampUnit hx, hrest⟩) (wave := fun _ _ ⟨_, hl⟩ => hl)
    (attack := silenced) (start := silenced) (release := fun _ ⟨_, hl⟩ => Voice.enterRelease_levels hl)
    (silence := silenced)
    (env := fun _ _ _ _ _ ⟨_, hamp, _, hrest⟩ _ _ hu _ _ _ _ _ => ⟨hamp, inUnit_clampUnit hu, hrest⟩)
    (filter := fun _ _ _ ⟨_, hl⟩ _ _ => hl) (rate := fun _ _ ⟨_, hl⟩ _ _ _ _ _ => hl)
    (tick := fun _ n ⟨hc, hl⟩ _ => Voice.ticks_levels hf n hc hl) (advance := fun _ ⟨_, hl⟩ _ => hl)
    (phase := fun _ ⟨_, hl⟩ => hl) (envStep := fun _ ⟨hc, hl⟩ => Voice.envStep_levels hf hc hl)
    (process := fun _ _ _ ⟨_, hl⟩ _ _ => hl.of_eq (by simp) (by simp) (by simp) (by simp))
    (zeroed := fun _ ⟨_, hl⟩ => hl)

/-! ### Counters and silence (R29, R30, 42_envelope.md R103) -/

/-- The counter and the counts are bounded, and an Idle voice is silent. -/
def Voice.CountsRight (vc : Voice) : Prop := vc.CountsBounded ∧ vc.IdleSilent

/-- It depends on the stage registers and the counts only. -/
theorem Voice.CountsRight.of_eq {vc' : Voice} (h : vc.CountsRight) (hs : vc'.envStage = vc.envStage)
    (hl : vc'.envLevel = vc.envLevel) (hc : vc'.envCounter = vc.envCounter) (ha : vc'.envA = vc.envA)
    (hd : vc'.envD = vc.envD) (hr : vc'.envR = vc.envR) : vc'.CountsRight :=
  ⟨h.1.of_eq (.inl hc) ha hd hr, h.2.of_eq hs hl hc⟩

theorem Voice.envStep_countsRight (h : vc.CountsRight) : (vc.envStep nf).CountsRight :=
  ⟨Voice.envStep_counts h.1, Voice.envStep_silent h.2⟩

theorem Voice.ticked_countsRight (h : vc.CountsRight) : (vc.ticked s).CountsRight :=
  (Voice.envStep_countsRight (vc := vc.advance s.params.num) (nf := s.params.num) h).of_eq (by simp [Voice.ticked])
    (by simp [Voice.ticked]) (by simp [Voice.ticked]) (by simp [Voice.ticked]) (by simp [Voice.ticked])
    (by simp [Voice.ticked])

theorem Voice.enterAttack_countsRight (h : vc.CountsRight) : vc.enterAttack.CountsRight :=
  ⟨⟨Nat.zero_le _, h.1.2⟩, nofun⟩

theorem Voice.envSilence_countsRight (h : vc.CountsRight) : vc.envSilence.CountsRight :=
  ⟨⟨Nat.zero_le _, h.1.2⟩, fun _ => ⟨rfl, rfl⟩⟩

theorem Voice.enterRelease_countsRight (h : vc.CountsRight) : vc.enterRelease.CountsRight := by
  obtain ⟨-, he⟩ | ⟨-, he⟩ := vc.enterRelease_cases <;> rw [he]
  · exact h
  · exact ⟨⟨Nat.zero_le _, h.1.2⟩, nofun⟩

theorem effect_countsRight (h : Effect i s t) (hs : ∀ vc ∈ s.voices, vc.CountsRight) : ∀ vc ∈ t.voices, vc.CountsRight :=
  effect_voices h hs (keep := fun _ h => h) (freq := fun _ _ h _ _ => h) (note := fun _ _ h => h)
    (amp := fun _ _ h _ _ => h) (wave := fun _ _ h => h) (attack := fun _ => Voice.enterAttack_countsRight)
    (start := fun _ => Voice.enterAttack_countsRight) (release := fun _ => Voice.enterRelease_countsRight)
    (silence := fun _ => Voice.envSilence_countsRight)
    (env := fun _ _ _ _ _ ⟨⟨hc, _⟩, hi⟩ _ _ _ _ _ _ _ _ =>
      ⟨⟨hc, conv_bounds _ _, conv_bounds _ _, conv_bounds _ _⟩, hi⟩)
    (filter := fun _ _ _ h _ _ => h)
    (rate := fun _ _ ⟨⟨hc, _⟩, hi⟩ _ _ _ _ _ => ⟨⟨hc, conv_bounds _ _, conv_bounds _ _, conv_bounds _ _⟩, hi⟩)
    (tick := fun _ n h _ => Voice.ticks_of_ticked (fun _ => Voice.ticked_countsRight) n h)
    (advance := fun _ h _ => h) (phase := fun _ h => h) (envStep := fun _ => Voice.envStep_countsRight)
    (process := fun _ _ _ h _ _ => h.of_eq (by simp) (by simp) (by simp) (by simp) (by simp) (by simp))
    (zeroed := fun _ h => h)

/-! ### Phases (41_oscillator.md R91) -/

/-- The registers hold values of NUM, and the increment and the phase lie in [0, 1). -/
def Voice.PhaseRight (vc : Voice) (nf : Arith) : Prop :=
  vc.InNum nf ∧ vc.DeltaInRange nf ∧ phaseInRange nf vc.oscPhase = true

theorem phaseInRange_zero [Fact (nf.ieee = true)] : phaseInRange nf zero = true :=
  (phaseInRange_iff _).2 ⟨rfl, le_rfl, Int.natCast_pos.2 (unitMag_pos nf)⟩

theorem Voice.advance_phase [Fact (nf.ieee = true)] (h : vc.PhaseRight nf) :
    phaseInRange nf (vc.advance nf).oscPhase = true := by
  obtain ⟨hn, hd, hp⟩ := h
  obtain ⟨⟨-, hpn, hdn, -⟩, -⟩ := Voice.inNum_iff.1 hn
  exact phaseInRange_advance hp hd hpn hdn

theorem Voice.ticked_phaseRight [Fact (s.params.num.ieee = true)] (h : vc.PhaseRight s.params.num) :
    (vc.ticked s).PhaseRight s.params.num := by
  have hphase := Voice.advance_phase h
  obtain ⟨hn, hd, -⟩ := h
  refine ⟨Voice.ticked_inNum hn, ?_, ?_⟩
  · simpa [Voice.DeltaInRange, Voice.ticked] using hd
  · simpa [Voice.ticked] using hphase

theorem effect_phase [Fact (s.params.num.ieee = true)] (h : Effect i s t)
    (hs : ∀ vc ∈ s.voices, vc.PhaseRight s.params.num) :
    ∀ vc ∈ t.voices, phaseInRange s.params.num vc.oscPhase = true :=
  effect_voices (P := fun vc => vc.PhaseRight s.params.num) h hs
    (keep := fun _ ⟨_, _, hp⟩ => hp) (freq := fun _ _ ⟨_, _, hp⟩ _ _ => hp) (note := fun _ _ ⟨_, _, hp⟩ => hp)
    (amp := fun _ _ ⟨_, _, hp⟩ _ _ => hp) (wave := fun _ _ ⟨_, _, hp⟩ => hp) (attack := fun _ ⟨_, _, hp⟩ => hp)
    (start := fun _ ⟨_, _, hp⟩ => hp) (release := fun _ ⟨_, _, hp⟩ => by simpa using hp)
    (silence := fun _ ⟨_, _, hp⟩ => hp) (env := fun _ _ _ _ _ ⟨_, _, hp⟩ _ _ _ _ _ _ _ _ => hp)
    (filter := fun _ _ _ ⟨_, _, hp⟩ _ _ => hp) (rate := fun _ _ ⟨_, _, hp⟩ _ _ _ _ _ => hp)
    (tick := fun _ n h _ => (Voice.ticks_of_ticked (P := fun vc => vc.PhaseRight s.params.num)
      (fun _ => Voice.ticked_phaseRight) n h).2.2)
    (advance := fun _ h _ => Voice.advance_phase h) (phase := fun _ _ => phaseInRange_zero)
    (envStep := fun _ ⟨_, _, hp⟩ => by simpa using hp) (process := fun _ _ _ ⟨_, _, hp⟩ _ _ => by simpa using hp)
    (zeroed := fun _ ⟨_, _, hp⟩ => hp)

/-! ### The output buffer (20_memory.md R38) -/

theorem effect_canonical (h : Effect i s t) (hs : s.BufferCanonical) : t.BufferCanonical := by
  by_cases hr : ∃ v n off, i = .render v n off
  · obtain ⟨v, n, off, rfl⟩ := hr
    cases h with
    | render => exact State.accumulateList_canonical s off _ hs
  · rw [State.BufferCanonical, effect_out h fun v n off e => hr ⟨v, n, off, e⟩]
    exact hs

/-! ### The rate and the parameters (R21, R23, R31, R35) -/

/-- The quotient of a number other than 0 by a finite one is a number. -/
theorem div_isNaN [Fact (nf.ieee = true)] {x y : NumVal} (hx : x.isNaN = false) (h0 : x.isZero = false)
    (hy : y.finite = true) : (div nf x y).isNaN = false := by
  have infinite : ∀ b, (NumVal.inf b).isNaN = false := fun _ => rfl
  cases hi : x.isInf with
  | true => simp [div, quotient, hx, hi, isNaN_of_finite hy, isInf_of_finite hy, infinite]
  | false =>
    cases hz : y.isZero with
    | true => simp [div, quotient, hx, hi, h0, hz, isNaN_of_finite hy, isInf_of_finite hy, infinite]
    | false => simp [div, quotient, hx, hi, hz, isNaN_of_finite hy, isInf_of_finite hy, ofUnits_spec]

theorem fsMin_isNaN [Fact (nf.ieee = true)] : (fsMin nf).isNaN = false := by
  obtain ⟨hnan, -, hzero⟩ := ofNat_pos_parts (nf := nf) 20 (by norm_num)
  obtain ⟨-, hfinite, -⟩ := ofUnits_mag_le (nf := nf) (neg := false) (n := 2375 * unitMag nf) (d := 10000) (by norm_num)
    Rep.unitMag (unitMag_lt_overflow nf) (by omega)
  exact div_isNaN hnan hzero hfinite

theorem effect_rateLegal [Fact (s.params.num.ieee = true)] (h : Effect i s t) (hs : rateLegal s.params.num s.fs = true) :
    rateLegal t.params.num t.fs = true := by
  obtain ⟨⟨hp, -⟩, hfs, -⟩ | ⟨hz, -, rfl, -, hf, hm⟩ := effect_rate_cases h
  · rwa [hp, hfs]
  · exact Bool.and_eq_true_iff.2 ⟨hf, lt_of_not_le (isNaN_of_finite hf) (fsMin_isNaN (nf := s.params.num)) hm⟩

theorem effect_paramsFinite (h : Effect i s t) (hw : s.params.num.wide = true)
    (hs : ∀ vc ∈ s.voices, vc.ParamsFinite) : ∀ vc ∈ t.voices, vc.ParamsFinite := by
  have := Fact.mk (wide_iff.1 hw).1
  exact effect_voices h hs (keep := fun _ h => h) (freq := fun _ _ ⟨_, hrest⟩ hf _ => ⟨hf, hrest⟩)
    (note := fun _ m ⟨_, hrest⟩ => ⟨(midiFrequency_finite hw m).1, hrest⟩)
    (amp := fun _ _ h _ _ => h) (wave := fun _ _ h => h) (attack := fun _ h => h)
    (start := fun _ h => h) (release := fun _ h => by simpa [Voice.ParamsFinite] using h)
    (silence := fun _ h => h)
    (env := fun _ _ _ _ _ ⟨hf, hc, _⟩ ha hd _ hr _ _ _ _ => ⟨hf, hc, ha, hd, hr⟩)
    (filter := fun _ _ _ ⟨hf, _, hrest⟩ hx _ => ⟨hf, hx, hrest⟩) (rate := fun _ _ h _ _ _ _ _ => h)
    (tick := fun _ n h _ => by simpa [Voice.ParamsFinite, Voice.ticks_keep] using h)
    (advance := fun _ h _ => h) (phase := fun _ h => h) (envStep := fun _ h => by simpa [Voice.ParamsFinite] using h)
    (process := fun _ _ _ h _ _ => by simpa [Voice.ParamsFinite] using h) (zeroed := fun _ h => h)

end Sys2Proof.Machine

namespace Sys2Proof.Proofs

open Sys2Proof Sys2Proof.Config Sys2Proof.Machine

/-- Settles O12: a rate change derives every voice again, and any other command writes a register with what is derived
from it. -/
theorem rateDerivedRegistersAlwaysMatch : Obligations.RateDerivedRegistersAlwaysMatch := by
  intro s t h hs
  obtain ⟨-, i, rest, u, -, he, rfl⟩ := step_next h
  exact (effect_ratesMatch he hs :)

/-- Settles O13: the clamps and the envelope step, the operations that write a level, answer in [0, 1]. -/
theorem levelsStayBetweenZeroAndOne : Obligations.LevelsStayBetweenZeroAndOne := by
  intro s t h hieee hf hc hl
  obtain ⟨-, i, rest, u, -, he, rfl⟩ := step_next h
  have := Fact.mk hieee
  exact (effect_levels he hf hc hl :)

/-- Settles O14: a stage is entered with the counter at 0, and `conv` answers within 1 .. CNT_MAX. -/
theorem countersStayBoundedAndIdleStaysSilent : Obligations.CountersStayBoundedAndIdleStaysSilent := by
  intro s t h hs
  obtain ⟨-, i, rest, u, -, he, rfl⟩ := step_next h
  exact (effect_countsRight he hs :)

/-- Settles O15: the advance keeps the phase in [0, 1), rounding included, and every other command leaves it or clears
it. -/
theorem phaseStaysBelowOneUnderTheDuty : Obligations.PhaseStaysBelowOneUnderTheDuty := by
  intro s t h hieee hn hd hp
  obtain ⟨-, i, rest, u, -, he, rfl⟩ := step_next h
  have := Fact.mk hieee
  exact (effect_phase he fun vc hvc => ⟨hn vc hvc, hd vc hvc, hp vc hvc⟩ :)

/-- Settles O16: RENDER accumulates into canonical channels inside the buffer, and no other command writes them. -/
theorem bufferStaysCanonical : Obligations.BufferStaysCanonical := by
  intro s t h hc hi
  obtain ⟨-, i, rest, u, -, he, rfl⟩ := step_next h
  obtain ⟨-, -, -, hlen, -⟩ := effect_keeps he
  exact ⟨(effect_canonical he hc :), (effect_inside he hi :), hlen⟩

/-- Settles O17: SET_SAMPLE_RATE checks its rate, the finite operands are checked and the note frequencies are finite, and
every computed value is rounded to NUM. -/
theorem rateAndParametersStayLegal : Obligations.RateAndParametersStayLegal := by
  intro s t h
  obtain ⟨ho, i, rest, u, -, he, rfl⟩ := step_next h
  obtain ⟨hp, hvoices, hout, -⟩ := effect_keeps he
  refine ⟨fun hieee hs => ?_, fun hw hs => (effect_paramsFinite he hw hs :), fun hieee hs => ?_, hp, hvoices, hout.trans ho⟩ <;>
    have := Fact.mk hieee
  · exact (effect_rateLegal he hs :)
  · exact (effect_inNum he hs :)

end Sys2Proof.Proofs
end

section
/-! PROOFS of 60_exceptions.md R141 and 70_reset_and_hazards.md R156: reset leaves a machine in good standing, and a command that keeps the caller's duties completes and keeps it. -/

namespace Sys2Proof.Machine

open Sys2Proof Sys2Proof.Config NumVal

variable {i : Instr} {s t : State} {v : Nat} {vc : Voice} {nf : Arith}

/-! ### A command that keeps the duties completes -/

theorem familyOfSel_of_lt {sel : Nat} (h : sel < 4) : ∃ f, familyOfSel sel = some f := by
  interval_cases sel <;> exact ⟨_, rfl⟩

theorem FilterBin.coeff_of_index (e : FilterBin) {sel cix : Nat}
    (h : (sel = 0 ∧ cix < 2) ∨ (sel = 1 ∧ cix < 1) ∨ (sel = 2 ∧ cix < 3)) : ∃ c, e.coeff sel cix = some c := by
  obtain ⟨rfl, h⟩ | ⟨rfl, h⟩ | ⟨rfl, h⟩ := h <;> interval_cases cix <;> exact ⟨_, rfl⟩

/-- A rate above FS_MIN is not at most FS_MIN. -/
theorem le_fsMin_of_lt (hw : nf.wide = true) {x : NumVal} (hf : x.finite = true) (h : lt (fsMin nf) x = true) :
    le x (fsMin nf) = false := by
  have := Fact.mk (wide_iff.1 hw).1
  obtain ⟨hm, -⟩ := fsMin_spec hw
  rw [lt_iff hm hf] at h
  rw [Bool.eq_false_iff, Ne, le_iff hf hm]
  exact not_le.2 h

/-- The increment of a voice in good standing lies in [0, 1) (70_reset_and_hazards.md R159). -/
theorem Voice.Good.delta [Fact (nf.ieee = true)] {fs : NumVal} {rom : FilterRom} (h : vc.Good nf fs rom)
    (hr : rateLegal nf fs = true) (hn : inFmt nf fs = true) : vc.DeltaInRange nf :=
  delta_in_range (Bool.and_eq_true_iff.1 hr).1 hn h.rates h.inNum h.finite.1 h.freqLow h.freqHigh

theorem State.Good.ticksOk (hs : s.Good) (hv : vc ∈ s.voices) (n : Nat) : Voice.ticksOk s n vc = true := by
  have := Fact.mk (wide_iff.1 hs.wide).1
  have hg := hs.voices vc hv
  exact ticksOk_of_range hs.wide hs.bank hs.rate hs.modest hs.roms n hg.inNum hg.levels hg.counts hg.phase
    (hg.delta hs.rate hs.rateInNum)

/-- The conditions of each command's effect follow from the duties and good standing. -/
theorem effect_of_dutyMet (hs : s.Good) (hd : s.DutyMet i) : ∃ t, Effect i s t := by
  have voice : ∀ {v : Nat} (hv : v < s.voices.length), s.voices[v]? = some s.voices[v] := List.getElem?_eq_getElem
  cases i with
  | setNote v m => exact ⟨_, .setNote m (voice hd.1)⟩
  | setFreq v x => exact ⟨_, .setFreq x (voice hd.1) hd.2.1⟩
  | setAmp v x => exact ⟨_, .setAmp x (voice hd.1) hd.2⟩
  | setWave v sel => exact ⟨_, .setWave sel (voice hd)⟩
  | startNote v => exact ⟨_, .startNote (voice hd)⟩
  | stopNote v => exact ⟨_, .stopNote (voice hd)⟩
  | setEnv v a d u r =>
    obtain ⟨hv, ha, hd, hu, hr⟩ := hd
    exact ⟨_, .setEnv a d u r (voice hv) ha hd hu hr⟩
  | setFilter v sel x => exact ⟨_, .setFilter sel x (voice hd.1) hd.2⟩
  | setSampleRate x =>
    cases h0 : le (opndF64 s.params.num x) zero with
    | true => exact ⟨_, .rateRejected x h0⟩
    | false =>
      obtain h | ⟨hf, hm, -⟩ := hd
      · exact absurd (h0.symm.trans h) Bool.false_ne_true
      · exact ⟨_, .rateAccepted x h0 hf (le_fsMin_of_lt hs.wide hf hm)⟩
  | render v n off => exact ⟨_, .render n off (voice hd.1) hd.2 (hs.ticksOk (List.getElem_mem hd.1) n)⟩
  | oscNext v => exact ⟨_, .oscNext (voice hd) (hs.voices _ (List.getElem_mem hd)).phase⟩
  | oscResetPhase v => exact ⟨_, .oscResetPhase (voice hd)⟩
  | envAttack v => exact ⟨_, .envAttack (voice hd)⟩
  | envRelease v => exact ⟨_, .envRelease (voice hd)⟩
  | envReset v => exact ⟨_, .envReset (voice hd)⟩
  | envNext v => exact ⟨_, .envNext (voice hd)⟩
  | envActive v => exact ⟨_, .envActive (voice hd)⟩
  | fltProcess v x => exact ⟨_, .fltProcess x (voice hd.1) hd.2⟩
  | fltReset v => exact ⟨_, .fltReset (voice hd)⟩
  | wtRead sel bin n =>
    obtain ⟨hsel, w, hw, hn⟩ := hd
    obtain ⟨f, hf⟩ := familyOfSel_of_lt hsel
    exact ⟨_, .wtRead n hf hw hn⟩
  | wtLen bin => exact ⟨_, .wtLen (Vector.getElem?_eq_getElem hd)⟩
  | wtFreq bin => exact ⟨_, .wtFreq (Vector.getElem?_eq_getElem hd)⟩
  | fcRead sel bin cix =>
    obtain ⟨hbin, hix⟩ := hd
    obtain ⟨c, hc⟩ := FilterBin.coeff_of_index s.filterRom[bin] hix
    exact ⟨_, .fcRead (Vector.getElem?_eq_getElem hbin) hc⟩
  | fcCutoff bin => exact ⟨_, .fcCutoff (Vector.getElem?_eq_getElem hd)⟩

/-! ### What it leaves is in good standing -/

/-- The command's own voice keeps its frequency in [0, fs), by the duty of SET_NOTE and SET_FREQ. -/
theorem Instr.onVoice_frequency (hw : s.params.num.wide = true) (hd : s.DutyMet i)
    (h0 : le zero vc.oscFreq = true) (h1 : lt vc.oscFreq s.fs = true) :
    le zero (i.onVoice s vc).oscFreq = true ∧ lt (i.onVoice s vc).oscFreq s.fs = true := by
  have := Fact.mk (wide_iff.1 hw).1
  cases i with
  | setNote v m => exact ⟨(midiFrequency_finite hw m).2, hd.2⟩
  | setFreq v x => exact hd.2.2
  | _ => simp [Instr.onVoice, Voice.ticks_keep, *]

theorem effect_frequency (h : Effect i s t) (hs : s.Good) (hd : s.DutyMet i) :
    ∀ vc ∈ t.voices, le zero vc.oscFreq = true ∧ lt vc.oscFreq t.fs = true := by
  intro x hx
  obtain ⟨-, hfs, hvoices⟩ | ⟨hz, rfl, rfl, h0, -⟩ := effect_rate_cases h
  · rw [hfs]
    obtain hx | ⟨vc, hvc, rfl⟩ := hvoices x hx
    · exact ⟨(hs.voices x hx).freqLow, (hs.voices x hx).freqHigh⟩
    · exact Instr.onVoice_frequency hs.wide hd (hs.voices vc hvc).freqLow (hs.voices vc hvc).freqHigh
  · obtain ⟨vc, hvc, rfl⟩ := List.mem_map.1 hx
    obtain hle | ⟨-, -, -, hnew⟩ := hd
    · exact absurd (h0.symm.trans hle) Bool.false_ne_true
    · exact ⟨(hs.voices vc hvc).freqLow, hnew vc hvc⟩

theorem effect_modest (h : Effect i s t) (hd : s.DutyMet i) (hs : le s.fs (rateBound s.params.num) = true) :
    le t.fs (rateBound t.params.num) = true := by
  obtain ⟨⟨hp, -⟩, hfs, -⟩ | ⟨hz, rfl, rfl, h0, -⟩ := effect_rate_cases h
  · rwa [hp, hfs]
  · obtain hle | ⟨-, -, hbound, -⟩ := hd
    · exact absurd (h0.symm.trans hle) Bool.false_ne_true
    · exact hbound

/-- Good standing includes that every value is one of NUM: the coefficient ROM is a generated one. -/
theorem State.Good.inNum (hs : s.Good) : s.InNum := by
  have := Fact.mk (wide_iff.1 hs.wide).1
  refine ⟨hs.rateInNum, fun vc hvc => (hs.voices vc hvc).inNum, ?_⟩
  rw [hs.roms.2]
  exact generateFilterRom_inNum s.fs

theorem effect_good (h : Effect i s t) (hs : s.Good) (hd : s.DutyMet i) : t.Good := by
  have := Fact.mk (wide_iff.1 hs.wide).1
  obtain ⟨hp, -⟩ := effect_keeps h
  obtain ⟨hrate, hvoices, -⟩ := effect_inNum h hs.inNum
  have hlevels := effect_levels h (ofNat_cntMax_finite hs.wide) (fun vc hvc => (hs.voices vc hvc).counts)
    fun vc hvc => (hs.voices vc hvc).levels
  have hcounts := effect_countsRight h fun vc hvc => ⟨(hs.voices vc hvc).counts, (hs.voices vc hvc).silent⟩
  have hfinite := effect_paramsFinite h hs.wide fun vc hvc => (hs.voices vc hvc).finite
  have hphase := effect_phase h fun vc hvc =>
    ⟨(hs.voices vc hvc).inNum, (hs.voices vc hvc).delta hs.rate hs.rateInNum, (hs.voices vc hvc).phase⟩
  rw [← hp] at hlevels hphase
  exact {
    wide := hp ▸ hs.wide
    bank := hp ▸ hs.bank
    rate := effect_rateLegal h hs.rate
    modest := effect_modest h hd hs.modest
    rateInNum := hrate
    roms := effect_romsMatch h hs.roms
    buffer := effect_canonical h hs.buffer
    inside := effect_inside h hs.inside
    voices := fun vc hvc => {
      rates := effect_ratesMatch h (fun vc hvc => (hs.voices vc hvc).rates) vc hvc
      inNum := hvoices vc hvc
      levels := hlevels vc hvc
      counts := (hcounts vc hvc).1
      silent := (hcounts vc hvc).2
      finite := hfinite vc hvc
      phase := hphase vc hvc
      freqLow := (effect_frequency h hs hd vc hvc).1
      freqHigh := (effect_frequency h hs hd vc hvc).2 } }

/-! ### Reset (70_reset_and_hazards.md R154) -/

section
variable [Fact (nf.ieee = true)]

/-- A time of 0 seconds is the least count, at every finite rate that is not negative (42_envelope.md R97). -/
theorem conv_zero {fs : NumVal} (hf : fs.finite = true) (hn : fs.isNeg = false) : conv nf fs zero = 1 := by
  have hr : NumVal.round nf zero = 0 := by
    have hlt : 2 * 0 + unitMag nf < 2 * unitMag nf := by have := unitMag_pos nf; omega
    rw [zero, NumVal.round, if_neg Bool.false_ne_true, Nat.div_eq_of_lt hlt]
    rfl
  rw [conv, mul_comm_finite zero_spec.1 hf, mul_zero_eq hf hn, hr]
  rfl

theorem fsReset_spec (hw : nf.wide = true) : (fsReset nf).finite = true ∧ (fsReset nf).mag = 44100 * unitMag nf ∧
    (fsReset nf).isNeg = false :=
  ofNat_small hw (by norm_num)

theorem fsReset_legal (hw : nf.wide = true) : rateLegal nf (fsReset nf) = true := by
  obtain ⟨hf, hm, hn⟩ := fsReset_spec hw
  obtain ⟨mf, mn, -, mm⟩ := fsMin_spec hw
  have hlt : lt (fsMin nf) (fsReset nf) = true := by
    rw [lt_iff mf hf, sval_of_not_neg mn, sval_of_not_neg hn]
    have := unitMag_pos nf
    omega
  exact Bool.and_eq_true_iff.2 ⟨hf, hlt⟩

theorem fsReset_modest (hw : nf.wide = true) : le (fsReset nf) (rateBound nf) = true := by
  obtain ⟨hf, hm, hn⟩ := fsReset_spec hw
  obtain ⟨bf, bm, bn⟩ := rateBound_spec hw
  rw [le_iff hf bf, sval_of_not_neg hn, sval_of_not_neg bn]
  have := unitMag_pos nf
  omega

/-- The reset voice is in good standing where bin 49 is the one nearest to 20000.0. -/
theorem Voice.reset_good (hw : nf.wide = true)
    (hbin : nearestFilterBin nf (generateFilterRom nf (fsReset nf)) (ofNat nf 20000) = 49) :
    (Voice.reset nf).Good nf (fsReset nf) (generateFilterRom nf (fsReset nf)) := by
  obtain ⟨hf, hm, hn⟩ := fsReset_spec hw
  have hpos : 0 < (fsReset nf).mag := hm ▸ Nat.mul_pos (by norm_num) (unitMag_pos nf)
  have hconv := conv_zero (nf := nf) hf hn
  exact {
    rates := ⟨(zero_div_eq (isNaN_of_finite hf) hn (isZero_of_mag hpos.ne')).symm, hconv.symm, hconv.symm, hconv.symm,
      hbin.symm⟩
    inNum := by simp [Voice.InNum, Voice.numRegisters, Voice.reset]
    levels := ⟨inUnit_one, inUnit_one, inUnit_zero, inUnit_zero⟩
    counts := by simp [Voice.CountsBounded, Voice.reset, cntMax]
    silent := fun _ => ⟨rfl, rfl⟩
    finite := ⟨rfl, (ofNat_small hw (by norm_num)).1, rfl, rfl, rfl⟩
    phase := phaseInRange_zero
    freqLow := rfl
    freqHigh := (lt_iff zero_spec.1 hf).2 (by rw [sval_of_not_neg hn]; exact Int.natCast_pos.2 hpos) }

end

theorem State.resetWith_good {params : Params} {numVoices : Nat} {out : List Memory} (hw : params.num.wide = true)
    (hbank : bankLegal params.num params.bankFreq = true)
    (hbin : nearestFilterBin params.num (generateFilterRom params.num (fsReset params.num)) (ofNat params.num 20000) = 49)
    (hcanonical : ∀ m ∈ out, Memory.wf m = true) (hinside : ∀ m ∈ out, ∀ p ∈ m, p.1 < params.bufLen) :
    (State.resetWith params numVoices out).Good := by
  have := Fact.mk (wide_iff.1 hw).1
  exact {
    wide := hw
    bank := hbank
    rate := fsReset_legal (nf := params.num) hw
    modest := fsReset_modest hw
    rateInNum := inFmt_ofNat (nf := params.num) _
    roms := State.resetWith_romsMatch ..
    buffer := hcanonical
    inside := hinside
    voices := fun vc hvc => List.eq_of_mem_replicate hvc ▸ Voice.reset_good hw hbin }

theorem nearestFilterBin_reset_binary32 :
    nearestFilterBin binary32 (generateFilterRom binary32 (fsReset binary32)) (ofNat binary32 20000) = 49 := by
  decide +kernel

theorem nearestFilterBin_reset_binary64 :
    nearestFilterBin binary64 (generateFilterRom binary64 (fsReset binary64)) (ofNat binary64 20000) = 49 := by
  decide +kernel

theorem bankLegal_default : bankLegal binary64 defaultParams.bankFreq = true := by decide +kernel

theorem State.reset_good : State.reset.Good := by
  refine State.resetWith_good (by decide) bankLegal_default nearestFilterBin_reset_binary64 ?_ ?_ <;>
    intro m hm <;> obtain rfl := List.eq_of_mem_replicate hm
  · rfl
  · nofun

end Sys2Proof.Machine

namespace Sys2Proof.Proofs

open Sys2Proof Sys2Proof.Config Sys2Proof.Machine

/-- Settles O53: the duties are the conditions of the command's effect, and each part of good standing is one of the
invariants. -/
theorem dutyKeepingCommandsNeverStop : Obligations.DutyKeepingCommandsNeverStop := by
  intro i s hs hd
  obtain ⟨t, h⟩ := effect_of_dutyMet hs hd
  exact ⟨t, exec_effect h, effect_good h hs hd⟩

/-- Settles O10: the reset values in every wide NUM, and the bin nearest to 20000.0 computed in binary32 and binary64. -/
theorem resetStateMeetsEveryInvariant : Obligations.ResetStateMeetsEveryInvariant := by
  refine ⟨?_, ?_, State.reset_good⟩
  · rintro params numVoices out nf rfl hw hbank hbin hcanonical hinside
    exact State.resetWith_good hw hbank hbin hcanonical hinside
  · rintro nf (rfl | rfl)
    · exact nearestFilterBin_reset_binary32
    · exact nearestFilterBin_reset_binary64

end Sys2Proof.Proofs
end

section
/-! PROOFS of 42_envelope.md R109, the course of a note: the levels from ENV_ATTACK to Sustain, and the end of a release. -/

namespace Sys2Proof.Machine

open Sys2Proof Sys2Proof.Config

variable {s : State} {v : Nat} {vc : Voice} {nf : Arith}

/-- A voice with its stage registers replaced. -/
def Voice.atStage (vc : Voice) (stage : Stage) (counter : Nat) (level : NumVal) : Voice :=
  { vc with envStage := stage, envCounter := counter, envLevel := level }

/-- `j` envelope steps one after another. -/
def Voice.envSteps (nf : Arith) (j : Nat) (vc : Voice) : Voice := (Voice.envStep · nf)^[j] vc

theorem Voice.envSteps_succ (j : Nat) : Voice.envSteps nf (j + 1) vc = (Voice.envSteps nf j vc).envStep nf :=
  Function.iterate_succ_apply' ..

theorem Voice.envSteps_add (m n : Nat) : Voice.envSteps nf (m + n) vc = Voice.envSteps nf n (Voice.envSteps nf m vc) :=
  (congrArg (Voice.envSteps nf · vc) (Nat.add_comm m n)).trans (Function.iterate_add_apply ..)

/-- `j` ENV_NEXTs complete and step the voice `j` times. -/
theorem execAll_envNext (j : Nat) (hv : s.voices[v]? = some vc) :
    ∃ t, execAll (List.replicate j (.envNext v)) s = .next t ∧
      t.voices[v]? = some (Voice.envSteps s.params.num j vc) := by
  induction j generalizing s vc with
  | zero => exact ⟨s, rfl, hv⟩
  | succ j ih =>
    have h := Effect.envNext hv
    obtain ⟨-, hv', -⟩ := effect_ownVoice h rfl hv
    obtain ⟨t, ht, hvt⟩ := ih hv'
    refine ⟨t, ?_, hvt⟩
    rw [List.replicate_succ, execAll, exec_effect h]
    exact ht

/-! ### One step at a stage -/

section steps
variable {c : Nat} {l : NumVal}

theorem Voice.envStep_attack_lt (h : c + 1 < vc.envA) :
    (vc.atStage .attack c l).envStep nf = vc.atStage .attack (c + 1) (stageRatio nf (c + 1) vc.envA) :=
  (Voice.envStep_of_attack rfl).trans (Voice.attackStep_of_lt h)

theorem Voice.envStep_attack_end (h : vc.envA ≤ c + 1) :
    (vc.atStage .attack c l).envStep nf = vc.atStage .decay 0 (NumVal.one nf) :=
  (Voice.envStep_of_attack rfl).trans (Voice.attackStep_of_end h)

theorem Voice.envStep_decay_lt (h : c + 1 < vc.envD) :
    (vc.atStage .decay c l).envStep nf = vc.atStage .decay (c + 1) (decayLevel nf vc.envSustain (c + 1) vc.envD) :=
  (Voice.envStep_of_decay rfl).trans (Voice.decayStep_of_lt h)

theorem Voice.envStep_decay_end (h : vc.envD ≤ c + 1) :
    (vc.atStage .decay c l).envStep nf = vc.atStage .sustain 0 vc.envSustain :=
  (Voice.envStep_of_decay rfl).trans (Voice.decayStep_of_end h)

theorem Voice.envStep_release_end (h : vc.envR ≤ c + 1) :
    (vc.atStage .release c l).envStep nf = vc.atStage .idle 0 NumVal.zero :=
  (Voice.envStep_of_release rfl).trans (Voice.releaseStep_of_end (.inl h))

/-- A release step before the count is up ends at the floor or goes on. -/
theorem Voice.envStep_release_lt (h : c + 1 < vc.envR) :
    (vc.atStage .release c l).envStep nf = vc.atStage .idle 0 NumVal.zero ∨
      ∃ l', (vc.atStage .release c l).envStep nf = vc.atStage .release (c + 1) l' := by
  rw [Voice.envStep_of_release rfl]
  cases hl : NumVal.le (releaseLevel nf vc.envRsl (c + 1) vc.envR) (NumVal.relFloor nf) with
  | true => exact .inl (Voice.releaseStep_of_end (.inr hl))
  | false => exact .inr ⟨_, Voice.releaseStep_of_lt h hl⟩

end steps

/-! ### Several steps -/

/-- Attack counts its steps until its count is up. -/
theorem Voice.envSteps_attack (j : Nat) (h : j < vc.envA) :
    ∃ l, Voice.envSteps nf j vc.enterAttack = vc.atStage .attack j l := by
  induction j with
  | zero => exact ⟨_, rfl⟩
  | succ j ih =>
    obtain ⟨l, hl⟩ := ih (by omega)
    exact ⟨_, by rw [Voice.envSteps_succ, hl, Voice.envStep_attack_lt h]⟩

theorem Voice.envSteps_attack_level {j : Nat} (h1 : 1 ≤ j) (h : j < vc.envA) :
    Voice.envSteps nf j vc.enterAttack = vc.atStage .attack j (stageRatio nf j vc.envA) := by
  obtain ⟨k, rfl⟩ := Nat.exists_eq_add_of_le' h1
  obtain ⟨l, hl⟩ := Voice.envSteps_attack (nf := nf) (vc := vc) k (by omega)
  rw [Voice.envSteps_succ, hl, Voice.envStep_attack_lt h]

/-- Attack ends at its count, with level 1.0. -/
theorem Voice.envSteps_attack_end (h1 : 1 ≤ vc.envA) :
    Voice.envSteps nf vc.envA vc.enterAttack = vc.atStage .decay 0 (NumVal.one nf) := by
  obtain ⟨k, hk⟩ := Nat.exists_eq_add_of_le' h1
  obtain ⟨l, hl⟩ := Voice.envSteps_attack (nf := nf) (vc := vc) k (by omega)
  rw [hk, Voice.envSteps_succ, hl, Voice.envStep_attack_end hk.le]

/-- Decay counts its steps until its count is up. -/
theorem Voice.envSteps_decay (m : Nat) (l₀ : NumVal) (h : m < vc.envD) :
    ∃ l, Voice.envSteps nf m (vc.atStage .decay 0 l₀) = vc.atStage .decay m l := by
  induction m with
  | zero => exact ⟨_, rfl⟩
  | succ m ih =>
    obtain ⟨l, hl⟩ := ih (by omega)
    exact ⟨_, by rw [Voice.envSteps_succ, hl, Voice.envStep_decay_lt h]⟩

theorem Voice.envSteps_decay_level {m : Nat} (l₀ : NumVal) (h1 : 1 ≤ m) (h : m < vc.envD) :
    Voice.envSteps nf m (vc.atStage .decay 0 l₀) =
      vc.atStage .decay m (decayLevel nf vc.envSustain m vc.envD) := by
  obtain ⟨k, rfl⟩ := Nat.exists_eq_add_of_le' h1
  obtain ⟨l, hl⟩ := Voice.envSteps_decay (nf := nf) (vc := vc) k l₀ (by omega)
  rw [Voice.envSteps_succ, hl, Voice.envStep_decay_lt h]

/-- Decay ends at its count, with the sustain level. -/
theorem Voice.envSteps_decay_end (l₀ : NumVal) (h1 : 1 ≤ vc.envD) :
    Voice.envSteps nf vc.envD (vc.atStage .decay 0 l₀) = vc.atStage .sustain 0 vc.envSustain := by
  obtain ⟨k, hk⟩ := Nat.exists_eq_add_of_le' h1
  obtain ⟨l, hl⟩ := Voice.envSteps_decay (nf := nf) (vc := vc) k l₀ (by omega)
  rw [hk, Voice.envSteps_succ, hl, Voice.envStep_decay_end hk.le]

theorem Voice.envSteps_sustain (k : Nat) :
    Voice.envSteps nf k (vc.atStage .sustain 0 vc.envSustain) = vc.atStage .sustain 0 vc.envSustain :=
  Function.iterate_fixed (Voice.envStep_of_sustain rfl) k

/-- Attack and Decay are over after both counts, and the sustain level is held. -/
theorem Voice.envSteps_sustain_level (k : Nat) (hA : 1 ≤ vc.envA) (hD : 1 ≤ vc.envD) :
    Voice.envSteps nf (vc.envA + vc.envD + k) vc.enterAttack = vc.atStage .sustain 0 vc.envSustain := by
  rw [Voice.envSteps_add, Voice.envSteps_add, Voice.envSteps_attack_end hA, Voice.envSteps_decay_end _ hD,
    Voice.envSteps_sustain]

theorem Voice.enterRelease_of_active (h : vc.envStage ≠ .idle) :
    vc.enterRelease = { vc with envRsl := vc.envLevel }.atStage .release 0 vc.envLevel :=
  if_neg h

/-- Release counts its steps, unless it has ended at the floor. -/
theorem Voice.envSteps_release (j : Nat) (l₀ : NumVal) (h : j < vc.envR) :
    Voice.envSteps nf j (vc.atStage .release 0 l₀) = vc.atStage .idle 0 NumVal.zero ∨
      ∃ l, Voice.envSteps nf j (vc.atStage .release 0 l₀) = vc.atStage .release j l := by
  induction j with
  | zero => exact .inr ⟨_, rfl⟩
  | succ j ih =>
    rw [Voice.envSteps_succ]
    obtain hi | ⟨l, hl⟩ := ih (by omega)
    · rw [hi]
      exact .inl (Voice.envStep_of_idle rfl)
    · rw [hl]
      exact Voice.envStep_release_lt h

/-- A release is over at its count at the latest. -/
theorem Voice.envSteps_release_end (l₀ : NumVal) (h1 : 1 ≤ vc.envR) :
    Voice.envSteps nf vc.envR (vc.atStage .release 0 l₀) = vc.atStage .idle 0 NumVal.zero := by
  obtain ⟨k, hk⟩ := Nat.exists_eq_add_of_le' h1
  rw [hk, Voice.envSteps_succ]
  obtain hi | ⟨l, hl⟩ := Voice.envSteps_release (nf := nf) (vc := vc) k l₀ (by omega)
  · rw [hi]
    exact Voice.envStep_of_idle rfl
  · rw [hl, Voice.envStep_release_end hk.le]

end Sys2Proof.Machine

namespace Sys2Proof.Proofs

open Sys2Proof Sys2Proof.Config Sys2Proof.Machine

/-- Settles O55: the ENV_NEXTs iterate the envelope step, which counts through Attack and Decay and rests in Sustain. -/
theorem attackDecaySustainLevels : Obligations.AttackDecaySustainLevels := by
  rintro v j s vc nf rfl hv hA hD
  have h := Effect.envAttack hv
  obtain ⟨-, hv', -⟩ := effect_ownVoice h rfl hv
  obtain ⟨t, ht, hvt⟩ := execAll_envNext j hv'
  refine ⟨t, _, by rw [execAll, exec_effect h]; exact ht, hvt, fun h1 hj => ?attack, ?attackEnd, ?decay, fun hj => ?sustain⟩
  case attack => exact Voice.envSteps_attack_level h1 hj
  case attackEnd =>
    rintro rfl
    exact Voice.envSteps_attack_end hA
  case decay =>
    rintro m rfl h1 hm
    rw [Voice.envSteps_add]
    exact (congrArg _ (Voice.envSteps_attack_end hA)).trans (Voice.envSteps_decay_level _ h1 hm)
  case sustain =>
    obtain ⟨k, rfl⟩ := Nat.exists_eq_add_of_le hj
    exact Voice.envSteps_sustain_level k hA hD

/-- Settles O56: a release counts to R unless it ends at the floor before, and an Idle voice stays as it is. -/
theorem releaseReachesIdleWithinItsCount : Obligations.ReleaseReachesIdleWithinItsCount := by
  intro v s vc hv hi hR
  have h := Effect.envRelease hv
  obtain ⟨-, hv', -⟩ := effect_ownVoice h rfl hv
  obtain ⟨t, ht, hvt⟩ := execAll_envNext vc.envR hv'
  refine ⟨t, by rw [execAll, exec_effect h]; exact ht, hvt.trans (congrArg some ?_)⟩
  exact (congrArg _ (Voice.enterRelease_of_active hi)).trans
    (Voice.envSteps_release_end (vc := { vc with envRsl := vc.envLevel }) _ hR)

end Sys2Proof.Proofs
end

section
/-! PROOFS of 40_wavetable_rom.md and 43_filter.md R124, the ROMs: the rules of generation (R72 to R77), sample 0 (R81), and the reads WT_READ, WT_LEN and FC_CUTOFF. -/

namespace Sys2Proof.Machine

open Sys2Proof Sys2Proof.Config NumVal

variable {s : State} {nf : Arith}

/-! ### Sums and peaks over the samples in order (R75, R77) -/

theorem sumTerms_eq_foldl (term : Nat → NumVal) (count : Nat) :
    sumTerms nf term count = (List.range count).foldl (fun sum j => add nf sum (term j)) zero := by
  induction count with
  | zero => rfl
  | succ count ih => rw [sumTerms, ih, List.range_succ, List.foldl_append, List.foldl_cons, List.foldl_nil]

theorem peak_eq_foldl (raw : Nat → NumVal) (count : Nat) :
    peak raw count = (List.range count).foldl (fun best j => NumVal.max best (NumVal.abs (raw j))) zero := by
  induction count with
  | zero => rfl
  | succ count ih => rw [peak, ih, List.range_succ, List.foldl_append, List.foldl_cons, List.foldl_nil]

/-- The sign of the Triangle's term `m`. -/
theorem neg_one_pow_eq_ite (m : Nat) : (-1 : Int) ^ m = if m % 2 = 0 then 1 else -1 := by
  obtain hm | hm := Nat.mod_two_eq_zero_or_one m
  · rw [if_pos hm, Even.neg_one_pow (Nat.even_iff.2 hm)]
  · rw [if_neg (by omega), Odd.neg_one_pow (Nat.odd_iff.2 hm)]

/-! ### Sample 0 (R81) -/

theorem not_zero_of_pos {m : NumVal} (h : lt zero m = true) : m.isNaN = false ∧ m.isNeg = false ∧ m.isZero = false := by
  cases m with
  | nan => cases h
  | inf neg =>
    cases neg with
    | false => exact ⟨rfl, rfl, rfl⟩
    | true => cases h
  | fin neg k =>
    cases neg with
    | false =>
      have hk : (0 : Int) < k := (lt_iff rfl rfl).1 h
      exact ⟨rfl, rfl, isZero_of_mag (Int.natCast_pos.1 hk).ne'⟩
    | true =>
      have hk : (0 : Int) < -k := (lt_iff rfl rfl).1 h
      omega

/-- A raw sample 0.0 is normalised to 0.0, whatever the peak. -/
theorem normalise_zero [Fact (nf.ieee = true)] (m : NumVal) : normalise nf zero m = zero := by
  rw [normalise]
  split_ifs with h
  · obtain ⟨hnan, hneg, hzero⟩ := not_zero_of_pos h
    rw [zero_div_eq hnan hneg hzero]
    exact mul_one_eq zero_spec.1 inFmt_zero
  · rfl

theorem waveSample_generated_zero (hw : nf.wide = true) (f : Family) {fs bankFreq : NumVal}
    (h : 0 < (generateWaveBin nf fs bankFreq).len) : waveSample nf f (generateWaveBin nf fs bankFreq) 0 = zero := by
  have := Fact.mk (wide_iff.1 hw).1
  rw [waveSample, rawSample_zero (h := (generateWaveBin nf fs bankFreq).harmonics) hw f h (harmonicCount_le fs bankFreq),
    normalise_zero]

/-- A bin of a ROM that matches the rate is the one R79 generates. -/
theorem State.RomsMatch.waveRom_get (hm : s.RomsMatch) (b : Fin numBankBins) :
    s.waveRom.get b = generateWaveBin s.params.num s.fs (s.params.bankFreq.get b) := by
  rw [hm.1]
  exact Vector.getElem_ofFn b.isLt

/-! ### WT_READ (R82) -/

theorem wtRead_word (sel bin n : Nat) : (Instr.wtRead sel bin n).parts.word = 0x40 + sel * 2 ^ 8 + bin * 2 ^ 12 := by
  simp only [Parts.word, Instr.parts, Nat.zero_mul, Nat.add_zero]

theorem encode_wtRead (sel bin n : Nat) :
    encode (.wtRead sel bin n) = leBytes 4 (0x40 + sel * 2 ^ 8 + bin * 2 ^ 12) ++ leBytes 8 n := by
  rw [encode, wtRead_word]
  exact congrArg _ (List.append_nil _)

theorem exec_wtRead_of_sample {b : Fin numBankBins} {sel n : Nat} {f : Family} (hf : familyOfSel sel = some f)
    (hn : n < (s.waveRom.get b).len) : exec (.wtRead sel b n) s =
      .next (s.respond (.f64 (toF64 s.params.num (waveSample s.params.num f (s.waveRom.get b) n)))) :=
  exec_effect (.wtRead n hf (Vector.getElem?_eq_getElem b.isLt) hn)

/-- A family, bin or index that does not exist raises ROM_INDEX. -/
theorem exec_wtRead_of_missing {sel bin n : Nat}
    (h : 3 < sel ∨ 58 < bin ∨ ∃ b : Fin numBankBins, b.val = bin ∧ (s.waveRom.get b).len ≤ n) :
    exec (.wtRead sel bin n) s = raise .romIndex (.wtRead sel bin n) none s := by
  refine exec_of_stop (.wtRead sel bin n fun f w hf hw => ?_)
  obtain hsel | hbin | ⟨b, rfl, hlen⟩ := h
  · exact absurd (familyOfSel_of_four_le hsel ▸ hf) nofun
  · exact absurd (Vector.getElem?_eq_none hbin ▸ hw) nofun
  · obtain rfl := Option.some.inj ((Vector.getElem?_eq_getElem b.isLt).symm.trans hw)
    exact hlen

/-! ### WT_LEN (R83) -/

theorem wtLen_word (bin : Nat) : (Instr.wtLen bin).parts.word = 0x41 + bin * 2 ^ 12 := by
  simp only [Parts.word, Instr.parts, Nat.zero_mul, Nat.add_zero]

theorem encode_wtLen (bin : Nat) : encode (.wtLen bin) = leBytes 4 (0x41 + bin * 2 ^ 12) := by
  rw [encode, wtLen_word]
  exact List.append_nil _

theorem u32Of_lt (n : Nat) : u32Of n < 2 ^ 32 := by
  rw [u32Of]
  split_ifs with h
  · exact h
  · exact (u32Outside n).isLt

/-! ### FC_CUTOFF (43_filter.md R124) -/

theorem fcCutoff_word (bin : Nat) : (Instr.fcCutoff bin).parts.word = 0x51 + bin * 2 ^ 12 := by
  simp only [Parts.word, Instr.parts, Nat.zero_mul, Nat.add_zero]

theorem encode_fcCutoff (bin : Nat) : encode (.fcCutoff bin) = leBytes 4 (0x51 + bin * 2 ^ 12) := by
  rw [encode, fcCutoff_word]
  exact List.append_nil _

end Sys2Proof.Machine

namespace Sys2Proof.Proofs

open Sys2Proof Sys2Proof.Config Sys2Proof.Machine

/-- Settles O57: the raw sample 0 is 0.0 in every family, and the normalisation keeps it. -/
theorem generatedTablesStartAtZero : Obligations.GeneratedTablesStartAtZero :=
  fun _ f _ _ hw h => waveSample_generated_zero hw f h

/-- Settles O60: the model's sums are the folds over the harmonics in increasing order. -/
theorem generatedTablesFollowTheHarmonicSums : Obligations.GeneratedTablesFollowTheHarmonicSums := by
  intro nf fs bankFreq len count n arg harg
  obtain rfl : arg = fun k => phaseArg nf k n len := funext harg
  refine ⟨lengthOf_eq, rfl, rfl, sumTerms_eq_foldl .., sumTerms_eq_foldl .., (sumTerms_eq_foldl ..).trans ?_⟩
  simp only [triangleTerm, neg_one_pow_eq_ite]

/-- Settles O45: an existing sample is the raw one normalised by the table's peak, and sample 0 of a generated table is
0.0. -/
theorem wtReadReturnsASample : Obligations.WtReadReturnsASample := by
  refine ⟨encode_wtRead, ?_⟩
  rintro sel bin n s nf rfl
  refine ⟨?sample, fun h => ?missing, ?first⟩
  case sample =>
    rintro b f w raw m rfl hf rfl hn rfl rfl
    rw [exec_wtRead_of_sample (familyOfSel_of_mem hf) hn, waveSample, peak_eq_foldl, normalise]
    refine ⟨fun hm => ?_, fun hm => ?_⟩
    · rw [if_pos hm]
      rfl
    · rw [if_neg (Bool.eq_false_iff.1 hm), NumVal.zero, NumVal.toF64_zero]
      rfl
  case missing =>
    rw [exec_wtRead_of_missing h, raise, Instr.commandWord, wtRead_word]
    rfl
  case first =>
    rintro b hw hm rfl hsel hlen
    obtain ⟨f, hf⟩ := familyOfSel_of_lt (Nat.lt_succ_of_le hsel)
    rw [exec_wtRead_of_sample hf hlen]
    rw [hm.waveRom_get b] at hlen ⊢
    rw [waveSample_generated_zero hw f hlen, NumVal.zero, NumVal.toF64_zero]
    rfl

/-- Settles O46: the response is the bin's length as a U32, and a generated length is the rounded quotient. -/
theorem wtLenReturnsTheLength : Obligations.WtLenReturnsTheLength := by
  refine ⟨encode_wtLen, ?_⟩
  rintro bin s nf rfl
  refine ⟨?length, fun h => ?missing, ?generated⟩
  case length =>
    rintro b rfl
    exact ⟨_, exec_effect (.wtLen (Vector.getElem?_eq_getElem b.isLt)), u32Of_lt _, fun h => if_pos h⟩
  case missing =>
    rw [exec_of_stop (.wtLen bin (Vector.getElem?_eq_none h)), raise, Instr.commandWord, wtLen_word]
    rfl
  case generated =>
    rintro b q hm rfl
    rw [hm.waveRom_get b]
    refine ⟨lengthOf_eq, fun hw hi hr hbank => ?_⟩
    have := Fact.mk (wide_iff.1 hw).1
    obtain ⟨hf, hn, -⟩ := rateLegal_pos hw hr
    obtain ⟨bf, bn, bm⟩ := bank_entry hw hbank b
    exact quotient_nonneg hi hf hn bf bn bm

/-- Settles O49: the response is the bin's cutoff, which generation computes by R110. -/
theorem fcCutoffReturnsTheCutoff : Obligations.FcCutoffReturnsTheCutoff := by
  refine ⟨encode_fcCutoff, ?_⟩
  rintro bin s nf rfl
  refine ⟨?cutoff, fun h => ?missing, ?generated, fun hw hi hm hr => ?first⟩
  case cutoff =>
    rintro b rfl
    exact exec_effect (.fcCutoff (Vector.getElem?_eq_getElem b.isLt))
  case missing =>
    rw [exec_of_stop (.fcCutoff bin (Vector.getElem?_eq_none h)), raise, Instr.commandWord, fcCutoff_word]
    rfl
  case generated =>
    rintro b top hm rfl
    rw [hm.filterRom_get b]
    rfl
  case first =>
    have := Fact.mk (wide_iff.1 hw).1
    rw [hm.filterRom_get 0]
    exact filterCutoff_zero hw hi hr

end Sys2Proof.Proofs
end

section
/-! PROOFS of 00_scope.md R13, the rounding: no value of NUM is nearer to an exact sum, product or quotient than the operator's result. -/

namespace Sys2Proof.Machine

open Sys2Proof Sys2Proof.Config NumVal

variable {nf : Arith} {x y z : NumVal} {neg : Bool} {n d : Nat}

/-! ### Numbers given by sign and magnitude -/

/-- A whole number by its sign and magnitude. -/
def signed (neg : Bool) (n : Nat) : Int := if neg then -n else n

theorem sval_eq_signed (x : NumVal) : x.sval = signed x.isNeg x.mag := rfl

theorem signed_mul (a b : Bool) (m n : Nat) : signed a m * signed b n = signed (a != b) (m * n) := by
  cases a <;> cases b <;> simp [signed]

theorem signed_mul_natCast (a : Bool) (m n : Nat) : signed a m * n = signed a (m * n) := by
  cases a <;> simp [signed]

/-- A number is its magnitude with its sign, which is free where it is 0. -/
theorem signed_natAbs (e : Int) (zeroSign : Bool) :
    signed (if e = 0 then zeroSign else decide (e < 0)) e.natAbs = e := by
  by_cases h : e = 0
  · subst h
    cases zeroSign <;> rfl
  · rw [if_neg h, signed]
    split_ifs with hlt <;> simp at hlt <;> omega

/-- A sign moved from one product to the other number. -/
theorem abs_mul_signed_sub (a : Int) (b c : Bool) (m k : Nat) :
    |a * signed b m - signed c k| = |a * m - signed (c != b) k| := by
  cases b with
  | false => rw [Bool.bne_false]; rfl
  | true =>
    rw [← abs_neg]
    cases c <;> simp [signed] <;> ring_nf

theorem mag_of_not_isZero (hf : x.finite = true) (h : x.isZero = false) : x.mag ≠ 0 := by
  cases x with
  | fin neg m => simpa [isZero, mag] using h
  | inf | nan => cases hf

/-- The distance of two numbers does not depend on the sign taken as positive. -/
theorem abs_sub_signed (a : Int) (neg : Bool) (n : Nat) : |a - signed neg n| = |(if neg then -a else a) - n| := by
  cases neg with
  | false => rfl
  | true => rw [← abs_neg]; congr 1; simp [signed]; ring

/-! ### The nearest value, with its sign -/

section
variable [Fact (nf.ieee = true)]

/-- The rounded magnitude is at least as near as any number whose magnitude the format has: one of the other sign is
farther than 0 is. -/
theorem roundMag_nearest_int (hd : 0 < d) {w : Int} (hw : Rep nf w.natAbs) :
    |((roundMag nf neg n d * d : Nat) : Int) - n| ≤ |w * d - n| := by
  obtain ⟨m, rfl | rfl⟩ := w.eq_nat_or_neg
  · exact_mod_cast roundMag_nearest (neg := neg) (n := n) hd (by simpa using hw)
  · calc |((roundMag nf neg n d * d : Nat) : Int) - n| ≤ |((0 * d : Nat) : Int) - n| := roundMag_nearest hd Rep.zero
      _ ≤ |-(m : Int) * d - n| := by
        have : (0 : Int) ≤ m * d := by positivity
        rw [abs_of_nonpos (by simp), abs_of_nonpos (by linarith [Int.natCast_nonneg n])]
        simp
        linarith

theorem ofUnits_nearest (hd : 0 < d) (hf : (ofUnits nf neg n d).finite = true) (hz : z.finite = true)
    (hi : inFmt nf z = true) :
    |(ofUnits nf neg n d).sval * d - signed neg n| ≤ |z.sval * d - signed neg n| := by
  obtain ⟨-, -, hm, hs⟩ := ofUnits_spec nf neg n d
  obtain ⟨hr, -⟩ := mag_rep hi hz
  rw [← sval_natAbs] at hr
  rw [sval_eq_signed (ofUnits nf neg n d), hs, hm hf, abs_sub_signed, abs_sub_signed]
  cases neg with
  | false => simpa [signed] using roundMag_nearest_int (n := n) (neg := false) hd hr
  | true => simpa [signed] using roundMag_nearest_int (n := n) (neg := true) hd (w := -z.sval) (by rwa [Int.natAbs_neg])

theorem add_nearest (hx : x.finite = true) (hy : y.finite = true) (hf : (add nf x y).finite = true)
    (hz : z.finite = true) (hi : inFmt nf z = true) :
    |(add nf x y).sval - (x.sval + y.sval)| ≤ |z.sval - (x.sval + y.sval)| := by
  rw [add_finite_eq hx hy] at hf ⊢
  simpa [signed_natAbs] using ofUnits_nearest Nat.one_pos hf hz hi

theorem mul_nearest (hx : x.finite = true) (hy : y.finite = true) (hf : (mul nf x y).finite = true)
    (hz : z.finite = true) (hi : inFmt nf z = true) :
    |(mul nf x y).sval * unitMag nf - x.sval * y.sval| ≤ |z.sval * unitMag nf - x.sval * y.sval| := by
  rw [mul_finite_eq hx hy] at hf ⊢
  rw [sval_eq_signed x, sval_eq_signed y, signed_mul]
  exact ofUnits_nearest (unitMag_pos nf) hf hz hi

theorem div_nearest (hx : x.finite = true) (hy : y.finite = true) (h0 : y.isZero = false)
    (hf : (div nf x y).finite = true) (hz : z.finite = true) (hi : inFmt nf z = true) :
    |(div nf x y).sval * y.sval - x.sval * unitMag nf| ≤ |z.sval * y.sval - x.sval * unitMag nf| := by
  have hm : y.mag ≠ 0 := mag_of_not_isZero hy h0
  rw [div_finite_eq hx hy hm] at hf ⊢
  rw [sval_eq_signed y, sval_eq_signed x, signed_mul_natCast, abs_mul_signed_sub, abs_mul_signed_sub]
  exact ofUnits_nearest (Nat.pos_of_ne_zero hm) hf hz hi

end

end Sys2Proof.Machine

namespace Sys2Proof.Proofs

open Sys2Proof Sys2Proof.Config Sys2Proof.Machine

/-- Settles O58: each operator rounds the exact result, and rounding gives the nearest value of the format. -/
theorem operatorsRoundToNearest : Obligations.OperatorsRoundToNearest := by
  intro nf x y z hieee hx hy hz hi
  have := Fact.mk hieee
  exact ⟨fun hf => add_nearest hx hy hf hz hi, fun hf => mul_nearest hx hy hf hz hi,
    fun hf h0 => div_nearest hx hy h0 hf hz hi⟩

end Sys2Proof.Proofs
end
